-- ==== Sys2Proof/Word.lean ====
section
/-! DEFINITION. The word types of the SX12: what the manual treats as bits (bytes of the link, 32-bit counters), and
the numbers of its stands, arms and folders. -/

namespace Sys2Proof

/-- A byte of the request link (R162). -/
abbrev Byte := BitVec 8

/-- A value of the Time Counter, 32 bits, wrapping (R168). -/
abbrev Stamp := BitVec 32

/-- A stand, numbered 1 to 12 in the manual (R1) and 0 to 11 here: stand `i` is the manual's stand `i + 1`. -/
abbrev StandIx := Fin 12

/-- An arm of a stand: A, B, C with indices 0, 1, 2 (R1). -/
abbrev Arm := Fin 3

/-- A folder, numbered 1 to 4 in the manual (R113) and 0 to 3 here. -/
abbrev FolderIx := Fin 4

end Sys2Proof
end

