-- ==== Sys2Proof/Config.lean ====
section
/-! DEFINITION. What the manual leaves to the part or leaves open: constants with no body, of which no proof can learn
a value. -/

namespace Sys2Proof

/-- "a fixed number identifying the part's design and its release" (R168); the manual gives no value. Free value,
log 16. -/
opaque Config.partVersion : BitVec 16

/-- What an image's parameter block holds in place of the `n`-th parameter of R56 (0 to 7) when that parameter is absent
and is not a diameter; R172 gives an absent encoding for the diameters only. Free value, log 15. -/
opaque Config.unusedParam : Nat → Nat

/-- What an image's field of `size` bytes holds when the value `v` does not fit it; R175 states no result. Free value,
log 12. -/
opaque Config.overflowField : (size : Nat) → (v : Int) → Nat

/-- Whether the phase P of a WEB input leads Q in the running direction: R136 says that the order of the phases gives the
direction and not which order is forward. Free value, log 19. -/
opaque Config.webForwardLeadsP : Bool

/-- The same for the TACH input (R136). Free value, log 19. -/
opaque Config.tachForwardLeadsP : Bool

end Sys2Proof
end

