-- ==== Sys2Proof/Syntax.lean ====
section
/-! DEFINITION. The commands of the SX12: one constructor of `Instr` for each row of spec/opcode_table.json, with the
row's operands. A request carries its client and the fields of its payload (R174) before any range check: numbers are
judged by the owner (R167), so an operand may be out of range. -/

namespace Sys2Proof

/-- The originator of a request (1.3, R162): CONSOLE, LOGISTICS or PANEL-s. -/
inductive Client where
  | console
  | logistics
  | panel (s : StandIx)
deriving DecidableEq, Repr

/-- Width class (R7, R15). -/
inductive Width where
  | full | threeQuarter | half
deriving DecidableEq, Repr

/-- Trigger mode of a splice (R54, R63). -/
inductive Trigger where
  | auto | manual
deriving DecidableEq, Repr

/-- Mode of a stand (R155). -/
inductive Mode where
  | console | localMode
deriving DecidableEq, Repr

/-- Gate force of a folder (R113). -/
inductive GateForce where
  | auto | heldOpen
deriving DecidableEq, Repr

/-- The two call flags of a stand (R158, R159). -/
inductive CallFlag where
  | reelCall | buttOut
deriving DecidableEq, Repr

/-- Direction of a web or tach count (R136). -/
inductive Direction where
  | forward | reverse
deriving DecidableEq, Repr

/-- The three actuator outputs of a stand (R140). -/
inductive Output where
  | paster | knife | brake
deriving DecidableEq, Repr

/-- Eight values, one for each splice parameter, in the order of R56. -/
structure Params (α : Type) where
  accelStart : α
  spliceDiameter : α
  lastChance : α
  matchTolerance : α
  matchOffset : α
  minSpeed : α
  pasteTarget : α
  knifeDistance : α
deriving DecidableEq, Repr

/-- What AMEND SPLICE carries for one parameter (R65): not carried, DEFAULT, or a value. -/
inductive AmendParam where
  | notCarried
  | default
  | value (v : Int)
deriving DecidableEq, Repr

/-- The ten stand-level settings, in the order of R56. Timeouts in seconds, the angle in degrees. -/
structure Settings where
  reelCall : Nat
  accelTimeout : Nat
  angle : Nat
  pasterLead : Nat
  knifeLead : Nat
  knifePulse : Nat
  pullIn : Nat
  carry : Nat
  stopTimeout : Nat
  indexTimeout : Nat
deriving DecidableEq, Repr

/-- A complete profile (R57, R60). -/
structure Profile where
  params : Params Int
  settings : Settings
deriving DecidableEq, Repr

/-- The six paper data of R15, as ANNOUNCE REEL carries them. -/
structure PaperData where
  grade : Nat
  width : Width
  caliper : Nat
  core : Nat
  full : Nat
  paste : Bool
deriving DecidableEq, Repr

/-- The paper data that AMEND REEL carries, each optional (R26). -/
structure PaperAmend where
  grade : Option Nat
  width : Option Width
  caliper : Option Nat
  core : Option Nat
  full : Option Nat
  paste : Option Bool
deriving DecidableEq, Repr

/-- The five fields of a plan entry as WRITE PLAN ENTRY carries them (R7, R8). -/
structure PlanFields where
  inPlan : Bool
  folder : Nat
  path : Nat
  grade : Nat
  width : Width
deriving DecidableEq, Repr

/-- One sample of a stand's switch inputs (R133): the levels of the nine switch inputs in the order of R137
(REEL-PRESENT-A, -B, -C, PASTER-HOME, PASTER-ENGAGED, KNIFE-HOME, WEB-PRESENT, SAFETY-GATE, DRIVER-HOT; true is active)
and the levels of the two lines of STAR, STAR-0 and STAR-1 (R135; true is 1). -/
structure Sample where
  reelPresentA : Bool
  reelPresentB : Bool
  reelPresentC : Bool
  pasterHome : Bool
  pasterEngaged : Bool
  knifeHome : Bool
  webPresent : Bool
  safetyGate : Bool
  driverHot : Bool
  star0 : Bool
  star1 : Bool
deriving DecidableEq, Repr

/-- The commands of the SX12. -/
inductive Instr where
  /-- POWER_ON (R170): the supply rises through the operating threshold. -/
  | powerOn
  /-- RESET_PIN_ASSERTED (R170). -/
  | resetPinAsserted
  /-- RESET_PIN_RELEASED (R170). -/
  | resetPinReleased
  /-- TIME_COUNTER_TICK (R168): one millisecond. -/
  | timeCounterTick
  /-- CHARACTER_RECEIVED (R163): one character on RXD, and whether its stop bit was found low. -/
  | characterReceived (b : Byte) (framingError : Bool)
  /-- INTER_CHARACTER_TIMER_EXPIRY (R163). -/
  | interCharacterTimerExpiry
  /-- TRANSMIT_ANSWER (R165): the transmitter begins the front entry's answer. -/
  | transmitAnswer
  /-- ANSWER_LAST_BYTE_SENT (R165). -/
  | answerLastByteSent
  /-- ANNOUNCE_REEL (R22): reel code digits, first to eleventh, and the paper data. -/
  | announceReel (c : Client) (code : List Nat) (paper : PaperData)
  /-- AMEND_REEL (R26). -/
  | amendReel (c : Client) (handle : Nat) (data : PaperAmend)
  /-- MOUNT_REEL (R25). -/
  | mountReel (c : Client) (handle stand : Nat) (arm : Arm)
  /-- UNMOUNT_REEL (R27). -/
  | unmountReel (c : Client) (handle : Nat)
  /-- RETIRE_REEL (R28). -/
  | retireReel (c : Client) (handle : Nat)
  /-- READ_REEL (R23). -/
  | readReel (c : Client) (handle : Nat)
  /-- FIND_REEL (R23). -/
  | findReel (c : Client) (code : List Nat)
  /-- LIST_STAND (R24). -/
  | listStand (c : Client) (stand : Nat)
  /-- THREAD_REEL (R29). -/
  | threadReel (c : Client) (stand handle : Nat)
  /-- WRITE_PLAN_ENTRY (R8, R9). -/
  | writePlanEntry (c : Client) (stand : Nat) (entry : PlanFields)
  /-- READ_SETTINGS (R12). -/
  | readSettings (c : Client) (stand : Nat)
  /-- WRITE_FOLDER (R114). -/
  | writeFolder (c : Client) (folder cutoff lead trail spacing : Nat)
  /-- WRITE_PROFILE (R60). -/
  | writeProfile (c : Client) (stand : Nat) (profile : Profile)
  /-- WRITE_ONE_SHOT (R62): a value for each parameter carried. -/
  | writeOneShot (c : Client) (stand : Nat) (values : Params (Option Int))
  /-- WRITE_ROUTING (R155): the two mask bytes as carried, and the mode. -/
  | writeRouting (c : Client) (stand : Nat) (mask : BitVec 16) (mode : Mode)
  /-- ARM_SPLICE (R63, R64): an absent value is DEFAULT. -/
  | armSplice (c : Client) (stand : Nat) (trigger : Trigger) (values : Params (Option Int))
  /-- AMEND_SPLICE (R65). -/
  | amendSplice (c : Client) (number : Nat) (values : Params AmendParam)
  /-- SET_CHAIN (R68). -/
  | setChain (c : Client) (stand : Nat) (on : Bool)
  /-- READ_SPLICE (R67). -/
  | readSplice (c : Client) (number : Nat)
  /-- START_ACCEL (R77). -/
  | startAccel (c : Client) (stand : Nat)
  /-- FIRE_SPLICE (R84). -/
  | fireSplice (c : Client) (stand : Nat)
  /-- ABORT_SPLICE (R86). -/
  | abortSplice (c : Client) (stand : Nat)
  /-- READ_STATUS (R151). -/
  | readStatus (c : Client) (stand : Nat)
  /-- ACKNOWLEDGE_STATUS (R152, R153). -/
  | acknowledgeStatus (c : Client) (stand serial revision : Nat)
  /-- READ_INPUTS (R138). -/
  | readInputs (c : Client) (stand : Nat)
  /-- CLEAR_CHANGES (R139). -/
  | clearChanges (c : Client) (stand snapshot : Nat)
  /-- TAKE_CALL (R159). -/
  | takeCall (c : Client) (stand : Nat) (flag : CallFlag)
  /-- READ_TRACK (R129). -/
  | readTrack (c : Client) (folder : Nat)
  /-- FORCE_GATE (R127). -/
  | forceGate (c : Client) (folder : Nat) (force : GateForce)
  /-- RESET_STAND (R110, R111). -/
  | resetStand (c : Client) (stand : Nat)
  /-- RESET_DEVICE (R169). -/
  | resetDevice (c : Client)
  /-- READ_DEVICE (R168). -/
  | readDevice (c : Client)
  /-- SAMPLING_TIMER_EXPIRY (R133). -/
  | samplingTimerExpiry (st : StandIx) (sample : Sample)
  /-- STAR_CODE_ACCEPTED (R2, R5). -/
  | starCodeAccepted (st : StandIx) (code : Fin 4)
  /-- REEL_PRESENT_LOSS (R32). -/
  | reelPresentLoss (st : StandIx) (arm : Arm)
  /-- WEB_PRESENT_LOSS (R106, R101). -/
  | webPresentLoss (st : StandIx)
  /-- PASTER_ENGAGED_ACTIVE (R95). -/
  | pasterEngagedActive (st : StandIx)
  /-- PASTER_HOME_ACTIVE (R102). -/
  | pasterHomeActive (st : StandIx)
  /-- KNIFE_HOME_ACTIVE (R99, R103). -/
  | knifeHomeActive (st : StandIx)
  /-- SAFETY_GATE_CHANGE (R103): whether the gate is now closed. -/
  | safetyGateChange (st : StandIx) (closed : Bool)
  /-- DRIVER_HOT_ACTIVE (R142). -/
  | driverHotActive (st : StandIx)
  /-- DRIVER_HOT_INACTIVE (R142, R76). -/
  | driverHotInactive (st : StandIx)
  /-- WEB_COUNT (R38). -/
  | webCount (st : StandIx) (d : Direction)
  /-- TACH_COUNT (R136). -/
  | tachCount (st : StandIx) (d : Direction)
  /-- PASTE_MARK_PULSE (R80). -/
  | pasteMarkPulse (st : StandIx)
  /-- REV_PULSE (R39, R102). -/
  | revPulse (st : StandIx) (arm : Arm)
  /-- FOLDER_CUT_PULSE (R128). -/
  | folderCutPulse (f : FolderIx)
  /-- WEB_SPEED_TIMER_EXPIRY (R45). -/
  | webSpeedTimerExpiry (st : StandIx)
  /-- ACCEL_TIMER_EXPIRY (R82). -/
  | accelTimerExpiry (st : StandIx)
  /-- QUIET_TIMER_EXPIRY (R87, R101). -/
  | quietTimerExpiry (st : StandIx)
  /-- STOP_TIMER_EXPIRY (R87, R101, R102). -/
  | stopTimerExpiry (st : StandIx)
  /-- CONFIRM_TIMER_EXPIRY (R98). -/
  | confirmTimerExpiry (st : StandIx)
  /-- KNIFE_PULSE_TIMER_EXPIRY (R141). -/
  | knifePulseTimerExpiry (st : StandIx)
  /-- KNIFE_HOME_TIMER_EXPIRY (R99). -/
  | knifeHomeTimerExpiry (st : StandIx)
  /-- REV_QUIET_TIMER_EXPIRY (R102, R101). -/
  | revQuietTimerExpiry (st : StandIx)
  /-- INDEX_TIMER_EXPIRY (R104). -/
  | indexTimerExpiry (st : StandIx)
  /-- PULL_IN_TIMER_EXPIRY (R140). -/
  | pullInTimerExpiry (st : StandIx) (o : Output)
  /-- AUTO_ARM_ATTEMPT (R69, R70): the sequencer takes one occasion. -/
  | autoArmAttempt (st : StandIx)
  /-- GRANT_EVALUATION (R117): the arbiter takes one occasion. -/
  | grantEvaluation (f : FolderIx)
deriving DecidableEq, Repr

end Sys2Proof
end

