-- ==== Sys2Proof/WellFormed.lean ====
section
/-! DEFINITION. The well-formed commands: those whose numbers fit the fields of R174's request payloads, so that a
request frame can carry them. Field events and timers are well-formed by their types. -/

namespace Sys2Proof

/-- A number that fits an unsigned field of `bytes` bytes (R172). -/
def fits (bytes n : Nat) : Bool := n < 256 ^ bytes

/-- A reel code as a frame carries it: eleven digit bytes (R16, R172). -/
def codeWf (code : List Nat) : Bool := code.length == 11 && code.all (fits 1)

/-- Paper data as ANNOUNCE REEL carries them (R174). -/
def PaperData.wf (p : PaperData) : Bool :=
  fits 1 p.grade && fits 1 p.caliper && fits 2 p.core && fits 2 p.full

/-- A datum that is absent, or present and fits its field. -/
def optWf (bytes : Nat) : Option Nat → Bool
  | none => true
  | some n => fits bytes n

/-- Paper data as AMEND REEL carries them (R174). -/
def PaperAmend.wf (p : PaperAmend) : Bool :=
  optWf 1 p.grade && optWf 1 p.caliper && optWf 2 p.core && optWf 2 p.full

/-- An unsigned parameter value that fits `bytes` bytes. -/
def unsignedWf (bytes : Nat) (v : Int) : Bool := 0 ≤ v && v < (256 : Int) ^ bytes

/-- Each parameter of a block passes its own test; the sizes are those of R174's parameter block, the match offset
signed. -/
def Params.wfBy {α : Type} (test : (Int → Bool) → α → Bool) (p : Params α) : Bool :=
  test (unsignedWf 2) p.accelStart && test (unsignedWf 2) p.spliceDiameter && test (unsignedWf 2) p.lastChance
    && test (unsignedWf 1) p.matchTolerance && test (fun v => -128 ≤ v && v ≤ 127) p.matchOffset
    && test (unsignedWf 2) p.minSpeed && test (unsignedWf 2) p.pasteTarget && test (unsignedWf 2) p.knifeDistance

/-- A value that is absent, or present and passes. -/
def optTest (t : Int → Bool) : Option Int → Bool
  | none => true
  | some v => t v

/-- An amendment that carries no value, or a value that passes. -/
def amendTest (t : Int → Bool) : AmendParam → Bool
  | .notCarried => true
  | .default => true
  | .value v => t v

/-- The stand-level settings as WRITE PROFILE carries them (R174: 2, 2, 2, 1, 1, 2, 1, 2, 1, 1 bytes). -/
def Settings.wf (s : Settings) : Bool :=
  fits 2 s.reelCall && fits 2 s.accelTimeout && fits 2 s.angle && fits 1 s.pasterLead && fits 1 s.knifeLead
    && fits 2 s.knifePulse && fits 1 s.pullIn && fits 2 s.carry && fits 1 s.stopTimeout && fits 1 s.indexTimeout

/-- Plan fields as WRITE PLAN ENTRY carries them (R174). -/
def PlanFields.wf (e : PlanFields) : Bool := fits 1 e.folder && fits 4 e.path && fits 1 e.grade

/-- Whether every operand of a command fits its field. -/
def Instr.wf : Instr → Bool
  | .announceReel _ code paper => codeWf code && paper.wf
  | .amendReel _ h d => fits 2 h && d.wf
  | .mountReel _ h st _ => fits 2 h && fits 1 st
  | .unmountReel _ h => fits 2 h
  | .retireReel _ h => fits 2 h
  | .readReel _ h => fits 2 h
  | .findReel _ code => codeWf code
  | .listStand _ st => fits 1 st
  | .threadReel _ st h => fits 1 st && fits 2 h
  | .writePlanEntry _ st e => fits 1 st && e.wf
  | .readSettings _ st => fits 1 st
  | .writeFolder _ f cutoff lead trail spacing =>
      fits 1 f && fits 2 cutoff && fits 1 lead && fits 1 trail && fits 2 spacing
  | .writeProfile _ st p => fits 1 st && p.params.wfBy (fun t v => t v) && p.settings.wf
  | .writeOneShot _ st v => fits 1 st && v.wfBy optTest
  | .writeRouting _ st _ _ => fits 1 st
  | .armSplice _ st _ v => fits 1 st && v.wfBy optTest
  | .amendSplice _ n v => fits 2 n && v.wfBy amendTest
  | .setChain _ st _ => fits 1 st
  | .readSplice _ n => fits 2 n
  | .startAccel _ st => fits 1 st
  | .fireSplice _ st => fits 1 st
  | .abortSplice _ st => fits 1 st
  | .readStatus _ st => fits 1 st
  | .acknowledgeStatus _ st serial rev => fits 1 st && fits 2 serial && fits 1 rev
  | .readInputs _ st => fits 1 st
  | .clearChanges _ st n => fits 1 st && fits 4 n
  | .takeCall _ st _ => fits 1 st
  | .readTrack _ f => fits 1 f
  | .forceGate _ f _ => fits 1 f
  | .resetStand _ st => fits 1 st
  | .powerOn | .resetPinAsserted | .resetPinReleased | .timeCounterTick | .characterReceived _ _
  | .interCharacterTimerExpiry | .transmitAnswer | .answerLastByteSent | .resetDevice _ | .readDevice _
  | .samplingTimerExpiry _ _ | .starCodeAccepted _ _ | .reelPresentLoss _ _ | .webPresentLoss _
  | .pasterEngagedActive _ | .pasterHomeActive _ | .knifeHomeActive _ | .safetyGateChange _ _
  | .driverHotActive _ | .driverHotInactive _ | .webCount _ _ | .tachCount _ _ | .pasteMarkPulse _ | .revPulse _ _
  | .folderCutPulse _ | .webSpeedTimerExpiry _ | .accelTimerExpiry _ | .quietTimerExpiry _ | .stopTimerExpiry _
  | .confirmTimerExpiry _ | .knifePulseTimerExpiry _ | .knifeHomeTimerExpiry _ | .revQuietTimerExpiry _
  | .indexTimerExpiry _ | .pullInTimerExpiry _ _ | .autoArmAttempt _ | .grantEvaluation _ => true

/-- The commands a request frame or the field can carry. -/
abbrev Instr.WellFormed (i : Instr) : Prop := i.wf = true

end Sys2Proof
end

