-- ==== Sys2Proof/Machine/State.lean ====
section
/-! DEFINITION. The state of the SX12 as plain data, one structure per owning block (00 2.3), and its value after a
power-on full reset. Rules are cited on the fields. Two fields are the model's own: the queue `pending` (log 1) and
`lastAnswer` (log 2). -/

namespace Sys2Proof.Machine

/-! ### Web Plan -/

/-- The star index (R2): settled at 0, 1 or 2, MOVING or UNKNOWN. -/
inductive StarIndex where
  | settled (k : Arm)
  | moving
  | unknown
deriving DecidableEq, Repr

/-- A position of the star (R3). -/
inductive Position where
  | run | splice | load
deriving DecidableEq, Repr

/-- A stand's plan entry as held (R7): the folder is one of the four. -/
structure PlanEntry where
  inPlan : Bool
  folder : FolderIx
  path : Nat
  grade : Nat
  width : Width
deriving DecidableEq, Repr

/-! ### Reel Table -/

/-- The six states of a reel record (R18). -/
inductive ReelState where
  | floor | mounted | ready | committed | running | butt
deriving DecidableEq, Repr

/-- Unready reasons (R15, R19). -/
inductive UnreadyReason where
  | notInPlan | grade | width | notPasted | tooSmall | core
deriving DecidableEq, Repr

/-- Notes of a reel record (R15). -/
inductive ReelNote where
  | amendLocked | removedUnannounced | pasteUsed | diameterReset
deriving DecidableEq, Repr

/-- A reel record (R15), less its handle, which is its key in the Reel Table. Sets are lists without repeats. -/
structure Reel where
  code : List Nat
  paper : PaperData
  diameter : Option Nat
  girth : Option Nat
  loc : Option (StandIx × Arm)
  state : ReelState
  reservedBy : Option Nat
  reasons : List UnreadyReason
  notes : List ReelNote
  announced : Stamp
  mounted : Stamp
  runningSince : Option Stamp
  residualDiameter : Option Nat
  residualLength : Option Nat
deriving DecidableEq, Repr

/-! ### Splice Table -/

/-- The states of a splice (R54), in the rule's order. -/
inductive SpliceState where
  | armed | accel | matched | waiting | firing | pasting | cutting | braking | indexing | spindown
  | completed | aborted | failed
deriving DecidableEq, Repr

/-- Origin of a splice (R54). -/
inductive Origin where
  | console | panel | chain
deriving DecidableEq, Repr

/-- Notes of a splice record (R54). -/
inductive SpliceNote where
  | clamped | oneShotUsed | knifeLate | standReset | pasteUsed
deriving DecidableEq, Repr

/-- Mark states (R55). -/
inductive MarkState where
  | none | onTrack | ejected | purged
deriving DecidableEq, Repr

/-- End causes (R176), in the order of their codes 1 to 13. -/
inductive EndCause where
  | indexed | starSettledElsewhere | indexTimeout | brakeTimeout | abortRequest | matchTimeout | reelLost | starMoved
  | webBreak | paramConflict | pasteNotConfirmed | spliceNotCarried | standReset
deriving DecidableEq, Repr

/-- The mark sub-record (R55). -/
structure Mark where
  state : MarkState
  path : Option Nat
  remaining : Option Int
  waste : Nat
deriving DecidableEq, Repr

/-- A splice record (R54, R55, R176), less its splice number, which is its key in the Splice Table. -/
structure Splice where
  stand : StandIx
  folder : Option FolderIx
  origin : Origin
  trigger : Trigger
  outgoing : Nat
  incoming : Nat
  explicit : Params (Option Int)
  params : Params (Option Int)
  state : SpliceState
  notes : List SpliceNote
  armed : Stamp
  committed : Option Stamp
  pasted : Option Stamp
  ended : Option Stamp
  mark : Mark
  residualDiameter : Option Nat
  residualLength : Option Nat
  endAck : Bool
  cause : Option EndCause
deriving DecidableEq, Repr

/-! ### Profiles and one-shot sets -/

/-- A stand's one-shot set (R62): an optional value and a clamped marker for each parameter. -/
structure OneShot where
  values : Params (Option Int)
  clamped : Params Bool
deriving DecidableEq, Repr

/-! ### Stand Sequencer -/

/-- A timer: stopped (none), or running with its length in milliseconds (5.4 of 00; log 5). -/
abbrev Timer := Option Nat

/-- The tach and web counts of the revolution under way, held while the revolution reference is present (R74, R80). -/
structure Revolution where
  tach : Int
  web : Int
deriving DecidableEq, Repr

/-- The three points of R93, in tach counts from the fire pulse. -/
structure FirePoints where
  fire : Int
  front : Int
  knife : Int
deriving DecidableEq, Repr

/-- How a splice in SPINDOWN will end (R74, R87). -/
inductive SpinOutcome where
  | aborted | failed
deriving DecidableEq, Repr

/-- The working state of a stand's active splice (R74, R91, R103). -/
structure Working where
  active : Option Nat
  startPending : Bool
  driveEn : Bool
  demand : Nat
  accelTimer : Timer
  revolution : Option Revolution
  prevGirth : Option Int
  keptGirth : Option Int
  goodCount : Nat
  matched : Bool
  outcome : Option SpinOutcome
  quietTimer : Timer
  stopTimer : Timer
  startIndex : Option Arm
  fireCount : Option Int
  points : Option FirePoints
  confirmed : Bool
  confirmTimer : Timer
  markPlaced : Bool
  knifeHomeTimer : Timer
  carryCount : Int
  carryDistance : Option Nat
  buttArm : Option Arm
  revQuietTimer : Timer
  gateReported : Bool
  brakeKept : Bool
  indexReq : Bool
  indexTimer : Timer
deriving DecidableEq, Repr

/-- A Stand Sequencer: the flags a RESET STAND keeps (R68, R107), the auto-arm occasions handed and not yet taken
(R69, log 4), and the working state. -/
structure Sequencer where
  chain : Bool
  chainBlocked : Bool
  webBroken : Bool
  chainOccasions : Nat
  work : Working
deriving DecidableEq, Repr

/-! ### Reel Gauge -/

/-- A Reel Gauge (R37, R45). -/
structure Gauge where
  ref : Bool
  revCount : Int
  runMark : Nat
  tripped : Bool
  streak : Nat
  window : Int
  webSpeed : Nat
  inRisk : Bool
  riskRaised : Bool
  speedTimer : Timer
deriving DecidableEq, Repr

/-! ### Field Scanner and Output Drivers -/

/-- The ten watched inputs of a stand, in the order of R137. -/
inductive Input where
  | reelPresent (a : Arm)
  | pasterHome | pasterEngaged | knifeHome | webPresent | safetyGate | driverHot | star
deriving DecidableEq, Repr

/-- What the scanner holds for one input (R133). A level is 0 (inactive) or 1 (active); STAR's are its codes 0 to 3. -/
structure Debounce where
  accepted : Option (Fin 4)
  candidate : Option (Fin 4)
  run : Nat
deriving DecidableEq, Repr

/-- A change-set entry (R137). -/
structure ChangeEntry where
  input : Input
  level : Fin 4
  changes : Nat
  last : Nat
deriving DecidableEq, Repr

/-- An accepted change handed to the block that takes it and not yet taken (R134; log 3). -/
structure Handed where
  input : Input
  level : Fin 4
deriving DecidableEq, Repr

/-- Drive states of an actuator output (R140). -/
inductive DriveState where
  | off | pullIn | hold
deriving DecidableEq, Repr

/-- An actuator output with its pull-in timer (R140). -/
structure Actuator where
  drive : DriveState
  pullInTimer : Timer
deriving DecidableEq, Repr

/-- A stand's field interface (R133 to R145). -/
structure Field where
  inputs : Vector Debounce 10
  samplingTimer : Timer
  snapshot : Nat
  changes : List ChangeEntry
  handed : List Handed
  paster : Actuator
  knife : Actuator
  brake : Actuator
  knifePulse : Timer
deriving DecidableEq, Repr

/-! ### Status Queue -/

/-- The conditions, in the order of R147's table. -/
inductive Condition where
  | webEnd | standEnd | spliceVoid | matchTimeout | stopTimeout | indexTimeout | safetyGateOpen | driverHot
  | paramConflict | runMarkLost | diameterGlitch | chainBlocked | pasteNotConfirmed | spliceNotCarried | knifeNotHome
  | webBreak | runOutRisk | reelLost | starMoved
deriving DecidableEq, Repr

/-- Destination of a status entry (R146). -/
inductive Destination where
  | console | panel
deriving DecidableEq, Repr

/-- A status entry (R146). -/
structure StatusEntry where
  serial : Nat
  revision : BitVec 8
  splice : Option Nat
  destination : Destination
  localAtOrigin : Bool
  conditions : List Condition
  residualDiameter : Option Nat
  residualLength : Option Nat
  created : Stamp
deriving DecidableEq, Repr

/-- A stand's Status Queue with its routing, mode and call flags (R146, R155, R158, R159). Entries oldest first. -/
structure Queue where
  entries : List StatusEntry
  nextSerial : Nat
  mask : BitVec 13
  mode : Mode
  reelCall : Bool
  buttOut : Bool
  callCondition : Bool
deriving DecidableEq, Repr

/-! ### A stand, a folder -/

/-- Everything the device holds for one stand (R1). -/
structure Stand where
  plan : PlanEntry
  star : StarIndex
  lastSettled : Option Arm
  profile : Profile
  oneShot : OneShot
  seq : Sequencer
  gauge : Gauge
  field : Field
  queue : Queue
deriving DecidableEq, Repr

/-- A splice named with its stand: a slot holder (R117, R129) or a mark on a track (R122). -/
structure SpliceRef where
  splice : Nat
  stand : StandIx
deriving DecidableEq, Repr

/-- A wait-list entry (R115, R116). -/
structure WaitEntry where
  stand : StandIx
  splice : Nat
  matched : Bool
  margin : Option Int
deriving DecidableEq, Repr

/-- A folder: its settings, arbiter and track (R113, R115, R117, R122, R128). `track` lists the marks ON_TRACK in the
order of their placement; the track order of R122 is computed from it and the remaining distances (log 14). -/
structure Folder where
  cutoff : Nat
  lead : Nat
  trail : Nat
  spacing : Nat
  force : GateForce
  slot : Option SpliceRef
  waits : List WaitEntry
  grantOccasions : Nat
  track : List SpliceRef
  wasteCount : BitVec 32
deriving DecidableEq, Repr

/-! ### Request Link -/

/-- Reset causes (R168, R170). -/
inductive ResetCause where
  | power | pin | request
deriving DecidableEq, Repr

/-- The reasons REFUSED carries (R166). -/
inductive Reason where
  | notInPlan | armOccupied | noReelPresent | wrongState | notAtRun | webBroken | noRunningReel | noReadyReel
  | driverHot | paramConflict | notMatched
deriving DecidableEq, Repr

/-- Answer codes (R166); BAD_REQUEST with or without the reason CHECK. -/
inductive AnswerCode where
  | done | doneClamped | busy
  | refused (r : Reason)
  | notFound | full | locked | tooLate | statusPending | stale | notPermitted
  | badRequest (check : Bool)
  | duplicate
deriving DecidableEq, Repr

/-- The reel image's contents (R23, R175). -/
structure ReelImage where
  handle : Nat
  reel : Reel
  position : Option Position
  remaining : Option Nat
deriving DecidableEq, Repr

/-- LIST STAND's contents (R24). -/
structure StandList where
  star : StarIndex
  lastSettled : Option Arm
  onA : Option Nat
  onB : Option Nat
  onC : Option Nat
deriving DecidableEq, Repr

/-- The settings image's contents (R12, R57, R175). -/
structure SettingsImage where
  plan : PlanEntry
  star : StarIndex
  lastSettled : Option Arm
  profile : Profile
  oneShot : OneShot
  chain : Bool
  chainBlocked : Bool
  webBroken : Bool
  mask : BitVec 13
  mode : Mode
deriving DecidableEq, Repr

/-- The splice image's contents (R67, R74, R175). -/
structure SpliceImage where
  number : Nat
  splice : Splice
  startPending : Bool
deriving DecidableEq, Repr

/-- The status image's contents (R151, R175). -/
structure StatusImage where
  entries : List StatusEntry
  reelCall : Bool
  buttOut : Bool
  mask : BitVec 13
  mode : Mode
deriving DecidableEq, Repr

/-- The inputs image's contents (R138, R175): accepted levels in the order of R137, STAR last. -/
structure InputsImage where
  levels : List (Option (Fin 4))
  star : StarIndex
  lastSettled : Option Arm
  webSpeed : Nat
  paster : DriveState
  knife : DriveState
  brake : DriveState
  driveEn : Bool
  indexReq : Bool
  demand : Nat
  snapshot : Nat
  changes : List ChangeEntry
deriving DecidableEq, Repr

/-- One mark of the track image (R129, R175). -/
structure MarkImage where
  splice : Nat
  stand : StandIx
  path : Option Nat
  remaining : Option Int
  inWindow : Bool
  waste : Nat
deriving DecidableEq, Repr

/-- The track image's contents (R129, R175). -/
structure TrackImage where
  cutoff : Nat
  lead : Nat
  trail : Nat
  spacing : Nat
  force : GateForce
  gateOpen : Bool
  wasteCount : BitVec 32
  slot : Option SpliceRef
  waits : List WaitEntry
  marks : List MarkImage
deriving DecidableEq, Repr

/-- READ DEVICE's contents (R168). -/
structure DeviceImage where
  time : Stamp
  cause : ResetCause
  reels : Nat
  splices : Nat
  overrun : Nat
  version : BitVec 16
deriving DecidableEq, Repr

/-- What an answer carries beside its code (R173, R174). A reason travels in the code. -/
inductive Payload where
  | none
  | handle (h : Nat)
  | verdict (st : ReelState) (reasons : List UnreadyReason)
  | reel (i : ReelImage)
  | standList (l : StandList)
  | settings (i : SettingsImage)
  | spliceNumber (n : Nat)
  | started (n : Nat) (st : SpliceState)
  | splice (i : SpliceImage)
  | entry (e : StatusEntry)
  | status (i : StatusImage)
  | inputs (i : InputsImage)
  | cleared (removed snapshot : Nat)
  | calls (reelCall buttOut : Bool)
  | track (i : TrackImage)
  | device (i : DeviceImage)
deriving DecidableEq, Repr

/-- An answer (R166). -/
structure Answer where
  code : AnswerCode
  payload : Payload
deriving DecidableEq, Repr

/-- States of an answer-order-list entry (R165). -/
inductive EntryState where
  | withOwner
  | held
  | answered (a : Answer)
deriving DecidableEq, Repr

/-- An entry of the answer order list (R165): the request frame's client, tag, code and payload. -/
structure LinkEntry where
  client : Client
  tag : Byte
  code : Byte
  payload : List Byte
  state : EntryState
deriving DecidableEq, Repr

/-- The link's receiver (R163): the bytes held begin with the start code. Its inter-character timer runs exactly in
RECEIVING. -/
inductive Receiver where
  | hunt
  | receiving (bytes : List Byte)
deriving DecidableEq, Repr

/-- The Request Link and the Time Counter (R163 to R170). `line` is the answer frame being sent. -/
structure Link where
  receiver : Receiver
  list : List LinkEntry
  line : Option (List Byte)
  overrun : Nat
  time : Stamp
  cause : ResetCause
  resetPending : Bool
  resetPin : Bool
  powerUnderPin : Bool
deriving DecidableEq, Repr

/-! ### The device -/

/-- The state of the SX12. The tables are lists of (key, record) in ascending order of key. -/
structure State where
  stands : Vector Stand 12
  folders : Vector Folder 4
  reels : List (Nat × Reel)
  splices : List (Nat × Splice)
  nextSplice : Nat
  link : Link
  lastAnswer : Option Answer
  pending : List Instr
deriving DecidableEq, Repr

/-- The spec names no event that stops the device, so there is no fault: a malformed frame is dropped (R163, R164), a
malformed request answered (R167), an event without a matching state has no effect. -/
inductive Fault where
deriving DecidableEq, Repr

/-- Why a command has no meaning here. -/
inductive Refusal where
  /-- Raised by `exec` for a row that has no meaning yet; safe: nothing can be proved of the command's effect. -/
  | notModelled (mnemonic : String)
deriving DecidableEq, Repr

/-! ### Reset values -/

/-- No value for any of the eight parameters. -/
def noParams : Params (Option Int) := ⟨none, none, none, none, none, none, none, none⟩

/-- No clamped marker set (R62). -/
def noMarkers : Params Bool := ⟨false, false, false, false, false, false, false, false⟩

/-- A plan entry after a full reset (R7). -/
def PlanEntry.reset : PlanEntry := { inPlan := false, folder := 0, path := 2000, grade := 0, width := .full }

/-- A profile after a full reset (R56, R57). -/
def defaultProfile : Profile where
  params := { accelStart := 320, spliceDiameter := 190, lastChance := 130, matchTolerance := 5, matchOffset := 0,
              minSpeed := 1500, pasteTarget := 150, knifeDistance := 400 }
  settings := { reelCall := 600, accelTimeout := 90, angle := 180, pasterLead := 60, knifeLead := 25, knifePulse := 80,
                pullIn := 40, carry := 3000, stopTimeout := 40, indexTimeout := 30 }

/-- The empty one-shot set (R62). -/
def OneShot.empty : OneShot := { values := noParams, clamped := noMarkers }

/-- The sequencer's working state with no active splice (R90, R91). -/
def Working.reset : Working where
  active := none
  startPending := false
  driveEn := false
  demand := 0
  accelTimer := none
  revolution := none
  prevGirth := none
  keptGirth := none
  goodCount := 0
  matched := false
  outcome := none
  quietTimer := none
  stopTimer := none
  startIndex := none
  fireCount := none
  points := none
  confirmed := false
  confirmTimer := none
  markPlaced := false
  knifeHomeTimer := none
  carryCount := 0
  carryDistance := none
  buttArm := none
  revQuietTimer := none
  gateReported := false
  brakeKept := false
  indexReq := false
  indexTimer := none

/-- A sequencer after a full reset (R68, R90, R91, R107). -/
def Sequencer.reset : Sequencer :=
  { chain := false, chainBlocked := false, webBroken := false, chainOccasions := 0, work := Working.reset }

/-- A gauge after a full reset or RESET STAND (R52); its web speed timer of 50 ms runs (R45). -/
def Gauge.reset : Gauge where
  ref := false
  revCount := 0
  runMark := 0
  tripped := false
  streak := 0
  window := 0
  webSpeed := 0
  inRisk := false
  riskRaised := false
  speedTimer := some 50

/-- An input after a full reset or RESET STAND (R145): not yet accepted. -/
def Debounce.reset : Debounce := { accepted := none, candidate := none, run := 0 }

/-- An output that is OFF, its timer stopped (R145). -/
def Actuator.reset : Actuator := { drive := .off, pullInTimer := none }

/-- A field interface after a full reset or RESET STAND (R145); its sampling timer of 2 ms runs. -/
def Field.reset : Field where
  inputs := Vector.replicate 10 Debounce.reset
  samplingTimer := some 2
  snapshot := 0
  changes := []
  handed := []
  paster := Actuator.reset
  knife := Actuator.reset
  brake := Actuator.reset
  knifePulse := none

/-- A status queue after a full reset (R161). -/
def Queue.reset : Queue where
  entries := []
  nextSerial := 1
  mask := 0
  mode := .console
  reelCall := false
  buttOut := false
  callCondition := false

/-- A stand after a full reset (R6, R7, R52, R73, R90, R91, R145, R161). -/
def Stand.reset : Stand where
  plan := PlanEntry.reset
  star := .unknown
  lastSettled := none
  profile := defaultProfile
  oneShot := OneShot.empty
  seq := Sequencer.reset
  gauge := Gauge.reset
  field := Field.reset
  queue := Queue.reset

/-- A folder after a full reset (R113, R131). -/
def Folder.reset : Folder where
  cutoff := 560
  lead := 1
  trail := 2
  spacing := 0
  force := .auto
  slot := none
  waits := []
  grantOccasions := 0
  track := []
  wasteCount := 0

/-- The link after a full reset with the given cause (R170), the RESET pin released. -/
def Link.reset (cause : ResetCause) : Link where
  receiver := .hunt
  list := []
  line := none
  overrun := 0
  time := 0
  cause := cause
  resetPending := false
  resetPin := false
  powerUnderPin := false

/-- The device after a full reset with the given cause (R170), with an empty queue. -/
def State.afterReset (cause : ResetCause) : State where
  stands := Vector.replicate 12 Stand.reset
  folders := Vector.replicate 4 Folder.reset
  reels := []
  splices := []
  nextSplice := 1
  link := Link.reset cause
  lastAnswer := none
  pending := []

/-- The machine right after reset: a power-on full reset (R170). -/
def State.reset : State := State.afterReset .power

end Sys2Proof.Machine
end

