-- ==== Sys2Proof/Machine/Operands.lean ====
section
/-! DEFINITION. The operands of requests: parameter blocks, ranges and clamping (R56, R58), resolution and consistency
(R59, R61, R66), paper data and reel codes (R15, R16), plan fields (R7), clients (R14, R156), and the rounding of derived
quantities (00 5.2). -/

namespace Sys2Proof

/-! ### Parameter blocks -/

/-- Apply a function to each parameter. -/
def Params.map {α β : Type} (f : α → β) (p : Params α) : Params β :=
  ⟨f p.accelStart, f p.spliceDiameter, f p.lastChance, f p.matchTolerance, f p.matchOffset, f p.minSpeed,
   f p.pasteTarget, f p.knifeDistance⟩

/-- Combine two blocks, parameter by parameter. -/
def Params.map2 {α β γ : Type} (f : α → β → γ) (p : Params α) (q : Params β) : Params γ :=
  ⟨f p.accelStart q.accelStart, f p.spliceDiameter q.spliceDiameter, f p.lastChance q.lastChance,
   f p.matchTolerance q.matchTolerance, f p.matchOffset q.matchOffset, f p.minSpeed q.minSpeed,
   f p.pasteTarget q.pasteTarget, f p.knifeDistance q.knifeDistance⟩

/-- The eight values in the order of R56. -/
def Params.toList {α : Type} (p : Params α) : List α :=
  [p.accelStart, p.spliceDiameter, p.lastChance, p.matchTolerance, p.matchOffset, p.minSpeed, p.pasteTarget,
   p.knifeDistance]

namespace Machine

/-! ### Rounding -/

/-- A quotient rounded to the nearest integer, a half upward (00 5.2), for a divisor above 0. -/
def roundDiv (a b : Int) : Int := (2 * a + b) / (2 * b)

/-- A circumference divided by π, taken as 3.1416 (00 5.2): the diameter of R40 and R81. -/
def diameterOf (c : Int) : Int := roundDiv (c * 10000) 31416

/-- The remaining length of R44: round(250 × 3.1416 × (D² − core²) / caliper), and 0 for D at or below the core. -/
def remainingLength (d core caliper : Nat) : Nat :=
  if d ≤ core then 0
  else (roundDiv (250 * 31416 * ((d : Int) * d - (core : Int) * core)) (10000 * (caliper : Int))).toNat

/-! ### Ranges and clamping (R56, R58) -/

/-- The ranges of the eight splice parameters (R56). -/
def paramRanges : Params (Int × Int) where
  accelStart := (150, 700)
  spliceDiameter := (110, 500)
  lastChance := (90, 400)
  matchTolerance := (1, 20)
  matchOffset := (-10, 10)
  minSpeed := (500, 5000)
  pasteTarget := (20, 600)
  knifeDistance := (100, 2000)

/-- A value below its range takes the lower bound, one above it the upper (R58). -/
def clampInt (range : Int × Int) (v : Int) : Int :=
  if v < range.1 then range.1 else if range.2 < v then range.2 else v

/-- The same for an unsigned setting. -/
def clampNat (lo hi v : Nat) : Nat := if v < lo then lo else if hi < v then hi else v

/-- A complete set of parameters, each clamped. -/
def clampParams (p : Params Int) : Params Int := Params.map2 clampInt paramRanges p

/-- A partial set, each value carried clamped. -/
def clampOptional (p : Params (Option Int)) : Params (Option Int) :=
  Params.map2 (fun range v => v.map (clampInt range)) paramRanges p

/-- The clamped markers of a partial set (R58, R62). -/
def clampMarkers (p : Params (Option Int)) : Params Bool :=
  Params.map2 (fun a b => !decide (a = b)) p (clampOptional p)

/-- Whether any marker is set. -/
def anyMarker (p : Params Bool) : Bool := p.toList.any id

/-- The ten settings clamped to the ranges of R56. -/
def clampSettings (s : Settings) : Settings where
  reelCall := clampNat 300 1200 s.reelCall
  accelTimeout := clampNat 20 300 s.accelTimeout
  angle := clampNat 0 359 s.angle
  pasterLead := clampNat 10 250 s.pasterLead
  knifeLead := clampNat 5 150 s.knifeLead
  knifePulse := clampNat 20 300 s.knifePulse
  pullIn := clampNat 10 200 s.pullIn
  carry := clampNat 1000 10000 s.carry
  stopTimeout := clampNat 10 120 s.stopTimeout
  indexTimeout := clampNat 10 120 s.indexTimeout

/-- A profile with every value clamped (R60). -/
def clampProfile (p : Profile) : Profile :=
  { params := clampParams p.params, settings := clampSettings p.settings }

/-- What AMEND SPLICE's operand makes of the explicit values (R65): a value clamped, DEFAULT removing, the rest kept. -/
def amendExplicit (old : Params (Option Int)) (a : Params AmendParam) : Params (Option Int) :=
  Params.map2 (fun (o : Option Int) (c : (Int × Int) × AmendParam) =>
      match c.2 with
      | .notCarried => o
      | .default => none
      | .value v => some (clampInt c.1 v))
    old (Params.map2 Prod.mk paramRanges a)

/-- Whether a value carried by AMEND SPLICE was clamped. -/
def amendClamped (a : Params AmendParam) : Bool :=
  anyMarker (Params.map2 (fun range c =>
    match c with
    | .value v => !decide (clampInt range v = v)
    | .notCarried => false
    | .default => false) paramRanges a)

/-! ### Resolution and consistency (R59, R61, R66) -/

/-- Explicit value, else one-shot value, else the profile's (R61, R66). -/
def resolveOne (explicit oneShot : Option Int) (profile : Int) : Int :=
  match explicit with
  | some v => v
  | none => oneShot.getD profile

/-- The tentative values of R61, which are also the resolved values of R66. -/
def resolve (explicit oneShot : Params (Option Int)) (profile : Params Int) : Params Int :=
  Params.map2 (fun (f : Int → Int) v => f v) (Params.map2 resolveOne explicit oneShot) profile

/-- Which parameters take their one-shot value (R66). -/
def takesOneShot (explicit oneShot : Params (Option Int)) : Params Bool :=
  Params.map2 (fun e o => e.isNone && o.isSome) explicit oneShot

/-- The four relations of R59; one that reads an absent value is false. -/
def consistent (outgoingCore incoming : Option Nat) (p : Params Int) : Bool :=
  (match outgoingCore with | some c => decide ((c : Int) + 20 ≤ p.lastChance) | none => false)
  && decide (p.lastChance + 20 ≤ p.spliceDiameter)
  && decide (p.spliceDiameter + 40 ≤ p.accelStart)
  && (match incoming with | some d => decide (p.accelStart + 100 ≤ (d : Int)) | none => false)

/-- The second and third relations of R59, which WRITE PROFILE checks. -/
def profileConsistent (p : Params Int) : Bool :=
  decide (p.lastChance + 20 ≤ p.spliceDiameter) && decide (p.spliceDiameter + 40 ≤ p.accelStart)

/-! ### Numbers that name things -/

/-- A stand number 1 to 12 (R1). -/
def standIx (n : Nat) : Option StandIx :=
  if h : 1 ≤ n ∧ n ≤ 12 then some ⟨n - 1, by omega⟩ else none

/-- A folder number 1 to 4 (R113). -/
def folderIx (n : Nat) : Option FolderIx :=
  if h : 1 ≤ n ∧ n ≤ 4 then some ⟨n - 1, by omega⟩ else none

/-- A handle 1 to 48 (R13). -/
def handleOk (h : Nat) : Bool := decide (1 ≤ h ∧ h ≤ 48)

/-- A splice number or serial, 1 to 65,535 (R53, R146). -/
def numberOk (n : Nat) : Bool := decide (1 ≤ n ∧ n ≤ 65535)

/-! ### Paper data, reel codes, plan fields -/

def gradeOk (n : Nat) : Bool := decide (1 ≤ n ∧ n ≤ 63)
def caliperOk (n : Nat) : Bool := decide (40 ≤ n ∧ n ≤ 150)
def coreOk (n : Nat) : Bool := decide (70 ≤ n ∧ n ≤ 160)
def fullOk (n : Nat) : Bool := decide (600 ≤ n ∧ n ≤ 1300)

/-- Every paper datum within its range (R15). -/
def paperOk (p : PaperData) : Bool := gradeOk p.grade && caliperOk p.caliper && coreOk p.core && fullOk p.full

/-- An absent datum, or one that passes. -/
def optOk (test : Nat → Bool) : Option Nat → Bool
  | none => true
  | some n => test n

/-- Every datum carried within its range (R26). -/
def paperAmendOk (p : PaperAmend) : Bool :=
  optOk gradeOk p.grade && optOk caliperOk p.caliper && optOk coreOk p.core && optOk fullOk p.full

/-- Every datum carried replaces the one held (R26). -/
def amendPaper (p : PaperData) (a : PaperAmend) : PaperData where
  grade := a.grade.getD p.grade
  width := a.width.getD p.width
  caliper := a.caliper.getD p.caliper
  core := a.core.getD p.core
  full := a.full.getD p.full
  paste := a.paste.getD p.paste

/-- The weighted sum of digits 1 to 10, weights 3 and 1 alternating (R16). -/
def codeSum (code : List Nat) : Nat := (List.zipWith (· * ·) [3, 1, 3, 1, 3, 1, 3, 1, 3, 1] code).sum

/-- The expected check digit (R16). -/
def checkDigit (code : List Nat) : Nat := (10 - codeSum code % 10) % 10

/-- The answer to a reel code that does not pass R16, or none. -/
def codeFault (code : List Nat) : Option AnswerCode :=
  if code.length ≠ 11 ∨ code.any (fun d => 9 < d) then some (.badRequest false)
  else if code[10]? ≠ some (checkDigit code) then some (.badRequest true)
  else none

/-- The entry that plan fields within their ranges give (R7), or none. -/
def planEntryOf (e : PlanFields) : Option PlanEntry :=
  match folderIx e.folder with
  | some f =>
    if 2000 ≤ e.path ∧ e.path ≤ 200000 ∧ e.grade ≤ 63 then
      some { inPlan := e.inPlan, folder := f, path := e.path, grade := e.grade, width := e.width }
    else none
  | none => none

/-! ### Clients -/

/-- CONSOLE or LOGISTICS (R14). -/
def reelClient (c : Client) : Bool := decide (c = .console) || decide (c = .logistics)

/-- CONSOLE or PANEL-s for stand s (R86, R139, R152). -/
def consoleOrPanel (st : StandIx) (c : Client) : Bool := decide (c = .console) || decide (c = .panel st)

/-- The client a stand's mode allows to make its stand requests (R156). -/
def byMode (m : Mode) (st : StandIx) (c : Client) : Bool :=
  match m with
  | .console => decide (c = .console)
  | .localMode => decide (c = .panel st)

/-! ### Sets as lists without repeats -/

/-- Add a member to a set: one that is already held is not added a second time (R15, R54, R146). -/
def addTo {α : Type} [DecidableEq α] (x : α) (l : List α) : List α := if x ∈ l then l else l ++ [x]

end Machine
end Sys2Proof
end

