-- ==== Sys2Proof/Machine/Access.lean ====
section
/-! DEFINITION. Reading and replacing the parts of the state: the two tables, a stand, a folder, the link; the reels of a
stand and its positions (R3); the stand's active splice. -/

namespace Sys2Proof.Machine

/-! ### Tables: (key, record) lists in ascending order of key -/

/-- The record with a key. -/
def Table.find {α : Type} (k : Nat) : List (Nat × α) → Option α
  | [] => none
  | (j, a) :: t => if j = k then some a else Table.find k t

/-- Replace the record with a key. -/
def Table.update {α : Type} (k : Nat) (f : α → α) : List (Nat × α) → List (Nat × α)
  | [] => []
  | (j, a) :: t => (j, if j = k then f a else a) :: Table.update k f t

/-- Insert a record under a new key. -/
def Table.insert {α : Type} (k : Nat) (a : α) : List (Nat × α) → List (Nat × α)
  | [] => [(k, a)]
  | (j, b) :: t => if k < j then (k, a) :: (j, b) :: t else (j, b) :: Table.insert k a t

/-- Remove the record with a key. -/
def Table.erase {α : Type} (k : Nat) (t : List (Nat × α)) : List (Nat × α) := t.filter (fun p => !decide (p.1 = k))

/-- Replace every record by a function of its key and itself. -/
def Table.mapAll {α : Type} (f : Nat → α → α) (t : List (Nat × α)) : List (Nat × α) := t.map (fun p => (p.1, f p.1 p.2))

/-! ### Parts of the state -/

def State.stand (s : State) (i : StandIx) : Stand := s.stands.get i

def State.modStand (s : State) (i : StandIx) (f : Stand → Stand) : State :=
  { s with stands := s.stands.set i.val (f (s.stand i)) i.isLt }

def State.modSeq (s : State) (i : StandIx) (f : Sequencer → Sequencer) : State :=
  s.modStand i (fun x => { x with seq := f x.seq })

def State.modWork (s : State) (i : StandIx) (f : Working → Working) : State :=
  s.modSeq i (fun q => { q with work := f q.work })

def State.modGauge (s : State) (i : StandIx) (f : Gauge → Gauge) : State :=
  s.modStand i (fun x => { x with gauge := f x.gauge })

def State.modField (s : State) (i : StandIx) (f : Field → Field) : State :=
  s.modStand i (fun x => { x with field := f x.field })

def State.modQueue (s : State) (i : StandIx) (f : Queue → Queue) : State :=
  s.modStand i (fun x => { x with queue := f x.queue })

def State.work (s : State) (i : StandIx) : Working := (s.stand i).seq.work

def State.folder (s : State) (f : FolderIx) : Folder := s.folders.get f

def State.modFolder (s : State) (f : FolderIx) (g : Folder → Folder) : State :=
  { s with folders := s.folders.set f.val (g (s.folder f)) f.isLt }

def State.modLink (s : State) (f : Link → Link) : State := { s with link := f s.link }

def State.reel? (s : State) (h : Nat) : Option Reel := Table.find h s.reels

def State.modReel (s : State) (h : Nat) (f : Reel → Reel) : State := { s with reels := Table.update h f s.reels }

def State.splice? (s : State) (n : Nat) : Option Splice := Table.find n s.splices

def State.modSplice (s : State) (n : Nat) (f : Splice → Splice) : State :=
  { s with splices := Table.update n f s.splices }

/-- The Time Counter, as every block stamps it (R168). -/
def State.now (s : State) : Stamp := s.link.time

/-! ### Reels of a stand -/

/-- Whether a reel record is located on a stand. -/
def onStand (st : StandIx) (r : Reel) : Bool :=
  match r.loc with
  | some (t, _) => decide (t = st)
  | none => false

/-- The stand's RUNNING reel, found by its record's location (R37), with its handle. -/
def State.runningReel (s : State) (st : StandIx) : Option (Nat × Reel) :=
  s.reels.find? (fun p => decide (p.2.state = .running) && onStand st p.2)

/-- The reel record located on an arm (R17), with its handle. -/
def State.reelOn (s : State) (st : StandIx) (a : Arm) : Option (Nat × Reel) :=
  s.reels.find? (fun p => decide (p.2.loc = some (st, a)))

/-- The arm at a position (R3): none while the star is MOVING or UNKNOWN. -/
def armAt : StarIndex → Position → Option Arm
  | .settled k, .run => some k
  | .settled k, .splice => some (k + 1)
  | .settled k, .load => some (k + 2)
  | .moving, _ => none
  | .unknown, _ => none

/-- The position of an arm (R3, R23). -/
def positionOf (star : StarIndex) (a : Arm) : Option Position :=
  if armAt star .run = some a then some .run
  else if armAt star .splice = some a then some .splice
  else if armAt star .load = some a then some .load
  else none

/-- The reel at a position of a stand (R3). -/
def State.reelAt (s : State) (st : StandIx) (p : Position) : Option (Nat × Reel) :=
  match armAt (s.stand st).star p with
  | some a => s.reelOn st a
  | none => none

/-- The READY unreserved reel at SPLICE (R5, R63, R69), if there is one. -/
def State.readyAtSplice (s : State) (st : StandIx) : Option (Nat × Reel) :=
  match s.reelAt st .splice with
  | some (h, r) => if r.state = .ready ∧ r.reservedBy = none then some (h, r) else none
  | none => none

/-- The running reel's current diameter. -/
def State.runningDiameter (s : State) (st : StandIx) : Option Nat :=
  match s.runningReel st with
  | some (_, r) => r.diameter
  | none => none

/-! ### The active splice of a stand -/

/-- The stand's active splice with its number (R74). -/
def State.activeSplice (s : State) (st : StandIx) : Option (Nat × Splice) :=
  match (s.work st).active with
  | some n => (s.splice? n).map (fun sp => (n, sp))
  | none => none

/-- The state of the stand's active splice. -/
def State.spliceState (s : State) (st : StandIx) : Option SpliceState :=
  (s.activeSplice st).map (fun p => p.2.state)

/-- Whether a splice state is ended (R54): the rest are the active states of R8. -/
def isEnded : SpliceState → Bool
  | .completed | .aborted | .failed => true
  | .armed | .accel | .matched | .waiting | .firing | .pasting | .cutting | .braking | .indexing | .spindown => false

/-- Whether a splice state holds the folder's slot (R117). -/
def holdsSlot : SpliceState → Bool
  | .firing | .pasting | .cutting => true
  | .armed | .accel | .matched | .waiting | .braking | .indexing | .spindown | .completed | .aborted | .failed => false

/-! ### Inputs -/

/-- The place of an input in the order of R137. -/
def inputIx : Input → Fin 10
  | .reelPresent a => ⟨a.val, by omega⟩
  | .pasterHome => 3
  | .pasterEngaged => 4
  | .knifeHome => 5
  | .webPresent => 6
  | .safetyGate => 7
  | .driverHot => 8
  | .star => 9

/-- The ten inputs in the order of R137. -/
def allInputs : List Input :=
  [.reelPresent 0, .reelPresent 1, .reelPresent 2, .pasterHome, .pasterEngaged, .knifeHome, .webPresent, .safetyGate,
   .driverHot, .star]

def Field.input (x : Field) (i : Input) : Debounce := x.inputs.get (inputIx i)

def Field.setInput (x : Field) (i : Input) (d : Debounce) : Field :=
  { x with inputs := x.inputs.set (inputIx i).val d (inputIx i).isLt }

/-- The accepted level of an input, absent while it is not yet accepted (R133). -/
def State.accepted (s : State) (st : StandIx) (i : Input) : Option (Fin 4) := ((s.stand st).field.input i).accepted

/-- Whether an input is accepted active (R133); SAFETY-GATE's active level is closed (R132). -/
def State.isActive (s : State) (st : StandIx) (i : Input) : Bool := decide (s.accepted st i = some 1)

/-- Whether an input is accepted inactive. -/
def State.isInactive (s : State) (st : StandIx) (i : Input) : Bool := decide (s.accepted st i = some 0)

end Sys2Proof.Machine
end

