-- ==== Sys2Proof/Machine/Flags.lean ====
section
/-! DEFINITION. Everything of the device that is computed from its state: the condition table (R147), unready reasons
(R19), the reel-call condition (R158), the run-out-risk test (R48), the wait-list order (R115, R116), the window, gate
and track order (R122, R127), and the output lines STOP-REQ, ATTN-CON, ATTN-LOG and the PANEL lamps (R50, R157, R159). -/

namespace Sys2Proof.Machine

/-! ### Conditions (R147) -/

/-- The bit number of a condition: its place in the table of R147 (R172). -/
def conditionBit : Condition → Nat
  | .webEnd => 0
  | .standEnd => 1
  | .spliceVoid => 2
  | .matchTimeout => 3
  | .stopTimeout => 4
  | .indexTimeout => 5
  | .safetyGateOpen => 6
  | .driverHot => 7
  | .paramConflict => 8
  | .runMarkLost => 9
  | .diameterGlitch => 10
  | .chainBlocked => 11
  | .pasteNotConfirmed => 12
  | .spliceNotCarried => 13
  | .knifeNotHome => 14
  | .webBreak => 15
  | .runOutRisk => 16
  | .reelLost => 17
  | .starMoved => 18

/-- Whether a condition is delegable (R147): the twelve that come first in the table. -/
def delegable (c : Condition) : Bool := decide (conditionBit c < 12)

/-- Whether a condition is an exception (R147): all but WEB_END and STAND_END. -/
def isException : Condition → Bool
  | .webEnd | .standEnd => false
  | .spliceVoid | .matchTimeout | .stopTimeout | .indexTimeout | .safetyGateOpen | .driverHot | .paramConflict
  | .runMarkLost | .diameterGlitch | .chainBlocked | .pasteNotConfirmed | .spliceNotCarried | .knifeNotHome
  | .webBreak | .runOutRisk | .reelLost | .starMoved => true

/-- An exception entry holds at least one exception condition (R146). -/
def StatusEntry.isExceptionEntry (e : StatusEntry) : Bool := e.conditions.any isException

/-- The oldest exception entry of a queue (R63). -/
def Queue.oldestException (q : Queue) : Option StatusEntry := q.entries.find? StatusEntry.isExceptionEntry

/-- The bit number of INPUTS in the routing mask (R172). -/
def inputsBit : Nat := 12

/-- The routing of a condition at the moment it is raised (R150). -/
def Queue.routing (q : Queue) (c : Condition) : Destination :=
  if q.mode = .localMode ∧ delegable c = true ∧ q.mask.getLsbD (conditionBit c) = true then .panel else .console

/-! ### Verification (R19) -/

/-- Whether a reel fails the test of an unready reason against a plan entry and a profile (R19). -/
def failsTest (plan : PlanEntry) (p : Profile) (r : Reel) : UnreadyReason → Bool
  | .notInPlan => !plan.inPlan
  | .grade => !decide (plan.grade = 0) && !decide (plan.grade = r.paper.grade)
  | .width => !decide (r.paper.width = plan.width)
  | .notPasted => !r.paper.paste
  | .tooSmall => decide (((r.diameter.getD r.paper.full : Nat) : Int) < p.params.accelStart + 100)
  | .core => decide (p.params.lastChance < (r.paper.core : Int) + 20)

/-- The unready reasons found for a reel, in the rule's order (R19). -/
def reasonsFor (plan : PlanEntry) (p : Profile) (r : Reel) : List UnreadyReason :=
  [UnreadyReason.notInPlan, .grade, .width, .notPasted, .tooSmall, .core].filter (failsTest plan p r)

/-! ### Reel call and run-out risk -/

/-- The third term of R158: a reel at SPLICE that is READY or reserved. -/
def State.nextReelWaits (s : State) (st : StandIx) : Bool :=
  match s.reelAt st .splice with
  | some (_, r) => decide (r.state = .ready) || r.reservedBy.isSome
  | none => false

/-- The reel-call condition (R158). -/
def State.callCondition (s : State) (st : StandIx) : Bool :=
  (s.stand st).plan.inPlan
  && (match s.runningDiameter st with
      | some d => decide (d ≤ (s.stand st).profile.settings.reelCall)
      | none => false)
  && !s.nextReelWaits st

/-- The last-chance diameter L of R48: the active splice's resolved value once it has left ARMED, else the profile's. -/
def State.lastChance (s : State) (st : StandIx) : Int :=
  let profile := (s.stand st).profile.params.lastChance
  match s.activeSplice st with
  | some (_, sp) => if sp.state = .armed then profile else sp.params.lastChance.getD profile
  | none => profile

/-- The states in which the joint is made and there is no risk (R48). -/
def jointMade : SpliceState → Bool
  | .pasting | .cutting | .braking | .indexing => true
  | .armed | .accel | .matched | .waiting | .firing | .spindown | .completed | .aborted | .failed => false

/-- The run-out-risk test of R48. -/
def State.riskTest (s : State) (st : StandIx) : Bool :=
  (match s.runningDiameter st with
   | some d => decide ((d : Int) ≤ s.lastChance st)
   | none => false)
  && !(match s.spliceState st with
       | some x => jointMade x
       | none => false)

/-! ### Wait list (R115, R116) -/

/-- Whether one wait-list entry stands before another: by margin ascending, absent margins last, then by stand. -/
def WaitEntry.before (a b : WaitEntry) : Bool :=
  match a.margin, b.margin with
  | some x, some y => decide (x < y) || (decide (x = y) && decide (a.stand < b.stand))
  | some _, none => true
  | none, some _ => false
  | none, none => decide (a.stand < b.stand)

/-- Put an entry in its place. -/
def insertWait (e : WaitEntry) : List WaitEntry → List WaitEntry
  | [] => [e]
  | x :: t => if e.before x then e :: x :: t else x :: insertWait e t

/-- Whether a waiter is at last chance (R116): its margin is 0 or less. -/
def WaitEntry.atLastChance (e : WaitEntry) : Bool :=
  match e.margin with
  | some m => decide (m ≤ 0)
  | none => false

/-! ### Track, window and gate (R113, R122, R127) -/

/-- lead copies × cutoff (R113). -/
def Folder.leadMm (F : Folder) : Int := (F.lead : Int) * F.cutoff

/-- trail copies × cutoff (R113). -/
def Folder.trailMm (F : Folder) : Int := (F.trail : Int) * F.cutoff

/-- Whether a remaining distance lies in the window (R127). -/
def Folder.inWindow (F : Folder) (remaining : Int) : Bool :=
  decide (-F.trailMm ≤ remaining) && decide (remaining ≤ F.leadMm)

/-- The mark sub-record of a splice on the track; a listed splice always has a record (log 14). -/
def State.markOf (s : State) (r : SpliceRef) : Option Mark := (s.splice? r.splice).map (·.mark)

/-- The remaining distance of a mark on the track. -/
def State.remainingOf (s : State) (r : SpliceRef) : Option Int := (s.markOf r).bind (·.remaining)

/-- Whether a mark on the track of folder f is in the window. -/
def State.refInWindow (s : State) (f : FolderIx) (r : SpliceRef) : Bool :=
  match s.remainingOf r with
  | some d => (s.folder f).inWindow d
  | none => false

/-- Whether GATE is open (R127): forced open, or any mark on the track in the window. While the RESET pin holds the
device every output is in its reset state, and the gate closed (R170). -/
def State.gateOpen (s : State) (f : FolderIx) : Bool :=
  !s.link.resetPin && (decide ((s.folder f).force = .heldOpen) || (s.folder f).track.any (s.refInWindow f))

/-- Insert a mark after every mark with the same or a smaller remaining distance. -/
def insertByDistance (s : State) (r : SpliceRef) : List SpliceRef → List SpliceRef
  | [] => [r]
  | x :: t =>
    if (s.remainingOf r).getD 0 < (s.remainingOf x).getD 0 then r :: x :: t else x :: insertByDistance s r t

/-- The marks of a folder in track order (R122): ascending remaining distance, equal distances in the order of their
placement. -/
def State.trackOrder (s : State) (f : FolderIx) : List SpliceRef :=
  (s.folder f).track.foldl (fun l r => insertByDistance s r l) []

/-- The travel of a mark (R117, R122): path length at placement minus remaining distance. -/
def markTravel (m : Mark) : Option Int :=
  match m.path, m.remaining with
  | some p, some r => some ((p : Int) - r)
  | _, _ => none

/-- Spacing is met (R117): every mark on the track has travelled at least the folder's spacing. -/
def State.spacingMet (s : State) (f : FolderIx) : Bool :=
  (s.folder f).track.all (fun r =>
    match (s.markOf r).bind markTravel with
    | some t => decide (((s.folder f).spacing : Int) ≤ t)
    | none => false)

/-! ### Output lines -/

def allStands : List StandIx := [0, 1, 2, 3, 4, 5, 6, 7, 8, 9, 10, 11]

def allFolders : List FolderIx := [0, 1, 2, 3]

/-- Whether the INPUTS bit of a stand's mask is set and its mode LOCAL: then its change set goes to the lamp (R157). -/
def Queue.inputsToPanel (q : Queue) : Bool := q.mask.getLsbD inputsBit && decide (q.mode = .localMode)

/-- STOP-REQ (R50), deasserted while the device is held in reset (R170). -/
def State.stopReq (s : State) : Bool := !s.link.resetPin && allStands.any (fun i => (s.stand i).gauge.inRisk)

/-- ATTN-CON (R157). -/
def State.attnCon (s : State) : Bool :=
  !s.link.resetPin && allStands.any (fun i =>
    (s.stand i).queue.entries.any (fun e => decide (e.destination = .console))
    || (!(s.stand i).field.changes.isEmpty && !(s.stand i).queue.inputsToPanel))

/-- The PANEL lamp of a stand (R157). -/
def State.panelLamp (s : State) (i : StandIx) : Bool :=
  !s.link.resetPin
  && ((s.stand i).queue.entries.any (fun e => decide (e.destination = .panel))
      || (!(s.stand i).field.changes.isEmpty && (s.stand i).queue.inputsToPanel))

/-- ATTN-LOG (R159). -/
def State.attnLog (s : State) : Bool :=
  !s.link.resetPin && allStands.any (fun i => (s.stand i).queue.reelCall || (s.stand i).queue.buttOut)

end Sys2Proof.Machine
end

