-- ==== Sys2Proof/Machine/Frames.lean ====
section
/-! DEFINITION. The request frame (R162, R172 to R174): client bytes, request codes, the CRC, the payload of each
request read into a command and written from it, and the owner of each request (R167). -/

namespace Sys2Proof.Machine

/-! ### Numbers and enumerations (R172) -/

/-- A two-byte number, most significant byte first (R172). -/
def num2 (a b : Byte) : Nat := a.toNat * 256 + b.toNat

/-- A four-byte number, most significant byte first (R172). -/
def num4 (a b c d : Byte) : Nat := ((a.toNat * 256 + b.toNat) * 256 + c.toNat) * 256 + d.toNat

def byteOf (n : Nat) : Byte := BitVec.ofNat 8 n

def bytes2 (n : Nat) : List Byte := [byteOf (n / 256), byteOf n]

def bytes4 (n : Nat) : List Byte := [byteOf (n / 16777216), byteOf (n / 65536), byteOf (n / 256), byteOf n]

def byteOfInt (v : Int) : Byte := BitVec.ofInt 8 v

def widthOf (b : Byte) : Option Width :=
  if b = 0 then some .full else if b = 1 then some .threeQuarter else if b = 2 then some .half else none

def widthByte : Width → Byte
  | .full => 0
  | .threeQuarter => 1
  | .half => 2

/-- yes/no, on/off (R172): 0 and 1. -/
def flagOf (b : Byte) : Option Bool := if b = 0 then some false else if b = 1 then some true else none

def flagByte (x : Bool) : Byte := if x then 1 else 0

def armOf (b : Byte) : Option Arm := if b = 0 then some 0 else if b = 1 then some 1 else if b = 2 then some 2 else none

def armByte (a : Arm) : Byte := byteOf a.val

def triggerOf (b : Byte) : Option Trigger := if b = 0 then some .auto else if b = 1 then some .manual else none

def triggerByte : Trigger → Byte
  | .auto => 0
  | .manual => 1

def modeOf (b : Byte) : Option Mode := if b = 0 then some .console else if b = 1 then some .localMode else none

def modeByte : Mode → Byte
  | .console => 0
  | .localMode => 1

def forceOf (b : Byte) : Option GateForce := if b = 0 then some .auto else if b = 1 then some .heldOpen else none

def forceByte : GateForce → Byte
  | .auto => 0
  | .heldOpen => 1

def callFlagOf (b : Byte) : Option CallFlag := if b = 0 then some .reelCall else if b = 1 then some .buttOut else none

def callFlagByte : CallFlag → Byte
  | .reelCall => 0
  | .buttOut => 1

/-- CONSOLE 0x01, LOGISTICS 0x02, PANEL-1 to PANEL-12 0x11 to 0x1C (R173). -/
def clientOf (b : Byte) : Option Client :=
  if b = 0x01 then some .console
  else if b = 0x02 then some .logistics
  else if h : 0x11 ≤ b.toNat ∧ b.toNat ≤ 0x1C then some (.panel ⟨b.toNat - 0x11, by omega⟩)
  else none

def clientByte : Client → Byte
  | .console => 0x01
  | .logistics => 0x02
  | .panel s => byteOf (0x11 + s.val)

/-- Bit `n` of a presence byte. -/
def bitOf (m : Byte) (n : Nat) : Bool := m.getLsbD n

/-- A value that is carried when its presence bit is set. -/
def carried {α : Type} (present : Bool) (v : α) : Option α := if present then some v else none

/-- A presence byte from its bits, bit 0 first. -/
def presenceByte (l : List Bool) : Byte :=
  byteOf (l.foldr (fun b n => (if b then 1 else 0) + 2 * n) 0)

/-! ### CRC (R162) -/

/-- One bit of CRC-16 with polynomial 0x1021. -/
def crcBit (crc : BitVec 16) : BitVec 16 := if crc.msb then (crc <<< 1) ^^^ 0x1021 else crc <<< 1

/-- One byte of the CRC, most significant bit first. -/
def crcByte (crc : BitVec 16) (b : Byte) : BitVec 16 :=
  crcBit (crcBit (crcBit (crcBit (crcBit (crcBit (crcBit (crcBit (crc ^^^ (b.setWidth 16 <<< 8)))))))))

/-- CRC-16, initial value 0xFFFF, no final inversion (R162). -/
def crc16 (bytes : List Byte) : BitVec 16 := bytes.foldl crcByte 0xFFFF

/-- The two check bytes, high byte first (R173). -/
def checkBytes (bytes : List Byte) : List Byte := [(crc16 bytes).extractLsb' 8 8, (crc16 bytes).extractLsb' 0 8]

/-- The start code (R173). -/
def startCode : Byte := 0xA5

/-- A whole frame (R162, R173). -/
def frameOf (client tag code : Byte) (payload : List Byte) : List Byte :=
  let body := byteOf payload.length :: client :: tag :: code :: payload
  startCode :: (body ++ checkBytes body)

/-! ### Payloads read (R167, R174): none where the length or an enumerated field does not fit -/

/-- A parameter block P of 14 bytes (R174). -/
def paramBlockOf : List Byte → Option (Params Int)
  | [a0, a1, s0, s1, l0, l1, t, o, m0, m1, p0, p1, k0, k1] =>
    some { accelStart := num2 a0 a1, spliceDiameter := num2 s0 s1, lastChance := num2 l0 l1,
           matchTolerance := t.toNat, matchOffset := o.toInt, minSpeed := num2 m0 m1, pasteTarget := num2 p0 p1,
           knifeDistance := num2 k0 k1 }
  | _ => none

/-- The eight bits of a presence byte M, in the order of R56. -/
def markedBy (m : Byte) : Params Bool :=
  ⟨bitOf m 0, bitOf m 1, bitOf m 2, bitOf m 3, bitOf m 4, bitOf m 5, bitOf m 6, bitOf m 7⟩

/-- The stand-level settings of a profile, 15 bytes (R174). -/
def settingsOf : List Byte → Option Settings
  | [r0, r1, t0, t1, a0, a1, pl, kl, k0, k1, pi, c0, c1, st, ix] =>
    some { reelCall := num2 r0 r1, accelTimeout := num2 t0 t1, angle := num2 a0 a1, pasterLead := pl.toNat,
           knifeLead := kl.toNat, knifePulse := num2 k0 k1, pullIn := pi.toNat, carry := num2 c0 c1,
           stopTimeout := st.toNat, indexTimeout := ix.toNat }
  | _ => none

def readAnnounce (c : Client) (b : List Byte) : Option Instr :=
  match b.drop 11 with
  | [g, w, cal, c0, c1, f0, f1, p] =>
    match widthOf w, flagOf p with
    | some w, some p =>
      some (.announceReel c ((b.take 11).map BitVec.toNat)
        { grade := g.toNat, width := w, caliper := cal.toNat, core := num2 c0 c1, full := num2 f0 f1, paste := p })
    | _, _ => none
  | _ => none

/-- AMEND REEL: the contents of a datum not carried are ignored; bits 6 and 7 are undefined members (R172, R174). -/
def readAmendReel (c : Client) : List Byte → Option Instr
  | [h0, h1, m, g, w, cal, c0, c1, f0, f1, p] =>
    if bitOf m 6 || bitOf m 7 || (bitOf m 1 && (widthOf w).isNone) || (bitOf m 5 && (flagOf p).isNone) then none
    else
      some (.amendReel c (num2 h0 h1)
        { grade := carried (bitOf m 0) g.toNat
          width := if bitOf m 1 then widthOf w else none
          caliper := carried (bitOf m 2) cal.toNat
          core := carried (bitOf m 3) (num2 c0 c1)
          full := carried (bitOf m 4) (num2 f0 f1)
          paste := if bitOf m 5 then flagOf p else none })
  | _ => none

/-- An arm byte above 2 fails the link's check of the arm letter (R167, log 30). -/
def readMount (c : Client) : List Byte → Option Instr
  | [h0, h1, st, a] => (armOf a).map (fun a => .mountReel c (num2 h0 h1) st.toNat a)
  | _ => none

/-- A payload that is one two-byte number. -/
def readNum2 (f : Nat → Instr) : List Byte → Option Instr
  | [a, b] => some (f (num2 a b))
  | _ => none

/-- A payload that is one byte. -/
def readNum1 (f : Nat → Instr) : List Byte → Option Instr
  | [a] => some (f a.toNat)
  | _ => none

def readFind (c : Client) (b : List Byte) : Option Instr :=
  if b.length = 11 then some (.findReel c (b.map BitVec.toNat)) else none

def readThread (c : Client) : List Byte → Option Instr
  | [st, h0, h1] => some (.threadReel c st.toNat (num2 h0 h1))
  | _ => none

def readPlan (c : Client) : List Byte → Option Instr
  | [st, i, f, p0, p1, p2, p3, g, w] =>
    match flagOf i, widthOf w with
    | some i, some w =>
      some (.writePlanEntry c st.toNat
        { inPlan := i, folder := f.toNat, path := num4 p0 p1 p2 p3, grade := g.toNat, width := w })
    | _, _ => none
  | _ => none

def readFolder (c : Client) : List Byte → Option Instr
  | [f, c0, c1, l, t, s0, s1] => some (.writeFolder c f.toNat (num2 c0 c1) l.toNat t.toNat (num2 s0 s1))
  | _ => none

def readProfile (c : Client) : List Byte → Option Instr
  | [] => none
  | st :: b =>
    match paramBlockOf (b.take 14), settingsOf (b.drop 14) with
    | some p, some s => some (.writeProfile c st.toNat { params := p, settings := s })
    | _, _ => none

def readOneShot (c : Client) : List Byte → Option Instr
  | st :: m :: b =>
    (paramBlockOf b).map (fun p => .writeOneShot c st.toNat (Params.map2 carried (markedBy m) p))
  | _ => none

def readRouting (c : Client) : List Byte → Option Instr
  | [st, m0, m1, mo] => (modeOf mo).map (fun mo => .writeRouting c st.toNat (m0 ++ m1) mo)
  | _ => none

def readArm (c : Client) : List Byte → Option Instr
  | st :: t :: m :: b =>
    match triggerOf t, paramBlockOf b with
    | some t, some p => some (.armSplice c st.toNat t (Params.map2 carried (markedBy m) p))
    | _, _ => none
  | _ => none

/-- One parameter of AMEND SPLICE (R174): M clear is not carried; M and default set is DEFAULT; M set alone a value. -/
def amendParamOf (m d : Bool) (v : Int) : AmendParam :=
  if m then (if d then .default else .value v) else .notCarried

def readAmendSplice (c : Client) : List Byte → Option Instr
  | n0 :: n1 :: m :: d :: b =>
    (paramBlockOf b).map (fun p =>
      .amendSplice c (num2 n0 n1)
        (Params.map2 (fun (f : Int → AmendParam) v => f v) (Params.map2 amendParamOf (markedBy m) (markedBy d)) p))
  | _ => none

def readChain (c : Client) : List Byte → Option Instr
  | [st, x] => (flagOf x).map (fun x => .setChain c st.toNat x)
  | _ => none

def readAcknowledge (c : Client) : List Byte → Option Instr
  | [st, s0, s1, r] => some (.acknowledgeStatus c st.toNat (num2 s0 s1) r.toNat)
  | _ => none

def readClear (c : Client) : List Byte → Option Instr
  | [st, n0, n1, n2, n3] => some (.clearChanges c st.toNat (num4 n0 n1 n2 n3))
  | _ => none

def readTakeCall (c : Client) : List Byte → Option Instr
  | [st, f] => (callFlagOf f).map (fun f => .takeCall c st.toNat f)
  | _ => none

def readForce (c : Client) : List Byte → Option Instr
  | [f, x] => (forceOf x).map (fun x => .forceGate c f.toNat x)
  | _ => none

/-- A payload that must be empty. -/
def readNone (i : Instr) : List Byte → Option Instr
  | [] => some i
  | _ :: _ => none

/-- The command a request frame spells (R167, R174), or none where the code, the length or an enumerated field fails the
link's checks. -/
def requestOf (c : Client) (code : Byte) (b : List Byte) : Option Instr :=
  if code = 0x10 then readAnnounce c b
  else if code = 0x11 then readAmendReel c b
  else if code = 0x12 then readMount c b
  else if code = 0x13 then readNum2 (.unmountReel c) b
  else if code = 0x14 then readNum2 (.retireReel c) b
  else if code = 0x15 then readNum2 (.readReel c) b
  else if code = 0x16 then readFind c b
  else if code = 0x17 then readNum1 (.listStand c) b
  else if code = 0x18 then readThread c b
  else if code = 0x20 then readPlan c b
  else if code = 0x21 then readFolder c b
  else if code = 0x22 then readProfile c b
  else if code = 0x23 then readOneShot c b
  else if code = 0x24 then readRouting c b
  else if code = 0x25 then readNum1 (.readSettings c) b
  else if code = 0x30 then readArm c b
  else if code = 0x31 then readAmendSplice c b
  else if code = 0x32 then readNum1 (.startAccel c) b
  else if code = 0x33 then readNum1 (.fireSplice c) b
  else if code = 0x34 then readNum1 (.abortSplice c) b
  else if code = 0x35 then readChain c b
  else if code = 0x36 then readNum2 (.readSplice c) b
  else if code = 0x40 then readNum1 (.readStatus c) b
  else if code = 0x41 then readAcknowledge c b
  else if code = 0x42 then readNum1 (.readInputs c) b
  else if code = 0x43 then readClear c b
  else if code = 0x44 then readTakeCall c b
  else if code = 0x50 then readNum1 (.readTrack c) b
  else if code = 0x51 then readForce c b
  else if code = 0x60 then readNum1 (.resetStand c) b
  else if code = 0x61 then readNone (.resetDevice c) b
  else if code = 0x62 then readNone (.readDevice c) b
  else none

/-! ### Payloads written (R174): the inverse, for well-formed requests -/

/-- A parameter block P (R174). -/
def paramBlock (p : Params Int) : List Byte :=
  bytes2 p.accelStart.toNat ++ bytes2 p.spliceDiameter.toNat ++ bytes2 p.lastChance.toNat
    ++ [byteOf p.matchTolerance.toNat, byteOfInt p.matchOffset] ++ bytes2 p.minSpeed.toNat
    ++ bytes2 p.pasteTarget.toNat ++ bytes2 p.knifeDistance.toNat

/-- The settings of a profile (R174). -/
def settingsBlock (s : Settings) : List Byte :=
  bytes2 s.reelCall ++ bytes2 s.accelTimeout ++ bytes2 s.angle ++ [byteOf s.pasterLead, byteOf s.knifeLead]
    ++ bytes2 s.knifePulse ++ [byteOf s.pullIn] ++ bytes2 s.carry ++ [byteOf s.stopTimeout, byteOf s.indexTimeout]

/-- The presence byte of a partial parameter set. -/
def presenceOf {α : Type} (p : Params (Option α)) : Byte := presenceByte (p.toList.map Option.isSome)

/-- The request code and payload of a request, none for a command that is not a request. -/
def requestBytes : Instr → Option (Byte × List Byte)
  | .announceReel _ code p =>
    some (0x10, code.map byteOf ++ [byteOf p.grade, widthByte p.width, byteOf p.caliper] ++ bytes2 p.core
      ++ bytes2 p.full ++ [flagByte p.paste])
  | .amendReel _ h d =>
    some (0x11, bytes2 h
      ++ [presenceByte [d.grade.isSome, d.width.isSome, d.caliper.isSome, d.core.isSome, d.full.isSome, d.paste.isSome],
          byteOf (d.grade.getD 0), widthByte (d.width.getD .full), byteOf (d.caliper.getD 0)]
      ++ bytes2 (d.core.getD 0) ++ bytes2 (d.full.getD 0) ++ [flagByte (d.paste.getD false)])
  | .mountReel _ h st a => some (0x12, bytes2 h ++ [byteOf st, armByte a])
  | .unmountReel _ h => some (0x13, bytes2 h)
  | .retireReel _ h => some (0x14, bytes2 h)
  | .readReel _ h => some (0x15, bytes2 h)
  | .findReel _ code => some (0x16, code.map byteOf)
  | .listStand _ st => some (0x17, [byteOf st])
  | .threadReel _ st h => some (0x18, byteOf st :: bytes2 h)
  | .writePlanEntry _ st e =>
    some (0x20, [byteOf st, flagByte e.inPlan, byteOf e.folder] ++ bytes4 e.path
      ++ [byteOf e.grade, widthByte e.width])
  | .writeFolder _ f cutoff lead trail spacing =>
    some (0x21, byteOf f :: bytes2 cutoff ++ [byteOf lead, byteOf trail] ++ bytes2 spacing)
  | .writeProfile _ st p => some (0x22, byteOf st :: (paramBlock p.params ++ settingsBlock p.settings))
  | .writeOneShot _ st v => some (0x23, byteOf st :: presenceOf v :: paramBlock (v.map (·.getD 0)))
  | .writeRouting _ st m mo =>
    some (0x24, [byteOf st, m.extractLsb' 8 8, m.extractLsb' 0 8, modeByte mo])
  | .readSettings _ st => some (0x25, [byteOf st])
  | .armSplice _ st t v => some (0x30, byteOf st :: triggerByte t :: presenceOf v :: paramBlock (v.map (·.getD 0)))
  | .amendSplice _ n v =>
    some (0x31, bytes2 n
      ++ [presenceByte (v.toList.map (fun x => !decide (x = .notCarried))),
          presenceByte (v.toList.map (fun x => decide (x = .default)))]
      ++ paramBlock (v.map (fun x => match x with
          | .value y => y
          | .default => 0
          | .notCarried => 0)))
  | .startAccel _ st => some (0x32, [byteOf st])
  | .fireSplice _ st => some (0x33, [byteOf st])
  | .abortSplice _ st => some (0x34, [byteOf st])
  | .setChain _ st x => some (0x35, [byteOf st, flagByte x])
  | .readSplice _ n => some (0x36, bytes2 n)
  | .readStatus _ st => some (0x40, [byteOf st])
  | .acknowledgeStatus _ st serial rev => some (0x41, byteOf st :: bytes2 serial ++ [byteOf rev])
  | .readInputs _ st => some (0x42, [byteOf st])
  | .clearChanges _ st n => some (0x43, byteOf st :: bytes4 n)
  | .takeCall _ st f => some (0x44, [byteOf st, callFlagByte f])
  | .readTrack _ f => some (0x50, [byteOf f])
  | .forceGate _ f x => some (0x51, [byteOf f, forceByte x])
  | .resetStand _ st => some (0x60, [byteOf st])
  | .resetDevice _ => some (0x61, [])
  | .readDevice _ => some (0x62, [])
  | .powerOn | .resetPinAsserted | .resetPinReleased | .timeCounterTick | .characterReceived _ _
  | .interCharacterTimerExpiry | .transmitAnswer | .answerLastByteSent
  | .samplingTimerExpiry _ _ | .starCodeAccepted _ _ | .reelPresentLoss _ _ | .webPresentLoss _
  | .pasterEngagedActive _ | .pasterHomeActive _ | .knifeHomeActive _ | .safetyGateChange _ _
  | .driverHotActive _ | .driverHotInactive _ | .webCount _ _ | .tachCount _ _ | .pasteMarkPulse _ | .revPulse _ _
  | .folderCutPulse _ | .webSpeedTimerExpiry _ | .accelTimerExpiry _ | .quietTimerExpiry _ | .stopTimerExpiry _
  | .confirmTimerExpiry _ | .knifePulseTimerExpiry _ | .knifeHomeTimerExpiry _ | .revQuietTimerExpiry _
  | .indexTimerExpiry _ | .pullInTimerExpiry _ _ | .autoArmAttempt _ | .grantEvaluation _ => none

/-! ### Owners (R167) -/

/-- The blocks that own requests; one with an instance per stand or folder carries the number the request names. -/
inductive Owner where
  | reelTable | webPlan | spliceTable | link
  | profiles (n : Nat)
  | sequencer (n : Nat)
  | statusQueue (n : Nat)
  | scanner (n : Nat)
  | track (n : Nat)
deriving DecidableEq, Repr

/-- The stand number of the splice that AMEND SPLICE names, 0 where no record holds the number. -/
def State.standOfSplice (s : State) (n : Nat) : Nat :=
  match s.splice? n with
  | some sp => sp.stand.val + 1
  | none => 0

/-- The owner of a request by the catalogue of R167, none for a command that is not a request. The owner of AMEND SPLICE is
worked out from the Splice Table at each taking (log 31). -/
def ownerOf (s : State) : Instr → Option Owner
  | .announceReel _ _ _ | .amendReel _ _ _ | .mountReel _ _ _ _ | .unmountReel _ _ | .retireReel _ _ | .readReel _ _
  | .findReel _ _ | .listStand _ _ | .threadReel _ _ _ => some .reelTable
  | .writePlanEntry _ _ _ | .readSettings _ _ => some .webPlan
  | .writeFolder _ f _ _ _ _ => some (.track f)
  | .readTrack _ f => some (.track f)
  | .forceGate _ f _ => some (.track f)
  | .writeProfile _ st _ => some (.profiles st)
  | .writeOneShot _ st _ => some (.profiles st)
  | .writeRouting _ st _ _ => some (.statusQueue st)
  | .readStatus _ st => some (.statusQueue st)
  | .acknowledgeStatus _ st _ _ => some (.statusQueue st)
  | .takeCall _ st _ => some (.statusQueue st)
  | .armSplice _ st _ _ => some (.sequencer st)
  | .amendSplice _ n _ => some (.sequencer (s.standOfSplice n))
  | .setChain _ st _ => some (.sequencer st)
  | .startAccel _ st => some (.sequencer st)
  | .fireSplice _ st => some (.sequencer st)
  | .abortSplice _ st => some (.sequencer st)
  | .resetStand _ st => some (.sequencer st)
  | .readSplice _ _ => some .spliceTable
  | .readInputs _ st => some (.scanner st)
  | .clearChanges _ st _ => some (.scanner st)
  | .resetDevice _ | .readDevice _ => some .link
  | .powerOn | .resetPinAsserted | .resetPinReleased | .timeCounterTick | .characterReceived _ _
  | .interCharacterTimerExpiry | .transmitAnswer | .answerLastByteSent
  | .samplingTimerExpiry _ _ | .starCodeAccepted _ _ | .reelPresentLoss _ _ | .webPresentLoss _
  | .pasterEngagedActive _ | .pasterHomeActive _ | .knifeHomeActive _ | .safetyGateChange _ _
  | .driverHotActive _ | .driverHotInactive _ | .webCount _ _ | .tachCount _ _ | .pasteMarkPulse _ | .revPulse _ _
  | .folderCutPulse _ | .webSpeedTimerExpiry _ | .accelTimerExpiry _ | .quietTimerExpiry _ | .stopTimerExpiry _
  | .confirmTimerExpiry _ | .knifePulseTimerExpiry _ | .knifeHomeTimerExpiry _ | .revQuietTimerExpiry _
  | .indexTimerExpiry _ | .pullInTimerExpiry _ _ | .autoArmAttempt _ | .grantEvaluation _ => none

/-! ### Taking a request (R165) -/

/-- The request an entry of the answer order list spells. -/
def LinkEntry.request (e : LinkEntry) : Option Instr := requestOf e.client e.code e.payload

/-- Whether an entry has not been taken yet (R165). -/
def LinkEntry.untaken (e : LinkEntry) : Bool :=
  match e.state with
  | .withOwner => true
  | .held => true
  | .answered _ => false

/-- Whether an entry waits for this request to be taken. -/
def LinkEntry.waitsFor (r : Instr) (e : LinkEntry) : Bool := e.untaken && decide (e.request = some r)

/-- Whether an entry is WITH OWNER with the given owner. -/
def LinkEntry.withOwnerOf (s : State) (o : Option Owner) (e : LinkEntry) : Bool :=
  decide (e.state = .withOwner) && decide (e.request.bind (ownerOf s) = o)

/-- Whether the owner takes a request now (R165, log 2): if the list holds it, its first entry must be WITH OWNER and the
first entry WITH that OWNER; if the list does not hold it, it is given to the owner directly. -/
def State.mayTake (s : State) (r : Instr) : Bool :=
  match s.link.list.find? (LinkEntry.waitsFor r) with
  | some e =>
    decide (e.state = .withOwner)
    && decide ((s.link.list.find? (LinkEntry.withOwnerOf s (ownerOf s r))).bind LinkEntry.request = some r)
  | none => true

/-- Return an answer to the first entry that waits for the request; none may. -/
def answerEntry (r : Instr) (a : Answer) : List LinkEntry → List LinkEntry
  | [] => []
  | e :: t => if e.waitsFor r then { e with state := .answered a } :: t else e :: answerEntry r a t

/-- Return an answer: to the request's entry, which becomes ANSWERED (R165), and to `lastAnswer` (log 2). -/
def deliver (r : Instr) (a : Answer) (s : State) : State :=
  { s.modLink (fun l => { l with list := answerEntry r a l.list }) with lastAnswer := some a }

/-- A request taken by its owner (R165): nothing while the device is held in reset or the owner's turn is another's. -/
def serve (r : Instr) (own : State → Answer × State) (s : State) :
    Host.Outcome State Fault Refusal :=
  if s.link.resetPin then .next s
  else if s.mayTake r then .next (deliver r (own s).1 (own s).2)
  else .next s

/-- An answer with no payload. -/
def plain (c : AnswerCode) : Answer := { code := c, payload := .none }

def done : Answer := plain .done

def badRequest : Answer := plain (.badRequest false)

def notPermitted : Answer := plain .notPermitted

def refused (r : Reason) : Answer := plain (.refused r)

/-- DONE, or DONE_CLAMPED if a value was clamped (R58). -/
def doneClamped (clamped : Bool) (p : Payload) : Answer :=
  { code := if clamped then .doneClamped else .done, payload := p }

end Sys2Proof.Machine
end

