-- ==== Sys2Proof/Machine/Images.lean ====
section
/-! DEFINITION. The answer frame (R166, R172 to R176): answer and reason codes, the codes of the enumerations and sets, the
returned images byte by byte, and the images' contents read from the state (R12, R23, R24, R67, R129, R138, R151, R168). -/

namespace Sys2Proof.Machine

/-! ### Fields (R172) -/

/-- A number in `size` bytes, most significant byte first. -/
def beBytes : Nat → Nat → List Byte
  | 0, _ => []
  | k + 1, n => byteOf (n / 256 ^ k) :: beBytes k n

/-- An unsigned field. A value that does not fit it has no stated encoding: free value, log 12. -/
def unsignedField (size : Nat) (v : Int) : List Byte :=
  if 0 ≤ v ∧ v < (256 : Int) ^ size then beBytes size v.toNat else beBytes size (Config.overflowField size v)

/-- An unsigned field that holds a natural number. -/
def natField (size n : Nat) : List Byte := unsignedField size n

/-- A signed field, two's complement. A value that does not fit it has no stated encoding: free value, log 12. -/
def intField (size : Nat) (v : Int) : List Byte :=
  if -(2 : Int) ^ (8 * size - 1) ≤ v ∧ v < (2 : Int) ^ (8 * size - 1) then beBytes size (v % (256 : Int) ^ size).toNat
  else beBytes size (Config.overflowField size v)

/-- An optional unsigned field with its absent encoding. -/
def optField (size absent : Nat) (v : Option Nat) : List Byte := natField size (v.getD absent)

/-- A time stamp. -/
def stampField (t : Stamp) : List Byte := beBytes 4 t.toNat

/-- An optional time stamp: four bytes 0 when absent. -/
def optStamp (t : Option Stamp) : List Byte := stampField (t.getD 0)

/-- A set as a bit field: one bit for each member of the owning rule's list, in that order. -/
def setBits {α : Type} [DecidableEq α] (members held : List α) : Nat :=
  members.foldr (fun m n => (if m ∈ held then 1 else 0) + 2 * n) 0

/-! ### Codes of the enumerations, in the order of the owning rules (R172) -/

def ReelState.byte : ReelState → Byte
  | .floor => 0
  | .mounted => 1
  | .ready => 2
  | .committed => 3
  | .running => 4
  | .butt => 5

def SpliceState.byte : SpliceState → Byte
  | .armed => 0
  | .accel => 1
  | .matched => 2
  | .waiting => 3
  | .firing => 4
  | .pasting => 5
  | .cutting => 6
  | .braking => 7
  | .indexing => 8
  | .spindown => 9
  | .completed => 10
  | .aborted => 11
  | .failed => 12

def Origin.byte : Origin → Byte
  | .console => 0
  | .panel => 1
  | .chain => 2

def MarkState.byte : MarkState → Byte
  | .none => 0
  | .onTrack => 1
  | .ejected => 2
  | .purged => 3

def Destination.byte : Destination → Byte
  | .console => 0
  | .panel => 1

def ResetCause.byte : ResetCause → Byte
  | .power => 0
  | .pin => 1
  | .request => 2

def DriveState.byte : DriveState → Byte
  | .off => 0
  | .pullIn => 1
  | .hold => 2

/-- Position (R3); absent 0xFF. -/
def positionByte : Option Position → Byte
  | some .run => 0
  | some .splice => 1
  | some .load => 2
  | none => 0xFF

/-- Star index: 0, 1, 2; MOVING 3; UNKNOWN 4. -/
def StarIndex.byte : StarIndex → Byte
  | .settled k => armByte k
  | .moving => 3
  | .unknown => 4

/-- An optional arm or settled index; absent 0xFF. -/
def optArmByte : Option Arm → Byte
  | some a => armByte a
  | none => 0xFF

/-- An input level: inactive 0, active 1, STAR its code; not yet accepted 0xFF. -/
def levelByte : Option (Fin 4) → Byte
  | some l => byteOf l.val
  | none => 0xFF

/-- End cause (R176): 0 while nothing has decided the end. -/
def causeByte : Option EndCause → Byte
  | none => 0
  | some .indexed => 1
  | some .starSettledElsewhere => 2
  | some .indexTimeout => 3
  | some .brakeTimeout => 4
  | some .abortRequest => 5
  | some .matchTimeout => 6
  | some .reelLost => 7
  | some .starMoved => 8
  | some .webBreak => 9
  | some .paramConflict => 10
  | some .pasteNotConfirmed => 11
  | some .spliceNotCarried => 12
  | some .standReset => 13

/-- Unready reasons, in the order of R15. -/
def reasonsByte (l : List UnreadyReason) : Byte :=
  byteOf (setBits [.notInPlan, .grade, .width, .notPasted, .tooSmall, .core] l)

/-- Notes of a reel, in the order of R15. -/
def reelNotesByte (l : List ReelNote) : Byte :=
  byteOf (setBits [.amendLocked, .removedUnannounced, .pasteUsed, .diameterReset] l)

/-- Notes of a splice, in the order of R54. -/
def spliceNotesByte (l : List SpliceNote) : Byte :=
  byteOf (setBits [.clamped, .oneShotUsed, .knifeLate, .standReset, .pasteUsed] l)

/-- The nineteen conditions in the order of R147. -/
def allConditions : List Condition :=
  [.webEnd, .standEnd, .spliceVoid, .matchTimeout, .stopTimeout, .indexTimeout, .safetyGateOpen, .driverHot,
   .paramConflict, .runMarkLost, .diameterGlitch, .chainBlocked, .pasteNotConfirmed, .spliceNotCarried, .knifeNotHome,
   .webBreak, .runOutRisk, .reelLost, .starMoved]

/-- Conditions: three bytes. -/
def conditionsField (l : List Condition) : List Byte := beBytes 3 (setBits allConditions l)

/-- A stand's number on the link, 1 to 12. -/
def standByte (st : StandIx) : Byte := byteOf (st.val + 1)

/-- The stand of a location; absent 0. -/
def locationByte : Option (StandIx × Arm) → Byte
  | some (st, _) => standByte st
  | none => 0

/-- An optional folder; absent 0. -/
def optFolderByte : Option FolderIx → Byte
  | some f => byteOf (f.val + 1)
  | none => 0

/-- A reason of REFUSED (R173). -/
def Reason.byte : Reason → Byte
  | .notInPlan => 1
  | .armOccupied => 2
  | .noReelPresent => 3
  | .wrongState => 4
  | .notAtRun => 5
  | .webBroken => 6
  | .noRunningReel => 7
  | .noReadyReel => 8
  | .driverHot => 9
  | .paramConflict => 10
  | .notMatched => 11

/-- Answer codes (R173). -/
def AnswerCode.byte : AnswerCode → Byte
  | .done => 0x00
  | .doneClamped => 0x01
  | .busy => 0x02
  | .refused _ => 0x03
  | .notFound => 0x04
  | .full => 0x05
  | .locked => 0x06
  | .tooLate => 0x07
  | .statusPending => 0x08
  | .stale => 0x09
  | .notPermitted => 0x0A
  | .badRequest _ => 0x0B
  | .duplicate => 0x0C

/-- The reason byte that a code carries ahead of any payload (R173). -/
def AnswerCode.reasonBytes : AnswerCode → List Byte
  | .refused r => [r.byte]
  | .badRequest true => [0x01]
  | .badRequest false => []
  | .done | .doneClamped | .busy | .notFound | .full | .locked | .tooLate | .statusPending | .stale | .notPermitted
  | .duplicate => []

/-! ### Images (R175) -/

/-- The parameter of R56's place `index`, present in a field of its size or absent: an absent diameter is 0 (R172),
another absent parameter has no stated encoding (free value, log 15). -/
def imageParam (field : Nat → Int → List Byte) (size index : Nat) (v : Option Int) : List Byte :=
  match v with
  | some v => field size v
  | none => beBytes size (if index < 3 then 0 else Config.unusedParam index)

/-- A parameter block of an image: 14 bytes; the match offset alone is signed (R174). -/
def imageParams (p : Params (Option Int)) : List Byte :=
  imageParam unsignedField 2 0 p.accelStart ++ imageParam unsignedField 2 1 p.spliceDiameter
    ++ imageParam unsignedField 2 2 p.lastChance ++ imageParam unsignedField 1 3 p.matchTolerance
    ++ imageParam intField 1 4 p.matchOffset ++ imageParam unsignedField 2 5 p.minSpeed
    ++ imageParam unsignedField 2 6 p.pasteTarget ++ imageParam unsignedField 2 7 p.knifeDistance

/-- A presence byte of optional fields, bit 0 first. -/
def presenceBits (l : List Bool) : List Byte := [presenceByte l]

/-- The reel image, 56 bytes. -/
def ReelImage.bytes (i : ReelImage) : List Byte :=
  let r := i.reel
  natField 2 i.handle ++ r.code.map byteOf ++ [byteOf r.paper.grade, widthByte r.paper.width, byteOf r.paper.caliper]
    ++ natField 2 r.paper.core ++ natField 2 r.paper.full ++ [flagByte r.paper.paste]
    ++ optField 2 0 r.diameter ++ optField 2 0 r.girth
    ++ [locationByte r.loc, optArmByte (r.loc.map Prod.snd), r.state.byte]
    ++ optField 2 0 r.reservedBy ++ [reasonsByte r.reasons, reelNotesByte r.notes]
    ++ presenceBits [r.runningSince.isSome] ++ stampField r.announced ++ stampField r.mounted ++ optStamp r.runningSince
    ++ optField 2 0 r.residualDiameter ++ optField 4 0xFFFFFFFF r.residualLength
    ++ [positionByte i.position] ++ optField 4 0xFFFFFFFF i.remaining

/-- A signed remaining distance; absent 0x80000000. -/
def remainingField : Option Int → List Byte
  | some d => intField 4 d
  | none => beBytes 4 0x80000000

/-- The splice image, 79 bytes. -/
def SpliceImage.bytes (i : SpliceImage) : List Byte :=
  let x := i.splice
  natField 2 i.number ++ [standByte x.stand, optFolderByte x.folder, x.origin.byte, triggerByte x.trigger]
    ++ natField 2 x.outgoing ++ natField 2 x.incoming ++ [x.state.byte, spliceNotesByte x.notes]
    ++ presenceBits (x.explicit.toList.map Option.isSome) ++ imageParams x.explicit
    ++ presenceBits (x.params.toList.map Option.isSome) ++ imageParams x.params
    ++ presenceBits [x.committed.isSome, x.pasted.isSome, x.ended.isSome]
    ++ stampField x.armed ++ optStamp x.committed ++ optStamp x.pasted ++ optStamp x.ended
    ++ [x.mark.state.byte] ++ optField 4 0 x.mark.path ++ remainingField x.mark.remaining ++ natField 2 x.mark.waste
    ++ optField 2 0 x.residualDiameter ++ optField 4 0xFFFFFFFF x.residualLength
    ++ [flagByte x.endAck, flagByte i.startPending, causeByte x.cause]

/-- The status entry image, 20 bytes. -/
def StatusEntry.bytes (e : StatusEntry) : List Byte :=
  natField 2 e.serial ++ [e.revision] ++ optField 2 0 e.splice ++ [e.destination.byte, flagByte e.localAtOrigin]
    ++ conditionsField e.conditions ++ optField 2 0 e.residualDiameter ++ optField 4 0xFFFFFFFF e.residualLength
    ++ stampField e.created

/-- Slots of one size each: the items in order, unused slots zero. -/
def slots {α : Type} (n size : Nat) (f : α → List Byte) (l : List α) : List Byte :=
  (l.take n).flatMap f ++ List.replicate ((n - l.length) * size) 0

/-- The mask, two bytes. -/
def maskField (m : BitVec 13) : List Byte := beBytes 2 m.toNat

/-- The status image, 85 bytes. -/
def StatusImage.bytes (i : StatusImage) : List Byte :=
  [byteOf i.entries.length] ++ slots 4 20 StatusEntry.bytes i.entries
    ++ presenceBits [i.reelCall, i.buttOut] ++ maskField i.mask ++ [modeByte i.mode]

/-- The settings image, 61 bytes. -/
def SettingsImage.bytes (i : SettingsImage) : List Byte :=
  [flagByte i.plan.inPlan, byteOf (i.plan.folder.val + 1)] ++ natField 4 i.plan.path
    ++ [byteOf i.plan.grade, widthByte i.plan.width, i.star.byte, optArmByte i.lastSettled]
    ++ imageParams (i.profile.params.map some) ++ settingsBlock i.profile.settings
    ++ presenceBits (i.oneShot.values.toList.map Option.isSome) ++ presenceBits i.oneShot.clamped.toList
    ++ imageParams i.oneShot.values
    ++ [flagByte i.chain, flagByte i.chainBlocked, flagByte i.webBroken] ++ maskField i.mask ++ [modeByte i.mode]

/-- A change-set entry, 7 bytes. -/
def ChangeEntry.bytes (e : ChangeEntry) : List Byte :=
  [byteOf (inputIx e.input).val, byteOf e.level.val, byteOf e.changes] ++ natField 4 e.last

/-- The inputs image, 96 bytes. -/
def InputsImage.bytes (i : InputsImage) : List Byte :=
  i.levels.map levelByte ++ [i.star.byte, optArmByte i.lastSettled] ++ natField 2 i.webSpeed
    ++ [i.paster.byte, i.knife.byte, i.brake.byte, flagByte i.driveEn, flagByte i.indexReq] ++ natField 2 i.demand
    ++ natField 4 i.snapshot ++ [byteOf i.changes.length] ++ slots 10 7 ChangeEntry.bytes i.changes

/-- A margin; absent 0x8000. -/
def marginField : Option Int → List Byte
  | some m => intField 2 m
  | none => beBytes 2 0x8000

/-- A wait entry, 6 bytes. -/
def WaitEntry.bytes (e : WaitEntry) : List Byte :=
  [standByte e.stand] ++ natField 2 e.splice ++ [flagByte e.matched] ++ marginField e.margin

/-- A mark image, 14 bytes. -/
def MarkImage.bytes (m : MarkImage) : List Byte :=
  natField 2 m.splice ++ [standByte m.stand] ++ optField 4 0 m.path ++ remainingField m.remaining
    ++ [flagByte m.inWindow] ++ natField 2 m.waste

/-- The slot holder's splice number and stand; with the slot free both are 0. -/
def slotField : Option SpliceRef → List Byte
  | some r => natField 2 r.splice ++ [standByte r.stand]
  | none => [0, 0, 0]

/-- The track image, 201 bytes. -/
def TrackImage.bytes (i : TrackImage) : List Byte :=
  natField 2 i.cutoff ++ [byteOf i.lead, byteOf i.trail] ++ natField 2 i.spacing
    ++ [forceByte i.force, flagByte i.gateOpen] ++ beBytes 4 i.wasteCount.toNat
    ++ slotField i.slot
    ++ [byteOf i.waits.length, byteOf i.marks.length]
    ++ slots 12 6 WaitEntry.bytes i.waits ++ slots 8 14 MarkImage.bytes i.marks

/-- READ DEVICE's payload (R174). -/
def DeviceImage.bytes (i : DeviceImage) : List Byte :=
  stampField i.time ++ [i.cause.byte, byteOf i.reels, byteOf i.splices] ++ natField 2 i.overrun
    ++ beBytes 2 i.version.toNat

/-- A handle, absent 0xFFFF. -/
def handleField (h : Option Nat) : List Byte := optField 2 0xFFFF h

/-- LIST STAND's payload (R174). -/
def StandList.bytes (l : StandList) : List Byte :=
  [l.star.byte, optArmByte l.lastSettled] ++ handleField l.onA ++ handleField l.onB ++ handleField l.onC

/-- The bytes of a payload (R174). -/
def Payload.bytes : Payload → List Byte
  | .none => []
  | .handle h => natField 2 h
  | .verdict st r => [st.byte, reasonsByte r]
  | .reel i => i.bytes
  | .standList l => l.bytes
  | .settings i => i.bytes
  | .spliceNumber n => natField 2 n
  | .started n st => natField 2 n ++ [st.byte]
  | .splice i => i.bytes
  | .entry e => e.bytes
  | .status i => i.bytes
  | .inputs i => i.bytes
  | .cleared n snapshot => byteOf n :: natField 4 snapshot
  | .calls a b => [flagByte a, flagByte b]
  | .track i => i.bytes
  | .device i => i.bytes

/-- The answer frame of an entry (R166): its client and tag unchanged. -/
def answerFrame (e : LinkEntry) (a : Answer) : List Byte :=
  frameOf (clientByte e.client) e.tag a.code.byte (a.code.reasonBytes ++ a.payload.bytes)

/-! ### The images' contents -/

/-- The reel image (R23). -/
def State.reelImage (s : State) (h : Nat) (r : Reel) : ReelImage where
  handle := h
  reel := r
  position := match r.loc with
    | some (st, a) => positionOf (s.stand st).star a
    | none => none
  remaining := r.diameter.map (fun d => remainingLength d r.paper.core r.paper.caliper)

/-- LIST STAND's answer (R24). -/
def State.standList (s : State) (st : StandIx) : StandList where
  star := (s.stand st).star
  lastSettled := (s.stand st).lastSettled
  onA := (s.reelOn st 0).map Prod.fst
  onB := (s.reelOn st 1).map Prod.fst
  onC := (s.reelOn st 2).map Prod.fst

/-- The settings image (R12, R57, R107). -/
def State.settingsImage (s : State) (st : StandIx) : SettingsImage :=
  let x := s.stand st
  { plan := x.plan, star := x.star, lastSettled := x.lastSettled, profile := x.profile, oneShot := x.oneShot,
    chain := x.seq.chain, chainBlocked := x.seq.chainBlocked, webBroken := x.seq.webBroken, mask := x.queue.mask,
    mode := x.queue.mode }

/-- The splice image (R67, R74). -/
def State.spliceImage (s : State) (n : Nat) (sp : Splice) : SpliceImage where
  number := n
  splice := sp
  startPending := decide ((s.work sp.stand).active = some n) && (s.work sp.stand).startPending

/-- The status image (R151). -/
def State.statusImage (s : State) (st : StandIx) : StatusImage :=
  let q := (s.stand st).queue
  { entries := q.entries, reelCall := q.reelCall, buttOut := q.buttOut, mask := q.mask, mode := q.mode }

/-- Insert a change-set entry after every entry with the same or a smaller last change. -/
def insertChange (e : ChangeEntry) : List ChangeEntry → List ChangeEntry
  | [] => [e]
  | x :: t => if e.last < x.last then e :: x :: t else x :: insertChange e t

/-- The change set in ascending order of last change (R138); equal ones in the order in which they last changed
(log 13). -/
def Field.changesInOrder (x : Field) : List ChangeEntry := x.changes.foldl (fun l e => insertChange e l) []

/-- The inputs image (R138). -/
def State.inputsImage (s : State) (st : StandIx) : InputsImage :=
  let x := s.stand st
  { levels := allInputs.map (fun i => (x.field.input i).accepted)
    star := x.star
    lastSettled := x.lastSettled
    webSpeed := x.gauge.webSpeed
    paster := x.field.paster.drive
    knife := x.field.knife.drive
    brake := x.field.brake.drive
    driveEn := x.seq.work.driveEn
    indexReq := x.seq.work.indexReq
    demand := x.seq.work.demand
    snapshot := x.field.snapshot
    changes := x.field.changesInOrder }

/-- One mark of the track image (R129). -/
def State.markImage (s : State) (f : FolderIx) (r : SpliceRef) : MarkImage where
  splice := r.splice
  stand := r.stand
  path := (s.markOf r).bind (·.path)
  remaining := s.remainingOf r
  inWindow := s.refInWindow f r
  waste := match s.markOf r with
    | some m => m.waste
    | none => 0

/-- The track image (R129). -/
def State.trackImage (s : State) (f : FolderIx) : TrackImage :=
  let F := s.folder f
  { cutoff := F.cutoff, lead := F.lead, trail := F.trail, spacing := F.spacing, force := F.force,
    gateOpen := s.gateOpen f, wasteCount := F.wasteCount, slot := F.slot, waits := F.waits,
    marks := (s.trackOrder f).map (s.markImage f) }

/-- READ DEVICE's answer (R168). -/
def State.deviceImage (s : State) : DeviceImage where
  time := s.now
  cause := s.link.cause
  reels := s.reels.length
  splices := s.splices.length
  overrun := s.link.overrun
  version := Config.partVersion

end Sys2Proof.Machine
end

