-- ==== Sys2Proof/Machine/Ops.lean ====
section
/-! DEFINITION. The shared operations: raising a condition (R148 to R150), verification (R19, R20), the hand-overs of
R21, R47, R48 and R158, reservation and release of reels (R30, R31), the folder's slot and wait list (R115, R120), the
marks (R123 to R126), the actuator outputs (R140, R141), retirement (R72), and how a command is taken. -/

namespace Sys2Proof.Machine

/-- The outcome of a command. -/
abbrev Res := Host.Outcome State Fault Refusal

/-- A command of the running device: while the RESET pin is asserted the device is held in reset and takes nothing
(R170, log 6). -/
def onDevice (f : State → State) (s : State) : Res := if s.link.resetPin then .next s else .next (f s)

/-! ### Conditions -/

/-- A condition joins or is merged into an entry (R148 to R150): added if it is not held, the destination escalated if
the condition's own routing is CONSOLE, the revision raised once if either changed the entry. -/
def StatusEntry.join (e : StatusEntry) (c : Condition) (route : Destination) (residuals : Option Nat × Option Nat) :
    StatusEntry :=
  let fresh := !decide (c ∈ e.conditions)
  let dest : Destination := if e.destination = .panel ∧ route = .console then .console else e.destination
  { e with
    conditions := addTo c e.conditions
    destination := dest
    revision := if fresh = true ∨ dest ≠ e.destination then e.revision + 1 else e.revision
    residualDiameter := if fresh = true ∧ c = .webEnd then residuals.1 else e.residualDiameter
    residualLength := if fresh = true ∧ c = .webEnd then residuals.2 else e.residualLength }

/-- Apply a function to the last entry. -/
def onLast (f : StatusEntry → StatusEntry) : List StatusEntry → List StatusEntry
  | [] => []
  | [e] => [f e]
  | e :: x :: t => e :: onLast f (x :: t)

/-- The next serial, wrapping from 65,535 to 1 (R146); the same rule advances splice numbers (R53). -/
def nextNumber (n : Nat) : Nat := if n = 65535 then 1 else n + 1

/-- A new entry for one condition (R148). -/
def Queue.newEntry (q : Queue) (c : Condition) (attribution : Option Nat) (now : Stamp)
    (residuals : Option Nat × Option Nat) : StatusEntry where
  serial := q.nextSerial
  revision := 0
  splice := attribution
  destination := q.routing c
  localAtOrigin := decide (q.mode = .localMode)
  conditions := [c]
  residualDiameter := if c = .webEnd then residuals.1 else none
  residualLength := if c = .webEnd then residuals.2 else none
  created := now

/-- Place a condition in the queue (R148, R149); STAND_END also sets BUTT OUT (R159). -/
def Queue.place (q : Queue) (c : Condition) (attribution : Option Nat) (now : Stamp)
    (residuals : Option Nat × Option Nat) : Queue :=
  let q := { q with buttOut := q.buttOut || decide (c = Condition.standEnd) }
  match q.entries.getLast? with
  | some e =>
    if e.splice = attribution ∨ 4 ≤ q.entries.length then
      { q with entries := onLast (fun e => e.join c (q.routing c) residuals) q.entries }
    else
      { q with entries := q.entries ++ [q.newEntry c attribution now residuals], nextSerial := nextNumber q.nextSerial }
  | none => { q with entries := [q.newEntry c attribution now residuals], nextSerial := nextNumber q.nextSerial }

/-- Raise a condition on a stand, attributed to its active splice (R148). -/
def raise (st : StandIx) (c : Condition) (s : State) (residuals : Option Nat × Option Nat := (none, none)) : State :=
  s.modQueue st (fun q => q.place c (s.work st).active s.now residuals)

/-! ### Reel call, run-out risk, retirement -/

/-- Evaluate the reel-call condition and store it; a change from false to true sets REEL CALL (R158). -/
def evalReelCall (st : StandIx) (s : State) : State :=
  let c := s.callCondition st
  s.modQueue st (fun q => { q with reelCall := q.reelCall || (c && !q.callCondition), callCondition := c })

/-- Evaluate run-out risk (R48) and raise RUN_OUT_RISK once per running reel (R49). -/
def evalRisk (st : StandIx) (s : State) : State :=
  let now := s.riskTest st
  let announce := now && !(s.stand st).gauge.inRisk && !(s.stand st).gauge.riskRaised
  let s := s.modGauge st (fun g => { g with inRisk := now, riskRaised := g.riskRaised || announce })
  if announce then raise st .runOutRisk s else s

/-- Remove a splice record that has ended, has its end acknowledged and no mark on a track (R72). -/
def retire (n : Nat) (s : State) : State :=
  match s.splice? n with
  | some sp =>
    if isEnded sp.state = true ∧ sp.endAck = true ∧ sp.mark.state ≠ .onTrack then
      { s with splices := Table.erase n s.splices }
    else s
  | none => s

/-! ### Hand-over of reel changes (R21, R5) -/

/-- Hand an auto-arm occasion to the stand's sequencer (R69); AUTO_ARM_ATTEMPT takes it (log 4). -/
def chainOccasion (st : StandIx) (s : State) : State :=
  s.modSeq st (fun q => { q with chainOccasions := q.chainOccasions + 1 })

/-- Hand the changes made since `before` to the auto-chain and the reel call (R21): a READY unreserved reel at SPLICE
where there was none is an occasion, and the reel-call condition is re-evaluated. -/
def handOn (st : StandIx) (before s : State) : State :=
  let s := if (before.readyAtSplice st).isNone = true ∧ (s.readyAtSplice st).isSome = true then chainOccasion st s else s
  evalReelCall st s

/-! ### Verification and the release of reels -/

/-- Verify a reel (R19): the reasons found replace its set, and it becomes READY or MOUNTED. -/
def verify (plan : PlanEntry) (p : Profile) (r : Reel) : Reel :=
  let reasons := reasonsFor plan p r
  { r with reasons := reasons, state := if reasons = [] then .ready else .mounted }

/-- The reels of a stand that verification takes (R20): located there, MOUNTED or READY, unreserved. -/
def verifiable (st : StandIx) (r : Reel) : Bool :=
  onStand st r && (decide (r.state = .mounted) || decide (r.state = .ready)) && r.reservedBy.isNone

/-- Verify every reel of a stand that verification takes (R9, R60). -/
def verifyStand (st : StandIx) (s : State) : State :=
  { s with reels := Table.mapAll (fun _ r =>
      if verifiable st r then verify (s.stand st).plan (s.stand st).profile r else r) s.reels }

/-- Give a reel back, its reservation released (R30): returned to READY and re-verified for stand st. `used` is the
used paste of R31: paste prepared no, note PASTE_USED. -/
def giveBack (st : StandIx) (used : Bool) (h : Nat) (s : State) : State :=
  s.modReel h (fun r =>
    let r := { r with reservedBy := none, state := .ready, reasons := [] }
    let r := if used then
        { r with paper := { r.paper with paste := false }, notes := addTo .pasteUsed r.notes }
      else r
    verify (s.stand st).plan (s.stand st).profile r)

/-- A reel becomes BUTT with its residuals (R31, R44). -/
def toButt (r : Reel) : Reel :=
  { r with
    state := .butt
    reasons := []
    residualDiameter := r.diameter
    residualLength := r.diameter.map (fun d => remainingLength d r.paper.core r.paper.caliper) }

/-- A reel leaves its arm for the floor (R27, R32). -/
def toFloor (r : Reel) : Reel := { r with state := .floor, loc := none, reasons := [] }

/-! ### Folder: occasions, wait list, slot -/

/-- Hand a grant occasion to a folder's arbiter (R118); GRANT_EVALUATION takes it (log 4). -/
def grantOccasion (f : FolderIx) (s : State) : State :=
  s.modFolder f (fun F => { F with grantOccasions := F.grantOccasions + 1 })

/-- Take a stand's entry out of a wait list (R115); that brings no evaluation (R118, log 11). -/
def leaveWaits (f : FolderIx) (st : StandIx) (s : State) : State :=
  s.modFolder f (fun F => { F with waits := F.waits.filter (fun e => !decide (e.stand = st)) })

/-- Release the slot (R120): it becomes free, and the arbiter gets an occasion. -/
def releaseSlot (f : FolderIx) (s : State) : State :=
  grantOccasion f (s.modFolder f (fun F => { F with slot := none }))

/-- The margin of R116: running diameter minus resolved last-chance diameter. -/
def State.marginOf (s : State) (st : StandIx) (sp : Splice) : Option Int :=
  match s.runningDiameter st, sp.params.lastChance with
  | some d, some l => some ((d : Int) - l)
  | _, _ => none

/-! ### Marks -/

/-- Take a mark off its folder's track. -/
def unlist (n : Nat) (sp : Splice) (s : State) : State :=
  match sp.folder with
  | some f => s.modFolder f (fun F => { F with track := F.track.filter (fun r => !decide (r.splice = n)) })
  | none => s

/-- A mark leaves its track with the final state EJECTED or PURGED, its distance and copies kept (R125, R126). -/
def markLeaves (final : MarkState) (n : Nat) (s : State) : State :=
  match s.splice? n with
  | some sp => unlist n sp (s.modSplice n (fun sp => { sp with mark := { sp.mark with state := final } }))
  | none => s

/-- Eject a mark (R125): off the track, the retirement test, an occasion for the arbiter. -/
def eject (f : FolderIx) (n : Nat) (s : State) : State := grantOccasion f (retire n (markLeaves .ejected n s))

/-- The splices with a mark ON_TRACK that pass a test, in the table's order. -/
def State.marksWhere (s : State) (test : Nat → Splice → Bool) : List (Nat × Splice) :=
  s.splices.filter (fun p => decide (p.2.mark.state = .onTrack) && test p.1 p.2)

/-- Purge marks together (R126): the retirement tests and one occasion for each track concerned follow the removal of
the last of them. -/
def purge (test : Nat → Splice → Bool) (s : State) : State :=
  let hits := s.marksWhere test
  let s := hits.foldl (fun s p => markLeaves .purged p.1 s) s
  let s := hits.foldl (fun s p => retire p.1 s) s
  (allFolders.filter (fun f => hits.any (fun p => decide (p.2.folder = some f)))).foldl (fun s f => grantOccasion f s) s

/-- Purge every mark of a stand (R101, R106, R126). -/
def purgeStand (st : StandIx) (s : State) : State := purge (fun _ sp => decide (sp.stand = st)) s

/-! ### Actuator outputs (R140, R141) -/

/-- Energise an output: PULL_IN with its timer, or HOLD while DRIVER-HOT is accepted active; an output already energised
is unchanged. -/
def Actuator.energise (hot : Bool) (pullIn : Nat) (a : Actuator) : Actuator :=
  match a.drive with
  | .off => if hot then { drive := .hold, pullInTimer := none } else { drive := .pullIn, pullInTimer := some pullIn }
  | .pullIn => a
  | .hold => a

/-- Release an output. -/
def Actuator.release (_ : Actuator) : Actuator := { drive := .off, pullInTimer := none }

/-- Pull-in timer expiry: PULL_IN goes to HOLD. -/
def Actuator.pulledIn (a : Actuator) : Actuator :=
  match a.drive with
  | .pullIn => { drive := .hold, pullInTimer := none }
  | .off => a
  | .hold => a

/-- DRIVER-HOT accepted active (R142): an output in PULL_IN goes to HOLD at once, its timer stopped. -/
def Actuator.hot (a : Actuator) : Actuator := a.pulledIn

def energisePaster (st : StandIx) (s : State) : State :=
  let hot := s.isActive st .driverHot
  s.modField st (fun x => { x with paster := x.paster.energise hot (s.stand st).profile.settings.pullIn })

def energiseBrake (st : StandIx) (s : State) : State :=
  let hot := s.isActive st .driverHot
  s.modField st (fun x => { x with brake := x.brake.energise hot (s.stand st).profile.settings.pullIn })

/-- Energise the knife for its pulse (R97, R141): pulled in for the smaller of the pull-in time and the pulse. -/
def energiseKnife (st : StandIx) (s : State) : State :=
  let hot := s.isActive st .driverHot
  let set := (s.stand st).profile.settings
  s.modField st (fun x =>
    { x with knife := x.knife.energise hot (min set.pullIn set.knifePulse), knifePulse := some set.knifePulse })

def releasePaster (st : StandIx) (s : State) : State :=
  s.modField st (fun x => { x with paster := x.paster.release })

def releaseBrake (st : StandIx) (s : State) : State :=
  s.modField st (fun x => { x with brake := x.brake.release })

/-- The end of the knife pulse (R99, R141): the knife OFF, its timers stopped; unless KNIFE-HOME is accepted active the
knife-home timer of 500 ms starts. -/
def endKnifePulse (st : StandIx) (s : State) : State :=
  let s := s.modField st (fun x => { x with knife := x.knife.release, knifePulse := none })
  if s.isActive st .knifeHome then s else s.modWork st (fun w => { w with knifeHomeTimer := some 500 })

/-- Release the knife if its pulse is still running (R100, R101). -/
def releaseKnife (st : StandIx) (s : State) : State :=
  if (s.stand st).field.knifePulse.isSome then endKnifePulse st s else s

/-! ### Splice record and working state -/

/-- Change a splice's state. -/
def setSpliceState (n : Nat) (x : SpliceState) (s : State) : State := s.modSplice n (fun sp => { sp with state := x })

/-- Record what decided the end, once (R176). -/
def setCause (n : Nat) (c : EndCause) (s : State) : State :=
  s.modSplice n (fun sp => { sp with cause := some (sp.cause.getD c) })

/-- Add a note to a splice (R54). -/
def noteSplice (n : Nat) (x : SpliceNote) (s : State) : State :=
  s.modSplice n (fun sp => { sp with notes := addTo x sp.notes })

/-- The change into an ended state with its time stamp (R54). -/
def endRecord (n : Nat) (x : SpliceState) (s : State) : State :=
  s.modSplice n (fun sp => { sp with state := x, ended := some s.now })

/-- The working state when the active splice has ended (R74, R91): all reset, but a brake kept on keeps its butt arm and
rev-quiet timer. -/
def Working.afterEnd (w : Working) : Working :=
  if w.brakeKept then
    { Working.reset with buttArm := w.buttArm, revQuietTimer := w.revQuietTimer, brakeKept := true }
  else Working.reset

/-- End the active splice: its end condition raised while it is still active, the record ended, the working state
cleared (R85, R87, R104). -/
def endSplice (st : StandIx) (n : Nat) (x : SpliceState) (c : Condition) (s : State) : State :=
  (endRecord n x (raise st c s)).modWork st Working.afterEnd

/-- What follows the end of a splice (R87, R104): the retirement test, run-out risk and the reel call. -/
def afterEnd (st : StandIx) (n : Nat) (s : State) : State := evalReelCall st (evalRisk st (retire n s))

end Sys2Proof.Machine
end

