-- ==== Sys2Proof/Machine/Sequence.lean ====
section
/-! DEFINITION. The splice sequence as shared operations of the Stand Sequencer: arming (R53, R63, R64), commit (R66,
R78), triggers (R75, R83), giving up and spin-down (R85, R87, R101), the fire points (R93), the paste and its failure
(R94 to R98), the cut and web end (R97 to R101), braking and indexing (R102, R103), the stand end (R104), and the
hand-over of a diameter change (R47). -/

namespace Sys2Proof.Machine

/-! ### Spin-down (R85, R87, R101) -/

/-- The quiet timer of SPINDOWN (R87). -/
def quietMs : Nat := 2000

/-- The rev-quiet timer (R102). -/
def revQuietMs : Nat := 3000

/-- The state in which a spin-down ends the splice (R87). -/
def SpinOutcome.state : SpinOutcome → SpliceState
  | .aborted => .aborted
  | .failed => .failed

/-- Enter SPINDOWN with an outcome (R87): demand 0, DRIVE-EN as it is, the stop and quiet timers started; measurement
and its flags end. -/
def enterSpindown (st : StandIx) (n : Nat) (outcome : SpinOutcome) (s : State) : State :=
  (setSpliceState n .spindown s).modWork st (fun w =>
    { w with
      outcome := some outcome
      demand := 0
      accelTimer := none
      revolution := none
      goodCount := 0
      matched := false
      confirmTimer := none
      stopTimer := some ((s.stand st).profile.settings.stopTimeout * 1000)
      quietTimer := some quietMs })

/-- Leave the wait list from WAITING, or release the slot from FIRING, PASTING or CUTTING (R85, R120). -/
def leaveArbiter (st : StandIx) (sp : Splice) (s : State) : State :=
  match sp.folder with
  | some f =>
    if sp.state = .waiting then leaveWaits f st s
    else if holdsSlot sp.state then releaseSlot f s
    else s
  | none => s

/-- The immediate abort from ARMED (R85), less the hand-over of the reel change. -/
def immediateAbort (st : StandIx) (n : Nat) (sp : Splice) (cause : EndCause) (s : State) : State :=
  let s := endSplice st n .aborted .spliceVoid (setCause n cause s)
  let s := giveBack st false sp.incoming s
  evalRisk st (retire n s)

/-- The abort to spin-down from ACCEL, MATCHED, WAITING or FIRING (R85), less the hand-over of the reel change. -/
def abortToSpindown (st : StandIx) (n : Nat) (sp : Splice) (cause : EndCause) (s : State) : State :=
  let s := giveBack st false sp.incoming (setCause n cause s)
  enterSpindown st n .aborted (leaveArbiter st sp s)

/-- Give a splice up before PASTING by the procedure that fits its state (R85), less the hand-over. A splice in another
state is left as it is. -/
def giveUp (st : StandIx) (n : Nat) (sp : Splice) (cause : EndCause) (s : State) : State :=
  match sp.state with
  | .armed => immediateAbort st n sp cause s
  | .accel | .matched | .waiting | .firing => abortToSpindown st n sp cause s
  | .pasting | .cutting | .braking | .indexing | .spindown | .completed | .aborted | .failed => s

/-- The end of a spin-down (R87): DRIVE-EN deasserted, the splice ended with its outcome and SPLICE_VOID, and the end
handed on. -/
def endSpindown (st : StandIx) (n : Nat) (s : State) : State :=
  let outcome := ((s.work st).outcome.getD .aborted).state
  let s := s.modWork st (fun w => { w with driveEn := false, demand := 0, quietTimer := none, stopTimer := none })
  afterEnd st n (endSplice st n outcome .spliceVoid s)

/-! ### Arming (R53, R63, R64) -/

/-- The first splice number from `n` on that no record holds (R53); 33 steps always suffice. -/
def freeNumber (t : List (Nat × Splice)) : Nat → Nat → Nat
  | 0, n => n
  | k + 1, n => if (Table.find n t).isSome then freeNumber t k (nextNumber n) else n

/-- Why an arming is refused, in the order of R63's table from its third check on. -/
inductive ArmFault where
  | notInPlan | busy
  | statusPending (e : StatusEntry)
  | queueFull | tableFull | webBroken | noRunningReel | noReadyReel | driverHot | paramConflict
deriving DecidableEq, Repr

/-- The tentative values of a stand with the given explicit values (R61). -/
def State.tentative (s : State) (st : StandIx) (explicit : Params (Option Int)) : Params Int :=
  resolve explicit (s.stand st).oneShot.values (s.stand st).profile.params

/-- The checks of R63 from the third on, with the explicit values clamped: the first that fails, or none. -/
def armFault (st : StandIx) (explicit : Params (Option Int)) (s : State) : Option ArmFault :=
  if (s.stand st).plan.inPlan = false then some .notInPlan
  else if (s.work st).active.isSome then some .busy
  else match (s.stand st).queue.oldestException with
  | some e => some (.statusPending e)
  | none =>
    if 4 ≤ (s.stand st).queue.entries.length then some .queueFull
    else if 32 ≤ s.splices.length then some .tableFull
    else if (s.stand st).seq.webBroken then some .webBroken
    else match s.runningReel st, s.readyAtSplice st with
    | none, _ => some .noRunningReel
    | some _, none => some .noReadyReel
    | some (_, run), some (_, next) =>
      if s.isActive st .driverHot then some .driverHot
      else if consistent (some run.paper.core) (some (next.diameter.getD next.paper.full)) (s.tentative st explicit) then
        none
      else some .paramConflict

/-- The splice record at allocation (R54, R55, R64). -/
def newSplice (st : StandIx) (origin : Origin) (trigger : Trigger) (outgoing incoming : Nat)
    (explicit : Params (Option Int)) (clamped : Bool) (now : Stamp) : Splice where
  stand := st
  folder := none
  origin := origin
  trigger := trigger
  outgoing := outgoing
  incoming := incoming
  explicit := explicit
  params := noParams
  state := .armed
  notes := if clamped then [.clamped] else []
  armed := now
  committed := none
  pasted := none
  ended := none
  mark := { state := .none, path := none, remaining := none, waste := 0 }
  residualDiameter := none
  residualLength := none
  endAck := false
  cause := none

/-- Steps 1 and 2 of R64: allocate the number and the record, and reserve the reel at SPLICE. -/
def allocate (st : StandIx) (origin : Origin) (trigger : Trigger) (explicit : Params (Option Int)) (clamped : Bool)
    (s : State) : State :=
  match s.runningReel st, s.readyAtSplice st with
  | some (out, _), some (inc, _) =>
    let n := freeNumber s.splices 33 s.nextSplice
    let s := { s with
      splices := Table.insert n (newSplice st origin trigger out inc explicit clamped s.now) s.splices
      nextSplice := nextNumber n }
    let s := s.modReel inc (fun r => { r with reservedBy := some n })
    s.modWork st (fun w => { w with active := some n })
  | _, _ => s

/-! ### Commit (R66, R78) -/

/-- The speed demand of R79: round(web speed × (1,000 + match offset) / 1,000), at most 65,535. -/
def demandFor (webSpeed : Nat) (offset : Int) : Nat :=
  min 65535 (roundDiv ((webSpeed : Int) * (1000 + offset)) 1000).toNat

/-- The values a commit of the splice would store (R66): the tentative values of R61 as they now are. -/
def State.resolved (s : State) (sp : Splice) : Params Int := s.tentative sp.stand sp.explicit

/-- The consistency of the resolved values with the reels as they are now (R66, step 3). -/
def State.commitConsistent (s : State) (sp : Splice) : Bool :=
  consistent ((s.runningReel sp.stand).map (fun p => p.2.paper.core))
    ((s.reel? sp.incoming).map (fun r => r.diameter.getD r.paper.full)) (s.resolved sp)

/-- Resolution and consumption (R66, steps 1 and 2). -/
def resolveSplice (st : StandIx) (n : Nat) (sp : Splice) (s : State) : State :=
  let shot := (s.stand st).oneShot
  let taken := takesOneShot sp.explicit shot.values
  let clamped := anyMarker (Params.map2 (· && ·) taken shot.clamped)
  let t := s.modSplice n (fun x => { x with params := (s.resolved sp).map some })
  let t := if anyMarker taken then noteSplice n .oneShotUsed t else t
  let t := if clamped then noteSplice n .clamped t else t
  t.modStand st (fun x => { x with oneShot := OneShot.empty })

/-- The commit refused by the consistency check (R66, step 4): PARAM_CONFLICT, then SPLICE_VOID, and the splice ended,
its reel given back. -/
def failCommit (st : StandIx) (n : Nat) (sp : Splice) (s : State) : State :=
  let t := raise st .paramConflict (setCause n .paramConflict s)
  let t := endSplice st n .aborted .spliceVoid t
  afterEnd st n (handOn st s (giveBack st false sp.incoming t))

/-- The commit that succeeds (R66 step 4, R78 steps 2 to 4): the reel COMMITTED, the folder fixed, the drive enabled, the
accel timer started, and run-out risk re-evaluated. -/
def succeedCommit (st : StandIx) (n : Nat) (sp : Splice) (offset : Int) (s : State) : State :=
  let t := s.modReel sp.incoming (fun r => { r with state := .committed })
  let t := t.modSplice n (fun x =>
    { x with folder := some (s.stand st).plan.folder, committed := some s.now, state := .accel })
  let t := t.modWork st (fun w =>
    { w with
      startPending := false
      driveEn := true
      demand := demandFor (s.stand st).gauge.webSpeed offset
      revolution := none
      prevGirth := none
      keptGirth := none
      goodCount := 0
      matched := false
      accelTimer := some ((s.stand st).profile.settings.accelTimeout * 1000) })
  evalRisk st (handOn st s t)

/-- The commit of an ARMED splice (R66, R78). -/
def commit (st : StandIx) (n : Nat) (sp : Splice) (s : State) : State :=
  let t := resolveSplice st n sp s
  if s.commitConsistent sp then succeedCommit st n sp (s.resolved sp).matchOffset t else failCommit st n sp t

/-! ### Triggers (R75, R83) and the hand-over of a diameter change (R47) -/

/-- The AUTO trigger of R75: the running diameter at or below the tentative accel-start diameter. -/
def State.autoTrigger (s : State) (st : StandIx) (sp : Splice) : Bool :=
  decide (sp.trigger = .auto)
  && (match s.runningDiameter st with
      | some d => decide ((d : Int) ≤ (s.tentative st sp.explicit).accelStart)
      | none => false)

/-- Judge the commit triggers of the stand's ARMED splice (R75): the AUTO trigger, and with `pending` the remembered
start request. While DRIVER-HOT is accepted active the commit is deferred (R76). -/
def judgeStart (pending : Bool) (st : StandIx) (s : State) : State :=
  match s.activeSplice st with
  | some (n, sp) =>
    if sp.state = .armed ∧ s.isActive st .driverHot = false
        ∧ (s.autoTrigger st sp = true ∨ (pending = true ∧ (s.work st).startPending = true)) then
      commit st n sp s
    else s
  | none => s

/-- Enter WAITING (R83): join the folder's wait list with the matched flag set, an occasion for the arbiter (R118). -/
def enterWaiting (st : StandIx) (n : Nat) (sp : Splice) (s : State) : State :=
  match sp.folder with
  | some f =>
    let entry : WaitEntry := { stand := st, splice := n, matched := true, margin := s.marginOf st sp }
    let t := (setSpliceState n .waiting s).modWork st (fun w => { w with matched := true })
    grantOccasion f (t.modFolder f (fun F => { F with waits := insertWait entry F.waits }))
  | none => s

/-- Judge the AUTO splice trigger of a MATCHED splice (R83). -/
def judgeWaiting (st : StandIx) (s : State) : State :=
  match s.activeSplice st with
  | some (n, sp) =>
    match s.runningDiameter st, sp.params.spliceDiameter with
    | some d, some limit =>
      if sp.state = .matched ∧ sp.trigger = .auto ∧ (d : Int) ≤ limit then enterWaiting st n sp s else s
    | _, _ => s
  | none => s

/-- Work out a waiter's margin again (R116): a change re-orders the list and is an occasion (R118). -/
def refreshMargin (st : StandIx) (s : State) : State :=
  match s.activeSplice st with
  | some (_, sp) =>
    match sp.folder with
    | some f =>
      match (s.folder f).waits.find? (fun e => decide (e.stand = st)) with
      | some e =>
        let m := s.marginOf st sp
        if e.margin = m then s
        else grantOccasion f (s.modFolder f (fun F =>
          { F with waits := insertWait { e with margin := m } (F.waits.filter (fun x => !decide (x.stand = st))) }))
      | none => s
    | none => s
  | none => s

/-- A change of the running reel's current diameter, or of the running reel, handed on (R47), the receivers in the order
of the rule's table (log 10). -/
def diameterChanged (st : StandIx) (s : State) : State :=
  evalRisk st (refreshMargin st (judgeWaiting st (judgeStart false st (evalReelCall st s))))

/-- Clear the gauge's measurement when the running reel is established afresh (R43). -/
def Gauge.afresh (g : Gauge) : Gauge :=
  { g with ref := false, revCount := 0, runMark := 0, tripped := false, streak := 0 }

/-! ### The fire points (R93) -/

/-- The three points of R93 for a girth g above 0, a web speed v, the stand's settings, the paste target and the knife
distance; and whether the knife point had to be moved to the front (KNIFE_LATE). -/
def firePointsFor (g : Int) (v : Nat) (set : Settings) (target knifeDistance : Int) : FirePoints × Bool :=
  let nip := g * set.angle / 360
  let need := roundDiv ((set.pasterLead : Int) * v) 1000 + target
  let k := if need ≤ nip then 0 else (need - nip + g - 1) / g
  let front := nip + k * g
  let knife := front + knifeDistance - roundDiv ((set.knifeLead : Int) * v) 1000
  ({ fire := front - need, front := front, knife := if knife < front then front else knife }, decide (knife < front))

/-! ### Spin-down of a splice not carried, web end and braking -/

/-- Copy the residuals of the outgoing reel into the splice record (R54). -/
def copyResiduals (n : Nat) (out : Nat) (s : State) : State :=
  match s.reel? out with
  | some r => s.modSplice n (fun x =>
      { x with residualDiameter := r.residualDiameter, residualLength := r.residualLength })
  | none => s

/-- The arm of a reel record. -/
def State.armOf (s : State) (h : Nat) : Option Arm :=
  match s.reel? h with
  | some r => r.loc.map Prod.snd
  | none => none

/-- Start a braking of the butt (R101, R102): the BRAKE energised, a kept brake taken over, the stop and rev-quiet timers
started for the butt arm. -/
def startBraking (st : StandIx) (arm : Option Arm) (s : State) : State :=
  (energiseBrake st s).modWork st (fun w =>
    { w with
      buttArm := arm
      brakeKept := false
      stopTimer := some ((s.stand st).profile.settings.stopTimeout * 1000)
      revQuietTimer := some revQuietMs })

/-- A splice not carried (R101). -/
def notCarried (st : StandIx) (n : Nat) (sp : Splice) (s : State) : State :=
  let arm := s.armOf sp.outgoing
  let t := raise st .spliceNotCarried (setCause n .spliceNotCarried s)
  let t := releaseKnife st (releasePaster st t)
  let t := purgeStand st (t.modSeq st (fun q => { q with webBroken := true }))
  let t := match sp.folder with
    | some f => releaseSlot f t
    | none => t
  let t := giveBack st true sp.incoming (t.modReel sp.outgoing toButt)
  let t := copyResiduals n sp.outgoing (noteSplice n .pasteUsed t)
  let t := t.modGauge st (fun g => { g.afresh with riskRaised := false })
  let t := enterSpindown st n .failed (startBraking st arm t)
  evalRisk st (handOn st s t)

/-- Web end (R100). -/
def webEnd (st : StandIx) (n : Nat) (sp : Splice) (s : State) : State :=
  let arm := s.armOf sp.outgoing
  let t := releaseKnife st s
  let t := t.modReel sp.outgoing toButt
  let t := t.modReel sp.incoming (fun r =>
    { r with state := .running, reservedBy := none, reasons := [], runningSince := some s.now })
  let t := copyResiduals n sp.outgoing t
  let residuals := match t.reel? sp.outgoing with
    | some r => (r.residualDiameter, r.residualLength)
    | none => (none, none)
  let t := raise st .webEnd t residuals
  let t := (releasePaster st t).modWork st (fun w => { w with driveEn := false, demand := 0 })
  let t := match sp.folder with
    | some f => releaseSlot f t
    | none => t
  let t := evalRisk st (t.modGauge st (fun g => { g.afresh with riskRaised := false }))
  let t := setSpliceState n .braking (startBraking st arm t)
  evalRisk st (handOn st s t)

/-! ### The paste (R94 to R98) -/

/-- The rest of a paste failure once its condition is raised (R98 steps 2 to 6). -/
def failPaste (st : StandIx) (n : Nat) (sp : Splice) (s : State) : State :=
  let t := (releasePaster st s).modWork st (fun w => { w with confirmTimer := none })
  let t := if (s.work st).markPlaced then purge (fun k _ => decide (k = n)) t else t
  let t := noteSplice n .pasteUsed (giveBack st true sp.incoming t)
  let t := match sp.folder with
    | some f => releaseSlot f t
    | none => t
  evalRisk st (handOn st s (enterSpindown st n .failed t))

/-- A paste not confirmed in time (R98). -/
def pasteNotConfirmed (st : StandIx) (n : Nat) (sp : Splice) (s : State) : State :=
  failPaste st n sp (raise st .pasteNotConfirmed (setCause n .pasteNotConfirmed s))

/-- The fire point (R94, R95): the paster energised, the confirm timer started unless the paster is confirmed already,
and PASTING; measurement of revolutions ends with FIRING (R80). -/
def firePoint (st : StandIx) (n : Nat) (s : State) : State :=
  let engaged := s.isActive st .pasterEngaged
  let t := (energisePaster st s).modWork st (fun w =>
    { w with
      confirmed := engaged
      confirmTimer := if engaged then none else some ((s.stand st).profile.settings.pasterLead + 80)
      revolution := none })
  evalRisk st (setSpliceState n .pasting t)

/-- The paste front (R96, R123): the mark placed on the folder's track at the stand's path length, an occasion for the
arbiter. -/
def pasteFront (st : StandIx) (n : Nat) (sp : Splice) (s : State) : State :=
  let path := (s.stand st).plan.path
  let t := s.modSplice n (fun x =>
    { x with
      pasted := some s.now
      mark := { state := .onTrack, path := some path, remaining := some (path : Int), waste := 0 } })
  let t := t.modWork st (fun w => { w with markPlaced := true })
  match sp.folder with
  | some f => grantOccasion f (t.modFolder f (fun F => { F with track := F.track ++ [{ splice := n, stand := st }] }))
  | none => t

/-- The last loss of the web handed on and not taken yet is withdrawn: the knife point has found it and gives
SPLICE_NOT_CARRIED for it, so that no WEB_BREAK is raised for it (R100, R101, log 33). -/
def Field.takeWebLoss (x : Field) : Field :=
  { x with handed := (x.handed.reverse.erase { input := .webPresent, level := 0 }).reverse }

/-- The knife point of a confirmed paste (R97): the knife pulse, the carry check started, CUTTING; with WEB-PRESENT not
accepted active the carry check fails at once (R100), by the loss that left it so. -/
def knifePoint (st : StandIx) (n : Nat) (sp : Splice) (s : State) : State :=
  let t := (energiseKnife st s).modWork st (fun w =>
    { w with carryDistance := some (s.stand st).profile.settings.carry, carryCount := 0 })
  let t := evalRisk st (setSpliceState n .cutting t)
  if t.isActive st .webPresent then t
  else notCarried st n { sp with state := .cutting } (t.modField st Field.takeWebLoss)

/-! ### Braking, indexing, stand end (R102 to R104) -/

/-- The stand end (R104), the end cause given by R176. -/
def standEnd (st : StandIx) (n : Nat) (cause : EndCause) (s : State) : State :=
  let t := (setCause n cause s).modWork st (fun w => { w with indexReq := false, indexTimer := none })
  let t := endSplice st n .completed .standEnd t
  afterEnd st n (chainOccasion st t)

/-- INDEX-REQ in INDEXING (R103): asserted, with a fresh index timer, while SAFETY-GATE is accepted closed and KNIFE-HOME
accepted active; withdrawn, its timer stopped, while either does not hold. -/
def updateIndexReq (st : StandIx) (s : State) : State :=
  if s.spliceState st = some .indexing then
    let want := s.isActive st .safetyGate && s.isActive st .knifeHome
    if want = (s.work st).indexReq then s
    else s.modWork st (fun w =>
      { w with
        indexReq := want
        indexTimer := if want then some ((s.stand st).profile.settings.indexTimeout * 1000) else none })
  else s

/-- SAFETY-GATE found open in INDEXING: SAFETY_GATE_OPEN the first time (R103). -/
def gateFoundOpen (st : StandIx) (s : State) : State :=
  if (s.work st).gateReported then s
  else (raise st .safetyGateOpen s).modWork st (fun w => { w with gateReported := true })

/-- Enter INDEXING (R103): the star judged against the start index k. With the star at k or between positions the
sequencer waits for it to settle. -/
def enterIndexing (st : StandIx) (n : Nat) (s : State) : State :=
  let t := setSpliceState n .indexing s
  let wait := updateIndexReq st (if t.isInactive st .safetyGate then gateFoundOpen st t else t)
  match (s.stand st).star, (s.work st).startIndex with
  | .settled j, some k =>
    if j = k + 1 then standEnd st n .indexed t
    else if j = k then wait
    else standEnd st n .starSettledElsewhere (raise st .starMoved t)
  | .settled _, none => standEnd st n .starSettledElsewhere (raise st .starMoved t)
  | .moving, _ => wait
  | .unknown, _ => wait

/-- The end of braking (R102): the butt at rest and the paster home. -/
def endBraking (st : StandIx) (n : Nat) (s : State) : State :=
  enterIndexing st n ((releaseBrake st s).modWork st (fun w => { w with stopTimer := none, revQuietTimer := none }))

end Sys2Proof.Machine
end

