-- ==== Sys2Proof/Machine/PlanRequests.lean ====
section
/-! DEFINITION. The requests that write standing data: WRITE_PLAN_ENTRY and READ_SETTINGS (R8, R9, R12), WRITE_FOLDER (R114),
WRITE_PROFILE and WRITE_ONE_SHOT (R60, R62), WRITE_ROUTING (R155). -/

namespace Sys2Proof.Machine

/-- Whether a splice of the stand has its mark on a track (R8). -/
def State.markOnTrack (s : State) (st : StandIx) : Bool :=
  s.splices.any (fun p => decide (p.2.stand = st) && decide (p.2.mark.state = .onTrack))

/-- Replace a plan entry and hand it on (R9). -/
def writePlan (st : StandIx) (e : PlanEntry) (s : State) : State :=
  handOn st s (verifyStand st (s.modStand st (fun x => { x with plan := e })))

/-- WRITE_PLAN_ENTRY (R8, R9). -/
def execWritePlanEntry (c : Client) (stand : Nat) (entry : PlanFields) (s : State) : Res :=
  serve (.writePlanEntry c stand entry) (fun s =>
    match standIx stand with
    | none => (badRequest, s)
    | some st =>
      if c ≠ .console then (notPermitted, s)
      else match planEntryOf entry with
      | none => (badRequest, s)
      | some e =>
        if (s.work st).active.isSome = true ∨ s.markOnTrack st = true then (plain .busy, s)
        else (done, writePlan st e s)) s

/-- READ_SETTINGS (R12, R57). -/
def execReadSettings (c : Client) (stand : Nat) (s : State) : Res :=
  serve (.readSettings c stand) (fun s =>
    match standIx stand with
    | none => (badRequest, s)
    | some st => ({ code := .done, payload := .settings (s.settingsImage st) }, s)) s

/-! ### Folder settings (R114) -/

/-- Eject, in track order, the marks that pass a test and lie below −trail_mm (R114, R124, R125). -/
def ejectPast (f : FolderIx) (test : SpliceRef → Bool) (s : State) : State :=
  ((s.trackOrder f).filter (fun r => test r && (match s.remainingOf r with
    | some d => decide (d < -(s.folder f).trailMm)
    | none => false))).foldl (fun t r => eject f r.splice t) s

/-- WRITE_FOLDER (R114): each value clamped; the marks judged against the new trail; an occasion for the arbiter. -/
def execWriteFolder (c : Client) (folder cutoff lead trail spacing : Nat) (s : State) : Res :=
  serve (.writeFolder c folder cutoff lead trail spacing) (fun s =>
    match folderIx folder with
    | none => (badRequest, s)
    | some f =>
      if c ≠ .console then (notPermitted, s)
      else
        let cutoff' := clampNat 400 700 cutoff
        let lead' := clampNat 0 5 lead
        let trail' := clampNat 0 10 trail
        let spacing' := clampNat 0 50000 spacing
        let t := s.modFolder f (fun F => { F with cutoff := cutoff', lead := lead', trail := trail', spacing := spacing' })
        let clamped := !decide (cutoff' = cutoff ∧ lead' = lead ∧ trail' = trail ∧ spacing' = spacing)
        (doneClamped clamped .none, grantOccasion f (ejectPast f (fun _ => true) t))) s

/-! ### Profiles and one-shot sets (R60, R62) -/

/-- Replace a profile and hand it on (R60 steps 1 to 4). -/
def writeProfile (st : StandIx) (p : Profile) (s : State) : State :=
  let t := verifyStand st (s.modStand st (fun x => { x with profile := p }))
  judgeStart false st (evalRisk st (evalReelCall st (handOn st s t)))

/-- WRITE_PROFILE (R58, R60). -/
def execWriteProfile (c : Client) (stand : Nat) (profile : Profile) (s : State) : Res :=
  serve (.writeProfile c stand profile) (fun s =>
    match standIx stand with
    | none => (badRequest, s)
    | some st =>
      if byMode (s.stand st).queue.mode st c = false then (notPermitted, s)
      else if profileConsistent (clampProfile profile).params = false then (refused .paramConflict, s)
      else (doneClamped (!decide (clampProfile profile = profile)) .none, writeProfile st (clampProfile profile) s)) s

/-- WRITE_ONE_SHOT (R58, R62): the whole set replaced; the new tentative value judged for an ARMED AUTO splice. -/
def execWriteOneShot (c : Client) (stand : Nat) (values : Params (Option Int)) (s : State) : Res :=
  serve (.writeOneShot c stand values) (fun s =>
    match standIx stand with
    | none => (badRequest, s)
    | some st =>
      if byMode (s.stand st).queue.mode st c = false then (notPermitted, s)
      else
        let t := s.modStand st (fun x =>
          { x with oneShot := { values := clampOptional values, clamped := clampMarkers values } })
        (doneClamped (anyMarker (clampMarkers values)) .none, judgeStart false st t)) s

/-! ### Routing (R155) -/

/-- WRITE_ROUTING (R155). -/
def execWriteRouting (c : Client) (stand : Nat) (mask : BitVec 16) (mode : Mode) (s : State) : Res :=
  serve (.writeRouting c stand mask mode) (fun s =>
    match standIx stand with
    | none => (badRequest, s)
    | some st =>
      if mask.extractLsb' 13 3 ≠ 0 then (badRequest, s)
      else if c ≠ .console then (notPermitted, s)
      else (done, s.modQueue st (fun q => { q with mask := mask.setWidth 13, mode := mode }))) s

end Sys2Proof.Machine
end

