-- ==== Sys2Proof/Machine/Counts.lean ====
section
/-! DEFINITION. The counting inputs (R136): WEB_COUNT (R38, R42, R97, R100, R124), TACH_COUNT (R80, R87, R94 to R98),
PASTE_MARK_PULSE (R80, R81, R92, R93), REV_PULSE (R39 to R41, R101, R102), FOLDER_CUT_PULSE (R128); and the direction of a
quadrature transition (R136). -/

namespace Sys2Proof.Machine

/-- +1 for a forward count, −1 for a reverse one. -/
def countOf : Direction → Int
  | .forward => 1
  | .reverse => -1

/-- The count that a transition of the phases (P, Q) gives (R136): none where both change together or neither does, else
forward or reverse by the order of the phases. `leadsP` says which order is forward; the manual does not (log 19). -/
def quadrature (leadsP : Bool) (before after : Bool × Bool) : Option Direction :=
  if before.1 ≠ after.1 ∧ before.2 ≠ after.2 then none
  else if before = after then none
  else
    let pMoved := decide (before.1 ≠ after.1)
    -- P leading Q: P's transition leaves the phases unequal, Q's leaves them equal
    let pLeads := if pMoved then decide (after.1 ≠ after.2) else decide (after.1 = after.2)
    some (if pLeads = leadsP then .forward else .reverse)

/-- The direction of a WEB transition and of a TACH transition (R136). -/
def webDirection : Bool × Bool → Bool × Bool → Option Direction := quadrature Config.webForwardLeadsP
def tachDirection : Bool × Bool → Bool × Bool → Option Direction := quadrature Config.tachForwardLeadsP

/-! ### The running diameter -/

/-- The running reel's current diameter becomes absent. -/
def dropRunningDiameter (st : StandIx) (s : State) : State :=
  match s.runningReel st with
  | some (h, _) => s.modReel h (fun r => { r with diameter := none })
  | none => s

/-- The run-mark watch trips (R42): RUN_MARK_LOST, the diameter absent and handed on, the streak 0. -/
def runMarkLost (st : StandIx) (s : State) : State :=
  (diameterChanged st (dropRunningDiameter st (raise st .runMarkLost s))).modGauge st (fun g => { g with streak := 0 })

/-! ### WEB_COUNT -/

/-- The gauge's counts after one web count (R38); `running` says whether the stand has a RUNNING reel. -/
def Gauge.webCount (d : Direction) (running : Bool) (g : Gauge) : Gauge :=
  { g with
    revCount := if g.ref then g.revCount + countOf d else g.revCount
    runMark :=
      if running ∧ g.tripped = false then
        match d with
        | .forward => g.runMark + 1
        | .reverse => g.runMark - 1
      else g.runMark
    window := g.window + countOf d }

/-- The gauge takes a web count (R38, R42). -/
def gaugeWebCount (st : StandIx) (d : Direction) (s : State) : State :=
  let running := (s.runningReel st).isSome
  let t := s.modGauge st (Gauge.webCount d running)
  if running = true ∧ (s.stand st).gauge.tripped = false ∧ d = .forward ∧ (t.stand st).gauge.runMark = 4500 then
    runMarkLost st (t.modGauge st (fun g => { g with tripped := true }))
  else t

/-- The sequencer's web counts (R80, R97). -/
def Working.webCount (d : Direction) (w : Working) : Working :=
  { w with
    revolution := w.revolution.map (fun r => { r with web := r.web + countOf d })
    carryCount := if w.carryDistance.isSome then w.carryCount + countOf d else w.carryCount }

/-- The carry check (R100): the carry count reaching the carry distance in CUTTING is web end. -/
def carryCheck (st : StandIx) (s : State) : State :=
  match s.activeSplice st with
  | some (n, sp) =>
    match (s.work st).carryDistance with
    | some dist => if sp.state = .cutting ∧ (dist : Int) ≤ (s.work st).carryCount then webEnd st n sp s else s
    | none => s
  | none => s

/-- A mark after one web count of its stand (R124). -/
def Mark.move (d : Direction) (m : Mark) : Mark :=
  match d with
  | .forward => { m with remaining := m.remaining.map (· - 1) }
  | .reverse => if m.remaining = m.path.map Int.ofNat then m else { m with remaining := m.remaining.map (· + 1) }

/-- Move every mark of the stand that is on a track (R124). -/
def moveMarks (st : StandIx) (d : Direction) (s : State) : State :=
  { s with splices := Table.mapAll (fun _ sp =>
      if sp.stand = st ∧ sp.mark.state = .onTrack then { sp with mark := sp.mark.move d } else sp) s.splices }

/-- Whether a mark's travel is exactly the folder's spacing (R124). -/
def State.travelReaches (s : State) (f : FolderIx) (r : SpliceRef) : Bool :=
  match (s.markOf r).bind markTravel with
  | some t => decide (t = ((s.folder f).spacing : Int))
  | none => false

/-- What the movement has crossed on one folder's track (R124, R125): ejections in track order, then, for a forward count,
the occasions of travels that have reached the spacing. A mark that the same count ejects hands on the occasion of its
ejection and none for its spacing: R124 does not say whether it hands both (log 32, the model's choice). -/
def crossed (st : StandIx) (d : Direction) (s : State) (f : FolderIx) : State :=
  let t := ejectPast f (fun r => decide (r.stand = st)) s
  match d with
  | .forward =>
    ((t.folder f).track.filter (fun r => decide (r.stand = st) && t.travelReaches f r)).foldl
      (fun t _ => grantOccasion f t) t
  | .reverse => t

/-- The tracks take a web count (R124). -/
def trackWebCount (st : StandIx) (d : Direction) (s : State) : State :=
  allFolders.foldl (crossed st d) (moveMarks st d s)

/-- WEB_COUNT (R38, R136): the gauge, then the sequencer, then the tracks take the count (log 9). -/
def execWebCount (st : StandIx) (d : Direction) (s : State) : Res :=
  onDevice (fun s =>
    trackWebCount st d (carryCheck st ((gaugeWebCount st d s).modWork st (Working.webCount d)))) s

/-! ### TACH_COUNT -/

/-- The sequencer's tach counts (R80, R91). -/
def Working.tachCount (d : Direction) (w : Working) : Working :=
  { w with
    revolution := w.revolution.map (fun r => { r with tach := r.tach + countOf d })
    fireCount := w.fireCount.map (· + countOf d) }

/-- The point of a stand's splice that the fire count has reached: `pick` is the fire point, the front or the knife
point. -/
def State.reached (s : State) (st : StandIx) (pick : FirePoints → Int) : Bool :=
  match (s.work st).fireCount, (s.work st).points with
  | some c, some p => decide (pick p ≤ c)
  | _, _ => false

/-- The fire point of a splice in FIRING (R94). -/
def judgeFirePoint (st : StandIx) (s : State) : State :=
  match s.activeSplice st with
  | some (n, sp) => if sp.state = .firing ∧ s.reached st FirePoints.fire = true then firePoint st n s else s
  | none => s

/-- The front of a splice in PASTING whose mark is not placed (R96). -/
def judgeFront (st : StandIx) (s : State) : State :=
  match s.activeSplice st with
  | some (n, sp) =>
    if sp.state = .pasting ∧ (s.work st).markPlaced = false ∧ s.reached st FirePoints.front = true then
      pasteFront st n sp s
    else s
  | none => s

/-- The knife point of a splice in PASTING (R97, R98): the knife if the paster is confirmed, else a paste failure. -/
def judgeKnifePoint (st : StandIx) (s : State) : State :=
  match s.activeSplice st with
  | some (n, sp) =>
    if sp.state = .pasting ∧ s.reached st FirePoints.knife = true then
      if (s.work st).confirmed then knifePoint st n sp s else pasteNotConfirmed st n sp s
    else s
  | none => s

/-- The points that a fire count may reach, in order (R94 to R98). -/
def judgePoints (st : StandIx) (s : State) : State := judgeKnifePoint st (judgeFront st (judgeFirePoint st s))

/-- Each tach count starts the quiet timer of SPINDOWN afresh (R87). -/
def restartQuiet (st : StandIx) (s : State) : State :=
  if s.spliceState st = some .spindown then s.modWork st (fun w => { w with quietTimer := some quietMs }) else s

/-- TACH_COUNT (R80, R87, R91, R136). -/
def execTachCount (st : StandIx) (d : Direction) (s : State) : Res :=
  onDevice (fun s => judgePoints st (restartQuiet st (s.modWork st (Working.tachCount d)))) s

/-! ### PASTE_MARK_PULSE (R80, R81, R92, R93) -/

/-- Set the incoming reel's girth and current diameter from a revolution (R81). -/
def setGirth (incoming : Nat) (g : Int) (s : State) : State :=
  s.modReel incoming (fun r => { r with girth := some g.toNat, diameter := some (diameterOf g).toNat })

/-- Stable (R81): within 3 ‰ of the previous girth. -/
def stableRev (prev : Option Int) (g : Int) : Bool :=
  match prev with
  | some p => decide (|g - p| ≤ roundDiv (3 * p) 1000)
  | none => false

/-- Matching (R81): within the match tolerance of the web count. -/
def matchingRev (tolerance : Int) (g w : Int) : Bool :=
  decide (0 < w) && decide (|g - w| ≤ roundDiv (tolerance * w) 1000)

/-- A good revolution of the stand's splice (R81). -/
def goodRev (w : Working) (sp : Splice) (r : Revolution) : Bool :=
  stableRev w.prevGirth r.tach && (match sp.params.matchTolerance with
    | some tol => matchingRev tol r.tach r.web
    | none => false)

/-- Entry to MATCHED (R81, R82, R83). -/
def enterMatched (st : StandIx) (n : Nat) (sp : Splice) (g : Int) (s : State) : State :=
  let t := (setSpliceState n .matched s).modWork st (fun w => { w with goodCount := 3, accelTimer := none })
  judgeWaiting st (setGirth sp.incoming g t)

/-- The matched flag of a waiter, kept by the sequencer and handed to the arbiter (R81, R115). -/
def setMatched (st : StandIx) (sp : Splice) (x : Bool) (s : State) : State :=
  let t := s.modWork st (fun w => { w with matched := x })
  match sp.folder with
  | some f => t.modFolder f (fun F =>
      { F with waits := F.waits.map (fun e => if e.stand = st then { e with matched := x } else e) })
  | none => t

/-- The matched flag of a waiter set again (R81): girth and diameter from g, an occasion for the arbiter (R118). -/
def rematch (st : StandIx) (sp : Splice) (g : Int) (s : State) : State :=
  let t := setMatched st sp true (s.modWork st (fun w => { w with goodCount := 3 }))
  let t := setGirth sp.incoming g t
  match sp.folder with
  | some f => grantOccasion f t
  | none => t

/-- What a judged revolution does (R81). -/
def afterRevolution (st : StandIx) (n : Nat) (sp : Splice) (good : Bool) (g : Int) (s : State) : State :=
  let count := (s.work st).goodCount
  let clear := s.modWork st (fun w => { w with goodCount := 0 })
  let add := s.modWork st (fun w => { w with goodCount := w.goodCount + 1 })
  match sp.state with
  | .accel => if good then (if 2 ≤ count then enterMatched st n sp g s else add) else clear
  | .matched =>
    if good then s
    else (setSpliceState n .accel clear).modWork st (fun w =>
      { w with accelTimer := some ((s.stand st).profile.settings.accelTimeout * 1000) })
  | .waiting =>
    if (s.work st).matched then (if good then s else setMatched st sp false clear)
    else if good then (if 2 ≤ count then rematch st sp g s else add)
    else clear
  | .armed | .firing | .pasting | .cutting | .braking | .indexing | .spindown | .completed | .aborted | .failed => s

/-- The fire pulse (R92, R93): the three points worked out, the fire count 0, KNIFE_LATE noted, the fire point taken at
once if it is 0. -/
def firePulse (st : StandIx) (n : Nat) (sp : Splice) (g : Int) (s : State) : State :=
  let x := s.stand st
  let p := firePointsFor g x.gauge.webSpeed x.profile.settings (sp.params.pasteTarget.getD 0)
    (sp.params.knifeDistance.getD 0)
  let t := s.modWork st (fun w => { w with points := some p.1, fireCount := some 0 })
  judgePoints st (if p.2 then noteSplice n .knifeLate t else t)

/-- Whether the sequencer measures revolutions in a splice state (R80): from the commit until it leaves FIRING. -/
def measures : SpliceState → Bool
  | .accel | .matched | .waiting | .firing => true
  | .armed | .pasting | .cutting | .braking | .indexing | .spindown | .completed | .aborted | .failed => false

/-- A revolution formed by a pulse (R80, R81, R92): g kept, the counts restarted, then the judgement or the fire
pulse. -/
def formRevolution (st : StandIx) (n : Nat) (sp : Splice) (r : Revolution) (s : State) : State :=
  let w := s.work st
  let t := s.modWork st (fun w => { w with revolution := some { tach := 0, web := 0 }, keptGirth := some r.tach })
  if sp.state = .firing then
    if w.points.isNone then firePulse st n sp r.tach t else t
  else
    afterRevolution st n sp (goodRev w sp r) r.tach (t.modWork st (fun w => { w with prevGirth := some r.tach }))

/-- PASTE_MARK_PULSE (R80). -/
def execPasteMarkPulse (st : StandIx) (s : State) : Res :=
  onDevice (fun s =>
    match s.activeSplice st with
    | none => s
    | some (n, sp) =>
      if measures sp.state then
        match (s.work st).revolution with
        | none => s.modWork st (fun w => { w with revolution := some { tach := 0, web := 0 } })
        | some r => if r.tach < 300 then s else formRevolution st n sp r s
      else s) s

/-! ### REV_PULSE (R39 to R41, R101, R102) -/

/-- The measurement starts afresh from a pulse (R39): the glitch streak keeps its value. -/
def Gauge.setReference (g : Gauge) : Gauge := { g with ref := true, revCount := 0, runMark := 0, tripped := false }

/-- Whether a candidate diameter is accepted (R40). -/
def candidateOk (r : Reel) (d : Int) : Bool :=
  decide ((r.paper.core : Int) ≤ d) && (match r.diameter with
    | some held => decide (d ≤ (held : Int) + 3)
    | none => true)

/-- A candidate diameter judged (R40, R41), the counts already restarted. -/
def judgeCandidate (st : StandIx) (h : Nat) (r : Reel) (d : Int) (s : State) : State :=
  if candidateOk r d then
    diameterChanged st ((s.modReel h (fun r => { r with diameter := some d.toNat })).modGauge st
      (fun g => { g with streak := 0 }))
  else if (s.stand st).gauge.streak = 2 then
    diameterChanged st ((dropRunningDiameter st (raise st .diameterGlitch s)).modGauge st (fun g => { g with streak := 0 }))
  else s.modGauge st (fun g => { g with streak := g.streak + 1 })

/-- The gauge takes a REV pulse (R39). -/
def gaugeRevPulse (st : StandIx) (arm : Arm) (s : State) : State :=
  match s.runningReel st with
  | some (h, r) =>
    if r.loc = some (st, arm) then
      let g := (s.stand st).gauge
      if g.ref = false ∨ g.tripped = true then s.modGauge st Gauge.setReference
      else
        let t := s.modGauge st (fun g => { g with revCount := 0, runMark := 0 })
        if g.revCount ≤ 0 then t else judgeCandidate st h r (diameterOf g.revCount) t
    else s
  | none => s

/-- Whether the stand's splice is in the spin-down of a splice not carried (R101). -/
def State.uncarried (s : State) (st : StandIx) : Bool :=
  match s.activeSplice st with
  | some (_, sp) => decide (sp.state = .spindown) && decide (sp.cause = some .spliceNotCarried)
  | none => false

/-- Whether the sequencer watches the butt arm's REV input (R101, R102): in BRAKING, in the spin-down of a splice not
carried, and while a brake is kept on. -/
def State.watchesButt (s : State) (st : StandIx) : Bool :=
  decide (s.spliceState st = some .braking) || s.uncarried st || (s.work st).brakeKept

/-- The sequencer takes a REV pulse: one on the butt arm starts the rev-quiet timer afresh (R102). -/
def seqRevPulse (st : StandIx) (arm : Arm) (s : State) : State :=
  if s.watchesButt st = true ∧ (s.work st).buttArm = some arm then
    s.modWork st (fun w => { w with revQuietTimer := some revQuietMs })
  else s

/-- REV_PULSE (R39, R102, R136): the gauge, then the sequencer (log 9). -/
def execRevPulse (st : StandIx) (arm : Arm) (s : State) : Res :=
  onDevice (fun s => seqRevPulse st arm (gaugeRevPulse st arm s)) s

/-! ### FOLDER_CUT_PULSE (R128) -/

/-- FOLDER_CUT_PULSE (R128): with the gate open the waste count of the folder and the waste copies of every mark in the
window increase. -/
def execFolderCutPulse (f : FolderIx) (s : State) : Res :=
  onDevice (fun s =>
    if s.gateOpen f then
      let hits := (s.folder f).track.filter (s.refInWindow f)
      let t := hits.foldl (fun t r => t.modSplice r.splice (fun sp =>
        { sp with mark := { sp.mark with waste := min 65535 (sp.mark.waste + 1) } })) s
      t.modFolder f (fun F => { F with wasteCount := F.wasteCount + 1 })
    else s) s

end Sys2Proof.Machine
end

