-- ==== Sys2Proof/Machine/FieldEvents.lean ====
section
/-! DEFINITION. The field events: SAMPLING_TIMER_EXPIRY (R133 to R135, R137) and the accepted changes taken by their blocks:
STAR_CODE_ACCEPTED (R2, R5, R103 to R105), REEL_PRESENT_LOSS (R32), WEB_PRESENT_LOSS (R101, R106), PASTER_ENGAGED_ACTIVE
(R95), PASTER_HOME_ACTIVE (R102), KNIFE_HOME_ACTIVE (R99, R103), SAFETY_GATE_CHANGE (R103), DRIVER_HOT_ACTIVE and
DRIVER_HOT_INACTIVE (R76, R142).

An acceptance is made within SAMPLING_TIMER_EXPIRY, which hands the change on (`Field.handed`); the change's own command takes
it. A change's command for which nothing is handed makes the acceptance itself first, if the level is not accepted yet
(log 3). -/

namespace Sys2Proof.Machine

/-! ### Debounce (R133) -/

/-- One sample of one input: the new scanner state, and whether the sample completes an acceptance. -/
def Debounce.take (d : Debounce) (level : Fin 4) : Debounce × Bool :=
  if d.accepted = some level then ({ d with candidate := none, run := 0 }, false)
  else if d.candidate = some level then
    if d.run = 2 then ({ accepted := some level, candidate := none, run := 0 }, true)
    else ({ d with run := d.run + 1 }, false)
  else ({ d with candidate := some level, run := 1 }, false)

/-- A switch level as 0 or 1. -/
def levelOf (active : Bool) : Fin 4 := if active then 1 else 0

/-- The code of the two STAR lines read together, STAR-1 the more significant (R135). -/
def starCode (star0 star1 : Bool) : Fin 4 :=
  match star1, star0 with
  | false, false => 0
  | false, true => 1
  | true, false => 2
  | true, true => 3

/-- The level that a sample gives an input; the two STAR lines give one code (R135). -/
def sampleLevel (x : Sample) : Input → Fin 4
  | .reelPresent 0 => levelOf x.reelPresentA
  | .reelPresent 1 => levelOf x.reelPresentB
  | .reelPresent 2 => levelOf x.reelPresentC
  | .pasterHome => levelOf x.pasterHome
  | .pasterEngaged => levelOf x.pasterEngaged
  | .knifeHome => levelOf x.knifeHome
  | .webPresent => levelOf x.webPresent
  | .safetyGate => levelOf x.safetyGate
  | .driverHot => levelOf x.driverHot
  | .star => starCode x.star0 x.star1

/-! ### The change set (R137) -/

/-- Advance the snapshot number; at the wrap every entry's last change becomes 0. -/
def Field.advance (x : Field) : Field :=
  if x.snapshot = 4294967295 then
    { x with snapshot := 1, changes := x.changes.map (fun e => { e with last := 0 }) }
  else { x with snapshot := x.snapshot + 1 }

/-- The entry of an input after one more change. -/
def nextEntry (i : Input) (level : Fin 4) (snapshot : Nat) (old : Option ChangeEntry) : ChangeEntry where
  input := i
  level := level
  changes := match old with
    | some e => min 255 (e.changes + 1)
    | none => 1
  last := snapshot

/-- Enter an accepted change: the snapshot number advances, and the input's entry is made or updated. The entry last
changed stands last (log 13). -/
def Field.enter (x : Field) (i : Input) (level : Fin 4) : Field :=
  let x := x.advance
  { x with changes := x.changes.filter (fun e => !decide (e.input = i))
      ++ [nextEntry i level x.snapshot (x.changes.find? (fun e => decide (e.input = i)))] }

/-! ### Acceptance (R134) -/

/-- Accept a level: a later acceptance is a change and is entered in the change set, a first one establishes the level. -/
def acceptInput (st : StandIx) (i : Input) (level : Fin 4) (s : State) : State :=
  s.modField st (fun x =>
    let y := x.setInput i { accepted := some level, candidate := none, run := 0 }
    if (x.input i).accepted.isSome then y.enter i level else y)

/-- Whether an acceptance is handed to a block as a command of its own: `first` tells a first acceptance (R134). -/
def handsOn (i : Input) (level : Fin 4) (first : Bool) : Bool :=
  match i with
  | .star => true
  | .driverHot => !first || decide (level = 1)
  | .reelPresent _ => !first && decide (level = 0)
  | .webPresent => !first && decide (level = 0)
  | .pasterHome => !first && decide (level = 1)
  | .pasterEngaged => !first && decide (level = 1)
  | .knifeHome => !first && decide (level = 1)
  | .safetyGate => !first

/-- The inputs that INDEX-REQ depends on (R103). -/
def gatesIndex : Input → Bool
  | .knifeHome | .safetyGate => true
  | .reelPresent _ | .pasterHome | .pasterEngaged | .webPresent | .driverHot | .star => false

/-- An acceptance that no command of its own takes: INDEX-REQ follows KNIFE-HOME and SAFETY-GATE all the same (R103). -/
def settleIndex (st : StandIx) (i : Input) (s : State) : State := if gatesIndex i then updateIndexReq st s else s

/-- Take one sample of one input (R133, R134). -/
def sampleInput (st : StandIx) (i : Input) (level : Fin 4) (s : State) : State :=
  let d := (s.stand st).field.input i
  if (d.take level).2 then
    let t := acceptInput st i level s
    if handsOn i level d.accepted.isNone then
      t.modField st (fun x => { x with handed := x.handed ++ [{ input := i, level := level }] })
    else settleIndex st i t
  else s.modField st (fun x => x.setInput i (d.take level).1)

/-- SAMPLING_TIMER_EXPIRY (R133): every switch input and STAR sampled, in the order of R137 (log 8); the timer restarted. -/
def execSamplingTimerExpiry (st : StandIx) (sample : Sample) (s : State) : Res :=
  onDevice (fun s =>
    (allInputs.foldl (fun t i => sampleInput st i (sampleLevel sample i) t) s).modField st
      (fun x => { x with samplingTimer := some 2 })) s

/-- Take an accepted change (log 3): the first one handed for the input if it has this level; with none handed, the
acceptance is made here if the level is not accepted yet, and a first acceptance has its effect only where R134 hands it
on. -/
def takeChange (st : StandIx) (i : Input) (level : Fin 4) (effect : State → State) (s : State) : State :=
  let x := (s.stand st).field
  match x.handed.find? (fun h => decide (h.input = i)) with
  | some h =>
    if h.level = level then effect (s.modField st (fun x => { x with handed := x.handed.erase h })) else s
  | none =>
    if (x.input i).accepted = some level then s
    else
      let t := acceptInput st i level s
      if handsOn i level (x.input i).accepted.isNone then effect t else settleIndex st i t

/-! ### The star (R2, R5, R104, R105) -/

/-- A departure from a settled index, taken by the sequencer (R105), less the hand-over of the reel change. -/
def departure (st : StandIx) (s : State) : State :=
  match s.activeSplice st with
  | none => s
  | some (n, sp) =>
    match sp.state with
    | .armed | .accel | .matched | .waiting | .firing => giveUp st n sp .starMoved (raise st .starMoved s)
    | .pasting | .cutting => raise st .starMoved s
    | .braking | .indexing | .spindown | .completed | .aborted | .failed => s

/-- A settling at index j, taken by the sequencer in INDEXING (R104). -/
def settling (st : StandIx) (j : Arm) (s : State) : State :=
  match s.activeSplice st with
  | none => s
  | some (n, sp) =>
    if sp.state = .indexing then
      if (s.work st).startIndex.map (· + 1) = some j then standEnd st n .indexed s
      else standEnd st n .starSettledElsewhere (raise st .starMoved s)
    else s

/-- The star index that a code gives (R2). -/
def starOf (code : Fin 4) : StarIndex :=
  if h : code.val < 3 then .settled ⟨code.val, h⟩ else .moving

/-- Set the star index and, for a settled code, the last settled index (R2). -/
def setStar (st : StandIx) (x : StarIndex) (s : State) : State :=
  s.modStand st (fun y => { y with
    star := x
    lastSettled := match x with
      | .settled k => some k
      | .moving => y.lastSettled
      | .unknown => y.lastSettled })

/-- The Web Plan takes an accepted STAR code (R2, R5): the values first, then the departure and the settling to the
sequencer, then the appearance and the reel call. A change between two settled codes is taken as a departure and a
settling; the reel call takes both at once, on the new positions, so that it never finds SPLICE without a reel in between
(log 17). -/
def starTaken (st : StandIx) (code : Fin 4) (s : State) : State :=
  let t := setStar st (starOf code) s
  match (s.stand st).star, starOf code with
  | .settled _, .settled j => handOn st (setStar st .moving s) (settling st j (departure st t))
  | .settled _, .moving => handOn st s (departure st t)
  | .moving, .settled j => handOn st s (settling st j t)
  | .unknown, .settled j => handOn st s (settling st j t)
  | .settled _, .unknown => t
  | .moving, .moving => t
  | .moving, .unknown => t
  | .unknown, .moving => t
  | .unknown, .unknown => t

/-- STAR_CODE_ACCEPTED (R2, R5, R103 to R105, R135). -/
def execStarCodeAccepted (st : StandIx) (code : Fin 4) (s : State) : Res :=
  onDevice (takeChange st .star code (starTaken st code)) s

/-! ### A reel leaving its arm (R32) -/

/-- A reel removed unannounced (R32). -/
def removeReel (h : Nat) (s : State) : State :=
  s.modReel h (fun r => { toFloor r with notes := addTo .removedUnannounced r.notes })

/-- The loss of a reserved reel (R32, fourth to sixth row): REEL_LOST; a splice before PASTING is given up and the reel
goes to the floor. -/
def loseReserved (st : StandIx) (h : Nat) (s : State) : State :=
  let t := raise st .reelLost s
  match s.activeSplice st with
  | none => t
  | some (n, sp) =>
    match sp.state with
    | .armed | .accel | .matched | .waiting | .firing => handOn st s (removeReel h (giveUp st n sp .reelLost t))
    | .pasting | .cutting | .braking | .indexing | .spindown | .completed | .aborted | .failed => t

/-- The effect of the loss on the record located on the arm (R32). -/
def reelLost (st : StandIx) (arm : Arm) (s : State) : State :=
  match s.reelOn st arm with
  | none => s
  | some (h, r) =>
    if r.reservedBy.isSome then loseReserved st h s
    else match r.state with
    | .mounted | .ready => handOn st s (removeReel h s)
    | .butt => handOn st s (s.modReel h (fun r => { r with loc := none }))
    | .running => raise st .reelLost s
    | .committed => loseReserved st h s
    | .floor => s

/-- REEL_PRESENT_LOSS (R32). -/
def execReelPresentLoss (st : StandIx) (arm : Arm) (s : State) : Res :=
  onDevice (takeChange st (.reelPresent arm) 0 (reelLost st arm)) s

/-! ### The web (R101, R106) -/

/-- A loss of the web outside CUTTING (R106). -/
def webBreak (st : StandIx) (s : State) : State :=
  let t := purgeStand st ((raise st .webBreak s).modSeq st (fun q => { q with webBroken := true }))
  match t.activeSplice st with
  | none => t
  | some (n, sp) =>
    match sp.state with
    | .armed | .accel | .matched | .waiting | .firing => handOn st s (giveUp st n sp .webBreak t)
    | .pasting => failPaste st n sp (setCause n .webBreak t)
    | .cutting | .braking | .indexing | .spindown | .completed | .aborted | .failed => t

/-- The effect of the loss of the web: in CUTTING the splice is not carried (R101), else the web breaks (R106). -/
def webLost (st : StandIx) (s : State) : State :=
  match s.activeSplice st with
  | some (n, sp) => if sp.state = .cutting then notCarried st n sp s else webBreak st s
  | none => webBreak st s

/-- WEB_PRESENT_LOSS (R101, R106). -/
def execWebPresentLoss (st : StandIx) (s : State) : Res := onDevice (takeChange st .webPresent 0 (webLost st)) s

/-! ### Paster, knife, gate, driver -/

/-- PASTER_ENGAGED_ACTIVE (R95): in PASTING the paster is confirmed and the confirm timer stops. -/
def execPasterEngagedActive (st : StandIx) (s : State) : Res :=
  onDevice (takeChange st .pasterEngaged 1 (fun s =>
    if s.spliceState st = some .pasting then s.modWork st (fun w => { w with confirmed := true, confirmTimer := none })
    else s)) s

/-- PASTER_HOME_ACTIVE (R102): in BRAKING, with the rev-quiet timer expired, the braking ends. -/
def execPasterHomeActive (st : StandIx) (s : State) : Res :=
  onDevice (takeChange st .pasterHome 1 (fun s =>
    match s.activeSplice st with
    | some (n, sp) =>
      if sp.state = .braking ∧ (s.work st).revQuietTimer = none then endBraking st n s else s
    | none => s)) s

/-- KNIFE_HOME_ACTIVE (R99, R103): the knife-home timer stops; INDEX-REQ follows. -/
def execKnifeHomeActive (st : StandIx) (s : State) : Res :=
  onDevice (takeChange st .knifeHome 1 (fun s =>
    updateIndexReq st (s.modWork st (fun w => { w with knifeHomeTimer := none })))) s

/-- SAFETY_GATE_CHANGE (R103): found open in INDEXING, SAFETY_GATE_OPEN the first time; INDEX-REQ follows. -/
def execSafetyGateChange (st : StandIx) (closed : Bool) (s : State) : Res :=
  onDevice (takeChange st .safetyGate (levelOf closed) (fun s =>
    if s.spliceState st = some .indexing then
      updateIndexReq st (if closed then s else gateFoundOpen st s)
    else s)) s

/-- DRIVER_HOT_ACTIVE (R142): outputs in PULL_IN go to HOLD, and DRIVER_HOT is raised. -/
def execDriverHotActive (st : StandIx) (s : State) : Res :=
  onDevice (takeChange st .driverHot 1 (fun s =>
    raise st .driverHot (s.modField st (fun x =>
      { x with paster := x.paster.hot, knife := x.knife.hot, brake := x.brake.hot })))) s

/-- DRIVER_HOT_INACTIVE (R76, R142): both commit triggers are judged. -/
def execDriverHotInactive (st : StandIx) (s : State) : Res :=
  onDevice (takeChange st .driverHot 0 (judgeStart true st)) s

end Sys2Proof.Machine
end

