-- ==== Sys2Proof/Machine/SpliceRequests.lean ====
section
/-! DEFINITION. The requests on splices: ARM_SPLICE (R63, R64), AMEND_SPLICE (R65), SET_CHAIN (R68), READ_SPLICE (R67),
START_ACCEL (R77), FIRE_SPLICE (R84), ABORT_SPLICE (R86). -/

namespace Sys2Proof.Machine

/-- The answer to a failed check of R63. -/
def ArmFault.answer : ArmFault → Answer
  | .notInPlan => refused .notInPlan
  | .busy => plain .busy
  | .statusPending e => { code := .statusPending, payload := .entry e }
  | .queueFull => plain .full
  | .tableFull => plain .full
  | .webBroken => refused .webBroken
  | .noRunningReel => refused .noRunningReel
  | .noReadyReel => refused .noReadyReel
  | .driverHot => refused .driverHot
  | .paramConflict => refused .paramConflict

/-- The origin of a splice armed by request (R54). -/
def originOf : Client → Origin
  | .console => .console
  | .logistics => .console
  | .panel _ => .panel

/-- The number of the stand's active splice, 0 where there is none (it always is when an answer carries it). -/
def State.activeNumber (s : State) (st : StandIx) : Nat := (s.work st).active.getD 0

/-- Arm a splice (R64 steps 1 to 3). -/
def arm (st : StandIx) (origin : Origin) (trigger : Trigger) (explicit : Params (Option Int)) (clamped : Bool)
    (s : State) : State :=
  judgeStart false st (handOn st s (allocate st origin trigger explicit clamped s))

/-- ARM_SPLICE (R63, R64). The answer is that of step 2; the commit that step 3 may bring does not change it. -/
def execArmSplice (c : Client) (stand : Nat) (trigger : Trigger) (values : Params (Option Int)) (s : State) : Res :=
  serve (.armSplice c stand trigger values) (fun s =>
    match standIx stand with
    | none => (badRequest, s)
    | some st =>
      if byMode (s.stand st).queue.mode st c = false then (notPermitted, s)
      else match armFault st (clampOptional values) s with
      | some e => (e.answer, s)
      | none =>
        let clamped := anyMarker (clampMarkers values)
        let number := (allocate st (originOf c) trigger (clampOptional values) clamped s).activeNumber st
        (doneClamped clamped (.spliceNumber number),
          arm st (originOf c) trigger (clampOptional values) clamped s)) s

/-- Whether the explicit values an amend would leave are consistent (R59, R65). -/
def State.amendConsistent (s : State) (sp : Splice) (explicit : Params (Option Int)) : Bool :=
  s.commitConsistent { sp with explicit := explicit }

/-- AMEND_SPLICE (R65). -/
def execAmendSplice (c : Client) (number : Nat) (values : Params AmendParam) (s : State) : Res :=
  serve (.amendSplice c number values) (fun s =>
    if numberOk number = false then (badRequest, s)
    else match s.splice? number with
    | none => (plain .notFound, s)
    | some sp =>
      if byMode (s.stand sp.stand).queue.mode sp.stand c = false then (notPermitted, s)
      else if sp.state ≠ .armed then (plain .locked, s)
      else if s.amendConsistent sp (amendExplicit sp.explicit values) = false then (refused .paramConflict, s)
      else
        let t := s.modSplice number (fun x => { x with explicit := amendExplicit x.explicit values })
        let t := if amendClamped values then noteSplice number .clamped t else t
        (doneClamped (amendClamped values) (.spliceNumber number), judgeStart false sp.stand t)) s

/-- SET_CHAIN (R68): a SET CHAIN on is an occasion for an auto-arm attempt (R69). -/
def execSetChain (c : Client) (stand : Nat) (on : Bool) (s : State) : Res :=
  serve (.setChain c stand on) (fun s =>
    match standIx stand with
    | none => (badRequest, s)
    | some st =>
      if byMode (s.stand st).queue.mode st c = false then (notPermitted, s)
      else
        let t := s.modSeq st (fun q => { q with chain := on })
        (done, if on then chainOccasion st t else t)) s

/-- READ_SPLICE (R67). -/
def execReadSplice (c : Client) (number : Nat) (s : State) : Res :=
  serve (.readSplice c number) (fun s =>
    if numberOk number = false then (badRequest, s)
    else match s.splice? number with
    | none => (plain .notFound, s)
    | some sp => ({ code := .done, payload := .splice (s.spliceImage number sp) }, s)) s

/-- START ACCEL taken on an ARMED splice (R76, R77). With start pending already yes it changes nothing. -/
def startArmed (st : StandIx) (n : Nat) (sp : Splice) (s : State) : Answer × State :=
  if (s.work st).startPending then ({ code := .done, payload := .started n .armed }, s)
  else if s.isActive st .driverHot then
    ({ code := .done, payload := .started n .armed }, s.modWork st (fun w => { w with startPending := true }))
  else if s.commitConsistent sp then ({ code := .done, payload := .started n .accel }, commit st n sp s)
  else (refused .paramConflict, commit st n sp s)

/-- START_ACCEL (R77). -/
def execStartAccel (c : Client) (stand : Nat) (s : State) : Res :=
  serve (.startAccel c stand) (fun s =>
    match standIx stand with
    | none => (badRequest, s)
    | some st =>
      if byMode (s.stand st).queue.mode st c = false then (notPermitted, s)
      else match s.activeSplice st with
      | none => (refused .wrongState, s)
      | some (n, sp) => if sp.state = .armed then startArmed st n sp s else (refused .wrongState, s)) s

/-- FIRE_SPLICE (R84). -/
def execFireSplice (c : Client) (stand : Nat) (s : State) : Res :=
  serve (.fireSplice c stand) (fun s =>
    match standIx stand with
    | none => (badRequest, s)
    | some st =>
      if byMode (s.stand st).queue.mode st c = false then (notPermitted, s)
      else match s.activeSplice st with
      | none => (refused .wrongState, s)
      | some (n, sp) =>
        match sp.state with
        | .armed | .accel => (refused .notMatched, s)
        | .matched => ({ code := .done, payload := .spliceNumber n }, enterWaiting st n sp s)
        | .waiting | .firing | .pasting | .cutting | .braking | .indexing | .spindown => (plain .busy, s)
        | .completed | .aborted | .failed => (refused .wrongState, s)) s

/-- ABORT_SPLICE (R86). -/
def execAbortSplice (c : Client) (stand : Nat) (s : State) : Res :=
  serve (.abortSplice c stand) (fun s =>
    match standIx stand with
    | none => (badRequest, s)
    | some st =>
      if consoleOrPanel st c = false then (notPermitted, s)
      else match s.activeSplice st with
      | none => (refused .wrongState, s)
      | some (n, sp) =>
        match sp.state with
        | .armed | .accel | .matched | .waiting | .firing =>
          ({ code := .done, payload := .spliceNumber n }, handOn st s (giveUp st n sp .abortRequest s))
        | .spindown => ({ code := .done, payload := .spliceNumber n }, s)
        | .pasting | .cutting | .braking | .indexing => (plain .tooLate, s)
        | .completed | .aborted | .failed => (refused .wrongState, s)) s

end Sys2Proof.Machine
end

