-- ==== Sys2Proof/Machine/HandOvers.lean ====
section
/-! DEFINITION. The two hand-overs that the table gives a command of their own: AUTO_ARM_ATTEMPT (R69 to R71) and
GRANT_EVALUATION (R117 to R119). Each takes one occasion handed before (log 4). -/

namespace Sys2Proof.Machine

/-- CHAIN_BLOCKED, once until the next successful auto-arm (R70). -/
def chainBlocked (st : StandIx) (s : State) : State :=
  if (s.stand st).seq.chainBlocked then s
  else (raise st .chainBlocked s).modSeq st (fun q => { q with chainBlocked := true })

/-- An auto-arm attempt: the checks of R63 from the third on, with no explicit values; the arming of R64 with origin CHAIN
and trigger AUTO; a failure for want of room taken by R70. -/
def autoArm (st : StandIx) (s : State) : State :=
  match armFault st noParams s with
  | none => arm st .chain .auto noParams false (s.modSeq st (fun q => { q with chainBlocked := false }))
  | some .queueFull => chainBlocked st s
  | some .tableFull => chainBlocked st s
  | some .notInPlan | some .busy | some (.statusPending _) | some .webBroken | some .noRunningReel | some .noReadyReel
  | some .driverHot | some .paramConflict => s

/-- One occasion taken by the sequencer (R69): with the chain flag off, or an exception in the queue, no attempt. -/
def takeChainOccasion (st : StandIx) (s : State) : State :=
  let t := s.modSeq st (fun q => { q with chainOccasions := q.chainOccasions - 1 })
  if (s.stand st).seq.chain = true ∧ (s.stand st).queue.oldestException.isNone = true then autoArm st t else t

/-- AUTO_ARM_ATTEMPT (R69, R70): taken while an occasion is held. -/
def execAutoArmAttempt (st : StandIx) (s : State) : Res :=
  onDevice (fun s => if (s.stand st).seq.chainOccasions = 0 then s else takeChainOccasion st s) s

/-! ### The grant (R117, R119) -/

/-- Whether the folder as a whole bars a grant (R117): the slot held, 8 marks on the track, or the device reset pending. -/
def State.folderBarred (s : State) (f : FolderIx) : Bool :=
  (s.folder f).slot.isSome || decide (8 ≤ (s.folder f).track.length) || s.link.resetPending

/-- Whether a waiter may be granted the slot (R117): matched, fast enough, and spacing met or the waiter at last
chance. -/
def State.eligible (s : State) (f : FolderIx) (e : WaitEntry) : Bool :=
  e.matched
  && (match (s.splice? e.splice).bind (·.params.minSpeed) with
      | some v => decide (v ≤ ((s.stand e.stand).gauge.webSpeed : Int))
      | none => false)
  && (s.spacingMet f || e.atLastChance)

/-- The star index as recorded at entry to FIRING (R92): it is settled. -/
def settledIndex : StarIndex → Option Arm
  | .settled k => some k
  | .moving => none
  | .unknown => none

/-- Grant the slot to a waiter (R119, R92): the slot held, the entry off the list, the splice in FIRING with its start
index; the match plays no further part. -/
def grant (f : FolderIx) (e : WaitEntry) (s : State) : State :=
  let t := s.modFolder f (fun F => { F with slot := some { splice := e.splice, stand := e.stand } })
  let t := leaveWaits f e.stand t
  (setSpliceState e.splice .firing t).modWork e.stand (fun w =>
    { w with startIndex := settledIndex (s.stand e.stand).star, goodCount := 0, matched := false })

/-- One evaluation of the grant (R117): the first eligible waiter in list order. -/
def evaluateGrant (f : FolderIx) (s : State) : State :=
  if s.folderBarred f then s
  else match (s.folder f).waits.find? (s.eligible f) with
  | some e => grant f e s
  | none => s

/-- GRANT_EVALUATION (R117, R118): taken while an occasion is held. -/
def execGrantEvaluation (f : FolderIx) (s : State) : Res :=
  onDevice (fun s =>
    if (s.folder f).grantOccasions = 0 then s
    else evaluateGrant f (s.modFolder f (fun F => { F with grantOccasions := F.grantOccasions - 1 }))) s

end Sys2Proof.Machine
end

