-- ==== Sys2Proof/Machine/LinkRows.lean ====
section
/-! DEFINITION. The commands of the resets, the Time Counter and the Request Link (R162 to R171): POWER_ON, the RESET pin,
TIME_COUNTER_TICK, the receiver, the transmitter, RESET_DEVICE and READ_DEVICE. -/

namespace Sys2Proof.Machine

/-! ### Full reset (R170) -/

/-- A full reset with the given cause: every block takes its reset values. The queue of waiting commands is the model's
own and is kept (log 1). -/
def fullReset (cause : ResetCause) (s : State) : State := { State.afterReset cause with pending := s.pending }

/-- The outputs of a stand in their reset state (R145, R170). -/
def dropOutputs (st : StandIx) (s : State) : State :=
  (s.modField st (fun x =>
    { x with paster := Actuator.reset, knife := Actuator.reset, brake := Actuator.reset, knifePulse := none })).modWork st
    (fun w => { w with driveEn := false, demand := 0, indexReq := false, indexTimer := none })

/-- POWER_ON (R170): a full reset with cause POWER. With the RESET pin asserted the device stays held in reset, and its
release gives the cause POWER. -/
def execPowerOn (s : State) : Res :=
  if s.link.resetPin then
    .next ((fullReset .power s).modLink (fun l => { l with resetPin := true, powerUnderPin := true }))
  else .next (fullReset .power s)

/-- RESET_PIN_ASSERTED (R170): every output in its reset state, the frame being sent cut off, the device held. -/
def execResetPinAsserted (s : State) : Res :=
  .next ((allStands.foldl (fun s st => dropOutputs st s) s).modLink (fun l => { l with line := none, resetPin := true }))

/-- RESET_PIN_RELEASED (R170): the full reset takes effect, with cause PIN, or POWER if the pin was asserted during
power-on. Without a pin asserted there is nothing to release. -/
def execResetPinReleased (s : State) : Res :=
  if s.link.resetPin then .next (fullReset (if s.link.powerUnderPin then .power else .pin) s) else .next s

/-- TIME_COUNTER_TICK (R168): one millisecond, wrapping. -/
def execTimeCounterTick (s : State) : Res :=
  onDevice (fun s => s.modLink (fun l => { l with time := l.time + 1 })) s

/-! ### The receiver (R163, R164, R167) -/

/-- Whether an entry is a RESET DEVICE not yet taken (R169). -/
def LinkEntry.resetAhead (e : LinkEntry) : Bool := e.untaken && decide (e.code = 0x61)

/-- The state in which a well-formed request joins the list (R165): ANSWERED with BAD_REQUEST where the link's checks
fail, HELD behind an untaken RESET DEVICE, else WITH OWNER. -/
def joinState (list : List LinkEntry) (c : Client) (code : Byte) (payload : List Byte) : EntryState :=
  match requestOf c code payload with
  | none => .answered badRequest
  | some _ => if list.any LinkEntry.resetAhead then .held else .withOwner

/-- A well-formed request joins the list at the back. -/
def joinList (c : Client) (tag code : Byte) (payload : List Byte) (l : Link) : Link :=
  { l with list := l.list ++
      [{ client := c, tag := tag, code := code, payload := payload, state := joinState l.list c code payload }] }

/-- The judgement of a complete frame (R164), from its length byte on. -/
def judgeFrame (frame : List Byte) (l : Link) : Link :=
  match frame with
  | len :: cl :: tag :: code :: rest =>
    let payload := rest.take len.toNat
    if rest.drop len.toNat = checkBytes (len :: cl :: tag :: code :: payload) then
      match clientOf cl with
      | some c =>
        if l.list.length < 16 then joinList c tag code payload l
        else { l with overrun := min 65535 (l.overrun + 1) }
      | none => l
    else l
  | _ => l

/-- The size of the frame that begins with the held bytes, once the length is among them (R162). -/
def frameSize : List Byte → Nat
  | _ :: len :: _ => 7 + len.toNat
  | _ => 0

/-- A character in RECEIVING (R163). -/
def receiveByte (held : List Byte) (b : Byte) (framingError : Bool) (l : Link) : Link :=
  let bytes := held ++ [b]
  if framingError then { l with receiver := .hunt }
  else if held.length = 1 then
    { l with receiver := if b.toNat ≤ 240 then .receiving bytes else .hunt }
  else if bytes.length = frameSize bytes then { judgeFrame (bytes.drop 1) l with receiver := .hunt }
  else { l with receiver := .receiving bytes }

/-- One received character (R163). -/
def Link.receive (b : Byte) (framingError : Bool) (l : Link) : Link :=
  match l.receiver with
  | .hunt => if b = startCode ∧ framingError = false then { l with receiver := .receiving [b] } else l
  | .receiving held => receiveByte held b framingError l

/-- CHARACTER_RECEIVED (R163, R164): between the acceptance of RESET DEVICE and the reset the receiver takes no
characters (R169). -/
def execCharacterReceived (b : Byte) (framingError : Bool) (s : State) : Res :=
  onDevice (fun s => if s.link.resetPending then s else s.modLink (Link.receive b framingError)) s

/-- INTER_CHARACTER_TIMER_EXPIRY (R163): the frame under way is abandoned; in HUNT the timer does not run. -/
def execInterCharacterTimerExpiry (s : State) : Res := onDevice (fun s => s.modLink (fun l => { l with receiver := .hunt })) s

/-! ### The transmitter (R165) -/

/-- TRANSMIT_ANSWER (R165): with the line free, the answer of the front entry if it is ANSWERED. -/
def execTransmitAnswer (s : State) : Res :=
  onDevice (fun s => s.modLink (fun l =>
    match l.line, l.list with
    | none, e :: _ =>
      match e.state with
      | .answered a => { l with line := some (answerFrame e a) }
      | .withOwner => l
      | .held => l
    | none, [] => l
    | some _, _ => l)) s

/-- ANSWER_LAST_BYTE_SENT (R165): the front entry is removed and the line is free; after the answer to an accepted RESET
DEVICE the full reset is performed (R169). A RESET DEVICE given directly has no frame on the line, and its reset is performed here
too (log 2). -/
def execAnswerLastByteSent (s : State) : Res :=
  onDevice (fun s =>
    if s.link.line.isSome then
      if s.link.resetPending then fullReset .request s
      else s.modLink (fun l => { l with list := l.list.tail, line := none })
    else if s.link.resetPending ∧ s.link.list = [] then fullReset .request s
    else s) s

/-! ### The device requests (R168, R169) -/

/-- The HELD requests are passed to their owners in list order (R169), up to and including the next RESET DEVICE. -/
def releaseHeld : List LinkEntry → List LinkEntry
  | [] => []
  | e :: t =>
    if e.state = .held then
      if e.code = 0x61 then { e with state := .withOwner } :: t
      else { e with state := .withOwner } :: releaseHeld t
    else e :: releaseHeld t

/-- Whether any splice is in FIRING, PASTING or CUTTING (R169). -/
def State.anyHoldsSlot (s : State) : Bool := s.splices.any (fun p => holdsSlot p.2.state)

/-- The answer to RESET DEVICE (R169). -/
def State.resetAnswer (s : State) (c : Client) : AnswerCode :=
  if c ≠ .console then .notPermitted else if s.anyHoldsSlot then .busy else .done

/-- Whether the link takes a RESET DEVICE now: it is the front entry, WITH OWNER, or no request at all is listed
(R169, log 2). -/
def State.mayReset (s : State) (c : Client) : Bool :=
  match s.link.list with
  | [] => true
  | e :: _ => decide (e.state = .withOwner) && decide (e.request = some (.resetDevice c))

/-- RESET_DEVICE (R169): refused, the HELD requests behind it are passed on; accepted, the device is reset pending. -/
def execResetDevice (c : Client) (s : State) : Res :=
  onDevice (fun s =>
    if s.mayReset c then
      let t := deliver (.resetDevice c) (plain (s.resetAnswer c)) s
      if s.resetAnswer c = .done then t.modLink (fun l => { l with resetPending := true })
      else t.modLink (fun l => { l with list := releaseHeld l.list })
    else s) s

/-- READ_DEVICE (R168). -/
def execReadDevice (c : Client) (s : State) : Res :=
  serve (.readDevice c) (fun s => ({ code := .done, payload := .device s.deviceImage }, s)) s

end Sys2Proof.Machine
end

