-- ==== Sys2Proof/Machine/ReelRequests.lean ====
section
/-! DEFINITION. The requests of the Reel Table (R13 to R29). Each is checked first for its addressing, then for the handle's
record, then for the client, then by its own rule (R14). -/

namespace Sys2Proof.Machine

/-- The lowest free handle (R13). -/
def State.freeHandle (s : State) : Option Nat :=
  ((List.range 48).map (· + 1)).find? (fun h => (s.reel? h).isNone)

/-- The record that holds a reel code, with its handle (R13). -/
def State.reelWithCode (s : State) (code : List Nat) : Option (Nat × Reel) :=
  s.reels.find? (fun p => decide (p.2.code = code))

/-- A reel record as ANNOUNCE REEL creates it (R22). -/
def newReel (code : List Nat) (paper : PaperData) (now : Stamp) : Reel where
  code := code
  paper := paper
  diameter := none
  girth := none
  loc := none
  state := .floor
  reservedBy := none
  reasons := []
  notes := []
  announced := now
  mounted := now
  runningSince := none
  residualDiameter := none
  residualLength := none

/-- Why ANNOUNCE REEL is refused (R14, R22), or none. -/
def State.announceFault (s : State) (c : Client) (code : List Nat) (paper : PaperData) : Option AnswerCode :=
  if reelClient c = false then some .notPermitted
  else if paperOk paper = false then some (.badRequest false)
  else match codeFault code with
  | some e => some e
  | none => if (s.reelWithCode code).isSome then some .duplicate else none

/-- ANNOUNCE_REEL (R22). -/
def execAnnounceReel (c : Client) (code : List Nat) (paper : PaperData) (s : State) : Res :=
  serve (.announceReel c code paper) (fun s =>
    match s.announceFault c code paper with
    | some e => (plain e, s)
    | none =>
      match s.freeHandle with
      | none => (plain .full, s)
      | some h =>
        ({ code := .done, payload := .handle h }, { s with reels := Table.insert h (newReel code paper s.now) s.reels })) s

/-- The answer that carries a reel's state and unready reasons (R25, R26). -/
def State.verdict (s : State) (h : Nat) : Payload :=
  match s.reel? h with
  | some r => .verdict r.state r.reasons
  | none => .none

/-- Verify one reel of a stand, if verification takes it (R20), and hand the change on (R21). -/
def verifyReel (st : StandIx) (h : Nat) (before s : State) : State :=
  handOn st before (s.modReel h (fun r => if verifiable st r then verify (s.stand st).plan (s.stand st).profile r else r))

/-- Why AMEND REEL is refused (R26), or none; LOCKED leaves a note. -/
def amendFault (r : Reel) (data : PaperAmend) : Option AnswerCode :=
  if r.state = .butt then some (.refused .wrongState)
  else if r.reservedBy.isSome = true ∨ r.state = .committed ∨ r.state = .running then some .locked
  else if paperAmendOk data = false then some (.badRequest false)
  else none

/-- AMEND_REEL (R26). -/
def execAmendReel (c : Client) (handle : Nat) (data : PaperAmend) (s : State) : Res :=
  serve (.amendReel c handle data) (fun s =>
    if handleOk handle = false then (badRequest, s)
    else match s.reel? handle with
    | none => (plain .notFound, s)
    | some r =>
      if reelClient c = false then (notPermitted, s)
      else match amendFault r data with
      | some .locked => (plain .locked, s.modReel handle (fun r => { r with notes := addTo .amendLocked r.notes }))
      | some e => (plain e, s)
      | none =>
        let t := s.modReel handle (fun r => { r with paper := amendPaper r.paper data })
        let t := match r.loc with
          | some (st, _) => verifyReel st handle s t
          | none => t
        ({ code := .done, payload := t.verdict handle }, t)) s

/-- MOUNT_REEL (R25). -/
def execMountReel (c : Client) (handle stand : Nat) (arm : Arm) (s : State) : Res :=
  serve (.mountReel c handle stand arm) (fun s =>
    match handleOk handle, standIx stand with
    | true, some st =>
      match s.reel? handle with
      | none => (plain .notFound, s)
      | some r =>
        if reelClient c = false ∧ c ≠ .panel st then (notPermitted, s)
        else if r.state ≠ .floor then (refused .wrongState, s)
        else if (s.reelOn st arm).isSome then (refused .armOccupied, s)
        else if s.isActive st (.reelPresent arm) = false then (refused .noReelPresent, s)
        else
          let t := s.modReel handle (fun r =>
            verify (s.stand st).plan (s.stand st).profile { r with loc := some (st, arm), mounted := s.now })
          let t := handOn st s t
          ({ code := .done, payload := t.verdict handle }, t)
    | _, _ => (badRequest, s)) s

/-- Whether a client may unmount a reel (R14). -/
def mayUnmount (c : Client) (r : Reel) : Bool :=
  reelClient c || (match r.loc with
    | some (st, _) => decide (c = .panel st)
    | none => false)

/-- What UNMOUNT REEL makes of a record (R27), or the answer that refuses it. -/
def unmount (r : Reel) : Except AnswerCode Reel :=
  if r.reservedBy.isSome then .error .busy
  else match r.state with
  | .mounted | .ready => .ok (toFloor r)
  | .butt => if r.loc.isSome then .ok { r with loc := none } else .error (.refused .wrongState)
  | .floor | .running | .committed => .error (.refused .wrongState)

/-- Hand a change on for the stand where a reel is located (R21). -/
def handOnAt (r : Reel) (before s : State) : State :=
  match r.loc with
  | some (st, _) => handOn st before s
  | none => s

/-- UNMOUNT_REEL (R27). -/
def execUnmountReel (c : Client) (handle : Nat) (s : State) : Res :=
  serve (.unmountReel c handle) (fun s =>
    if handleOk handle = false then (badRequest, s)
    else match s.reel? handle with
    | none => (plain .notFound, s)
    | some r =>
      if mayUnmount c r = false then (notPermitted, s)
      else match unmount r with
      | .error e => (plain e, s)
      | .ok r' => (done, handOnAt r s (s.modReel handle (fun _ => r')))) s

/-- RETIRE_REEL (R28). -/
def execRetireReel (c : Client) (handle : Nat) (s : State) : Res :=
  serve (.retireReel c handle) (fun s =>
    if handleOk handle = false then (badRequest, s)
    else match s.reel? handle with
    | none => (plain .notFound, s)
    | some r =>
      if reelClient c = false then (notPermitted, s)
      else if r.state = .floor ∨ r.state = .butt then
        (done, handOnAt r s { s with reels := Table.erase handle s.reels })
      else (refused .wrongState, s)) s

/-- READ_REEL (R23). -/
def execReadReel (c : Client) (handle : Nat) (s : State) : Res :=
  serve (.readReel c handle) (fun s =>
    if handleOk handle = false then (badRequest, s)
    else match s.reel? handle with
    | none => (plain .notFound, s)
    | some r => ({ code := .done, payload := .reel (s.reelImage handle r) }, s)) s

/-- FIND_REEL (R16, R23). -/
def execFindReel (c : Client) (code : List Nat) (s : State) : Res :=
  serve (.findReel c code) (fun s =>
    match codeFault code with
    | some e => (plain e, s)
    | none =>
      match s.reelWithCode code with
      | none => (plain .notFound, s)
      | some (h, r) => ({ code := .done, payload := .reel (s.reelImage h r) }, s)) s

/-- LIST_STAND (R24). -/
def execListStand (c : Client) (stand : Nat) (s : State) : Res :=
  serve (.listStand c stand) (fun s =>
    match standIx stand with
    | none => (badRequest, s)
    | some st => ({ code := .done, payload := .standList (s.standList st) }, s)) s

/-- Why THREAD REEL is refused (R29), or none. -/
def State.threadFault (s : State) (st : StandIx) (r : Reel) : Option AnswerCode :=
  if (s.stand st).plan.inPlan = false then some (.refused .notInPlan)
  else if (s.work st).active.isSome then some .busy
  else if r.loc.isNone = true ∨ r.loc ≠ (armAt (s.stand st).star .run).map (fun a => (st, a)) then some (.refused .notAtRun)
  else if r.state = .mounted ∨ r.state = .ready ∨ r.state = .running then none
  else some (.refused .wrongState)

/-- Make a reel the stand's running reel without a splice (R29 steps 1 to 4; R43, R47, R49). -/
def thread (st : StandIx) (h : Nat) (r : Reel) (s : State) : State :=
  let again := decide (r.state = .running)
  let t := { s with reels := Table.mapAll (fun k x =>
    if x.state = ReelState.running ∧ onStand st x = true ∧ k ≠ h then toButt x else x) s.reels }
  let t := t.modReel h (fun x =>
    { x with state := .running, reasons := [], diameter := none,
             runningSince := if again then x.runningSince else some s.now })
  let t := t.modSeq st (fun q => { q with webBroken := false })
  let t := t.modGauge st (fun g => { g.afresh with riskRaised := g.riskRaised && again })
  diameterChanged st (handOn st s t)

/-- THREAD_REEL (R29). -/
def execThreadReel (c : Client) (stand handle : Nat) (s : State) : Res :=
  serve (.threadReel c stand handle) (fun s =>
    match standIx stand, handleOk handle with
    | some st, true =>
      match s.reel? handle with
      | none => (plain .notFound, s)
      | some r =>
        if byMode (s.stand st).queue.mode st c = false then (notPermitted, s)
        else match s.threadFault st r with
        | some e => (plain e, s)
        | none => (done, thread st handle r s)
    | _, _ => (badRequest, s)) s

end Sys2Proof.Machine
end

