-- ==== Sys2Proof/Machine/StatusRequests.lean ====
section
/-! DEFINITION. The requests on status, inputs and tracks: READ_STATUS and ACKNOWLEDGE_STATUS (R151 to R153), READ_INPUTS and
CLEAR_CHANGES (R138, R139), TAKE_CALL (R159), READ_TRACK and FORCE_GATE (R127, R129), RESET_STAND (R110 to R112). -/

namespace Sys2Proof.Machine

/-- READ_STATUS (R151). -/
def execReadStatus (c : Client) (stand : Nat) (s : State) : Res :=
  serve (.readStatus c stand) (fun s =>
    match standIx stand with
    | none => (badRequest, s)
    | some st => ({ code := .done, payload := .status (s.statusImage st) }, s)) s

/-! ### Acknowledgement (R152, R153) -/

/-- Collection (R153 step 1): an end condition sets the end-acknowledged flag and tests the record for retirement. -/
def collect (e : StatusEntry) (s : State) : State :=
  if Condition.standEnd ∈ e.conditions ∨ Condition.spliceVoid ∈ e.conditions then
    match e.splice with
    | some n => retire n (s.modSplice n (fun sp => { sp with endAck := true }))
    | none => s
  else s

/-- The entry that DRIVER_HOT keeps (R153 step 2). -/
def StatusEntry.persisted (e : StatusEntry) : StatusEntry :=
  { e with conditions := [.driverHot], splice := none, residualDiameter := none, residualLength := none,
           revision := e.revision + 1 }

/-- Whether an entry persists (R153 step 2). -/
def State.persists (s : State) (st : StandIx) (e : StatusEntry) : Bool :=
  decide (Condition.driverHot ∈ e.conditions) && s.isActive st .driverHot

/-- An acknowledgement that passes the checks, taken on the oldest entry (R153 steps 1 to 3). -/
def acknowledge (st : StandIx) (e : StatusEntry) (rest : List StatusEntry) (s : State) : State :=
  let kept := if s.persists st e then e.persisted :: rest else rest
  let t := (collect e s).modQueue st (fun q => { q with entries := kept })
  if (s.stand st).queue.oldestException.isSome = true ∧ (t.stand st).queue.oldestException.isNone = true then
    chainOccasion st t
  else t

/-- What ACKNOWLEDGE STATUS does on the oldest entry and the rest of the queue (R152 from the fourth check on). -/
def acknowledgeOldest (st : StandIx) (c : Client) (serial revision : Nat) (e : StatusEntry) (rest : List StatusEntry)
    (s : State) : Answer × State :=
  if c ≠ .console ∧ e.destination ≠ .panel then (notPermitted, s)
  else if e.serial ≠ serial ∨ e.revision.toNat ≠ revision then ({ code := .stale, payload := .entry e }, s)
  else ({ code := .done, payload := if s.persists st e then .entry e.persisted else .none }, acknowledge st e rest s)

/-- ACKNOWLEDGE_STATUS (R152, R153). -/
def execAcknowledgeStatus (c : Client) (stand serial revision : Nat) (s : State) : Res :=
  serve (.acknowledgeStatus c stand serial revision) (fun s =>
    match standIx stand with
    | none => (badRequest, s)
    | some st =>
      if numberOk serial = false ∨ 255 < revision then (badRequest, s)
      else if consoleOrPanel st c = false then (notPermitted, s)
      else match (s.stand st).queue.entries with
      | [] => (plain .notFound, s)
      | e :: rest => acknowledgeOldest st c serial revision e rest s) s

/-! ### Inputs and calls -/

/-- READ_INPUTS (R138). -/
def execReadInputs (c : Client) (stand : Nat) (s : State) : Res :=
  serve (.readInputs c stand) (fun s =>
    match standIx stand with
    | none => (badRequest, s)
    | some st => ({ code := .done, payload := .inputs (s.inputsImage st) }, s)) s

/-- CLEAR_CHANGES (R139). -/
def execClearChanges (c : Client) (stand snapshot : Nat) (s : State) : Res :=
  serve (.clearChanges c stand snapshot) (fun s =>
    match standIx stand with
    | none => (badRequest, s)
    | some st =>
      let x := (s.stand st).field
      if consoleOrPanel st c = false then (notPermitted, s)
      else if x.snapshot < snapshot then (badRequest, s)
      else
        let kept := x.changes.filter (fun e => decide (snapshot < e.last))
        ({ code := .done, payload := .cleared (x.changes.length - kept.length) x.snapshot },
          s.modField st (fun x => { x with changes := kept }))) s

/-- A call flag cleared (R159). -/
def Queue.takeCall (q : Queue) : CallFlag → Queue
  | .reelCall => { q with reelCall := false }
  | .buttOut => { q with buttOut := false }

/-- TAKE_CALL (R159). -/
def execTakeCall (c : Client) (stand : Nat) (flag : CallFlag) (s : State) : Res :=
  serve (.takeCall c stand flag) (fun s =>
    match standIx stand with
    | none => (badRequest, s)
    | some st =>
      if c ≠ .logistics then (notPermitted, s)
      else
        let q := (s.stand st).queue.takeCall flag
        ({ code := .done, payload := .calls q.reelCall q.buttOut }, s.modQueue st (fun _ => q))) s

/-! ### Tracks -/

/-- READ_TRACK (R129). -/
def execReadTrack (c : Client) (folder : Nat) (s : State) : Res :=
  serve (.readTrack c folder) (fun s =>
    match folderIx folder with
    | none => (badRequest, s)
    | some f => ({ code := .done, payload := .track (s.trackImage f) }, s)) s

/-- FORCE_GATE (R127). The gate itself is a function of the force and the marks (`State.gateOpen`). -/
def execForceGate (c : Client) (folder : Nat) (x : GateForce) (s : State) : Res :=
  serve (.forceGate c folder x) (fun s =>
    match folderIx folder with
    | none => (badRequest, s)
    | some f =>
      if c ≠ .console then (notPermitted, s)
      else (done, s.modFolder f (fun F => { F with force := x }))) s

/-! ### RESET_STAND (R110 to R112) -/

/-- A reel of the stand loses its diameter and girth (R35 step 1). -/
def clearDiameters (st : StandIx) (s : State) : State :=
  { s with reels := Table.mapAll (fun _ r =>
      if onStand st r then { r with diameter := none, girth := none, notes := addTo .diameterReset r.notes }
      else r) s.reels }

/-- The incoming reel of the splice is returned, if the splice still holds it (R111 step 3). -/
def giveBackReserved (st : StandIx) (n : Nat) (sp : Splice) (s : State) : State :=
  match s.reel? sp.incoming with
  | some r => if r.reservedBy = some n then giveBack st false sp.incoming s else s
  | none => s

/-- The end of the active splice at RESET STAND (R111 step 3), and the occasion of a STAND_END (step 5). -/
def endAtReset (st : StandIx) (s : State) : State :=
  match s.activeSplice st with
  | none => s
  | some (n, sp) =>
    let t := noteSplice n .standReset (setCause n .standReset s)
    if sp.state = .braking ∨ sp.state = .indexing then
      chainOccasion st (retire n (endSplice st n .completed .standEnd t))
    else giveBackReserved st n sp (retire n (endSplice st n .aborted .spliceVoid t))

/-- A field interface after RESET STAND (R145). Changes accepted and handed on before the reset still reach their blocks
(R144), but the STAR code: the first one accepted after the reset sets the star (R6, log 26). -/
def Field.restart (x : Field) : Field :=
  { Field.reset with handed := x.handed.filter (fun h => !decide (h.input = .star)) }

/-- An accepted RESET STAND (R6, R35, R52, R90, R91, R111, R112, R145): outputs and timers dropped, the splice ended, the
stand taken off every wait list, and the gauge, field interface, star and working state at their reset values. -/
def resetStand (st : StandIx) (s : State) : State :=
  let t := endAtReset st (clearDiameters st s)
  let t := allFolders.foldl (fun t f => leaveWaits f st t) t
  let t := t.modWork st (fun _ => Working.reset)
  let t := t.modStand st (fun x =>
    { x with star := .unknown, lastSettled := none, gauge := Gauge.reset, field := x.field.restart })
  evalReelCall st (evalRisk st t)

/-- RESET_STAND (R110). -/
def execResetStand (c : Client) (stand : Nat) (s : State) : Res :=
  serve (.resetStand c stand) (fun s =>
    match standIx stand with
    | none => (badRequest, s)
    | some st =>
      if c ≠ .console then (notPermitted, s)
      else match s.spliceState st with
      | some x => if holdsSlot x then (plain .busy, s) else (done, resetStand st s)
      | none => (done, resetStand st s)) s

end Sys2Proof.Machine
end

