-- ==== Sys2Proof/Machine/Timers.lean ====
section
/-! DEFINITION. The timer expiries. An expiry is taken only while its timer runs (log 5). WEB_SPEED_TIMER_EXPIRY (R45, R46,
R79), ACCEL_ (R82), QUIET_ (R87, R101), STOP_ (R87, R101, R102), CONFIRM_ (R98), KNIFE_PULSE_ (R99, R141), KNIFE_HOME_
(R99), REV_QUIET_ (R101, R102), INDEX_ (R104) and PULL_IN_TIMER_EXPIRY (R140). -/

namespace Sys2Proof.Machine

/-- The web speed of a window (R45): the window count × 20, from 0 to 65,535. -/
def speedOf (window : Int) : Nat := min 65535 (window * 20).toNat

/-- The gauge's sample (R45): the timer of 50 ms starts again. -/
def Gauge.sample (g : Gauge) : Gauge := { g with webSpeed := speedOf g.window, window := 0, speedTimer := some 50 }

/-- The sequencer takes a web speed sample (R79): the demand while DRIVE-EN is asserted, but in SPINDOWN. -/
def followWeb (st : StandIx) (s : State) : State :=
  match s.activeSplice st with
  | some (_, sp) =>
    if (s.work st).driveEn = true ∧ sp.state ≠ .spindown then
      s.modWork st (fun w => { w with
        demand := demandFor (s.stand st).gauge.webSpeed (sp.params.matchOffset.getD 0) })
    else s
  | none => s

/-- The arbiter takes a web speed sample of a stand on its list as an occasion (R46, R118). -/
def sampleOccasion (st : StandIx) (s : State) (f : FolderIx) : State :=
  if (s.folder f).waits.any (fun e => decide (e.stand = st)) then grantOccasion f s else s

/-- WEB_SPEED_TIMER_EXPIRY (R45, R46). -/
def execWebSpeedTimerExpiry (st : StandIx) (s : State) : Res :=
  onDevice (fun s =>
    if (s.stand st).gauge.speedTimer.isSome then
      allFolders.foldl (sampleOccasion st) (followWeb st (s.modGauge st Gauge.sample))
    else s) s

/-- ACCEL_TIMER_EXPIRY (R82): taken in ACCEL; MATCH_TIMEOUT and the abort to spin-down. -/
def execAccelTimerExpiry (st : StandIx) (s : State) : Res :=
  onDevice (fun s =>
    match s.activeSplice st with
    | some (n, sp) =>
      if sp.state = .accel ∧ (s.work st).accelTimer.isSome = true then
        handOn st s (giveUp st n sp .matchTimeout (raise st .matchTimeout s))
      else s
    | none => s) s

/-- The end of a spin-down of a splice not carried (R101): the brake released, then the end of R87. -/
def endUncarried (st : StandIx) (n : Nat) (s : State) : State :=
  endSpindown st n ((releaseBrake st s).modWork st (fun w => { w with revQuietTimer := none }))

/-- QUIET_TIMER_EXPIRY (R87, R101): the spin-down ends; one of a splice not carried ends if the rev-quiet timer has expired
already, and otherwise waits for it. -/
def execQuietTimerExpiry (st : StandIx) (s : State) : Res :=
  onDevice (fun s =>
    match s.activeSplice st with
    | some (n, sp) =>
      if sp.state = .spindown ∧ (s.work st).quietTimer.isSome = true then
        if s.uncarried st then
          if (s.work st).revQuietTimer.isNone then endUncarried st n s
          else s.modWork st (fun w => { w with quietTimer := none })
        else endSpindown st n s
      else s
    | none => s) s

/-- A brake kept on at a stop timeout (R101, R102): at HOLD, brake kept yes, the rev-quiet timer started afresh. -/
def keepBrake (st : StandIx) (s : State) : State :=
  (s.modField st (fun x => { x with brake := x.brake.pulledIn })).modWork st
    (fun w => { w with brakeKept := true, revQuietTimer := some revQuietMs })

/-- STOP_TIMER_EXPIRY (R87, R101, R102): STOP_TIMEOUT; a spin-down ends with its outcome, a braking by the stand end, the
brake kept on. -/
def execStopTimerExpiry (st : StandIx) (s : State) : Res :=
  onDevice (fun s =>
    match s.activeSplice st with
    | some (n, sp) =>
      if (s.work st).stopTimer.isSome then
        match sp.state with
        | .spindown =>
          let t := raise st .stopTimeout s
          endSpindown st n (if s.uncarried st then keepBrake st t else t)
        | .braking => standEnd st n .brakeTimeout ((keepBrake st (raise st .stopTimeout s)).modWork st
            (fun w => { w with stopTimer := none }))
        | .armed | .accel | .matched | .waiting | .firing | .pasting | .cutting | .indexing | .completed | .aborted
        | .failed => s
      else s
    | none => s) s

/-- CONFIRM_TIMER_EXPIRY (R98): in PASTING, not confirmed, the paste fails. -/
def execConfirmTimerExpiry (st : StandIx) (s : State) : Res :=
  onDevice (fun s =>
    match s.activeSplice st with
    | some (n, sp) =>
      if sp.state = .pasting ∧ (s.work st).confirmTimer.isSome = true ∧ (s.work st).confirmed = false then
        pasteNotConfirmed st n sp s
      else s
    | none => s) s

/-- KNIFE_PULSE_TIMER_EXPIRY (R99, R141). -/
def execKnifePulseTimerExpiry (st : StandIx) (s : State) : Res :=
  onDevice (fun s => if (s.stand st).field.knifePulse.isSome then endKnifePulse st s else s) s

/-- KNIFE_HOME_TIMER_EXPIRY (R99): KNIFE_NOT_HOME, and the sequence goes on. -/
def execKnifeHomeTimerExpiry (st : StandIx) (s : State) : Res :=
  onDevice (fun s =>
    if (s.work st).knifeHomeTimer.isSome then
      raise st .knifeNotHome (s.modWork st (fun w => { w with knifeHomeTimer := none }))
    else s) s

/-- A kept brake released (R102). -/
def releaseKeptBrake (st : StandIx) (s : State) : State :=
  (releaseBrake st s).modWork st (fun w => { w with brakeKept := false, buttArm := none })

/-- What the expiry of the rev-quiet timer does, the timer stopped (R101, R102). -/
def buttQuiet (st : StandIx) (s : State) : State :=
  if (s.work st).brakeKept then releaseKeptBrake st s
  else match s.activeSplice st with
  | some (n, sp) =>
    if sp.state = .braking ∧ s.isActive st .pasterHome = true then endBraking st n s
    else if s.uncarried st = true ∧ (s.work st).quietTimer.isNone = true then endUncarried st n s
    else s
  | none => s

/-- REV_QUIET_TIMER_EXPIRY (R101, R102): a kept brake is released; a braking ends if PASTER-HOME is accepted active; a
spin-down of a splice not carried ends if the quiet timer has expired already. -/
def execRevQuietTimerExpiry (st : StandIx) (s : State) : Res :=
  onDevice (fun s =>
    if (s.work st).revQuietTimer.isSome then buttQuiet st (s.modWork st (fun w => { w with revQuietTimer := none }))
    else s) s

/-- INDEX_TIMER_EXPIRY (R104): INDEX_TIMEOUT and the stand end. -/
def execIndexTimerExpiry (st : StandIx) (s : State) : Res :=
  onDevice (fun s =>
    match s.activeSplice st with
    | some (n, sp) =>
      if sp.state = .indexing ∧ (s.work st).indexTimer.isSome = true then
        standEnd st n .indexTimeout (raise st .indexTimeout s)
      else s
    | none => s) s

/-- PULL_IN_TIMER_EXPIRY (R140): PULL_IN goes to HOLD. -/
def execPullInTimerExpiry (st : StandIx) (o : Output) (s : State) : Res :=
  onDevice (fun s => s.modField st (fun x =>
    match o with
    | .paster => { x with paster := x.paster.pulledIn }
    | .knife => { x with knife := x.knife.pulledIn }
    | .brake => { x with brake := x.brake.pulledIn })) s

end Sys2Proof.Machine
end

