-- ==== Sys2Proof/Machine/Dispatch.lean ====
section
/-! DEFINITION. The effect of a command on everything but the queue: one arm per command, each one direct call of its
meaning. -/

namespace Sys2Proof.Machine

def exec (i : Instr) (s : State) : Host.Outcome State Fault Refusal :=
  match i with
  | .powerOn => Sys2Proof.Machine.execPowerOn s
  | .resetPinAsserted => Sys2Proof.Machine.execResetPinAsserted s
  | .resetPinReleased => Sys2Proof.Machine.execResetPinReleased s
  | .timeCounterTick => Sys2Proof.Machine.execTimeCounterTick s
  | .characterReceived b framingError => Sys2Proof.Machine.execCharacterReceived b framingError s
  | .interCharacterTimerExpiry => Sys2Proof.Machine.execInterCharacterTimerExpiry s
  | .transmitAnswer => Sys2Proof.Machine.execTransmitAnswer s
  | .answerLastByteSent => Sys2Proof.Machine.execAnswerLastByteSent s
  | .announceReel c code paper => Sys2Proof.Machine.execAnnounceReel c code paper s
  | .amendReel c handle data => Sys2Proof.Machine.execAmendReel c handle data s
  | .mountReel c handle stand arm => Sys2Proof.Machine.execMountReel c handle stand arm s
  | .unmountReel c handle => Sys2Proof.Machine.execUnmountReel c handle s
  | .retireReel c handle => Sys2Proof.Machine.execRetireReel c handle s
  | .readReel c handle => Sys2Proof.Machine.execReadReel c handle s
  | .findReel c code => Sys2Proof.Machine.execFindReel c code s
  | .listStand c stand => Sys2Proof.Machine.execListStand c stand s
  | .threadReel c stand handle => Sys2Proof.Machine.execThreadReel c stand handle s
  | .writePlanEntry c stand entry => Sys2Proof.Machine.execWritePlanEntry c stand entry s
  | .readSettings c stand => Sys2Proof.Machine.execReadSettings c stand s
  | .writeFolder c folder cutoff lead trail spacing => Sys2Proof.Machine.execWriteFolder c folder cutoff lead trail spacing s
  | .writeProfile c stand profile => Sys2Proof.Machine.execWriteProfile c stand profile s
  | .writeOneShot c stand values => Sys2Proof.Machine.execWriteOneShot c stand values s
  | .writeRouting c stand mask mode => Sys2Proof.Machine.execWriteRouting c stand mask mode s
  | .armSplice c stand trigger values => Sys2Proof.Machine.execArmSplice c stand trigger values s
  | .amendSplice c number values => Sys2Proof.Machine.execAmendSplice c number values s
  | .setChain c stand on => Sys2Proof.Machine.execSetChain c stand on s
  | .readSplice c number => Sys2Proof.Machine.execReadSplice c number s
  | .startAccel c stand => Sys2Proof.Machine.execStartAccel c stand s
  | .fireSplice c stand => Sys2Proof.Machine.execFireSplice c stand s
  | .abortSplice c stand => Sys2Proof.Machine.execAbortSplice c stand s
  | .readStatus c stand => Sys2Proof.Machine.execReadStatus c stand s
  | .acknowledgeStatus c stand serial revision => Sys2Proof.Machine.execAcknowledgeStatus c stand serial revision s
  | .readInputs c stand => Sys2Proof.Machine.execReadInputs c stand s
  | .clearChanges c stand snapshot => Sys2Proof.Machine.execClearChanges c stand snapshot s
  | .takeCall c stand flag => Sys2Proof.Machine.execTakeCall c stand flag s
  | .readTrack c folder => Sys2Proof.Machine.execReadTrack c folder s
  | .forceGate c folder force => Sys2Proof.Machine.execForceGate c folder force s
  | .resetStand c stand => Sys2Proof.Machine.execResetStand c stand s
  | .resetDevice c => Sys2Proof.Machine.execResetDevice c s
  | .readDevice c => Sys2Proof.Machine.execReadDevice c s
  | .samplingTimerExpiry st sample => Sys2Proof.Machine.execSamplingTimerExpiry st sample s
  | .starCodeAccepted st code => Sys2Proof.Machine.execStarCodeAccepted st code s
  | .reelPresentLoss st arm => Sys2Proof.Machine.execReelPresentLoss st arm s
  | .webPresentLoss st => Sys2Proof.Machine.execWebPresentLoss st s
  | .pasterEngagedActive st => Sys2Proof.Machine.execPasterEngagedActive st s
  | .pasterHomeActive st => Sys2Proof.Machine.execPasterHomeActive st s
  | .knifeHomeActive st => Sys2Proof.Machine.execKnifeHomeActive st s
  | .safetyGateChange st closed => Sys2Proof.Machine.execSafetyGateChange st closed s
  | .driverHotActive st => Sys2Proof.Machine.execDriverHotActive st s
  | .driverHotInactive st => Sys2Proof.Machine.execDriverHotInactive st s
  | .webCount st d => Sys2Proof.Machine.execWebCount st d s
  | .tachCount st d => Sys2Proof.Machine.execTachCount st d s
  | .pasteMarkPulse st => Sys2Proof.Machine.execPasteMarkPulse st s
  | .revPulse st arm => Sys2Proof.Machine.execRevPulse st arm s
  | .folderCutPulse f => Sys2Proof.Machine.execFolderCutPulse f s
  | .webSpeedTimerExpiry st => Sys2Proof.Machine.execWebSpeedTimerExpiry st s
  | .accelTimerExpiry st => Sys2Proof.Machine.execAccelTimerExpiry st s
  | .quietTimerExpiry st => Sys2Proof.Machine.execQuietTimerExpiry st s
  | .stopTimerExpiry st => Sys2Proof.Machine.execStopTimerExpiry st s
  | .confirmTimerExpiry st => Sys2Proof.Machine.execConfirmTimerExpiry st s
  | .knifePulseTimerExpiry st => Sys2Proof.Machine.execKnifePulseTimerExpiry st s
  | .knifeHomeTimerExpiry st => Sys2Proof.Machine.execKnifeHomeTimerExpiry st s
  | .revQuietTimerExpiry st => Sys2Proof.Machine.execRevQuietTimerExpiry st s
  | .indexTimerExpiry st => Sys2Proof.Machine.execIndexTimerExpiry st s
  | .pullInTimerExpiry st o => Sys2Proof.Machine.execPullInTimerExpiry st o s
  | .autoArmAttempt st => Sys2Proof.Machine.execAutoArmAttempt st s
  | .grantEvaluation f => Sys2Proof.Machine.execGrantEvaluation f s

end Sys2Proof.Machine
end

