-- ==== Sys2Proof/Machine/Step.lean ====
section
/-! DEFINITION. One step of the device: the command at the front of the queue is taken whole; on an empty queue the device
idles (log 1). -/

namespace Sys2Proof.Machine

/-- Take the command at the front of the queue, with the queue's rest left waiting. -/
def step (s : State) : Host.Outcome State Fault Refusal :=
  match s.pending with
  | [] => .next s
  | c :: rest => exec c { s with pending := rest }

/-- The state with the command that a word spells put at the front of its queue. No row of the table gives bits, so no word
spells one. -/
def State.withFetchWord (s : State) (nbits w : Nat) : State :=
  match decodeTableWord nbits w with
  | some c => { s with pending := c :: s.pending }
  | none => s

end Sys2Proof.Machine
end

