-- ==== Sys2Proof/Safety.lean ====
section
/-! DEFINITION. The words the statements are made of: when a command is taken, what an event of one stand leaves alone,
runs of several commands, and the invariants of the device. -/

namespace Sys2Proof.Machine

/-! ### Taking a command -/

/-- The device runs: the RESET pin is not asserted (R170). -/
abbrev State.runs (s : State) : Prop := s.link.resetPin = false

/-- A request is taken now: the device runs, and it is the owner's turn to take it (R165, log 2). -/
abbrev State.takes (s : State) (r : Instr) : Prop := s.link.resetPin = false ∧ s.mayTake r = true

/-- The outcome of a request that is answered and changes nothing else. -/
abbrev answered (r : Instr) (a : Answer) (s : State) : Res := .next (deliver r a s)

/-- A DONE answer with a payload. -/
abbrev doneWith (p : Payload) : Answer := { code := .done, payload := p }

/-- Take commands one after another. -/
def execAll : List Instr → State → Res
  | [], s => .next s
  | c :: rest, s =>
    match exec c s with
    | .next t => execAll rest t
    | .fault e => .fault e
    | .refused e => .refused e

/-- The commands by which bytes arrive on RXD without framing errors. -/
def arriving (bytes : List Byte) : List Instr := bytes.map (fun b => .characterReceived b false)

/-! ### Requests on the link -/

/-- The client that makes a request, none for a command that is not a request. -/
def requestClient : Instr → Option Client
  | .announceReel c _ _ | .amendReel c _ _ | .mountReel c _ _ _ | .unmountReel c _ | .retireReel c _ | .readReel c _
  | .findReel c _ | .listStand c _ | .threadReel c _ _ | .writePlanEntry c _ _ | .readSettings c _
  | .writeFolder c _ _ _ _ _ | .writeProfile c _ _ | .writeOneShot c _ _ | .writeRouting c _ _ _ | .armSplice c _ _ _
  | .amendSplice c _ _ | .setChain c _ _ | .readSplice c _ | .startAccel c _ | .fireSplice c _ | .abortSplice c _
  | .readStatus c _ | .acknowledgeStatus c _ _ _ | .readInputs c _ | .clearChanges c _ _ | .takeCall c _ _
  | .readTrack c _ | .forceGate c _ _ | .resetStand c _ | .resetDevice c | .readDevice c => some c
  | .powerOn | .resetPinAsserted | .resetPinReleased | .timeCounterTick | .characterReceived _ _
  | .interCharacterTimerExpiry | .transmitAnswer | .answerLastByteSent
  | .samplingTimerExpiry _ _ | .starCodeAccepted _ _ | .reelPresentLoss _ _ | .webPresentLoss _
  | .pasterEngagedActive _ | .pasterHomeActive _ | .knifeHomeActive _ | .safetyGateChange _ _
  | .driverHotActive _ | .driverHotInactive _ | .webCount _ _ | .tachCount _ _ | .pasteMarkPulse _ | .revPulse _ _
  | .folderCutPulse _ | .webSpeedTimerExpiry _ | .accelTimerExpiry _ | .quietTimerExpiry _ | .stopTimerExpiry _
  | .confirmTimerExpiry _ | .knifePulseTimerExpiry _ | .knifeHomeTimerExpiry _ | .revQuietTimerExpiry _
  | .indexTimerExpiry _ | .pullInTimerExpiry _ _ | .autoArmAttempt _ | .grantEvaluation _ => none

/-! ### Frames -/

/-- The stand whose event a command is: the field events, counts and timers of a stand, and its auto-arm attempt. -/
def eventStand : Instr → Option StandIx
  | .samplingTimerExpiry st _ | .starCodeAccepted st _ | .reelPresentLoss st _ | .webPresentLoss st
  | .pasterEngagedActive st | .pasterHomeActive st | .knifeHomeActive st | .safetyGateChange st _
  | .driverHotActive st | .driverHotInactive st | .webCount st _ | .tachCount st _ | .pasteMarkPulse st | .revPulse st _
  | .webSpeedTimerExpiry st | .accelTimerExpiry st | .quietTimerExpiry st | .stopTimerExpiry st
  | .confirmTimerExpiry st | .knifePulseTimerExpiry st | .knifeHomeTimerExpiry st | .revQuietTimerExpiry st
  | .indexTimerExpiry st | .pullInTimerExpiry st _ | .autoArmAttempt st => some st
  | .powerOn | .resetPinAsserted | .resetPinReleased | .timeCounterTick | .characterReceived _ _
  | .interCharacterTimerExpiry | .transmitAnswer | .answerLastByteSent | .announceReel _ _ _ | .amendReel _ _ _
  | .mountReel _ _ _ _ | .unmountReel _ _ | .retireReel _ _ | .readReel _ _ | .findReel _ _ | .listStand _ _
  | .threadReel _ _ _ | .writePlanEntry _ _ _ | .readSettings _ _ | .writeFolder _ _ _ _ _ _ | .writeProfile _ _ _
  | .writeOneShot _ _ _ | .writeRouting _ _ _ _ | .armSplice _ _ _ _ | .amendSplice _ _ _ | .setChain _ _ _
  | .readSplice _ _ | .startAccel _ _ | .fireSplice _ _ | .abortSplice _ _ | .readStatus _ _
  | .acknowledgeStatus _ _ _ _ | .readInputs _ _ | .clearChanges _ _ _ | .takeCall _ _ _ | .readTrack _ _
  | .forceGate _ _ _ | .resetStand _ _ | .resetDevice _ | .readDevice _ | .folderCutPulse _ | .grantEvaluation _ => none

/-- What an event of stand st leaves alone: the link, the model's own fields and every other stand. -/
structure Local (st : StandIx) (s t : State) : Prop where
  link : t.link = s.link
  lastAnswer : t.lastAnswer = s.lastAnswer
  pending : t.pending = s.pending
  others : ∀ i, i ≠ st → t.stand i = s.stand i

/-- The two tables, the next splice number and the folders are as before. -/
structure SameTables (s t : State) : Prop where
  reels : t.reels = s.reels
  splices : t.splices = s.splices
  nextSplice : t.nextSplice = s.nextSplice
  folders : ∀ f, t.folder f = s.folder f

/-! ### Invariants -/

/-- The values of a stand lie where the spec lets them lie. -/
structure Stand.InRange (x : Stand) : Prop where
  /-- R7 -/
  plan : 2000 ≤ x.plan.path ∧ x.plan.path ≤ 200000 ∧ x.plan.grade ≤ 63
  /-- R56, R58: every value of the profile is its own clamped value. -/
  profile : clampProfile x.profile = x.profile
  /-- R60: the second and third relations of R59. -/
  relations : x.profile.params.lastChance + 20 ≤ x.profile.params.spliceDiameter
    ∧ x.profile.params.spliceDiameter + 40 ≤ x.profile.params.accelStart
  /-- R58, R62 -/
  oneShot : clampOptional x.oneShot.values = x.oneShot.values
  /-- R79: while DRIVE-EN is deasserted the speed demand is 0. -/
  demand : x.seq.work.demand ≤ 65535 ∧ (x.seq.work.driveEn = false → x.seq.work.demand = 0)
  /-- R81 -/
  goodCount : x.seq.work.goodCount ≤ 3
  /-- R41, R42, R45 -/
  gauge : x.gauge.streak ≤ 2 ∧ x.gauge.webSpeed ≤ 65535 ∧ x.gauge.runMark ≤ 4500
    ∧ (x.gauge.tripped = false → x.gauge.runMark < 4500)
  /-- R133: the run is 0 exactly with no candidate, and the candidate is never the accepted level. -/
  inputs : ∀ i, (x.field.input i).run ≤ 2 ∧ ((x.field.input i).run = 0 ↔ (x.field.input i).candidate = none)
    ∧ ((x.field.input i).candidate ≠ none → (x.field.input i).candidate ≠ (x.field.input i).accepted)
  /-- R137: at most one entry for each input. -/
  changes : (x.field.changes.map ChangeEntry.input).Nodup ∧ x.field.snapshot ≤ 4294967295
    ∧ ∀ e ∈ x.field.changes, 1 ≤ e.changes ∧ e.changes ≤ 255
  /-- R140: a pull-in timer runs exactly in PULL_IN. -/
  outputs : ∀ a ∈ [x.field.paster, x.field.knife, x.field.brake], (a.pullInTimer ≠ none ↔ a.drive = .pullIn)
  /-- R146: at most 4 entries; every entry holds a condition, and none twice. -/
  queue : x.queue.entries.length ≤ 4 ∧ 1 ≤ x.queue.nextSerial ∧ x.queue.nextSerial ≤ 65535
    ∧ ∀ e ∈ x.queue.entries, e.conditions ≠ [] ∧ e.conditions.Nodup ∧ 1 ≤ e.serial ∧ e.serial ≤ 65535

/-- A receiver holds the start of a frame, and less than a whole one (R162, R163). -/
def Receiver.InRange : Receiver → Prop
  | .hunt => True
  | .receiving bytes => bytes.head? = some 0xA5 ∧ ∀ len, bytes[1]? = some len → len.toNat ≤ 240 ∧ bytes.length < 7 + len.toNat

/-- The values of the device lie where the spec lets them lie. -/
structure State.InRange (s : State) : Prop where
  stands : ∀ st, (s.stand st).InRange
  /-- R113 -/
  folders : ∀ f, 400 ≤ (s.folder f).cutoff ∧ (s.folder f).cutoff ≤ 700 ∧ (s.folder f).lead ≤ 5
    ∧ (s.folder f).trail ≤ 10 ∧ (s.folder f).spacing ≤ 50000
  /-- R13: the Reel Table's keys, ascending, are handles. -/
  reels : (s.reels.map Prod.fst).Pairwise (· < ·) ∧ ∀ x ∈ s.reels, 1 ≤ x.1 ∧ x.1 ≤ 48
  /-- R53: at most 32 records, their keys, ascending, splice numbers. R54: the two reels of a splice are two. -/
  splices : (s.splices.map Prod.fst).Pairwise (· < ·) ∧ (∀ x ∈ s.splices, 1 ≤ x.1 ∧ x.1 ≤ 65535)
    ∧ s.splices.length ≤ 32 ∧ 1 ≤ s.nextSplice ∧ s.nextSplice ≤ 65535
    ∧ ∀ x ∈ s.splices, x.2.outgoing ≠ x.2.incoming
  /-- R163 to R165 -/
  link : s.link.list.length ≤ 16 ∧ s.link.overrun ≤ 65535 ∧ s.link.receiver.InRange

/-- Whether a splice state comes before PASTING (R85). -/
def beforePasting : SpliceState → Bool
  | .armed | .accel | .matched | .waiting | .firing => true
  | .pasting | .cutting | .braking | .indexing | .spindown | .completed | .aborted | .failed => false

/-- The discipline of the folders (R74, R96, R115, R117, R119, R120, R122). -/
structure State.Disciplined (s : State) : Prop where
  /-- R53: no two records have the same splice number. -/
  keys : (s.splices.map Prod.fst).Nodup
  /-- A stand's active splice has a record, on that stand, not ended. -/
  active : ∀ st n, (s.work st).active = some n →
    ∃ sp, s.splice? n = some sp ∧ sp.stand = st ∧ isEnded sp.state = false
  /-- A splice in FIRING, PASTING or CUTTING holds the slot of its folder. -/
  holder : ∀ n sp, s.splice? n = some sp → holdsSlot sp.state = true →
    ∃ f, sp.folder = some f ∧ (s.folder f).slot = some { splice := n, stand := sp.stand }
  /-- A slot is held by a splice of its folder in FIRING, PASTING or CUTTING. -/
  slot : ∀ f r, (s.folder f).slot = some r →
    ∃ sp, s.splice? r.splice = some sp ∧ sp.stand = r.stand ∧ sp.folder = some f ∧ holdsSlot sp.state = true
  /-- A waiter is a splice of the folder in WAITING, and a stand waits at most once. -/
  waiter : ∀ f, (∀ e ∈ (s.folder f).waits, ∃ sp, s.splice? e.splice = some sp ∧ sp.stand = e.stand
    ∧ sp.folder = some f ∧ sp.state = .waiting ∧ (s.work e.stand).active = some e.splice)
    ∧ ((s.folder f).waits.map WaitEntry.stand).Nodup
  /-- A mark listed on a track is the mark, ON_TRACK, of a splice of the folder. -/
  listed : ∀ f, (∀ r ∈ (s.folder f).track, ∃ sp, s.splice? r.splice = some sp ∧ sp.stand = r.stand
    ∧ sp.folder = some f ∧ sp.mark.state = .onTrack) ∧ ((s.folder f).track.map SpliceRef.splice).Nodup
  /-- Before its paste front a splice has no mark. -/
  unmarked : ∀ n sp, s.splice? n = some sp → beforePasting sp.state = true → sp.mark.state = .none
  /-- `markPlaced` tells whether the active splice's mark has been placed. -/
  placed : ∀ st, ((s.work st).active = none → (s.work st).markPlaced = false)
    ∧ ∀ n sp, (s.work st).active = some n → s.splice? n = some sp →
      (beforePasting sp.state = true → (s.work st).markPlaced = false)
      ∧ (sp.state = .pasting → (s.work st).markPlaced = false → sp.mark.state = .none)
  /-- A track holds at most 8 marks, and at most 7 while the slot's holder has still to place its own. -/
  room : ∀ f, (s.folder f).track.length ≤ 8 ∧ ∀ r sp, (s.folder f).slot = some r → s.splice? r.splice = some sp →
    sp.mark.state = .none → (s.folder f).track.length < 8

/-! ### The reel records, the queues and the wait lists -/

/-- The splice states in which the incoming reel is reserved and the outgoing one RUNNING (R30, R31). -/
def holdsReels : SpliceState → Bool
  | .armed | .accel | .matched | .waiting | .firing | .pasting | .cutting => true
  | .braking | .indexing | .spindown | .completed | .aborted | .failed => false

/-- The reel records are in order (R13, R15 to R18, R30, R31). -/
structure State.ReelsInOrder (s : State) : Prop where
  /-- R15: the paper data lie in their ranges. -/
  paper : ∀ h r, s.reel? h = some r → paperOk r.paper = true
  /-- R13, R16: every reel code passes its check, and no two records hold the same. -/
  codes : (∀ h r, s.reel? h = some r → codeFault r.code = none)
    ∧ ∀ h k r q, s.reel? h = some r → s.reel? k = some q → r.code = q.code → h = k
  /-- R17: an arm holds at most one reel. -/
  arms : ∀ h k r q l, s.reel? h = some r → s.reel? k = some q → r.loc = some l → q.loc = some l → h = k
  /-- R17, R18: which states have a location. -/
  located : ∀ h r, s.reel? h = some r → (r.state = .floor → r.loc = none)
    ∧ (r.state = .mounted ∨ r.state = .ready ∨ r.state = .committed ∨ r.state = .running → r.loc ≠ none)
  /-- R18: unready reasons exactly in MOUNTED. -/
  reasons : ∀ h r, s.reel? h = some r → (r.reasons ≠ [] ↔ r.state = .mounted)
  /-- R18: a stand has at most one RUNNING reel. -/
  running : ∀ st h k r q, s.reel? h = some r → s.reel? k = some q → r.state = .running → q.state = .running →
    onStand st r = true → onStand st q = true → h = k
  /-- R30: a reserved reel is the incoming reel of its own stand's active splice, READY while that is ARMED, else COMMITTED. -/
  reserved : ∀ h r n, s.reel? h = some r → r.reservedBy = some n →
    ∃ st sp, (s.work st).active = some n ∧ s.splice? n = some sp ∧ sp.incoming = h ∧ onStand st r = true
      ∧ holdsReels sp.state = true ∧ r.state = (if sp.state = .armed then .ready else .committed)
  /-- R18, R30: a COMMITTED reel is reserved. -/
  committed : ∀ h r, s.reel? h = some r → r.state = .committed → r.reservedBy ≠ none
  /-- R30, R31: a splice up to CUTTING holds its incoming reel, and its outgoing one is the stand's RUNNING reel. -/
  held : ∀ st n sp, (s.work st).active = some n → s.splice? n = some sp → holdsReels sp.state = true →
    (∃ r, s.reel? sp.incoming = some r ∧ r.reservedBy = some n)
    ∧ ∃ r, s.reel? sp.outgoing = some r ∧ r.state = .running ∧ onStand st r = true

/-- The wait lists, the status queues and the values in the splice records are in order (R56, R58, R72, R115, R128, R146,
R148). -/
structure State.QueuesInOrder (s : State) : Prop where
  /-- R115: by margin, then by stand. -/
  waits : ∀ f, (s.folder f).waits.Pairwise (fun a b => a.before b = true)
  /-- R146: the serials follow one another, up to the next serial. -/
  serials : ∀ st, ((s.stand st).queue.entries.map StatusEntry.serial ++ [(s.stand st).queue.nextSerial]).IsChain
    (fun a b => b = nextNumber a)
  /-- R146: no splice number appears in two entries. -/
  attributed : ∀ st, (s.stand st).queue.entries.Pairwise (fun a b => a.splice = none ∨ a.splice ≠ b.splice)
  /-- R72, R153: the splice of an entry has a record, of this stand, whose end is not acknowledged. -/
  recorded : ∀ st, ∀ e ∈ (s.stand st).queue.entries, ∀ n, e.splice = some n →
    ∃ sp, s.splice? n = some sp ∧ sp.stand = st ∧ sp.endAck = false
  /-- R72, R148: an entry of the active splice is the newest, and holds no end condition yet. -/
  newest : ∀ st n, (s.work st).active = some n →
    (∀ e ∈ (s.stand st).queue.entries, e.splice = some n → (s.stand st).queue.entries.getLast? = some e
      ∧ Condition.standEnd ∉ e.conditions ∧ Condition.spliceVoid ∉ e.conditions)
    ∧ ∀ sp, s.splice? n = some sp → sp.endAck = false
  /-- R56, R58: explicit and resolved values are their own clamped values. -/
  values : ∀ n sp, s.splice? n = some sp → clampOptional sp.explicit = sp.explicit ∧ clampOptional sp.params = sp.params
  /-- R128: waste copies saturate. -/
  waste : ∀ n sp, s.splice? n = some sp → sp.mark.waste ≤ 65535

end Sys2Proof.Machine
end

