-- ==== Sys2Proof/Certificates/Slice0/Obligations.lean ====
section
/-! DEFINITION. The statements for the provers. -/

open Sys2Proof Sys2Proof.Machine

/-! ### The queue -/

/-- A step runs the command at the front of the queue on the state with the queue's rest; with an empty queue the block
idles (log 1, the model's choice). -/
def Obligations.StepRunsTheFrontCommand : Prop :=
  (∀ (c : Instr) (s : State), step { s with pending := c :: s.pending } = exec c s)
  ∧ (∀ s : State, s.pending = [] → step s = .next s)

/-- Every command completes, and leaves the queue of waiting commands, which is the model's own, as it is (log 1). An event of
one stand, and an auto-arm attempt on it, leave the link, the last answer and every other stand as they are. -/
def Obligations.CommandsCompleteAndStandEventsAreLocal : Prop :=
  (∀ (c : Instr) (s : State), ∃ t, exec c s = .next t ∧ t.pending = s.pending)
  ∧ (∀ (c : Instr) (st : StandIx) (s : State), eventStand c = some st → ∃ t, exec c s = .next t ∧ Local st s t)

/-! ### Resets and time (R168, R170) -/

/-- The values the spec gives for a full reset (R6, R7, R35, R52, R56, R57, R62, R68, R73, R90, R91, R107, R113, R131, R145,
R161, R170). The waiting hand-overs are none; `pending` and `lastAnswer` are the model's own, and the carry count and the kept
girth the model's choice (log 1, log 2, log 29). -/
def Obligations.FullResetLeavesTheStatedValues : Prop :=
  ∀ cause : ResetCause,
    (∀ i : StandIx, ((State.afterReset cause).stand i) =
      { plan := { inPlan := false, folder := 0, path := 2000, grade := 0, width := .full }
        star := .unknown
        lastSettled := none
        profile :=
          { params := { accelStart := 320, spliceDiameter := 190, lastChance := 130, matchTolerance := 5,
                        matchOffset := 0, minSpeed := 1500, pasteTarget := 150, knifeDistance := 400 }
            settings := { reelCall := 600, accelTimeout := 90, angle := 180, pasterLead := 60, knifeLead := 25,
                          knifePulse := 80, pullIn := 40, carry := 3000, stopTimeout := 40, indexTimeout := 30 } }
        oneShot := { values := ⟨none, none, none, none, none, none, none, none⟩
                     clamped := ⟨false, false, false, false, false, false, false, false⟩ }
        seq :=
          { chain := false, chainBlocked := false, webBroken := false, chainOccasions := 0
            work :=
              { active := none, startPending := false, driveEn := false, demand := 0, accelTimer := none,
                revolution := none, prevGirth := none, keptGirth := none, goodCount := 0, matched := false,
                outcome := none, quietTimer := none, stopTimer := none, startIndex := none, fireCount := none,
                points := none, confirmed := false, confirmTimer := none, markPlaced := false, knifeHomeTimer := none,
                carryCount := 0, carryDistance := none, buttArm := none, revQuietTimer := none, gateReported := false,
                brakeKept := false, indexReq := false, indexTimer := none } }
        gauge := { ref := false, revCount := 0, runMark := 0, tripped := false, streak := 0, window := 0,
                   webSpeed := 0, inRisk := false, riskRaised := false, speedTimer := some 50 }
        field :=
          { inputs := Vector.replicate 10 { accepted := none, candidate := none, run := 0 }
            samplingTimer := some 2, snapshot := 0, changes := [], handed := []
            paster := { drive := .off, pullInTimer := none }
            knife := { drive := .off, pullInTimer := none }
            brake := { drive := .off, pullInTimer := none }
            knifePulse := none }
        queue := { entries := [], nextSerial := 1, mask := 0, mode := .console, reelCall := false, buttOut := false,
                   callCondition := false } })
    ∧ (∀ f : FolderIx, ((State.afterReset cause).folder f) =
      { cutoff := 560, lead := 1, trail := 2, spacing := 0, force := .auto, slot := none, waits := [],
        grantOccasions := 0, track := [], wasteCount := 0 })
    ∧ (State.afterReset cause).reels = [] ∧ (State.afterReset cause).splices = []
    ∧ (State.afterReset cause).nextSplice = 1
    ∧ (State.afterReset cause).link =
      { receiver := .hunt, list := [], line := none, overrun := 0, time := 0, cause := cause, resetPending := false,
        resetPin := false, powerUnderPin := false }
    ∧ State.reset = State.afterReset .power

/-- POWER_ON is a full reset with cause POWER, and the release of the RESET pin one with cause PIN, or POWER if power came up under
the pin (R170). The model's own: POWER_ON under the asserted pin sets the reset values at once, the device held and the cause
remembered (log 7), and the waiting commands are kept (log 1). -/
def Obligations.PowerAndPinAreFullResets : Prop :=
  ∀ s : State,
    (s.link.resetPin = false → exec .powerOn s = .next { State.afterReset .power with pending := s.pending })
    ∧ (s.link.resetPin = true →
        exec .powerOn s = .next
          { State.afterReset .power with
            pending := s.pending
            link := { (State.afterReset .power).link with resetPin := true, powerUnderPin := true } })
    ∧ (s.link.resetPin = true →
        exec .resetPinReleased s =
          .next { State.afterReset (if s.link.powerUnderPin then .power else .pin) with pending := s.pending })

/-- While the RESET pin is asserted every output is in its reset state, the frame being sent is cut off, and the device takes
nothing but power and the pin (R170; what else the held device keeps is log 6). -/
def Obligations.ResetPinHoldsTheDevice : Prop :=
  ∀ s : State,
    (∃ t, exec .resetPinAsserted s = .next t
      ∧ (∀ i, (t.stand i).field.paster = { drive := .off, pullInTimer := none }
            ∧ (t.stand i).field.knife = { drive := .off, pullInTimer := none }
            ∧ (t.stand i).field.brake = { drive := .off, pullInTimer := none }
            ∧ (t.stand i).field.knifePulse = none
            ∧ (t.work i).driveEn = false ∧ (t.work i).demand = 0 ∧ (t.work i).indexReq = false)
      ∧ (∀ f, t.gateOpen f = false) ∧ t.stopReq = false ∧ t.attnCon = false ∧ t.attnLog = false
      ∧ (∀ i, t.panelLamp i = false)
      ∧ t.link = { s.link with line := none, resetPin := true })
    ∧ (s.link.resetPin = true → ∀ c : Instr, c ≠ .powerOn → c ≠ .resetPinAsserted → c ≠ .resetPinReleased →
        exec c s = .next s)

/-- The Time Counter increases by 1 each millisecond and wraps from 4,294,967,295 to 0; READ DEVICE changes nothing and reports
it, the reset cause, the records in use, the overrun count and the part version (R168). -/
def Obligations.TimeCounterTicksAndIsRead : Prop :=
  (∀ s : State, s.runs →
    exec .timeCounterTick s =
      .next { s with link := { s.link with
        time := if s.link.time.toNat = 4294967295 then 0 else BitVec.ofNat 32 (s.link.time.toNat + 1) } })
  ∧ (∀ (c : Client) (s : State), s.takes (.readDevice c) →
      exec (.readDevice c) s = answered (.readDevice c)
        (doneWith (.device { time := s.link.time, cause := s.link.cause, reels := s.reels.length,
                             splices := s.splices.length, overrun := s.link.overrun,
                             version := Config.partVersion })) s)

/-! ### The request link (R162 to R169, R172 to R174) -/

/-- The receiver's table (R163), but for the byte that completes a frame; more than 1 ms of silence abandons the frame under
way. -/
def Obligations.ReceiverTakesACharacter : Prop :=
  ∀ (b : Byte) (s : State), s.runs →
    exec .interCharacterTimerExpiry s = .next { s with link := { s.link with receiver := .hunt } }
    ∧ (s.link.resetPending = true → ∀ fe, exec (.characterReceived b fe) s = .next s)
    ∧ (s.link.resetPending = false →
        (s.link.receiver = .hunt → ∀ fe,
          exec (.characterReceived b fe) s =
            .next (if b = 0xA5 ∧ fe = false then { s with link := { s.link with receiver := .receiving [b] } } else s))
        ∧ (∀ held, s.link.receiver = .receiving held →
            exec (.characterReceived b true) s = .next { s with link := { s.link with receiver := .hunt } })
        ∧ (∀ x, s.link.receiver = .receiving [x] →
            exec (.characterReceived b false) s =
              .next { s with link := { s.link with
                receiver := if b.toNat ≤ 240 then .receiving [x, b] else .hunt } })
        ∧ (∀ x len rest, s.link.receiver = .receiving (x :: len :: rest) → rest.length + 3 < 7 + len.toNat →
            exec (.characterReceived b false) s =
              .next { s with link := { s.link with receiver := .receiving (x :: len :: rest ++ [b]) } }))

/-- A whole frame with a right check from a named client joins the answer order list at the back, ANSWERED with BAD_REQUEST
where the link's checks fail, HELD behind an untaken RESET DEVICE, else WITH OWNER; with 16 entries in the list it is
discarded as overrun. A frame with a wrong check, or whose client byte names no client, is dropped without a trace (R163 to R165,
R167, R169). -/
def Obligations.FramesJoinTheListOrAreDropped : Prop :=
  (∀ (c : Client) (tag code : Byte) (payload : List Byte) (s : State),
    s.runs → s.link.resetPending = false → s.link.receiver = .hunt → payload.length ≤ 240 →
    execAll (arriving (frameOf (clientByte c) tag code payload)) s =
      .next { s with link :=
        if s.link.list.length < 16 then
          { s.link with list := s.link.list ++
            [{ client := c, tag := tag, code := code, payload := payload,
               state :=
                 if requestOf c code payload = none then .answered (plain (.badRequest false))
                 else if s.link.list.any (fun e => e.untaken && decide (e.code = 0x61)) then .held
                 else .withOwner }] }
        else { s.link with overrun := min 65535 (s.link.overrun + 1) } })
  ∧ (∀ (client tag code c1 c2 : Byte) (payload : List Byte) (s : State),
    s.runs → s.link.resetPending = false → s.link.receiver = .hunt → payload.length ≤ 240 →
    ([c1, c2] ≠ checkBytes (byteOf payload.length :: client :: tag :: code :: payload) ∨ clientOf client = none) →
    execAll (arriving (0xA5 :: byteOf payload.length :: client :: tag :: code :: (payload ++ [c1, c2]))) s = .next s)

/-- Every well-formed request is spelled by its code and payload: the bytes of R174 read back as the request, with every
operand at every value its field admits. -/
def Obligations.RequestBytesSpellTheRequest : Prop :=
  ∀ (i : Instr) (c : Client) (code : Byte) (payload : List Byte),
    i.WellFormed → requestClient i = some c → requestBytes i = some (code, payload) →
    requestOf c code payload = some i ∧ clientOf (clientByte c) = some c ∧ payload.length ≤ 240

/-- Owners take requests in the order in which the link received them (R165), each request's owner as the catalogue of R167 names it.
The first listed entry that waits for a request stands for it: HELD, or behind an entry WITH the same OWNER, it is not taken and nothing
changes; WITH OWNER and the first of its owner, it is taken. The answer is returned to that entry, which becomes ANSWERED. The model's
own: a request that the list does not hold is given to its owner directly, and every answer is kept in `lastAnswer` too (log 2); the
owner of an AMEND SPLICE is worked out at the taking, for a splice not held as 0 (log 23, log 31). -/
def Obligations.OwnersTakeRequestsInOrder : Prop :=
  (∀ (r : Instr) (s : State) (before after : List LinkEntry) (e : LinkEntry),
    requestClient r ≠ none → (∀ c, r ≠ .resetDevice c) →
    s.link.list = before ++ e :: after → (∀ x ∈ before, x.waitsFor r = false) → e.waitsFor r = true →
    let ahead : Prop := ∃ x ∈ before, x.state = .withOwner ∧ x.request.bind (ownerOf s) = ownerOf s r
    ((e.state = .held ∨ ahead) → exec r s = .next s)
    ∧ (e.state = .withOwner → ¬ ahead → s.mayTake r = true))
  ∧ (∀ (r : Instr) (s : State), (∀ x ∈ s.link.list, x.waitsFor r = false) → s.mayTake r = true)
  ∧ (∀ (r : Instr) (e : LinkEntry), e.waitsFor r = true ↔
      requestOf e.client e.code e.payload = some r ∧ (e.state = .withOwner ∨ e.state = .held))
  ∧ (∀ (r : Instr) (s : State), requestClient r ≠ none → ownerOf s r = some (
      match r with
      | .writePlanEntry _ _ _ | .readSettings _ _ => .webPlan
      | .writeFolder _ f _ _ _ _ | .readTrack _ f | .forceGate _ f _ => .track f
      | .writeProfile _ st _ | .writeOneShot _ st _ => .profiles st
      | .writeRouting _ st _ _ | .readStatus _ st | .acknowledgeStatus _ st _ _ | .takeCall _ st _ => .statusQueue st
      | .armSplice _ st _ _ | .setChain _ st _ | .startAccel _ st | .fireSplice _ st | .abortSplice _ st
      | .resetStand _ st => .sequencer st
      | .amendSplice _ n _ => .sequencer ((s.splice? n).elim 0 (fun sp => sp.stand.val + 1))
      | .readSplice _ _ => .spliceTable
      | .readInputs _ st | .clearChanges _ st _ => .scanner st
      | .resetDevice _ | .readDevice _ => .link
      | _ => .reelTable))
  ∧ (∀ (r : Instr) (a : Answer) (s : State) (before after : List LinkEntry) (e : LinkEntry),
      s.link.list = before ++ e :: after → (∀ x ∈ before, x.waitsFor r = false) → e.waitsFor r = true →
      deliver r a s =
        { s with
          link := { s.link with list := before ++ { e with state := .answered a } :: after }
          lastAnswer := some a })

/-- The transmitter sends the answer of the front entry once it is ANSWERED and the line is free, with the entry's client and
tag, and waits otherwise; when the last byte has been sent the entry is removed and the line is free, and after the answer to
an accepted RESET DEVICE the full reset is performed with cause REQUEST (R165, R166, R169, R173); that it keeps the waiting
commands is the model's own (log 1). -/
def Obligations.TransmitterSendsTheFrontAnswer : Prop :=
  ∀ s : State, s.runs →
    (∀ e rest a, s.link.line = none → s.link.list = e :: rest → e.state = .answered a →
      exec .transmitAnswer s = .next { s with link := { s.link with
        line := some (frameOf (clientByte e.client) e.tag a.code.byte (a.code.reasonBytes ++ a.payload.bytes)) } })
    ∧ (s.link.line ≠ none → exec .transmitAnswer s = .next s)
    ∧ (s.link.list = [] → exec .transmitAnswer s = .next s)
    ∧ (∀ e rest, s.link.list = e :: rest → (∀ a, e.state ≠ .answered a) → exec .transmitAnswer s = .next s)
    ∧ (s.link.line ≠ none →
        exec .answerLastByteSent s =
          .next (if s.link.resetPending then { State.afterReset .request with pending := s.pending }
            else { s with link := { s.link with list := s.link.list.tail, line := none } }))

/-- The bytes of an answer (R166, R172 to R176): the answer codes and reason bytes, the payload of each answer, and each image with its
length and its fields in order. A number is sent most significant byte first, an enumeration as its place in its rule's list, a set as
a bit field in the order of its rule's list, an absent value by the table of R172. The model's own: what stands in a field for a value
that does not fit it, or for an absent parameter that is no diameter, is a free value (log 12, log 15). -/
def Obligations.AnswerBytesAreLaidOut : Prop :=
  let be : Nat → Nat → List Byte := fun size v => ((List.range size).map (fun j => BitVec.ofNat 8 (v / 256 ^ j))).reverse
  let one : Nat → List Byte := fun v => [BitVec.ofNat 8 v]
  let num : Nat → Nat → List Byte := fun size v => be size (if v < 256 ^ size then v else Config.overflowField size v)
  let signed : Nat → Int → List Byte := fun size v =>
    be size (if -(2 ^ (8 * size - 1)) ≤ v ∧ v < 2 ^ (8 * size - 1) then (v % 256 ^ size).toNat
      else Config.overflowField size v)
  let optional : Nat → Nat → Option Nat → List Byte := fun size absent v => num size (v.getD absent)
  let flag : Bool → List Byte := fun x => one x.toNat
  let stamp : Option Stamp → List Byte := fun x => be 4 (x.elim 0 (fun x => x.toNat))
  let set : List Bool → Nat := fun l => l.foldr (fun b n => b.toNat + 2 * n) 0
  let parameter : Nat → Nat → Option Int → List Byte := fun size place v =>
    be size (match v with
      | some v => if 0 ≤ v ∧ v < 256 ^ size then v.toNat else Config.overflowField size v
      | none => if place < 3 then 0 else Config.unusedParam place)
  let block : Params (Option Int) → List Byte := fun p => List.flatten [
    parameter 2 0 p.accelStart, parameter 2 1 p.spliceDiameter, parameter 2 2 p.lastChance, parameter 1 3 p.matchTolerance,
    p.matchOffset.elim (parameter 1 4 none) (signed 1), parameter 2 5 p.minSpeed, parameter 2 6 p.pasteTarget,
    parameter 2 7 p.knifeDistance]
  let present : Params (Option Int) → List Byte := fun p => one (set (p.toList.map Option.isSome))
  let width : Width → List Byte := fun x => one ([Width.full, .threeQuarter, .half].idxOf x)
  let star : StarIndex → List Byte := fun x =>
    match x with
    | .settled k => one k.val
    | .moving => one 3
    | .unknown => one 4
  let settled : Option Arm → List Byte := fun x => one (x.elim 0xFF (fun k => k.val))
  let distance : Option Int → List Byte := fun x => x.elim (be 4 0x80000000) (signed 4)
  let reelState : ReelState → List Byte := fun x =>
    one ([ReelState.floor, .mounted, .ready, .committed, .running, .butt].idxOf x)
  let spliceState : SpliceState → List Byte := fun x =>
    one ([SpliceState.armed, .accel, .matched, .waiting, .firing, .pasting, .cutting, .braking, .indexing, .spindown, .completed,
      .aborted, .failed].idxOf x)
  let reasons : List UnreadyReason → List Byte := fun l =>
    one (set ([UnreadyReason.notInPlan, .grade, .width, .notPasted, .tooSmall, .core].map (fun x => decide (x ∈ l))))
  let drive : DriveState → List Byte := fun x => one ([DriveState.off, .pullIn, .hold].idxOf x)
  let mode : Mode → List Byte := fun x => one ([Mode.console, .localMode].idxOf x)
  ([AnswerCode.done, .doneClamped, .busy].map AnswerCode.byte = [0x00, 0x01, 0x02]
    ∧ [AnswerCode.notFound, .full, .locked, .tooLate, .statusPending, .stale, .notPermitted].map AnswerCode.byte
      = [0x04, 0x05, 0x06, 0x07, 0x08, 0x09, 0x0A]
    ∧ AnswerCode.duplicate.byte = 0x0C
    ∧ (∀ x ∈ [AnswerCode.done, .doneClamped, .busy, .notFound, .full, .locked, .tooLate, .statusPending, .stale, .notPermitted,
        .badRequest false, .duplicate], x.reasonBytes = [])
    ∧ (∀ x : Reason, (AnswerCode.refused x).byte = 0x03 ∧ (AnswerCode.refused x).reasonBytes =
        one ([Reason.notInPlan, .armOccupied, .noReelPresent, .wrongState, .notAtRun, .webBroken, .noRunningReel, .noReadyReel,
          .driverHot, .paramConflict, .notMatched].idxOf x + 1))
    ∧ (∀ x : Bool, (AnswerCode.badRequest x).byte = 0x0B) ∧ (AnswerCode.badRequest true).reasonBytes = [0x01])
  ∧ (Payload.none.bytes = []
    ∧ (∀ h, (Payload.handle h).bytes = num 2 h)
    ∧ (∀ x l, (Payload.verdict x l).bytes = reelState x ++ reasons l)
    ∧ (∀ n, (Payload.spliceNumber n).bytes = num 2 n)
    ∧ (∀ n x, (Payload.started n x).bytes = num 2 n ++ spliceState x)
    ∧ (∀ n k, (Payload.cleared n k).bytes = one n ++ num 4 k)
    ∧ (∀ a b, (Payload.calls a b).bytes = flag a ++ flag b)
    ∧ (∀ x : StandList, (Payload.standList x).bytes = List.flatten [star x.star, settled x.lastSettled,
        optional 2 0xFFFF x.onA, optional 2 0xFFFF x.onB, optional 2 0xFFFF x.onC])
    ∧ (∀ x : DeviceImage, (Payload.device x).bytes = List.flatten [stamp (some x.time),
        one ([ResetCause.power, .pin, .request].idxOf x.cause), one x.reels, one x.splices, num 2 x.overrun,
        be 2 x.version.toNat]))
  ∧ (∀ x : ReelImage,
      (x.reel.code.length = 11 → (Payload.reel x).bytes.length = 56)
      ∧ (Payload.reel x).bytes = List.flatten [
          num 2 x.handle, x.reel.code.flatMap one, one x.reel.paper.grade, width x.reel.paper.width, one x.reel.paper.caliper,
          num 2 x.reel.paper.core, num 2 x.reel.paper.full, flag x.reel.paper.paste, optional 2 0 x.reel.diameter,
          optional 2 0 x.reel.girth, one (x.reel.loc.elim 0 (fun l => l.1.val + 1)), settled (x.reel.loc.map Prod.snd),
          reelState x.reel.state, optional 2 0 x.reel.reservedBy, reasons x.reel.reasons,
          one (set ([ReelNote.amendLocked, .removedUnannounced, .pasteUsed, .diameterReset].map
            (fun n => decide (n ∈ x.reel.notes)))),
          one (set [x.reel.runningSince.isSome]), stamp (some x.reel.announced), stamp (some x.reel.mounted),
          stamp x.reel.runningSince, optional 2 0 x.reel.residualDiameter, optional 4 0xFFFFFFFF x.reel.residualLength,
          one (x.position.elim 0xFF (fun p => [Position.run, .splice, .load].idxOf p)), optional 4 0xFFFFFFFF x.remaining])
  ∧ (∀ i : SpliceImage,
      let x := i.splice
      (Payload.splice i).bytes.length = 79
      ∧ (Payload.splice i).bytes = List.flatten [
          num 2 i.number, one (x.stand.val + 1), one (x.folder.elim 0 (fun f => f.val + 1)),
          one ([Origin.console, .panel, .chain].idxOf x.origin), one ([Trigger.auto, .manual].idxOf x.trigger),
          num 2 x.outgoing, num 2 x.incoming, spliceState x.state,
          one (set ([SpliceNote.clamped, .oneShotUsed, .knifeLate, .standReset, .pasteUsed].map (fun n => decide (n ∈ x.notes)))),
          present x.explicit, block x.explicit, present x.params, block x.params,
          one (set [x.committed.isSome, x.pasted.isSome, x.ended.isSome]), stamp (some x.armed), stamp x.committed,
          stamp x.pasted, stamp x.ended, one ([MarkState.none, .onTrack, .ejected, .purged].idxOf x.mark.state),
          optional 4 0 x.mark.path, distance x.mark.remaining, num 2 x.mark.waste, optional 2 0 x.residualDiameter,
          optional 4 0xFFFFFFFF x.residualLength, flag x.endAck, flag i.startPending,
          one (x.cause.elim 0 (fun c => [EndCause.indexed, .starSettledElsewhere, .indexTimeout, .brakeTimeout, .abortRequest,
            .matchTimeout, .reelLost, .starMoved, .webBreak, .paramConflict, .pasteNotConfirmed, .spliceNotCarried,
            .standReset].idxOf c + 1))])
  ∧ (∀ x : StatusEntry,
      (Payload.entry x).bytes.length = 20
      ∧ (Payload.entry x).bytes = List.flatten [
          num 2 x.serial, [x.revision], optional 2 0 x.splice, one ([Destination.console, .panel].idxOf x.destination),
          flag x.localAtOrigin,
          be 3 (set ([Condition.webEnd, .standEnd, .spliceVoid, .matchTimeout, .stopTimeout, .indexTimeout, .safetyGateOpen,
            .driverHot, .paramConflict, .runMarkLost, .diameterGlitch, .chainBlocked, .pasteNotConfirmed, .spliceNotCarried,
            .knifeNotHome, .webBreak, .runOutRisk, .reelLost, .starMoved].map (fun c => decide (c ∈ x.conditions)))),
          optional 2 0 x.residualDiameter, optional 4 0xFFFFFFFF x.residualLength, stamp (some x.created)])
  ∧ (∀ x : StatusImage, x.entries.length ≤ 4 →
      (Payload.status x).bytes.length = 85
      ∧ (Payload.status x).bytes = List.flatten [
          one x.entries.length, x.entries.flatMap (fun e => (Payload.entry e).bytes),
          List.replicate ((4 - x.entries.length) * 20) 0, one (set [x.reelCall, x.buttOut]), be 2 x.mask.toNat, mode x.mode])
  ∧ (∀ x : SettingsImage,
      let p := x.profile.settings
      (Payload.settings x).bytes.length = 61
      ∧ (Payload.settings x).bytes = List.flatten [
          flag x.plan.inPlan, one (x.plan.folder.val + 1), num 4 x.plan.path, one x.plan.grade, width x.plan.width,
          star x.star, settled x.lastSettled, block (x.profile.params.map some), be 2 p.reelCall, be 2 p.accelTimeout,
          be 2 p.angle, one p.pasterLead, one p.knifeLead, be 2 p.knifePulse, one p.pullIn, be 2 p.carry, one p.stopTimeout,
          one p.indexTimeout, present x.oneShot.values, one (set x.oneShot.clamped.toList), block x.oneShot.values,
          flag x.chain, flag x.chainBlocked, flag x.webBroken, be 2 x.mask.toNat, mode x.mode])
  ∧ (∀ x : InputsImage, x.levels.length = 10 → x.changes.length ≤ 10 →
      let entry : ChangeEntry → List Byte := fun e => List.flatten [
        one ([Input.reelPresent 0, .reelPresent 1, .reelPresent 2, .pasterHome, .pasterEngaged, .knifeHome, .webPresent,
          .safetyGate, .driverHot, .star].idxOf e.input), one e.level.val, one e.changes, num 4 e.last]
      (Payload.inputs x).bytes.length = 96
      ∧ (Payload.inputs x).bytes = List.flatten [
          x.levels.flatMap (fun l => one (l.elim 0xFF (fun l => l.val))), star x.star, settled x.lastSettled, num 2 x.webSpeed,
          drive x.paster, drive x.knife, drive x.brake, flag x.driveEn, flag x.indexReq, num 2 x.demand, num 4 x.snapshot,
          one x.changes.length, x.changes.flatMap entry, List.replicate ((10 - x.changes.length) * 7) 0])
  ∧ (∀ x : TrackImage, x.waits.length ≤ 12 → x.marks.length ≤ 8 →
      let wait : WaitEntry → List Byte := fun e => List.flatten [
        one (e.stand.val + 1), num 2 e.splice, flag e.matched, e.margin.elim (be 2 0x8000) (signed 2)]
      let mark : MarkImage → List Byte := fun m => List.flatten [
        num 2 m.splice, one (m.stand.val + 1), optional 4 0 m.path, distance m.remaining, flag m.inWindow, num 2 m.waste]
      (Payload.track x).bytes.length = 201
      ∧ (Payload.track x).bytes = List.flatten [
          num 2 x.cutoff, one x.lead, one x.trail, num 2 x.spacing, one ([GateForce.auto, .heldOpen].idxOf x.force),
          flag x.gateOpen, be 4 x.wasteCount.toNat, optional 2 0 (x.slot.map SpliceRef.splice),
          one (x.slot.elim 0 (fun r => r.stand.val + 1)), one x.waits.length, one x.marks.length,
          x.waits.flatMap wait, List.replicate ((12 - x.waits.length) * 6) 0,
          x.marks.flatMap mark, List.replicate ((8 - x.marks.length) * 14) 0])

/-- RESET DEVICE is taken as the front entry of the list (or given directly, log 2): CONSOLE only, refused while a splice is
in FIRING, PASTING or CUTTING, the HELD requests passed on in list order up to and including the next RESET DEVICE; accepted, the
device is reset pending and they stay HELD (R169). -/
def Obligations.ResetDeviceIsCheckedAndTaken : Prop :=
  (∀ (c : Client) (s : State), s.runs →
    (s.link.list = [] ∨ ∃ e rest, s.link.list = e :: rest ∧ e.state = .withOwner ∧ e.request = some (.resetDevice c)) →
    exec (.resetDevice c) s =
      .next (
        if c ≠ .console then
          (deliver (.resetDevice c) (plain .notPermitted) s).modLink (fun l => { l with list := releaseHeld l.list })
        else if s.splices.any (fun p => holdsSlot p.2.state) then
          (deliver (.resetDevice c) (plain .busy) s).modLink (fun l => { l with list := releaseHeld l.list })
        else
          (deliver (.resetDevice c) (plain .done) s).modLink (fun l => { l with resetPending := true })))
  ∧ (∀ list : List LinkEntry,
      let passed : LinkEntry → LinkEntry := fun e => if e.state = .held then { e with state := .withOwner } else e
      ((∀ e ∈ list, e.state = .held → e.code ≠ 0x61) → releaseHeld list = list.map passed)
      ∧ (∀ before e after, list = before ++ e :: after → (∀ x ∈ before, x.state = .held → x.code ≠ 0x61) →
          e.state = .held → e.code = 0x61 →
          releaseHeld list = before.map passed ++ { e with state := .withOwner } :: after))

/-! ### Reels (R13 to R31) -/

/-- ANNOUNCE REEL (R14, R16, R22): the checks in order, then a FLOOR record under the lowest free handle. -/
def Obligations.AnnounceReelCreatesARecord : Prop :=
  ∀ (c : Client) (code : List Nat) (p : PaperData) (s : State), s.takes (.announceReel c code p) →
    exec (.announceReel c code p) s =
      if ¬ (c = .console ∨ c = .logistics) then answered (.announceReel c code p) (plain .notPermitted) s
      else if ¬ ((1 ≤ p.grade ∧ p.grade ≤ 63) ∧ (40 ≤ p.caliper ∧ p.caliper ≤ 150) ∧ (70 ≤ p.core ∧ p.core ≤ 160)
          ∧ (600 ≤ p.full ∧ p.full ≤ 1300)) then answered (.announceReel c code p) (plain (.badRequest false)) s
      else if ¬ (code.length = 11 ∧ ∀ d ∈ code, d ≤ 9) then
        answered (.announceReel c code p) (plain (.badRequest false)) s
      else if code[10]? ≠ some ((10 - (List.zipWith (· * ·) [3, 1, 3, 1, 3, 1, 3, 1, 3, 1] code).sum % 10) % 10) then
        answered (.announceReel c code p) (plain (.badRequest true)) s
      else if s.reels.any (fun x => decide (x.2.code = code)) then
        answered (.announceReel c code p) (plain .duplicate) s
      else
        match (List.range' 1 48).find? (fun h => (s.reel? h).isNone) with
        | none => answered (.announceReel c code p) (plain .full) s
        | some h =>
          .next (deliver (.announceReel c code p) (doneWith (.handle h))
            { s with
              reels := Table.insert h
                { code := code, paper := p, diameter := none, girth := none, loc := none, state := .floor,
                  reservedBy := none, reasons := [], notes := [], announced := s.link.time, mounted := s.link.time,
                  runningSince := none, residualDiameter := none, residualLength := none } s.reels })

/-- AMEND REEL (R14, R26). Refused: the checks in order; LOCKED leaves the note AMEND_LOCKED. Accepted: the data carried replace the
ones held; a located reel is verified against its stand's plan entry and profile (R19) and handed on (R21), a FLOOR record is
amended without verification. -/
def Obligations.AmendReelRefusesOrReplaces : Prop :=
  (∀ (c : Client) (h : Nat) (d : PaperAmend) (s : State), s.takes (.amendReel c h d) →
    (¬ (1 ≤ h ∧ h ≤ 48) → exec (.amendReel c h d) s = answered (.amendReel c h d) (plain (.badRequest false)) s)
    ∧ (1 ≤ h ∧ h ≤ 48 → s.reel? h = none →
        exec (.amendReel c h d) s = answered (.amendReel c h d) (plain .notFound) s)
    ∧ (∀ r, 1 ≤ h ∧ h ≤ 48 → s.reel? h = some r →
        (¬ (c = .console ∨ c = .logistics) →
          exec (.amendReel c h d) s = answered (.amendReel c h d) (plain .notPermitted) s)
        ∧ (c = .console ∨ c = .logistics →
            (r.state = .butt →
              exec (.amendReel c h d) s = answered (.amendReel c h d) (plain (.refused .wrongState)) s)
            ∧ (r.state ≠ .butt → (r.reservedBy ≠ none ∨ r.state = .committed ∨ r.state = .running) →
                exec (.amendReel c h d) s = .next (deliver (.amendReel c h d) (plain .locked)
                  (s.modReel h (fun r => { r with
                    notes := if .amendLocked ∈ r.notes then r.notes else r.notes ++ [.amendLocked] }))))
            ∧ (r.reservedBy = none → (r.state = .floor ∨ r.state = .mounted ∨ r.state = .ready) →
                ¬ ((∀ g, d.grade = some g → 1 ≤ g ∧ g ≤ 63) ∧ (∀ k, d.caliper = some k → 40 ≤ k ∧ k ≤ 150)
                  ∧ (∀ k, d.core = some k → 70 ≤ k ∧ k ≤ 160) ∧ (∀ k, d.full = some k → 600 ≤ k ∧ k ≤ 1300)) →
                exec (.amendReel c h d) s = answered (.amendReel c h d) (plain (.badRequest false)) s))))
  ∧ (∀ (c : Client) (h : Nat) (d : PaperAmend) (r : Reel) (s : State), s.takes (.amendReel c h d) →
    (s.reels.map Prod.fst).Nodup → (c = .console ∨ c = .logistics) → 1 ≤ h ∧ h ≤ 48 → s.reel? h = some r → r.reservedBy = none →
    (∀ g, d.grade = some g → 1 ≤ g ∧ g ≤ 63) → (∀ k, d.caliper = some k → 40 ≤ k ∧ k ≤ 150) →
    (∀ k, d.core = some k → 70 ≤ k ∧ k ≤ 160) → (∀ k, d.full = some k → 600 ≤ k ∧ k ≤ 1300) →
    let p : PaperData :=
      { grade := d.grade.getD r.paper.grade, width := d.width.getD r.paper.width,
        caliper := d.caliper.getD r.paper.caliper, core := d.core.getD r.paper.core, full := d.full.getD r.paper.full,
        paste := d.paste.getD r.paper.paste }
    (r.state = .floor → r.loc = none →
      exec (.amendReel c h d) s = .next (deliver (.amendReel c h d) (doneWith (.verdict .floor r.reasons))
        (s.modReel h (fun _ => { r with paper := p }))))
    ∧ (∀ st a, r.loc = some (st, a) → (r.state = .mounted ∨ r.state = .ready) →
        let v := verify (s.stand st).plan (s.stand st).profile { r with paper := p }
        exec (.amendReel c h d) s = .next (deliver (.amendReel c h d) (doneWith (.verdict v.state v.reasons))
          (handOn st s (s.modReel h (fun _ => v))))))

/-- Verification (R19): each reason by its own test, READY exactly when none is found, everything else of the record
kept. -/
def Obligations.VerificationFindsEveryReason : Prop :=
  ∀ (plan : PlanEntry) (p : Profile) (r : Reel),
    let v := verify plan p r
    let d : Int := (r.diameter.getD r.paper.full : Nat)
    (.notInPlan ∈ v.reasons ↔ plan.inPlan = false)
    ∧ (.grade ∈ v.reasons ↔ plan.grade ≠ 0 ∧ plan.grade ≠ r.paper.grade)
    ∧ (.width ∈ v.reasons ↔ r.paper.width ≠ plan.width)
    ∧ (.notPasted ∈ v.reasons ↔ r.paper.paste = false)
    ∧ (.tooSmall ∈ v.reasons ↔ d < p.params.accelStart + 100)
    ∧ (.core ∈ v.reasons ↔ p.params.lastChance < (r.paper.core : Int) + 20)
    ∧ (v.state = if v.reasons = [] then .ready else .mounted)
    ∧ v = { r with reasons := v.reasons, state := v.state }

/-- MOUNT REEL (R14, R25): the checks in order, then the reel located on the arm, stamped, verified and handed on. -/
def Obligations.MountReelLocatesAndVerifies : Prop :=
  ∀ (c : Client) (h stand : Nat) (a : Arm) (s : State), s.takes (.mountReel c h stand a) →
    exec (.mountReel c h stand a) s =
      if hs : (1 ≤ h ∧ h ≤ 48) ∧ 1 ≤ stand ∧ stand ≤ 12 then
        let st : StandIx := ⟨stand - 1, by omega⟩
        match s.reel? h with
        | none => answered (.mountReel c h stand a) (plain .notFound) s
        | some r =>
          if ¬ (c = .console ∨ c = .logistics ∨ c = .panel st) then
            answered (.mountReel c h stand a) (plain .notPermitted) s
          else if r.state ≠ .floor then answered (.mountReel c h stand a) (plain (.refused .wrongState)) s
          else if s.reels.any (fun x => decide (x.2.loc = some (st, a))) then
            answered (.mountReel c h stand a) (plain (.refused .armOccupied)) s
          else if s.accepted st (.reelPresent a) ≠ some 1 then
            answered (.mountReel c h stand a) (plain (.refused .noReelPresent)) s
          else
            let v := verify (s.stand st).plan (s.stand st).profile { r with loc := some (st, a), mounted := s.link.time }
            .next (deliver (.mountReel c h stand a) (doneWith (.verdict v.state v.reasons))
              (handOn st s (s.modReel h (fun x =>
                verify (s.stand st).plan (s.stand st).profile { x with loc := some (st, a), mounted := s.link.time }))))
      else answered (.mountReel c h stand a) (plain (.badRequest false)) s

/-- UNMOUNT REEL (R14, R27): the checks of R14, then the table by the record's state and reservation; a cleared location is
handed on. -/
def Obligations.UnmountReelByState : Prop :=
  ∀ (c : Client) (h : Nat) (s : State), s.takes (.unmountReel c h) →
    exec (.unmountReel c h) s =
      if ¬ (1 ≤ h ∧ h ≤ 48) then answered (.unmountReel c h) (plain (.badRequest false)) s
      else
        match s.reel? h with
        | none => answered (.unmountReel c h) (plain .notFound) s
        | some r =>
          if ¬ (c = .console ∨ c = .logistics ∨ r.loc.map (fun l => Client.panel l.1) = some c) then
            answered (.unmountReel c h) (plain .notPermitted) s
          else if r.reservedBy ≠ none then answered (.unmountReel c h) (plain .busy) s
          else
            match r.loc, r.state with
            | some (st, _), .mounted | some (st, _), .ready =>
              .next (deliver (.unmountReel c h) (plain .done)
                (handOn st s (s.modReel h (fun _ => { r with state := .floor, loc := none, reasons := [] }))))
            | some (st, _), .butt =>
              .next (deliver (.unmountReel c h) (plain .done) (handOn st s (s.modReel h (fun _ => { r with loc := none }))))
            | none, .mounted | none, .ready =>
              .next (deliver (.unmountReel c h) (plain .done)
                (s.modReel h (fun _ => { r with state := .floor, loc := none, reasons := [] })))
            | _, _ => answered (.unmountReel c h) (plain (.refused .wrongState)) s

/-- RETIRE REEL (R14, R28): the checks of R14, then a FLOOR or BUTT record removed, handed on where it was located. -/
def Obligations.RetireReelRemovesTheRecord : Prop :=
  ∀ (c : Client) (h : Nat) (s : State), s.takes (.retireReel c h) →
    exec (.retireReel c h) s =
      if ¬ (1 ≤ h ∧ h ≤ 48) then answered (.retireReel c h) (plain (.badRequest false)) s
      else
        match s.reel? h with
        | none => answered (.retireReel c h) (plain .notFound) s
        | some r =>
          if ¬ (c = .console ∨ c = .logistics) then answered (.retireReel c h) (plain .notPermitted) s
          else if r.state = .floor ∨ r.state = .butt then
            let t := { s with reels := s.reels.filter (fun x => !decide (x.1 = h)) }
            .next (deliver (.retireReel c h) (plain .done)
              (match r.loc with
                | some (st, _) => handOn st s t
                | none => t))
          else answered (.retireReel c h) (plain (.refused .wrongState)) s

/-- READ REEL and FIND REEL answer with the record's image, LIST STAND with the star values and the handles on the arms, and
they change no record (R14, R16, R23, R24). The image of a reel record: every field of R15, its position by R3 and its remaining
length by R44. -/
def Obligations.ReelReadsAnswerTheImage : Prop :=
  (∀ (c : Client) (h : Nat) (s : State), s.takes (.readReel c h) →
    exec (.readReel c h) s =
      if ¬ (1 ≤ h ∧ h ≤ 48) then answered (.readReel c h) (plain (.badRequest false)) s
      else
        match s.reel? h with
        | none => answered (.readReel c h) (plain .notFound) s
        | some r => answered (.readReel c h) (doneWith (.reel (s.reelImage h r))) s)
  ∧ (∀ (c : Client) (code : List Nat) (s : State), s.takes (.findReel c code) →
      exec (.findReel c code) s =
        if ¬ (code.length = 11 ∧ ∀ d ∈ code, d ≤ 9) then answered (.findReel c code) (plain (.badRequest false)) s
        else if code[10]? ≠ some (checkDigit code) then answered (.findReel c code) (plain (.badRequest true)) s
        else
          match s.reels.find? (fun x => decide (x.2.code = code)) with
          | none => answered (.findReel c code) (plain .notFound) s
          | some (h, r) => answered (.findReel c code) (doneWith (.reel (s.reelImage h r))) s)
  ∧ (∀ d1 d2 d3 d4 d5 d6 d7 d8 d9 d10 d11 : Nat,
      checkDigit [d1, d2, d3, d4, d5, d6, d7, d8, d9, d10, d11] =
        (10 - (3 * (d1 + d3 + d5 + d7 + d9) + (d2 + d4 + d6 + d8 + d10)) % 10) % 10)
  ∧ (∀ (c : Client) (stand : Nat) (s : State), s.takes (.listStand c stand) →
        (¬ (1 ≤ stand ∧ stand ≤ 12) → exec (.listStand c stand) s = answered (.listStand c stand) (plain (.badRequest false)) s)
        ∧ (∀ st : StandIx, stand = st.val + 1 →
            exec (.listStand c stand) s = answered (.listStand c stand)
              (doneWith (.standList
                { star := (s.stand st).star
                  lastSettled := (s.stand st).lastSettled
                  onA := (s.reels.find? (fun x => decide (x.2.loc = some (st, 0)))).map Prod.fst
                  onB := (s.reels.find? (fun x => decide (x.2.loc = some (st, 1)))).map Prod.fst
                  onC := (s.reels.find? (fun x => decide (x.2.loc = some (st, 2)))).map Prod.fst })) s))
  ∧ (∀ (h : Nat) (r : Reel) (s : State),
    (s.reelImage h r).handle = h ∧ (s.reelImage h r).reel = r
    ∧ ((s.reelImage h r).position = match r.loc with
        | none => none
        | some (st, a) =>
          match (s.stand st).star with
          | .settled k => some (if a = k then .run else if a = k + 1 then .splice else .load)
          | .moving => none
          | .unknown => none)
    ∧ (r.diameter = none → (s.reelImage h r).remaining = none)
    ∧ (∀ d, r.diameter = some d →
        (d ≤ r.paper.core → (s.reelImage h r).remaining = some 0)
        ∧ (r.paper.core < d → 0 < r.paper.caliper → ∃ n, (s.reelImage h r).remaining = some n
            ∧ (2 * n * (10000 * r.paper.caliper) ≤
                2 * (250 * 31416 * (d ^ 2 - r.paper.core ^ 2)) + 10000 * r.paper.caliper
              ∧ 2 * (250 * 31416 * (d ^ 2 - r.paper.core ^ 2)) + 10000 * r.paper.caliper <
                (2 * n + 2) * (10000 * r.paper.caliper)))))

/-- THREAD REEL (R14, R29): the checks in order, then the named reel RUNNING with its diameter absent, any other running
reel of the stand BUTT, the web-broken flag cleared, the gauge afresh (R43, R49), the changes handed on (R21, R47). -/
def Obligations.ThreadReelMakesItRun : Prop :=
  ∀ (c : Client) (stand h : Nat) (s : State), s.takes (.threadReel c stand h) →
    exec (.threadReel c stand h) s =
      if hs : (1 ≤ stand ∧ stand ≤ 12) ∧ 1 ≤ h ∧ h ≤ 48 then
        let st : StandIx := ⟨stand - 1, by omega⟩
        match s.reel? h with
        | none => answered (.threadReel c stand h) (plain .notFound) s
        | some r =>
          if byMode (s.stand st).queue.mode st c = false then
            answered (.threadReel c stand h) (plain .notPermitted) s
          else if (s.stand st).plan.inPlan = false then
            answered (.threadReel c stand h) (plain (.refused .notInPlan)) s
          else if (s.work st).active.isSome then answered (.threadReel c stand h) (plain .busy) s
          else if r.loc.isNone ∨ r.loc ≠ (armAt (s.stand st).star .run).map (fun a => (st, a)) then
            answered (.threadReel c stand h) (plain (.refused .notAtRun)) s
          else if ¬ (r.state = .mounted ∨ r.state = .ready ∨ r.state = .running) then
            answered (.threadReel c stand h) (plain (.refused .wrongState)) s
          else
            let t : State := { s with reels := s.reels.map (fun (x : Nat × Reel) =>
              if x.2.state = .running ∧ (∃ a, x.2.loc = some (st, a)) ∧ x.1 ≠ h then (x.1, toButt x.2) else x) }
            let t := t.modReel h (fun x =>
              { x with
                state := .running, reasons := [], diameter := none
                runningSince := if r.state = .running then x.runningSince else some s.link.time })
            let t := t.modSeq st (fun q => { q with webBroken := false })
            let t := t.modGauge st (fun g =>
              { g with ref := false, revCount := 0, runMark := 0, tripped := false, streak := 0,
                       riskRaised := g.riskRaised && decide (r.state = .running) })
            .next (deliver (.threadReel c stand h) (plain .done) (diameterChanged st (handOn st s t)))
      else answered (.threadReel c stand h) (plain (.badRequest false)) s

/-! ### Numbers, clients and parameters (R1, R56, R58, R59, R61, R156) -/

/-- Numbers name stands, folders, handles and splices within their ranges only (R1, R13, R53, R113). A stand request may be made
by CONSOLE in the stand's CONSOLE mode and by the stand's own panel in its LOCAL mode; ABORT SPLICE, CLEAR CHANGES and
ACKNOWLEDGE STATUS are open to both in either mode (R86, R139, R152, R156). A value below its range is set to the lower bound, and
a value above it to the upper bound (R58, with the ranges of R56). The tentative value of a parameter is its explicit value, else
the one-shot value, else the profile's (R61); a set is consistent when the four relations of R59 hold, one that reads an absent
value being false. -/
def Obligations.NumbersClientsAndParameters : Prop :=
  (∀ n : Nat,
    (∀ st : StandIx, standIx n = some st ↔ n = st.val + 1)
    ∧ (standIx n = none ↔ ¬ (1 ≤ n ∧ n ≤ 12))
    ∧ (∀ f : FolderIx, folderIx n = some f ↔ n = f.val + 1)
    ∧ (folderIx n = none ↔ ¬ (1 ≤ n ∧ n ≤ 4))
    ∧ (handleOk n = true ↔ 1 ≤ n ∧ n ≤ 48)
    ∧ (numberOk n = true ↔ 1 ≤ n ∧ n ≤ 65535))
  ∧ (∀ (st : StandIx) (c : Client),
      (byMode .console st c = true ↔ c = .console)
      ∧ (byMode .localMode st c = true ↔ c = .panel st)
      ∧ (consoleOrPanel st c = true ↔ c = .console ∨ c = .panel st))
  ∧ (∀ p : Params Int, clampParams p =
    { accelStart := max 150 (min 700 p.accelStart), spliceDiameter := max 110 (min 500 p.spliceDiameter)
      lastChance := max 90 (min 400 p.lastChance), matchTolerance := max 1 (min 20 p.matchTolerance)
      matchOffset := max (-10) (min 10 p.matchOffset), minSpeed := max 500 (min 5000 p.minSpeed)
      pasteTarget := max 20 (min 600 p.pasteTarget), knifeDistance := max 100 (min 2000 p.knifeDistance) })
  ∧ (∀ x : Settings, clampSettings x =
    { reelCall := max 300 (min 1200 x.reelCall), accelTimeout := max 20 (min 300 x.accelTimeout)
      angle := min 359 x.angle, pasterLead := max 10 (min 250 x.pasterLead), knifeLead := max 5 (min 150 x.knifeLead)
      knifePulse := max 20 (min 300 x.knifePulse), pullIn := max 10 (min 200 x.pullIn)
      carry := max 1000 (min 10000 x.carry), stopTimeout := max 10 (min 120 x.stopTimeout)
      indexTimeout := max 10 (min 120 x.indexTimeout) })
  ∧ (∀ (s : State) (st : StandIx) (e : Params (Option Int)),
    s.tentative st e =
      { accelStart := (e.accelStart.or (s.stand st).oneShot.values.accelStart).getD (s.stand st).profile.params.accelStart
        spliceDiameter :=
          (e.spliceDiameter.or (s.stand st).oneShot.values.spliceDiameter).getD (s.stand st).profile.params.spliceDiameter
        lastChance := (e.lastChance.or (s.stand st).oneShot.values.lastChance).getD (s.stand st).profile.params.lastChance
        matchTolerance :=
          (e.matchTolerance.or (s.stand st).oneShot.values.matchTolerance).getD (s.stand st).profile.params.matchTolerance
        matchOffset :=
          (e.matchOffset.or (s.stand st).oneShot.values.matchOffset).getD (s.stand st).profile.params.matchOffset
        minSpeed := (e.minSpeed.or (s.stand st).oneShot.values.minSpeed).getD (s.stand st).profile.params.minSpeed
        pasteTarget :=
          (e.pasteTarget.or (s.stand st).oneShot.values.pasteTarget).getD (s.stand st).profile.params.pasteTarget
        knifeDistance :=
          (e.knifeDistance.or (s.stand st).oneShot.values.knifeDistance).getD (s.stand st).profile.params.knifeDistance })
  ∧ (∀ (core incoming : Option Nat) (p : Params Int), consistent core incoming p = true ↔
      ∃ c d : Nat, core = some c ∧ incoming = some d ∧ (c : Int) + 20 ≤ p.lastChance
        ∧ p.lastChance + 20 ≤ p.spliceDiameter ∧ p.spliceDiameter + 40 ≤ p.accelStart ∧ p.accelStart + 100 ≤ (d : Int))

/-! ### Standing data (R7 to R12, R60, R62, R114, R155) -/

/-- WRITE PLAN ENTRY (R8, R9): the checks in order; accepted, the entry replaced, the stand's unreserved MOUNTED and READY
reels verified against it, the changes handed on. -/
def Obligations.WritePlanEntryReplacesTheEntry : Prop :=
  ∀ (c : Client) (stand : Nat) (e : PlanFields) (s : State), s.takes (.writePlanEntry c stand e) →
    exec (.writePlanEntry c stand e) s =
      match standIx stand with
      | none => answered (.writePlanEntry c stand e) (plain (.badRequest false)) s
      | some st =>
        if c ≠ .console then answered (.writePlanEntry c stand e) (plain .notPermitted) s
        else
          match folderIx e.folder with
          | none => answered (.writePlanEntry c stand e) (plain (.badRequest false)) s
          | some f =>
            if ¬ (2000 ≤ e.path ∧ e.path ≤ 200000 ∧ e.grade ≤ 63) then
              answered (.writePlanEntry c stand e) (plain (.badRequest false)) s
            else if (s.work st).active.isSome
                ∨ s.splices.any (fun x => decide (x.2.stand = st) && decide (x.2.mark.state = .onTrack)) then
              answered (.writePlanEntry c stand e) (plain .busy) s
            else
              let plan : PlanEntry :=
                { inPlan := e.inPlan, folder := f, path := e.path, grade := e.grade, width := e.width }
              let t := s.modStand st (fun x => { x with plan := plan })
              let t := { t with
                reels := t.reels.map (fun x =>
                  (x.1, if verifiable st x.2 then verify plan (s.stand st).profile x.2 else x.2)) }
              .next (deliver (.writePlanEntry c stand e) (plain .done) (handOn st s t))

/-- WRITE FOLDER (R114): checks, each value clamped, the four settings replaced and the gate force kept, every mark past the
new trail ejected in track order, an occasion for the arbiter, which the model counts (log 4). -/
def Obligations.WriteFolderReplacesTheSettings : Prop :=
  ∀ (c : Client) (folder cutoff lead trail spacing : Nat) (s : State),
    s.takes (.writeFolder c folder cutoff lead trail spacing) →
    exec (.writeFolder c folder cutoff lead trail spacing) s =
      match folderIx folder with
      | none => answered (.writeFolder c folder cutoff lead trail spacing) (plain (.badRequest false)) s
      | some f =>
        if c ≠ .console then answered (.writeFolder c folder cutoff lead trail spacing) (plain .notPermitted) s
        else
          let t := s.modFolder f (fun F =>
            { F with cutoff := max 400 (min 700 cutoff), lead := min 5 lead, trail := min 10 trail,
                     spacing := min 50000 spacing })
          let past := (t.trackOrder f).filter (fun r =>
            match t.remainingOf r with
            | some d => decide (d < -((min 10 trail : Nat) * (max 400 (min 700 cutoff) : Nat) : Int))
            | none => false)
          .next (deliver (.writeFolder c folder cutoff lead trail spacing)
            (plain (if 400 ≤ cutoff ∧ cutoff ≤ 700 ∧ lead ≤ 5 ∧ trail ≤ 10 ∧ spacing ≤ 50000 then .done
              else .doneClamped))
            (grantOccasion f (past.foldl (fun t r => eject f r.splice t) t)))

/-- WRITE PROFILE (R58 to R60): checks, every value clamped, the clamped defaults consistent by the second and third relations;
accepted, the profile replaced, the stand's reels verified, reel call, run-out risk and the AUTO commit trigger judged. WRITE
ONE-SHOT (R58, R62): checks, the whole set replaced by the clamped values with their markers, the new tentative value judged for
an ARMED AUTO splice. WRITE ROUTING (R155): checks, then the mask and the mode replaced, and no entry of the queue changed. -/
def Obligations.WriteProfileOneShotAndRouting : Prop :=
  (∀ (c : Client) (stand : Nat) (p : Profile) (s : State), s.takes (.writeProfile c stand p) →
    exec (.writeProfile c stand p) s =
      match standIx stand with
      | none => answered (.writeProfile c stand p) (plain (.badRequest false)) s
      | some st =>
        if byMode (s.stand st).queue.mode st c = false then
          answered (.writeProfile c stand p) (plain .notPermitted) s
        else
          let q : Profile := { params := clampParams p.params, settings := clampSettings p.settings }
          if ¬ (q.params.lastChance + 20 ≤ q.params.spliceDiameter
              ∧ q.params.spliceDiameter + 40 ≤ q.params.accelStart) then
            answered (.writeProfile c stand p) (plain (.refused .paramConflict)) s
          else
            let t := s.modStand st (fun x => { x with profile := q })
            let t := { t with
              reels := t.reels.map (fun x =>
                (x.1, if verifiable st x.2 then verify (s.stand st).plan q x.2 else x.2)) }
            .next (deliver (.writeProfile c stand p) (plain (if q = p then .done else .doneClamped))
              (judgeStart false st (evalRisk st (evalReelCall st (handOn st s t))))))
  ∧ (∀ (c : Client) (stand : Nat) (v : Params (Option Int)) (s : State), s.takes (.writeOneShot c stand v) →
    exec (.writeOneShot c stand v) s =
      match standIx stand with
      | none => answered (.writeOneShot c stand v) (plain (.badRequest false)) s
      | some st =>
        if byMode (s.stand st).queue.mode st c = false then
          answered (.writeOneShot c stand v) (plain .notPermitted) s
        else
          .next (deliver (.writeOneShot c stand v)
            (plain (if clampOptional v = v then .done else .doneClamped))
            (judgeStart false st (s.modStand st (fun x =>
              { x with oneShot := { values := clampOptional v
                                    clamped := Params.map2 (fun a b => !decide (a = b)) v (clampOptional v) } })))))
  ∧ (∀ (c : Client) (stand : Nat) (mask : BitVec 16) (mode : Mode) (s : State), s.takes (.writeRouting c stand mask mode) →
      exec (.writeRouting c stand mask mode) s =
        match standIx stand with
        | none => answered (.writeRouting c stand mask mode) (plain (.badRequest false)) s
        | some st =>
          if 8192 ≤ mask.toNat then answered (.writeRouting c stand mask mode) (plain (.badRequest false)) s
          else if c ≠ .console then answered (.writeRouting c stand mask mode) (plain .notPermitted) s
          else
            .next (deliver (.writeRouting c stand mask mode) (plain .done)
              (s.modQueue st (fun q => { q with mask := BitVec.ofNat 13 mask.toNat, mode := mode }))))

/-- READ SETTINGS, READ INPUTS, READ SPLICE and READ STATUS are taken from every client, change nothing and answer one view of
what they name (R12, R57, R67, R138, R151). -/
def Obligations.ReadsAnswerTheirView : Prop :=
  (∀ (c : Client) (stand : Nat) (s : State), s.takes (.readSettings c stand) →
    exec (.readSettings c stand) s =
      match standIx stand with
      | none => answered (.readSettings c stand) (plain (.badRequest false)) s
      | some st => answered (.readSettings c stand) (doneWith (.settings
          { plan := (s.stand st).plan, star := (s.stand st).star, lastSettled := (s.stand st).lastSettled,
            profile := (s.stand st).profile, oneShot := (s.stand st).oneShot, chain := (s.stand st).seq.chain,
            chainBlocked := (s.stand st).seq.chainBlocked, webBroken := (s.stand st).seq.webBroken,
            mask := (s.stand st).queue.mask, mode := (s.stand st).queue.mode })) s)
  ∧ (∀ (c : Client) (stand : Nat) (s : State), s.takes (.readInputs c stand) →
      exec (.readInputs c stand) s =
        match standIx stand with
        | none => answered (.readInputs c stand) (plain (.badRequest false)) s
        | some st => answered (.readInputs c stand) (doneWith (.inputs
            { levels := [.reelPresent 0, .reelPresent 1, .reelPresent 2, .pasterHome, .pasterEngaged, .knifeHome,
                         .webPresent, .safetyGate, .driverHot, .star].map (s.accepted st)
              star := (s.stand st).star, lastSettled := (s.stand st).lastSettled
              webSpeed := (s.stand st).gauge.webSpeed, paster := (s.stand st).field.paster.drive
              knife := (s.stand st).field.knife.drive, brake := (s.stand st).field.brake.drive
              driveEn := (s.work st).driveEn, indexReq := (s.work st).indexReq, demand := (s.work st).demand
              snapshot := (s.stand st).field.snapshot
              changes := (s.stand st).field.changesInOrder })) s)
  ∧ (∀ (c : Client) (n : Nat) (s : State), s.takes (.readSplice c n) →
      exec (.readSplice c n) s =
        if numberOk n = false then answered (.readSplice c n) (plain (.badRequest false)) s
        else
          match s.splice? n with
          | none => answered (.readSplice c n) (plain .notFound) s
          | some sp => answered (.readSplice c n) (doneWith (.splice
              { number := n, splice := sp
                startPending := decide ((s.work sp.stand).active = some n) && (s.work sp.stand).startPending })) s)
  ∧ (∀ (c : Client) (stand : Nat) (s : State), s.takes (.readStatus c stand) →
        exec (.readStatus c stand) s =
          match standIx stand with
          | none => answered (.readStatus c stand) (plain (.badRequest false)) s
          | some st => answered (.readStatus c stand) (doneWith (.status
              { entries := (s.stand st).queue.entries, reelCall := (s.stand st).queue.reelCall,
                buttOut := (s.stand st).queue.buttOut, mask := (s.stand st).queue.mask,
                mode := (s.stand st).queue.mode })) s)

/-! ### Splices: arming, amending, starting (R53, R61 to R70, R75 to R78) -/

/-- ARM SPLICE (R63, R64): the checks in order; then the record under the first free number, the reel at SPLICE reserved, the
splice active, the change handed on and the AUTO trigger judged. The number is the first from the next splice number on, counting
upward and wrapping from 65,535 to 1, that no record holds (R53). -/
def Obligations.ArmSpliceAllocatesOrRefuses : Prop :=
  (∀ (c : Client) (stand : Nat) (trigger : Trigger) (v : Params (Option Int)) (s : State),
      s.takes (.armSplice c stand trigger v) →
      exec (.armSplice c stand trigger v) s =
        match standIx stand with
        | none => answered (.armSplice c stand trigger v) (plain (.badRequest false)) s
        | some st =>
          if byMode (s.stand st).queue.mode st c = false then
            answered (.armSplice c stand trigger v) (plain .notPermitted) s
          else if (s.stand st).plan.inPlan = false then
            answered (.armSplice c stand trigger v) (plain (.refused .notInPlan)) s
          else if (s.work st).active.isSome then answered (.armSplice c stand trigger v) (plain .busy) s
          else
            match (s.stand st).queue.entries.find? (fun e => e.conditions.any isException) with
            | some e => answered (.armSplice c stand trigger v) { code := .statusPending, payload := .entry e } s
            | none =>
              if 4 ≤ (s.stand st).queue.entries.length then answered (.armSplice c stand trigger v) (plain .full) s
              else if 32 ≤ s.splices.length then answered (.armSplice c stand trigger v) (plain .full) s
              else if (s.stand st).seq.webBroken then
                answered (.armSplice c stand trigger v) (plain (.refused .webBroken)) s
              else
                match s.runningReel st, s.readyAtSplice st with
                | none, _ => answered (.armSplice c stand trigger v) (plain (.refused .noRunningReel)) s
                | some _, none => answered (.armSplice c stand trigger v) (plain (.refused .noReadyReel)) s
                | some (out, running), some (inc, next) =>
                  if s.accepted st .driverHot = some 1 then
                    answered (.armSplice c stand trigger v) (plain (.refused .driverHot)) s
                  else if consistent (some running.paper.core) (some (next.diameter.getD next.paper.full))
                      (s.tentative st (clampOptional v)) = false then
                    answered (.armSplice c stand trigger v) (plain (.refused .paramConflict)) s
                  else
                    let n := freeNumber s.splices 33 s.nextSplice
                    let record : Splice :=
                      { stand := st, folder := none
                        origin := match c with
                          | .panel _ => .panel
                          | .console => .console
                          | .logistics => .console
                        trigger := trigger, outgoing := out, incoming := inc, explicit := clampOptional v
                        params := ⟨none, none, none, none, none, none, none, none⟩, state := .armed
                        notes := if clampOptional v = v then [] else [.clamped]
                        armed := s.link.time, committed := none, pasted := none, ended := none
                        mark := { state := .none, path := none, remaining := none, waste := 0 }
                        residualDiameter := none, residualLength := none, endAck := false, cause := none }
                    let t := { s with
                      splices := Table.insert n record s.splices
                      nextSplice := if n = 65535 then 1 else n + 1 }
                    let t := t.modReel inc (fun r => { r with reservedBy := some n })
                    let t := t.modWork st (fun w => { w with active := some n })
                    .next (deliver (.armSplice c stand trigger v)
                      { code := if clampOptional v = v then .done else .doneClamped, payload := .spliceNumber n }
                      (judgeStart false st (handOn st s t))))
  ∧ (∀ (table : List (Nat × Splice)) (next : Nat), table.length ≤ 32 → 1 ≤ next → next ≤ 65535 →
      ∃ k, k ≤ 32
        ∧ freeNumber table 33 next = (next - 1 + k) % 65535 + 1
        ∧ Table.find ((next - 1 + k) % 65535 + 1) table = none
        ∧ ∀ j, j < k → Table.find ((next - 1 + j) % 65535 + 1) table ≠ none)

/-- An auto-arm attempt (R69, R70): one occasion is taken; with the chain flag off or an exception in the queue there is no
attempt; an attempt that passes every check arms with origin CHAIN, trigger AUTO and no explicit values and clears the latch;
one that fails for want of room raises CHAIN_BLOCKED once; any other failure leaves nothing. Arming, whatever its origin (R64): the
record under the first free number, the reel at SPLICE reserved, the splice active, the change handed on and the AUTO trigger judged.
That occasions are counted until the attempt is made is the model's (log 4). -/
def Obligations.AutoArmTakesAnOccasion : Prop :=
  (∀ (st : StandIx) (s : State), s.runs →
    exec (.autoArmAttempt st) s =
      .next (
        if (s.stand st).seq.chainOccasions = 0 then s
        else
          let t := s.modSeq st (fun q => { q with chainOccasions := q.chainOccasions - 1 })
          if (s.stand st).seq.chain = false
              ∨ (s.stand st).queue.entries.any (fun e => e.conditions.any isException) then t
          else if (s.stand st).plan.inPlan = false ∨ (s.work st).active.isSome = true then t
          else if 4 ≤ (s.stand st).queue.entries.length ∨ 32 ≤ s.splices.length then
            if (s.stand st).seq.chainBlocked then t
            else (raise st .chainBlocked t).modSeq st (fun q => { q with chainBlocked := true })
          else if (s.stand st).seq.webBroken then t
          else
            match s.runningReel st, s.readyAtSplice st with
            | some (_, running), some (_, next) =>
              if s.accepted st .driverHot ≠ some 1
                  ∧ consistent (some running.paper.core) (some (next.diameter.getD next.paper.full))
                      (s.tentative st ⟨none, none, none, none, none, none, none, none⟩) = true then
                arm st .chain .auto ⟨none, none, none, none, none, none, none, none⟩ false
                  (t.modSeq st (fun q => { q with chainBlocked := false }))
              else t
            | _, _ => t))
  ∧ (∀ (st : StandIx) (origin : Origin) (trigger : Trigger) (explicit : Params (Option Int)) (clamped : Bool) (s : State)
      (out inc : Nat) (running next : Reel),
      s.runningReel st = some (out, running) → s.readyAtSplice st = some (inc, next) →
      let n := freeNumber s.splices 33 s.nextSplice
      let record : Splice :=
        { stand := st, folder := none, origin := origin, trigger := trigger, outgoing := out, incoming := inc
          explicit := explicit, params := ⟨none, none, none, none, none, none, none, none⟩, state := .armed
          notes := if clamped then [.clamped] else []
          armed := s.link.time, committed := none, pasted := none, ended := none
          mark := { state := .none, path := none, remaining := none, waste := 0 }
          residualDiameter := none, residualLength := none, endAck := false, cause := none }
      let t := { s with
        splices := Table.insert n record s.splices
        nextSplice := if n = 65535 then 1 else n + 1 }
      let t := t.modReel inc (fun r => { r with reservedBy := some n })
      let t := t.modWork st (fun w => { w with active := some n })
      arm st origin trigger explicit clamped s = judgeStart false st (handOn st s t))

/-- AMEND SPLICE (R65): the checks in order, then the explicit values as amended and the AUTO trigger judged; each of the eight
parameters keeps its value, loses it for DEFAULT or takes the value carried, clamped, and DONE_CLAMPED tells that one was outside
its range (R58). SET CHAIN (R68): the checks, then the flag, and for on an occasion for an auto-arm attempt (R69), which the model
counts (log 4). -/
def Obligations.AmendSpliceAndSetChain : Prop :=
  (∀ (c : Client) (n : Nat) (v : Params AmendParam) (s : State), s.takes (.amendSplice c n v) →
    exec (.amendSplice c n v) s =
      if ¬ (1 ≤ n ∧ n ≤ 65535) then answered (.amendSplice c n v) (plain (.badRequest false)) s
      else
        match s.splice? n with
        | none => answered (.amendSplice c n v) (plain .notFound) s
        | some sp =>
          if byMode (s.stand sp.stand).queue.mode sp.stand c = false then
            answered (.amendSplice c n v) (plain .notPermitted) s
          else if sp.state ≠ .armed then answered (.amendSplice c n v) (plain .locked) s
          else if consistent ((s.runningReel sp.stand).map (fun x => x.2.paper.core))
              ((s.reel? sp.incoming).map (fun r => r.diameter.getD r.paper.full))
              (s.tentative sp.stand (amendExplicit sp.explicit v)) = false then
            answered (.amendSplice c n v) (plain (.refused .paramConflict)) s
          else
            let t := s.modSplice n (fun x => { x with
              explicit := amendExplicit x.explicit v
              notes := if amendClamped v then addTo .clamped x.notes else x.notes })
            .next (deliver (.amendSplice c n v)
              { code := if amendClamped v then .doneClamped else .done, payload := .spliceNumber n }
              (judgeStart false sp.stand t)))
  ∧ (∀ (old : Params (Option Int)) (a : Params AmendParam),
      let amended : Int → Int → Option Int → AmendParam → Option Int := fun lo hi held x =>
        match x with
        | .notCarried => held
        | .default => none
        | .value v => some (max lo (min hi v))
      let outside : Int → Int → AmendParam → Prop := fun lo hi x => ∃ v, x = .value v ∧ (v < lo ∨ hi < v)
      amendExplicit old a =
        { accelStart := amended 150 700 old.accelStart a.accelStart
          spliceDiameter := amended 110 500 old.spliceDiameter a.spliceDiameter
          lastChance := amended 90 400 old.lastChance a.lastChance
          matchTolerance := amended 1 20 old.matchTolerance a.matchTolerance
          matchOffset := amended (-10) 10 old.matchOffset a.matchOffset
          minSpeed := amended 500 5000 old.minSpeed a.minSpeed
          pasteTarget := amended 20 600 old.pasteTarget a.pasteTarget
          knifeDistance := amended 100 2000 old.knifeDistance a.knifeDistance }
      ∧ (amendClamped a = true ↔
          outside 150 700 a.accelStart ∨ outside 110 500 a.spliceDiameter ∨ outside 90 400 a.lastChance
          ∨ outside 1 20 a.matchTolerance ∨ outside (-10) 10 a.matchOffset ∨ outside 500 5000 a.minSpeed
          ∨ outside 20 600 a.pasteTarget ∨ outside 100 2000 a.knifeDistance))
  ∧ (∀ (c : Client) (stand : Nat) (on : Bool) (s : State), s.takes (.setChain c stand on) →
      exec (.setChain c stand on) s =
        match standIx stand with
        | none => answered (.setChain c stand on) (plain (.badRequest false)) s
        | some st =>
          if byMode (s.stand st).queue.mode st c = false then
            answered (.setChain c stand on) (plain .notPermitted) s
          else
            .next (deliver (.setChain c stand on) (plain .done) (s.modSeq st (fun q =>
              { q with chain := on, chainOccasions := if on then q.chainOccasions + 1 else q.chainOccasions }))))

/-- START ACCEL (R76, R77) by the state it finds. With start pending already yes it is answered DONE with ARMED and changes
nothing. -/
def Obligations.StartAccelByState : Prop :=
  ∀ (c : Client) (stand : Nat) (s : State), s.takes (.startAccel c stand) →
    exec (.startAccel c stand) s =
      match standIx stand with
      | none => answered (.startAccel c stand) (plain (.badRequest false)) s
      | some st =>
        if byMode (s.stand st).queue.mode st c = false then answered (.startAccel c stand) (plain .notPermitted) s
        else
          match s.activeSplice st with
          | none => answered (.startAccel c stand) (plain (.refused .wrongState)) s
          | some (n, sp) =>
            if sp.state ≠ .armed then answered (.startAccel c stand) (plain (.refused .wrongState)) s
            else if (s.work st).startPending then answered (.startAccel c stand) (doneWith (.started n .armed)) s
            else if s.accepted st .driverHot = some 1 then
              .next (deliver (.startAccel c stand) (doneWith (.started n .armed))
                (s.modWork st (fun w => { w with startPending := true })))
            else
              .next (deliver (.startAccel c stand)
                (if s.commitConsistent sp then doneWith (.started n .accel) else plain (.refused .paramConflict))
                (commit st n sp s))

/-- The commit of an ARMED splice (R66, R78, R79). The resolved values are stored, ONE_SHOT_USED and CLAMPED noted for the one-shot
values taken, and the one-shot set emptied. Consistent, the splice is in ACCEL with its folder and time stamp, the drive enabled
with its demand, the accel timer running, measurement cleared, the reel COMMITTED; that the kept girth is cleared too is the model's
own (log 20). In conflict, it ends ABORTED, the drive untouched, PARAM_CONFLICT and SPLICE_VOID in the stand's queue, its reel given
back and verified again. -/
def Obligations.CommitResolvesAndDrives : Prop :=
  ∀ (st : StandIx) (n : Nat) (sp : Splice) (s : State),
    s.activeSplice st = some (n, sp) → sp.stand = st → sp.state = .armed →
    let t := commit st n sp s
    let values := s.tentative st sp.explicit
    let shot := (s.stand st).oneShot
    let taken : Params Bool := Params.map2 (fun (e o : Option Int) => e.isNone && o.isSome) sp.explicit shot.values
    let used := if anyMarker taken then addTo .oneShotUsed sp.notes else sp.notes
    let notes :=
      if anyMarker (Params.map2 (fun (a b : Bool) => a && b) taken shot.clamped) then addTo .clamped used else used
    (t.stand st).oneShot = { values := ⟨none, none, none, none, none, none, none, none⟩
                             clamped := ⟨false, false, false, false, false, false, false, false⟩ }
    ∧ (s.commitConsistent sp = true →
        t.splice? n = some { sp with
          params := values.map some, notes := notes, state := .accel
          folder := some (s.stand st).plan.folder, committed := some s.link.time }
        ∧ (∀ r, s.reel? sp.incoming = some r → t.reel? sp.incoming = some { r with state := .committed })
        ∧ t.work st = { s.work st with
            startPending := false
            driveEn := true
            demand := demandFor (s.stand st).gauge.webSpeed values.matchOffset
            revolution := none
            prevGirth := none
            keptGirth := none
            goodCount := 0
            matched := false
            accelTimer := some ((s.stand st).profile.settings.accelTimeout * 1000) }
        ∧ (∀ f, t.folder f = s.folder f))
    ∧ (s.commitConsistent sp = false →
        (t.work st).active = none ∧ (t.work st).driveEn = false
        ∧ (∃ e ∈ (t.stand st).queue.entries, Condition.paramConflict ∈ e.conditions ∧ Condition.spliceVoid ∈ e.conditions)
        ∧ (sp.endAck = false → t.splice? n ≠ none)
        ∧ (∀ x, t.splice? n = some x → x = { sp with
            params := values.map some, notes := notes, state := .aborted, ended := some s.link.time
            cause := some (sp.cause.getD .paramConflict) })
        ∧ (∀ r, s.reel? sp.incoming = some r → t.reel? sp.incoming =
            some (verify (s.stand st).plan (s.stand st).profile { r with reservedBy := none, state := .ready, reasons := [] }))
        ∧ (∀ f, t.folder f = s.folder f))

/-! ### Splices: firing, giving up (R83 to R88) -/

/-- FIRE SPLICE (R84): the checks in order; a MATCHED splice enters WAITING and joins its folder's wait list (R83, R115), an occasion
for the arbiter (R118), which the model counts (log 4). -/
def Obligations.FireSpliceByState : Prop :=
  ∀ (c : Client) (stand : Nat) (s : State), s.takes (.fireSplice c stand) →
    exec (.fireSplice c stand) s =
      match standIx stand with
      | none => answered (.fireSplice c stand) (plain (.badRequest false)) s
      | some st =>
        if byMode (s.stand st).queue.mode st c = false then answered (.fireSplice c stand) (plain .notPermitted) s
        else
          match s.activeSplice st with
          | none => answered (.fireSplice c stand) (plain (.refused .wrongState)) s
          | some (n, sp) =>
            if isEnded sp.state then answered (.fireSplice c stand) (plain (.refused .wrongState)) s
            else if sp.state = .armed ∨ sp.state = .accel then
              answered (.fireSplice c stand) (plain (.refused .notMatched)) s
            else if sp.state = .matched then
              .next (deliver (.fireSplice c stand) (doneWith (.spliceNumber n))
                (match sp.folder with
                  | none => s
                  | some f =>
                    let t := s.modSplice n (fun x => { x with state := .waiting })
                    let t := t.modWork st (fun w => { w with matched := true })
                    t.modFolder f (fun F =>
                      { F with
                        waits := insertWait
                          { stand := st, splice := n, matched := true, margin := s.marginOf st sp } F.waits
                        grantOccasions := F.grantOccasions + 1 })))
            else answered (.fireSplice c stand) (plain .busy) s

/-- ABORT SPLICE (R86): open to CONSOLE and PANEL-s in either mode; an ARMED splice ends at once, one from ACCEL to FIRING enters
SPINDOWN, one in SPINDOWN stays, a later one is TOO_LATE. -/
def Obligations.AbortSpliceByState : Prop :=
  ∀ (c : Client) (stand : Nat) (s : State), s.takes (.abortSplice c stand) →
    exec (.abortSplice c stand) s =
      match standIx stand with
      | none => answered (.abortSplice c stand) (plain (.badRequest false)) s
      | some st =>
        if ¬ (c = .console ∨ c = .panel st) then answered (.abortSplice c stand) (plain .notPermitted) s
        else
          match s.activeSplice st with
          | none => answered (.abortSplice c stand) (plain (.refused .wrongState)) s
          | some (n, sp) =>
            match sp.state with
            | .armed =>
              .next (deliver (.abortSplice c stand) (doneWith (.spliceNumber n))
                (handOn st s (immediateAbort st n sp .abortRequest s)))
            | .accel | .matched | .waiting | .firing =>
              .next (deliver (.abortSplice c stand) (doneWith (.spliceNumber n))
                (handOn st s (abortToSpindown st n sp .abortRequest s)))
            | .spindown => answered (.abortSplice c stand) (doneWith (.spliceNumber n)) s
            | .pasting | .cutting | .braking | .indexing => answered (.abortSplice c stand) (plain .tooLate) s
            | .completed | .aborted | .failed => answered (.abortSplice c stand) (plain (.refused .wrongState)) s

/-- Giving a splice up (R85, R87). From ARMED it ends ABORTED at once with SPLICE_VOID and is no longer active. From ACCEL to
FIRING it is in SPINDOWN with outcome ABORTED, the drive left enabled at demand 0, the stop and quiet timers running, a waiter
off its folder's list, a firing splice's slot free. Either way the reel's reservation is released. That the accel and confirm
timers, the revolution reference, the good count and the matched flag are cleared at the entry to SPINDOWN is the model's reading
(log 20); the occasion of the released slot is counted (log 4). -/
def Obligations.GivingUpASplice : Prop :=
  ∀ (st : StandIx) (n : Nat) (sp : Splice) (cause : EndCause) (s : State),
    s.activeSplice st = some (n, sp) → sp.stand = st →
    let t := giveUp st n sp cause s
    (sp.state = .armed →
      (t.work st).active = none
      ∧ (∀ x, t.splice? n = some x → x.state = .aborted ∧ x.ended = some s.link.time ∧ x.cause = some (sp.cause.getD cause))
      ∧ (∃ e ∈ (t.stand st).queue.entries, Condition.spliceVoid ∈ e.conditions))
    ∧ (sp.state = .accel ∨ sp.state = .matched ∨ sp.state = .waiting ∨ sp.state = .firing →
        t.splice? n = some { sp with state := .spindown, cause := some (sp.cause.getD cause) }
        ∧ t.work st = { s.work st with
            outcome := some .aborted, demand := 0, accelTimer := none, revolution := none, goodCount := 0,
            matched := false, confirmTimer := none,
            stopTimer := some ((s.stand st).profile.settings.stopTimeout * 1000), quietTimer := some 2000 }
        ∧ (sp.state = .waiting → ∀ f, sp.folder = some f → ∀ e ∈ (t.folder f).waits, e.stand ≠ st)
        ∧ (sp.state = .firing → ∀ f, sp.folder = some f →
            (t.folder f).slot = none ∧ (t.folder f).grantOccasions = (s.folder f).grantOccasions + 1))
    ∧ (sp.state = .armed ∨ sp.state = .accel ∨ sp.state = .matched ∨ sp.state = .waiting ∨ sp.state = .firing →
        ∀ r, t.reel? sp.incoming = some r → r.reservedBy = none ∧ (r.state = .ready ∨ r.state = .mounted))

/-! ### Conditions, calls and the status queue (R48, R49, R146 to R159) -/

/-- A condition raised on a stand (R148 to R150, R159): where the newest entry has its attribution, or the queue is full, it joins
that entry; otherwise it makes a new one. Nothing but the stand's queue changes. -/
def Obligations.ConditionsGatherInEntries : Prop :=
  ∀ (st : StandIx) (c : Condition) (res : Option Nat × Option Nat) (s : State),
    let q := (s.stand st).queue
    let a := (s.work st).active
    let route : Destination :=
      if q.mode = .localMode ∧ conditionBit c < 12 ∧ q.mask.getLsbD (conditionBit c) = true then .panel else .console
    let outOf := q.buttOut || decide (c = .standEnd)
    (∀ before e, q.entries = before ++ [e] → (e.splice = a ∨ 4 ≤ q.entries.length) →
      raise st c s res = s.modQueue st (fun q => { q with
        buttOut := outOf
        entries := before ++ [
          { e with
            conditions := if c ∈ e.conditions then e.conditions else e.conditions ++ [c]
            destination := if route = .console then .console else e.destination
            revision :=
              if c ∉ e.conditions ∨ (e.destination = .panel ∧ route = .console) then e.revision + 1 else e.revision
            residualDiameter := if c = .webEnd ∧ c ∉ e.conditions then res.1 else e.residualDiameter
            residualLength := if c = .webEnd ∧ c ∉ e.conditions then res.2 else e.residualLength }] }))
    ∧ ((q.entries = [] ∨ ∃ before e, q.entries = before ++ [e] ∧ e.splice ≠ a ∧ q.entries.length < 4) →
      raise st c s res = s.modQueue st (fun q => { q with
        buttOut := outOf
        nextSerial := if q.nextSerial = 65535 then 1 else q.nextSerial + 1
        entries := q.entries ++ [
          { serial := q.nextSerial, revision := 0, splice := a, destination := route
            localAtOrigin := decide (q.mode = .localMode), conditions := [c]
            residualDiameter := if c = .webEnd then res.1 else none
            residualLength := if c = .webEnd then res.2 else none
            created := s.link.time }] }))

/-- Run-out risk and the reel call (R48, R49, R50, R158), the hand-over of a reel change (R21) and the attention lines (R157, R159):
the in-risk state is the test of R48, its last-chance diameter the active splice's once that has left ARMED and else the profile's;
RUN_OUT_RISK is raised at the change from no to yes once per running reel, STOP-REQ follows the stands; REEL CALL is set when the
condition becomes true; a READY unreserved reel at SPLICE where there was none is an occasion for the auto-chain, which the model
counts (log 4). ATTN-CON and the PANEL lamps follow the destinations of the entries and the change sets, ATTN-LOG the call flags. -/
def Obligations.RiskCallHandOverAndLines : Prop :=
  (∀ (st : StandIx) (s : State),
    let risk := (match s.runningDiameter st with
        | some d => decide ((d : Int) ≤ s.lastChance st)
        | none => false)
      && !(match s.spliceState st with
        | some x => decide (x = .pasting ∨ x = .cutting ∨ x = .braking ∨ x = .indexing)
        | none => false)
    let g := (s.stand st).gauge
    evalRisk st s =
      if risk = true ∧ g.inRisk = false ∧ g.riskRaised = false then
        raise st .runOutRisk (s.modGauge st (fun g => { g with inRisk := true, riskRaised := true }))
      else s.modGauge st (fun g => { g with inRisk := risk }))
  ∧ (∀ (st : StandIx) (s : State),
      let profile := (s.stand st).profile.params.lastChance
      (s.activeSplice st = none → s.lastChance st = profile)
      ∧ (∀ n sp, s.activeSplice st = some (n, sp) →
          (sp.state = .armed → s.lastChance st = profile)
          ∧ (sp.state ≠ .armed → ∀ l, sp.params.lastChance = some l → s.lastChance st = l)))
  ∧ (∀ s : State, s.runs →
      let toPanel : StandIx → Prop := fun st =>
        (s.stand st).queue.mask.getLsbD 12 = true ∧ (s.stand st).queue.mode = .localMode
      (s.stopReq = true ↔ ∃ st : StandIx, (s.stand st).gauge.inRisk = true)
      ∧ (s.attnCon = true ↔ ∃ st : StandIx, (∃ e ∈ (s.stand st).queue.entries, e.destination = .console)
          ∨ ((s.stand st).field.changes ≠ [] ∧ ¬ toPanel st))
      ∧ (∀ st : StandIx, s.panelLamp st = true ↔ (∃ e ∈ (s.stand st).queue.entries, e.destination = .panel)
          ∨ ((s.stand st).field.changes ≠ [] ∧ toPanel st))
      ∧ (s.attnLog = true ↔ ∃ st : StandIx, (s.stand st).queue.reelCall = true ∨ (s.stand st).queue.buttOut = true))
  ∧ (∀ (st : StandIx) (s : State),
      let c := (s.stand st).plan.inPlan
        && (match s.runningDiameter st with
            | some d => decide (d ≤ (s.stand st).profile.settings.reelCall)
            | none => false)
        && !(match s.reelAt st .splice with
            | some (_, r) => decide (r.state = .ready) || r.reservedBy.isSome
            | none => false)
      evalReelCall st s = s.modQueue st (fun q =>
        { q with reelCall := if c = true ∧ q.callCondition = false then true else q.reelCall, callCondition := c }))
  ∧ (∀ (st : StandIx) (before s : State),
      handOn st before s = evalReelCall st (
        if before.readyAtSplice st = none ∧ s.readyAtSplice st ≠ none then
          s.modSeq st (fun q => { q with chainOccasions := q.chainOccasions + 1 })
        else s))

/-- ACKNOWLEDGE STATUS (R152, R153): the checks in order on the oldest entry; then collection, removal or the persistence of
DRIVER_HOT, and, when the last exception has gone, an occasion for the auto-chain, which the model counts (log 4). -/
def Obligations.AcknowledgeTheOldestEntry : Prop :=
  ∀ (c : Client) (stand serial revision : Nat) (s : State), s.takes (.acknowledgeStatus c stand serial revision) →
    exec (.acknowledgeStatus c stand serial revision) s =
      match standIx stand with
      | none => answered (.acknowledgeStatus c stand serial revision) (plain (.badRequest false)) s
      | some st =>
        if ¬ ((1 ≤ serial ∧ serial ≤ 65535) ∧ revision ≤ 255) then
          answered (.acknowledgeStatus c stand serial revision) (plain (.badRequest false)) s
        else if ¬ (c = .console ∨ c = .panel st) then
          answered (.acknowledgeStatus c stand serial revision) (plain .notPermitted) s
        else
          match (s.stand st).queue.entries with
          | [] => answered (.acknowledgeStatus c stand serial revision) (plain .notFound) s
          | e :: rest =>
            if ¬ (c = .console ∨ e.destination = .panel) then
              answered (.acknowledgeStatus c stand serial revision) (plain .notPermitted) s
            else if ¬ (e.serial = serial ∧ e.revision.toNat = revision) then
              answered (.acknowledgeStatus c stand serial revision) { code := .stale, payload := .entry e } s
            else
              let stays := decide (Condition.driverHot ∈ e.conditions) && decide (s.accepted st .driverHot = some 1)
              let kept : StatusEntry :=
                { e with conditions := [.driverHot], splice := none, residualDiameter := none, residualLength := none,
                         revision := e.revision + 1 }
              let t :=
                match e.splice with
                | some n =>
                  if Condition.standEnd ∈ e.conditions ∨ Condition.spliceVoid ∈ e.conditions then
                    retire n (s.modSplice n (fun sp => { sp with endAck := true }))
                  else s
                | none => s
              let entries := if stays then kept :: rest else rest
              let t := t.modQueue st (fun q => { q with entries := entries })
              .next (deliver (.acknowledgeStatus c stand serial revision)
                (doneWith (if stays then .entry kept else .none))
                (if (e :: rest).any (fun e => e.conditions.any isException) = true
                    ∧ entries.any (fun e => e.conditions.any isException) = false then
                  t.modSeq st (fun q => { q with chainOccasions := q.chainOccasions + 1 })
                else t))

/-- CLEAR CHANGES (R139) removes the entries whose last change is not after the snapshot carried; TAKE CALL (R159) clears one call
flag and leaves the stored condition; the change set is shown in ascending order of last change, every entry once (R138). -/
def Obligations.ClearChangesAndTakeCall : Prop :=
  (∀ (c : Client) (stand snapshot : Nat) (s : State), s.takes (.clearChanges c stand snapshot) →
    exec (.clearChanges c stand snapshot) s =
      match standIx stand with
      | none => answered (.clearChanges c stand snapshot) (plain (.badRequest false)) s
      | some st =>
        if ¬ (c = .console ∨ c = .panel st) then answered (.clearChanges c stand snapshot) (plain .notPermitted) s
        else if (s.stand st).field.snapshot < snapshot then
          answered (.clearChanges c stand snapshot) (plain (.badRequest false)) s
        else
          let old := (s.stand st).field.changes
          let kept := old.filter (fun e => decide (snapshot < e.last))
          .next (deliver (.clearChanges c stand snapshot)
            (doneWith (.cleared (old.length - kept.length) (s.stand st).field.snapshot))
            (s.modField st (fun x => { x with changes := kept }))))
  ∧ (∀ (c : Client) (stand : Nat) (flag : CallFlag) (s : State), s.takes (.takeCall c stand flag) →
      exec (.takeCall c stand flag) s =
        match standIx stand with
        | none => answered (.takeCall c stand flag) (plain (.badRequest false)) s
        | some st =>
          if c ≠ .logistics then answered (.takeCall c stand flag) (plain .notPermitted) s
          else
            let reelCall := (s.stand st).queue.reelCall && decide (flag = .buttOut)
            let buttOut := (s.stand st).queue.buttOut && decide (flag = .reelCall)
            .next (deliver (.takeCall c stand flag) (doneWith (.calls reelCall buttOut))
              (s.modQueue st (fun q => { q with reelCall := reelCall, buttOut := buttOut }))))
  ∧ (∀ x : Field, x.changesInOrder.Perm x.changes
      ∧ x.changesInOrder.Pairwise (fun a b => a.last ≤ b.last))

/-! ### Folders and tracks (R115 to R129) -/

/-- READ TRACK and FORCE GATE (R127, R129); the gate is open while it is forced or a mark is in the window; a FOLDER-CUT pulse at
an open gate counts for the folder, wrapping, and for every mark in the window, saturating (R128). -/
def Obligations.TheGateFollowsTheWindow : Prop :=
  (∀ (c : Client) (folder : Nat) (s : State), s.takes (.readTrack c folder) →
    exec (.readTrack c folder) s =
      match folderIx folder with
      | none => answered (.readTrack c folder) (plain (.badRequest false)) s
      | some f => answered (.readTrack c folder) (doneWith (.track
          { cutoff := (s.folder f).cutoff, lead := (s.folder f).lead, trail := (s.folder f).trail
            spacing := (s.folder f).spacing, force := (s.folder f).force, gateOpen := s.gateOpen f
            wasteCount := (s.folder f).wasteCount, slot := (s.folder f).slot, waits := (s.folder f).waits
            marks := (s.trackOrder f).map (s.markImage f) })) s)
  ∧ (∀ (c : Client) (folder : Nat) (x : GateForce) (s : State), s.takes (.forceGate c folder x) →
      exec (.forceGate c folder x) s =
        match folderIx folder with
        | none => answered (.forceGate c folder x) (plain (.badRequest false)) s
        | some f =>
          if c ≠ .console then answered (.forceGate c folder x) (plain .notPermitted) s
          else .next (deliver (.forceGate c folder x) (plain .done) (s.modFolder f (fun F => { F with force := x }))))
  ∧ (∀ (f : FolderIx) (s : State), s.runs →
      (s.gateOpen f = true ↔
        (s.folder f).force = .heldOpen
        ∨ ∃ r ∈ (s.folder f).track, ∃ sp d, s.splice? r.splice = some sp ∧ sp.mark.remaining = some d
            ∧ -((s.folder f).trail * (s.folder f).cutoff : Int) ≤ d
            ∧ d ≤ ((s.folder f).lead * (s.folder f).cutoff : Int)))
  ∧ (∀ (f : FolderIx) (s : State), s.runs →
      (s.gateOpen f = false → exec (.folderCutPulse f) s = .next s)
      ∧ (s.gateOpen f = true → ((s.folder f).track.map SpliceRef.splice).Nodup →
          ∃ t, exec (.folderCutPulse f) s = .next t
            ∧ t.folder f = { s.folder f with wasteCount := (s.folder f).wasteCount + 1 }
            ∧ (∀ g, g ≠ f → t.folder g = s.folder g)
            ∧ (∀ n, t.splice? n = (s.splice? n).map (fun sp =>
                if (s.folder f).track.any (fun r => decide (r.splice = n) && s.refInWindow f r) then
                  { sp with mark := { sp.mark with waste := min 65535 (sp.mark.waste + 1) } }
                else sp))
            ∧ t.stands = s.stands ∧ t.reels = s.reels ∧ t.nextSplice = s.nextSplice ∧ t.link = s.link
            ∧ t.lastAnswer = s.lastAnswer))

/-- The grant (R117, R119, R92): one occasion is taken; with the slot held, 8 marks on the track or the device reset pending there
is none; else the first waiter in list order that is matched, fast enough, and at last chance or with the spacing met, is granted
the slot. That occasions are counted until the evaluation is made (log 4), and that the good count and the matched flag are cleared
at FIRING (log 20), is the model's. -/
def Obligations.GrantToTheFirstEligibleWaiter : Prop :=
  ∀ (f : FolderIx) (s : State), s.runs →
    let F := s.folder f
    let spaced : Prop := ∀ r ∈ F.track, ∃ sp p d, s.splice? r.splice = some sp ∧ sp.mark.path = some p
      ∧ sp.mark.remaining = some d ∧ (F.spacing : Int) ≤ (p : Int) - d
    let eligible : WaitEntry → Prop := fun e =>
      e.matched = true
      ∧ (∃ sp v, s.splice? e.splice = some sp ∧ sp.params.minSpeed = some v
          ∧ v ≤ ((s.stand e.stand).gauge.webSpeed : Int))
      ∧ (spaced ∨ ∃ m, e.margin = some m ∧ m ≤ 0)
    let less := s.modFolder f (fun F => { F with grantOccasions := F.grantOccasions - 1 })
    (F.grantOccasions = 0 → exec (.grantEvaluation f) s = .next s)
    ∧ (F.grantOccasions ≠ 0 →
        (F.slot ≠ none ∨ 8 ≤ F.track.length ∨ s.link.resetPending = true ∨ (∀ e ∈ F.waits, ¬ eligible e)) →
        exec (.grantEvaluation f) s = .next less)
    ∧ (F.grantOccasions ≠ 0 → F.slot = none → F.track.length < 8 → s.link.resetPending = false →
        ∀ before e after, F.waits = before ++ e :: after → (∀ x ∈ before, ¬ eligible x) → eligible e →
        let t := less.modFolder f (fun F => { F with
          slot := some { splice := e.splice, stand := e.stand }
          waits := F.waits.filter (fun x => !decide (x.stand = e.stand)) })
        let t := t.modSplice e.splice (fun x => { x with state := .firing })
        exec (.grantEvaluation f) s = .next (t.modWork e.stand (fun w => { w with
          startIndex := match (s.stand e.stand).star with
            | .settled k => some k
            | .moving => none
            | .unknown => none
          goodCount := 0
          matched := false })))

/-- RESET STAND (R110 to R112, R6, R35, R52, R90, R91, R145): the checks in order; accepted, the splice ended with STAND_RESET and its
condition, the stand off every wait list, the diameters of its reels cleared with DIAMETER_RESET and a reserved reel given back, its
sequencer's working state, gauge, field interface and star at their reset values, the stored reel-call condition false (R161); every
other splice record, every mark, the slots
and the other stands as they were, and so the queue's mask and mode, the profile, the one-shot set and the three kept flags. The
model's own: changes handed on before the reset stay for their blocks but a STAR code (log 26), the reset values of the carry
count and the kept girth (log 29), the counting of the chain's occasion (log 4). -/
def Obligations.ResetStandClearsTheStand : Prop :=
  (∀ (c : Client) (stand : Nat) (s : State), s.takes (.resetStand c stand) →
    exec (.resetStand c stand) s =
      match standIx stand with
      | none => answered (.resetStand c stand) (plain (.badRequest false)) s
      | some st =>
        if c ≠ .console then answered (.resetStand c stand) (plain .notPermitted) s
        else if s.spliceState st = some .firing ∨ s.spliceState st = some .pasting ∨ s.spliceState st = some .cutting then
          answered (.resetStand c stand) (plain .busy) s
        else .next (deliver (.resetStand c stand) (plain .done) (resetStand st s)))
  ∧ (∀ (st : StandIx) (s : State),
      let t := resetStand st s
      let cleared : Reel → Reel := fun r =>
        if onStand st r then { r with diameter := none, girth := none, notes := addTo .diameterReset r.notes } else r
      (∀ i, i ≠ st → t.stand i = s.stand i) ∧ t.link = s.link ∧ t.nextSplice = s.nextSplice
      ∧ (t.stand st).star = .unknown ∧ (t.stand st).lastSettled = none
      ∧ (t.stand st).plan = (s.stand st).plan ∧ (t.stand st).profile = (s.stand st).profile
      ∧ (t.stand st).oneShot = (s.stand st).oneShot
      ∧ (t.stand st).gauge = Gauge.reset
      ∧ (t.stand st).field = { Field.reset with
          handed := (s.stand st).field.handed.filter (fun h => !decide (h.input = .star)) }
      ∧ (t.stand st).seq.work = Working.reset ∧ (t.stand st).seq.chain = (s.stand st).seq.chain
      ∧ (t.stand st).seq.chainBlocked = (s.stand st).seq.chainBlocked
      ∧ (t.stand st).seq.webBroken = (s.stand st).seq.webBroken
      ∧ (t.stand st).queue.mask = (s.stand st).queue.mask ∧ (t.stand st).queue.mode = (s.stand st).queue.mode
      ∧ (t.stand st).queue.reelCall = (s.stand st).queue.reelCall
      ∧ (t.stand st).queue.callCondition = false
      ∧ (∀ f, t.folder f = { s.folder f with
          waits := (s.folder f).waits.filter (fun e => !decide (e.stand = st)) })
      ∧ (∀ m, (∀ sp, s.activeSplice st ≠ some (m, sp)) → t.splice? m = s.splice? m)
      ∧ (s.activeSplice st = none →
          (∀ h, t.reel? h = (s.reel? h).map cleared)
          ∧ (t.stand st).queue.entries = (s.stand st).queue.entries
          ∧ (t.stand st).seq.chainOccasions = (s.stand st).seq.chainOccasions)
      ∧ (∀ n sp, s.activeSplice st = some (n, sp) →
          let completes := sp.state = .braking ∨ sp.state = .indexing
          (sp.endAck = false → t.splice? n ≠ none)
          ∧ (∀ x, t.splice? n = some x → x = { sp with
              state := if completes then .completed else .aborted, ended := some s.link.time
              notes := addTo .standReset sp.notes, cause := some (sp.cause.getD .standReset) })
          ∧ (∃ e ∈ (t.stand st).queue.entries, (if completes then Condition.standEnd else .spliceVoid) ∈ e.conditions)
          ∧ (completes → (t.stand st).queue.buttOut = true)
          ∧ (t.stand st).seq.chainOccasions = (s.stand st).seq.chainOccasions + (if completes then 1 else 0)
          ∧ (∀ h, t.reel? h = (s.reel? h).map (fun r =>
              if ¬ completes ∧ h = sp.incoming ∧ r.reservedBy = some n then
                verify (s.stand st).plan (s.stand st).profile
                  { cleared r with reservedBy := none, state := .ready, reasons := [] }
              else cleared r))))

/-! ### Field events (R2, R5, R32, R95, R99 to R106, R133 to R137, R142) -/

/-- A sample (R133, R134, R137): each of the ten inputs is debounced by itself; a later acceptance enters the change set, in the
order of R137 (log 8); a first acceptance enters nothing; what a block takes is handed on (log 3); the timer restarts. The two STAR
lines are one code, STAR-1 the more significant (R135). An acceptance of KNIFE-HOME or SAFETY-GATE that no block takes sets
INDEX-REQ in INDEXING at once (R103, log 3), KNIFE-HOME before SAFETY-GATE (log 8). -/
def Obligations.SamplingDebouncesEveryInput : Prop :=
  (∀ (st : StandIx) (sample : Sample) (s : State), s.runs →
    let x := (s.stand st).field
    let completes : Input → Bool := fun i =>
      decide ((x.input i).accepted ≠ some (sampleLevel sample i))
      && decide ((x.input i).candidate = some (sampleLevel sample i)) && decide ((x.input i).run = 2)
    let later := allInputs.filter (fun i => completes i && (x.input i).accepted.isSome)
    let y := later.foldl (fun y i => y.enter i (sampleLevel sample i)) x
    ∃ t, exec (.samplingTimerExpiry st sample) s = .next t ∧ Local st s t ∧ SameTables s t
      ∧ (∀ i, (t.stand st).field.input i =
          let d := x.input i
          if d.accepted = some (sampleLevel sample i) then { d with candidate := none, run := 0 }
          else if d.candidate = some (sampleLevel sample i) then
            if d.run = 2 then { accepted := some (sampleLevel sample i), candidate := none, run := 0 }
            else { d with run := d.run + 1 }
          else { d with candidate := some (sampleLevel sample i), run := 1 })
      ∧ (t.stand st).field.changes = y.changes ∧ (t.stand st).field.snapshot = y.snapshot
      ∧ (t.stand st).field.handed = x.handed
          ++ (allInputs.filter (fun i => completes i && handsOn i (sampleLevel sample i) (x.input i).accepted.isNone)).map
            (fun i => { input := i, level := sampleLevel sample i })
      ∧ (t.stand st).field.samplingTimer = some 2
      ∧ (t.stand st).field.paster = x.paster ∧ (t.stand st).field.knife = x.knife ∧ (t.stand st).field.brake = x.brake
      ∧ (t.stand st).field.knifePulse = x.knifePulse
      ∧ (let settled : Input → Bool := fun i =>
          completes i && !handsOn i (sampleLevel sample i) (x.input i).accepted.isNone
            && decide (s.spliceState st = some .indexing)
        let follow : Bool → Working → Working := fun want w =>
          if want = w.indexReq then w
          else { w with indexReq := want
                        indexTimer := if want then some ((s.stand st).profile.settings.indexTimeout * 1000) else none }
        let gate := decide (s.accepted st .safetyGate = some 1)
        let knife := decide (t.accepted st .knifeHome = some 1)
        let first := if settled .knifeHome then follow (gate && knife) (s.work st) else s.work st
        let second := if settled .safetyGate then follow (decide (t.accepted st .safetyGate = some 1) && knife) first else first
        t.stand st = { s.stand st with
          field := (t.stand st).field
          seq := { (s.stand st).seq with work := second } }))
  ∧ (∀ sample : Sample, (sampleLevel sample .star).val = 2 * sample.star1.toNat + sample.star0.toNat)
  ∧ (∀ (x : Field) (i : Input) (level : Fin 4),
      let old := x.changes.find? (fun e => decide (e.input = i))
      let number := if x.snapshot = 4294967295 then 1 else x.snapshot + 1
      x.enter i level = { x with
        snapshot := number
        changes :=
          (if x.snapshot = 4294967295 then x.changes.map (fun e => { e with last := 0 }) else x.changes).filter
              (fun e => !decide (e.input = i))
            ++ [{ input := i, level := level, changes := min 255 (old.elim 0 (fun e => e.changes) + 1), last := number }] })

/-- An accepted change is taken once by its block: the first one handed for its input, if it has the command's level; with none
handed the command makes the acceptance itself, and a first acceptance has its effect only where R134 hands it on (log 3, the
model's choice). Confirmation of the paste (R95), the paster home (R102), the knife home (R99, R103), SAFETY-GATE in INDEXING
(R103), DRIVER-HOT (R76, R142). -/
def Obligations.AcceptedChangesAreTaken : Prop :=
  (∀ (st : StandIx) (i : Input) (level : Fin 4) (effect : State → State) (s : State),
    let x := (s.stand st).field
    (∀ h, x.handed.find? (fun h => decide (h.input = i)) = some h →
      takeChange st i level effect s =
        if h.level = level then effect (s.modField st (fun x => { x with handed := x.handed.erase h })) else s)
    ∧ (x.handed.find? (fun h => decide (h.input = i)) = none → (x.input i).accepted = some level →
        takeChange st i level effect s = s)
    ∧ (x.handed.find? (fun h => decide (h.input = i)) = none → (x.input i).accepted ≠ some level →
        (x.input i).accepted ≠ none → handsOn i level false = true →
        takeChange st i level effect s = effect (s.modField st (fun x =>
          (x.setInput i { accepted := some level, candidate := none, run := 0 }).enter i level)))
    ∧ (x.handed.find? (fun h => decide (h.input = i)) = none → (x.input i).accepted ≠ some level →
        (x.input i).accepted ≠ none → handsOn i level false = false →
        takeChange st i level effect s = settleIndex st i (s.modField st (fun x =>
          (x.setInput i { accepted := some level, candidate := none, run := 0 }).enter i level)))
    ∧ (x.handed.find? (fun h => decide (h.input = i)) = none → (x.input i).accepted = none → handsOn i level true = true →
        takeChange st i level effect s = effect (s.modField st (fun x =>
          x.setInput i { accepted := some level, candidate := none, run := 0 })))
    ∧ (x.handed.find? (fun h => decide (h.input = i)) = none → (x.input i).accepted = none → handsOn i level true = false →
        takeChange st i level effect s = settleIndex st i (s.modField st (fun x =>
          x.setInput i { accepted := some level, candidate := none, run := 0 }))))
  ∧ (∀ (i : Input) (level : Fin 4), handsOn i level true = true ↔ i = .star ∨ (i = .driverHot ∧ level = 1))
  ∧ (∀ (st : StandIx) (i : Input) (s : State),
      settleIndex st i s = if i = .knifeHome ∨ i = .safetyGate then updateIndexReq st s else s)
  ∧ (∀ (st : StandIx) (s : State), s.runs →
      exec (.pasterEngagedActive st) s = .next (takeChange st .pasterEngaged 1 (fun s =>
        if s.spliceState st = some .pasting then
          s.modWork st (fun w => { w with confirmed := true, confirmTimer := none })
        else s) s)
      ∧ exec (.pasterHomeActive st) s = .next (takeChange st .pasterHome 1 (fun s =>
          match s.activeSplice st with
          | some (n, sp) =>
            if sp.state = .braking ∧ (s.work st).revQuietTimer = none then endBraking st n s else s
          | none => s) s)
      ∧ exec (.knifeHomeActive st) s = .next (takeChange st .knifeHome 1 (fun s =>
          updateIndexReq st (s.modWork st (fun w => { w with knifeHomeTimer := none }))) s)
      ∧ (∀ closed, exec (.safetyGateChange st closed) s =
          .next (takeChange st .safetyGate (if closed then 1 else 0) (fun s =>
            if s.spliceState st = some .indexing then
              updateIndexReq st (
                if closed = false ∧ (s.work st).gateReported = false then
                  (raise st .safetyGateOpen s).modWork st (fun w => { w with gateReported := true })
                else s)
            else s) s))
      ∧ exec (.driverHotActive st) s = .next (takeChange st .driverHot 1 (fun s =>
          raise st .driverHot (s.modField st (fun x =>
            { x with paster := x.paster.pulledIn, knife := x.knife.pulledIn, brake := x.brake.pulledIn }))) s)
      ∧ exec (.driverHotInactive st) s = .next (takeChange st .driverHot 0 (judgeStart true st) s))
  ∧ (∀ (st : StandIx) (s : State), s.spliceState st = some .indexing →
      let want := decide (s.accepted st .safetyGate = some 1) && decide (s.accepted st .knifeHome = some 1)
      updateIndexReq st s =
        if want = (s.work st).indexReq then s
        else s.modWork st (fun w => { w with
          indexReq := want
          indexTimer := if want then some ((s.stand st).profile.settings.indexTimeout * 1000) else none }))

/-- The star (R2, R5, R104, R105): the star values are set from the accepted code; a departure from a settled index gives up a
splice before PASTING with STAR_MOVED, raises STAR_MOVED in PASTING and CUTTING and is otherwise none of the sequencer's; code 3 from
MOVING or UNKNOWN sets the star and does nothing else; a settling in INDEXING is the stand end, with STAR_MOVED unless it is at (k+1) mod 3. The model's own: how the accepted code reaches the Web
Plan (log 3), a direct change between two settled codes taken as a departure and then a settling, the appearance judged for the
settling and the reel call evaluated once, on the new positions (log 17), an absent start index taken as settled elsewhere (log 24),
the chain's occasion counted (log 4). -/
def Obligations.StarChangesByState : Prop :=
  (∀ (st : StandIx) (code : Fin 4) (s : State), s.runs →
    exec (.starCodeAccepted st code) s = .next (takeChange st .star code (starTaken st code) s))
  ∧ (∀ (st : StandIx) (code : Fin 4) (s : State),
      ((starTaken st code s).stand st).star = (if h : code.val < 3 then .settled ⟨code.val, h⟩ else .moving)
      ∧ ((starTaken st code s).stand st).lastSettled =
          (if h : code.val < 3 then some ⟨code.val, h⟩ else (s.stand st).lastSettled))
  ∧ (∀ (st : StandIx) (k : Arm) (s : State), (s.stand st).star = .settled k →
      let t := s.modStand st (fun x => { x with star := .moving })
      starTaken st 3 s = handOn st s (
        match s.activeSplice st with
        | none => t
        | some (n, sp) =>
          match sp.state with
          | .armed => immediateAbort st n sp .starMoved (raise st .starMoved t)
          | .accel | .matched | .waiting | .firing => abortToSpindown st n sp .starMoved (raise st .starMoved t)
          | .pasting | .cutting => raise st .starMoved t
          | .braking | .indexing | .spindown | .completed | .aborted | .failed => t))
  ∧ (∀ (st : StandIx) (s : State), (s.stand st).star = .moving ∨ (s.stand st).star = .unknown →
      starTaken st 3 s = s.modStand st (fun x => { x with star := .moving }))
  ∧ (∀ (st : StandIx) (j : Arm) (s : State), (s.stand st).star = .moving ∨ (s.stand st).star = .unknown →
      let t := s.modStand st (fun x => { x with star := .settled j, lastSettled := some j })
      starTaken st (j.castLE (by omega)) s = handOn st s (
        match s.activeSplice st with
        | none => t
        | some (n, sp) =>
          if sp.state = .indexing then
            if ∃ k, (s.work st).startIndex = some k ∧ j = k + 1 then standEnd st n .indexed t
            else standEnd st n .starSettledElsewhere (raise st .starMoved t)
          else t))
  ∧ (∀ (st : StandIx) (k j : Arm) (s : State), (s.stand st).star = .settled k →
      let t := s.modStand st (fun x => { x with star := .settled j, lastSettled := some j })
      let left :=
        match s.activeSplice st with
        | none => t
        | some (n, sp) =>
          match sp.state with
          | .armed => immediateAbort st n sp .starMoved (raise st .starMoved t)
          | .accel | .matched | .waiting | .firing => abortToSpindown st n sp .starMoved (raise st .starMoved t)
          | .pasting | .cutting => raise st .starMoved t
          | .braking | .indexing | .spindown | .completed | .aborted | .failed => t
      starTaken st (j.castLE (by omega)) s = handOn st (s.modStand st (fun x => { x with star := .moving })) (
        match s.activeSplice st with
        | none => left
        | some (n, sp) =>
          if sp.state = .indexing then
            if ∃ k, (s.work st).startIndex = some k ∧ j = k + 1 then standEnd st n .indexed left
            else standEnd st n .starSettledElsewhere (raise st .starMoved left)
          else left))
  ∧ (∀ (st : StandIx) (n : Nat) (sp : Splice) (cause : EndCause) (s : State), s.activeSplice st = some (n, sp) →
      let t := standEnd st n cause s
      (t.work st).active = none ∧ (t.work st).indexReq = false ∧ (t.work st).indexTimer = none
      ∧ (t.stand st).queue.buttOut = true ∧ (∃ e ∈ (t.stand st).queue.entries, Condition.standEnd ∈ e.conditions)
      ∧ (t.stand st).seq.chainOccasions = (s.stand st).seq.chainOccasions + 1
      ∧ (∀ x, t.splice? n = some x → x.state = .completed ∧ x.ended = some s.link.time))

/-- REEL-PRESENT lost (R32), by the record on the arm; WEB-PRESENT lost (R101, R106): in CUTTING the splice is not carried, otherwise
the web breaks, by the splice's state; in every case the web-broken flag is set and no mark of the stand is left on a track. A splice
not carried: SPLICE_NOT_CARRIED raised, paster and knife released, the slot free, the outgoing reel BUTT with its residuals, copied
into the record, the incoming reel given back with its paste used, noted in both records, the gauge afresh, the brake on and the splice
in SPINDOWN to end FAILED. The model's own: how the accepted change reaches its block (log 3), and what of the sequencer's registers the
entry to SPINDOWN clears (log 20). -/
def Obligations.LossesOfReelAndWeb : Prop :=
  (∀ (st : StandIx) (arm : Arm) (s : State), s.runs →
    exec (.reelPresentLoss st arm) s = .next (takeChange st (.reelPresent arm) 0 (reelLost st arm) s)
    ∧ exec (.webPresentLoss st) s = .next (takeChange st .webPresent 0 (webLost st) s))
  ∧ (∀ (st : StandIx) (arm : Arm) (s : State),
      (s.reels.find? (fun x => decide (x.2.loc = some (st, arm))) = none → reelLost st arm s = s)
      ∧ (∀ h r, s.reels.find? (fun x => decide (x.2.loc = some (st, arm))) = some (h, r) →
          (r.reservedBy = none → (r.state = .mounted ∨ r.state = .ready) →
            reelLost st arm s = handOn st s (s.modReel h (fun r => { r with
              state := .floor, loc := none, reasons := [], notes := addTo .removedUnannounced r.notes })))
          ∧ (r.reservedBy = none → r.state = .butt →
              reelLost st arm s = handOn st s (s.modReel h (fun r => { r with loc := none })))
          ∧ (r.reservedBy = none → r.state = .running → reelLost st arm s = raise st .reelLost s)
          ∧ (r.reservedBy ≠ none → ∀ n sp, s.activeSplice st = some (n, sp) →
              (sp.state = .armed →
                reelLost st arm s = handOn st s ((immediateAbort st n sp .reelLost (raise st .reelLost s)).modReel h
                  (fun r => { r with
                    state := .floor, loc := none, reasons := [], notes := addTo .removedUnannounced r.notes })))
              ∧ (sp.state = .accel ∨ sp.state = .matched ∨ sp.state = .waiting ∨ sp.state = .firing →
                reelLost st arm s = handOn st s ((abortToSpindown st n sp .reelLost (raise st .reelLost s)).modReel h
                  (fun r => { r with
                    state := .floor, loc := none, reasons := [], notes := addTo .removedUnannounced r.notes })))
              ∧ (sp.state = .pasting ∨ sp.state = .cutting → reelLost st arm s = raise st .reelLost s))))
  ∧ (∀ (st : StandIx) (s : State),
      (∀ n sp, s.activeSplice st = some (n, sp) → sp.state = .cutting → webLost st s = notCarried st n sp s)
      ∧ (s.spliceState st ≠ some .cutting →
          let t := purgeStand st ((raise st .webBreak s).modSeq st (fun q => { q with webBroken := true }))
          (t.activeSplice st = none → webLost st s = t)
          ∧ (∀ n sp, t.activeSplice st = some (n, sp) →
              (sp.state = .armed → webLost st s = handOn st s (immediateAbort st n sp .webBreak t))
              ∧ (sp.state = .accel ∨ sp.state = .matched ∨ sp.state = .waiting ∨ sp.state = .firing →
                  webLost st s = handOn st s (abortToSpindown st n sp .webBreak t))
              ∧ (sp.state = .pasting → webLost st s = failPaste st n sp (setCause n .webBreak t))
              ∧ (sp.state = .braking ∨ sp.state = .indexing ∨ sp.state = .spindown → webLost st s = t)))
      ∧ ((webLost st s).stand st).seq.webBroken = true
      ∧ (∀ n x, (webLost st s).splice? n = some x → x.stand = st → x.mark.state ≠ .onTrack))
  ∧ (∀ (st : StandIx) (n : Nat) (sp : Splice) (s : State),
      s.activeSplice st = some (n, sp) → sp.stand = st → sp.state = .cutting →
      let t := notCarried st n sp s
      let x := s.stand st
      let gone := s.reel? sp.outgoing
      (∃ mark, t.splice? n = some { sp with
          state := .spindown, cause := some (sp.cause.getD .spliceNotCarried), notes := addTo .pasteUsed sp.notes, mark := mark
          residualDiameter := gone.elim sp.residualDiameter (fun r => r.diameter)
          residualLength := gone.elim sp.residualLength
            (fun r => r.diameter.map (fun d => remainingLength d r.paper.core r.paper.caliper)) }
        ∧ ((s.splices.map Prod.fst).Nodup →
            mark = if sp.mark.state = .onTrack then { sp.mark with state := .purged } else sp.mark))
      ∧ (∃ e ∈ (t.stand st).queue.entries, Condition.spliceNotCarried ∈ e.conditions)
      ∧ t.work st = { s.work st with
          outcome := some .failed, demand := 0, accelTimer := none, revolution := none, goodCount := 0, matched := false
          confirmTimer := none, buttArm := s.armOf sp.outgoing, brakeKept := false
          knifeHomeTimer :=
            if x.field.knifePulse = none ∨ s.accepted st .knifeHome = some 1 then (s.work st).knifeHomeTimer else some 500
          stopTimer := some (x.profile.settings.stopTimeout * 1000), quietTimer := some 2000, revQuietTimer := some 3000 }
      ∧ (t.stand st).field = { x.field with
          paster := { drive := .off, pullInTimer := none }
          knife := if x.field.knifePulse = none then x.field.knife else { drive := .off, pullInTimer := none }
          knifePulse := none
          brake := if x.field.brake.drive ≠ .off then x.field.brake
            else if s.accepted st .driverHot = some 1 then { drive := .hold, pullInTimer := none }
            else { drive := .pullIn, pullInTimer := some x.profile.settings.pullIn } }
      ∧ (t.stand st).seq.webBroken = true
      ∧ (t.stand st).gauge.ref = false ∧ (t.stand st).gauge.revCount = 0 ∧ (t.stand st).gauge.runMark = 0
      ∧ (t.stand st).gauge.tripped = false ∧ (t.stand st).gauge.streak = 0
      ∧ ((∀ p ∈ s.reels, p.2.state = .running → onStand st p.2 = true → p.1 = sp.outgoing) →
          (t.stand st).gauge.inRisk = false ∧ (t.stand st).gauge.riskRaised = false)
      ∧ (∀ f, sp.folder = some f → (t.folder f).slot = none)
      ∧ (sp.outgoing ≠ sp.incoming →
          (∀ r, s.reel? sp.outgoing = some r → t.reel? sp.outgoing = some { r with
            state := .butt, reasons := [], residualDiameter := r.diameter
            residualLength := r.diameter.map (fun d => remainingLength d r.paper.core r.paper.caliper) })
          ∧ (∀ r, s.reel? sp.incoming = some r → t.reel? sp.incoming = some (verify x.plan x.profile { r with
              reservedBy := none, state := .ready, reasons := [], paper := { r.paper with paste := false }
              notes := addTo .pasteUsed r.notes }))
          ∧ (∀ h, h ≠ sp.outgoing → h ≠ sp.incoming → t.reel? h = s.reel? h)))

/-! ### Counts and pulses (R38 to R42, R80, R81, R87, R91 to R102, R124, R136) -/

/-- A web count (R38, R42, R80, R97, R100, R124), taken by the gauge, the sequencer and the tracks in this order (log 9). The gauge's
revolution count, run-mark distance and window; the run-mark watch tripping at 4,500; the sequencer's counts; web end at the
carry distance; every mark of the stand moved, and, track by track, ejected below −trail_mm in track order (R122, R125), and for a
forward count an occasion for each mark of the stand whose travel is then the spacing (R118), which the model counts (log 4); a mark
that the count ejects hands on the ejection's occasion only, which is the model's choice (log 32). A tripped watch raises RUN_MARK_LOST, makes the running diameter absent and hands that on, and sets the streak to 0 (R42). -/
def Obligations.WebCountIsTakenByAll : Prop :=
  (∀ (st : StandIx) (d : Direction) (s : State), s.runs →
    exec (.webCount st d) s = .next (trackWebCount st d (carryCheck st (
      (gaugeWebCount st d s).modWork st (fun w =>
        { w with
          revolution := w.revolution.map (fun r =>
            { r with web := r.web + (match d with | .forward => 1 | .reverse => -1) })
          carryCount := if w.carryDistance = none then w.carryCount
            else w.carryCount + (match d with | .forward => 1 | .reverse => -1) })))))
  ∧ (∀ (st : StandIx) (d : Direction) (s : State),
      let g := (s.stand st).gauge
      let step : Int := match d with
        | .forward => 1
        | .reverse => -1
      let g' : Gauge := { g with
        revCount := if g.ref then g.revCount + step else g.revCount
        runMark := if s.runningReel st ≠ none ∧ g.tripped = false then (g.runMark + step).toNat else g.runMark
        window := g.window + step }
      (¬ (s.runningReel st ≠ none ∧ g.tripped = false ∧ d = .forward ∧ g.runMark = 4499) →
        gaugeWebCount st d s = s.modGauge st (fun _ => g'))
      ∧ (∀ h r, s.runningReel st = some (h, r) → g.tripped = false → d = .forward → g.runMark = 4499 →
          gaugeWebCount st d s = runMarkLost st (s.modGauge st (fun _ => { g' with tripped := true }))))
  ∧ (∀ (st : StandIx) (s : State),
      carryCheck st s =
        match s.activeSplice st, (s.work st).carryDistance with
        | some (n, sp), some dist =>
          if sp.state = .cutting ∧ (dist : Int) ≤ (s.work st).carryCount then webEnd st n sp s else s
        | _, _ => s)
  ∧ (∀ (st : StandIx) (d : Direction) (n : Nat) (s : State),
      (moveMarks st d s).splice? n = (s.splice? n).map (fun sp =>
        if sp.stand = st ∧ sp.mark.state = .onTrack then
          { sp with mark := { sp.mark with remaining :=
              match d with
              | .forward => sp.mark.remaining.map (fun r => r - 1)
              | .reverse =>
                if sp.mark.remaining = sp.mark.path.map Int.ofNat then sp.mark.remaining
                else sp.mark.remaining.map (fun r => r + 1) } }
        else sp))
  ∧ (∀ (st : StandIx) (d : Direction) (s : State),
      trackWebCount st d s = [(0 : FolderIx), 1, 2, 3].foldl (crossed st d) (moveMarks st d s))
  ∧ (∀ (st : StandIx) (d : Direction) (f : FolderIx) (s : State),
      let past := (s.trackOrder f).filter (fun r => decide (r.stand = st) && (match s.remainingOf r with
        | some x => decide (x < -((s.folder f).trail * (s.folder f).cutoff : Int))
        | none => false))
      let t := past.foldl (fun t r => eject f r.splice t) s
      let reached := (t.folder f).track.filter (fun r => decide (r.stand = st)
        && (match (t.splice? r.splice).map (fun sp => (sp.mark.path, sp.mark.remaining)) with
        | some (some p, some x) => decide ((p : Int) - x = ((s.folder f).spacing : Int))
        | _ => false))
      crossed st d s f =
        match d with
        | .forward => t.modFolder f (fun F => { F with grantOccasions := F.grantOccasions + reached.length })
        | .reverse => t)
  ∧ (∀ (st : StandIx) (d : Direction) (f : FolderIx) (s : State), ((s.folder f).track.map SpliceRef.splice).Nodup →
      ((crossed st d s f).folder f).track = (s.folder f).track.filter (fun r =>
        !(decide (r.stand = st) && (match s.remainingOf r with
          | some x => decide (x < -((s.folder f).trail * (s.folder f).cutoff : Int))
          | none => false) && decide ((s.splice? r.splice).bind (fun sp => sp.folder) = some f))))
  ∧ (∀ (st : StandIx) (s : State),
      let t := raise st .runMarkLost s
      runMarkLost st s = (diameterChanged st (match s.runningReel st with
        | some (h, _) => t.modReel h (fun r => { r with diameter := none })
        | none => t)).modGauge st (fun g => { g with streak := 0 }))

/-- Web end (R100, R44, R54): the incoming reel RUNNING and unreserved, the outgoing one BUTT with its residuals, copied into the
splice record; the drive off, the paster released, the knife OFF if its pulse was still running, the slot free and an occasion counted
for the arbiter (log 4), the gauge afresh, the brake on, and the splice in BRAKING with its timers; WEB_END is raised, and its entry
carries the butt's residuals where it held no WEB_END before. -/
def Obligations.WebEndHandsTheWebOver : Prop :=
  ∀ (st : StandIx) (n : Nat) (sp : Splice) (s : State),
    s.activeSplice st = some (n, sp) → sp.stand = st → sp.outgoing ≠ sp.incoming →
    let t := webEnd st n sp s
    (∀ r, s.reel? sp.outgoing = some r →
      t.reel? sp.outgoing = some { r with
        state := .butt, reasons := [], residualDiameter := r.diameter
        residualLength := r.diameter.map (fun d => remainingLength d r.paper.core r.paper.caliper) }
      ∧ (∀ x, t.splice? n = some x → x.residualDiameter = r.diameter
          ∧ x.residualLength = r.diameter.map (fun d => remainingLength d r.paper.core r.paper.caliper)))
    ∧ (∀ r, s.reel? sp.incoming = some r →
        t.reel? sp.incoming = some { r with
          state := .running, reservedBy := none, reasons := [], runningSince := some s.link.time })
    ∧ (∀ x, t.splice? n = some x → x.state = .braking ∧ x.mark = sp.mark ∧ x.ended = sp.ended)
    ∧ (t.work st).driveEn = false ∧ (t.work st).demand = 0
    ∧ (t.work st).stopTimer = some ((s.stand st).profile.settings.stopTimeout * 1000)
    ∧ (t.work st).revQuietTimer = some 3000 ∧ (t.work st).buttArm = s.armOf sp.outgoing
    ∧ (t.stand st).field.paster = { drive := .off, pullInTimer := none }
    ∧ (t.stand st).field.knifePulse = none ∧ (t.stand st).field.brake.drive ≠ .off
    ∧ (t.stand st).field.knife = (if (s.stand st).field.knifePulse = none then (s.stand st).field.knife
        else { drive := .off, pullInTimer := none })
    ∧ (t.work st).knifeHomeTimer =
        (if (s.stand st).field.knifePulse = none ∨ s.accepted st .knifeHome = some 1 then (s.work st).knifeHomeTimer
        else some 500)
    ∧ (t.stand st).gauge.ref = false ∧ (t.stand st).gauge.runMark = 0 ∧ (t.stand st).gauge.streak = 0
    ∧ (∀ f, sp.folder = some f → (t.folder f).slot = none
        ∧ (t.folder f).grantOccasions = (s.folder f).grantOccasions + 1)
    ∧ (∃ e ∈ (t.stand st).queue.entries, Condition.webEnd ∈ e.conditions)
    ∧ ((∀ e, (s.stand st).queue.entries.getLast? = some e → (e.splice = some n ∨ 4 ≤ (s.stand st).queue.entries.length) →
          Condition.webEnd ∉ e.conditions) →
        ∀ r, s.reel? sp.outgoing = some r → ∃ e ∈ (t.stand st).queue.entries, Condition.webEnd ∈ e.conditions
          ∧ e.residualDiameter = r.diameter
          ∧ e.residualLength = r.diameter.map (fun d => remainingLength d r.paper.core r.paper.caliper))

/-- A tach count (R80, R87, R91, R94 to R98): the two counts move, the quiet timer of SPINDOWN restarts, and the points of the
paste that the fire count has reached are taken in order: the fire point, the front, the knife point. At the front an occasion is
counted for the arbiter (log 4). A knife point with the paste not confirmed is a paste failure, and one with WEB-PRESENT not accepted
active is at once a splice not carried (R98, R100, R101): the last loss handed on and not taken yet, which left it so, is withdrawn, so
that it raises no WEB_BREAK (log 33). -/
def Obligations.TachCountReachesThePoints : Prop :=
  (∀ (st : StandIx) (d : Direction) (s : State), s.runs →
    exec (.tachCount st d) s = .next (judgeKnifePoint st (judgeFront st (judgeFirePoint st (
      let step : Int := match d with
        | .forward => 1
        | .reverse => -1
      s.modWork st (fun w =>
        { w with
          revolution := w.revolution.map (fun r => { r with tach := r.tach + step })
          fireCount := w.fireCount.map (fun c => c + step)
          quietTimer := if s.spliceState st = some .spindown then some 2000 else w.quietTimer }))))))
  ∧ (∀ (st : StandIx) (n : Nat) (sp : Splice) (c : Int) (p : FirePoints) (s : State),
      s.activeSplice st = some (n, sp) → (s.work st).fireCount = some c → (s.work st).points = some p →
      (sp.state ≠ .firing ∨ c < p.fire → judgeFirePoint st s = s)
      ∧ (sp.state = .firing → p.fire ≤ c →
          let t := judgeFirePoint st s
          let engaged := decide (s.accepted st .pasterEngaged = some 1)
          t.splice? n = some { sp with state := .pasting }
          ∧ (t.work st).confirmed = engaged
          ∧ (t.work st).confirmTimer =
              (if engaged then none else some ((s.stand st).profile.settings.pasterLead + 80))
          ∧ (t.stand st).field.paster.drive ≠ .off ∧ (∀ f, t.folder f = s.folder f))
      ∧ (sp.state ≠ .pasting ∨ (s.work st).markPlaced = true ∨ c < p.front → judgeFront st s = s)
      ∧ (sp.state = .pasting → (s.work st).markPlaced = false → p.front ≤ c →
          let t := judgeFront st s
          t.splice? n = some { sp with
            pasted := some s.link.time
            mark := { state := .onTrack, path := some (s.stand st).plan.path
                      remaining := some ((s.stand st).plan.path : Int), waste := 0 } }
          ∧ (t.work st).markPlaced = true
          ∧ (∀ f, sp.folder = some f → t.folder f = { s.folder f with
              track := (s.folder f).track ++ [{ splice := n, stand := st }]
              grantOccasions := (s.folder f).grantOccasions + 1 }))
      ∧ (sp.state ≠ .pasting ∨ c < p.knife → judgeKnifePoint st s = s)
      ∧ (sp.state = .pasting → p.knife ≤ c → (s.work st).confirmed = false →
          judgeKnifePoint st s = pasteNotConfirmed st n sp s)
      ∧ (sp.state = .pasting → p.knife ≤ c → (s.work st).confirmed = true → s.accepted st .webPresent = some 1 →
          let t := judgeKnifePoint st s
          t.splice? n = some { sp with state := .cutting }
          ∧ (t.work st).carryDistance = some (s.stand st).profile.settings.carry ∧ (t.work st).carryCount = 0
          ∧ (t.stand st).field.knifePulse = some (s.stand st).profile.settings.knifePulse
          ∧ (t.stand st).field.knife.drive ≠ .off)
      ∧ (sp.state = .pasting → p.knife ≤ c → (s.work st).confirmed = true → s.accepted st .webPresent ≠ some 1 →
          let t := (energiseKnife st s).modWork st (fun w =>
            { w with carryDistance := some (s.stand st).profile.settings.carry, carryCount := 0 })
          let t := evalRisk st (t.modSplice n (fun x => { x with state := .cutting }))
          judgeKnifePoint st s = notCarried st n { sp with state := .cutting } (t.modField st Field.takeWebLoss)))
  ∧ (∀ (x : Field) (before after : List Handed), x.handed = before ++ { input := .webPresent, level := 0 } :: after →
      (⟨.webPresent, 0⟩ : Handed) ∉ after → x.takeWebLoss = { x with handed := before ++ after })
  ∧ (∀ x : Field, (⟨.webPresent, 0⟩ : Handed) ∉ x.handed → x.takeWebLoss = x)
  ∧ (∀ (st : StandIx) (s : State),
      let set := (s.stand st).profile.settings
      let hot := decide (s.accepted st .driverHot = some 1)
      energiseKnife st s = s.modField st (fun x => { x with
        knife := if x.knife.drive ≠ .off then x.knife
          else if hot then { drive := .hold, pullInTimer := none }
          else { drive := .pullIn, pullInTimer := some (min set.pullIn set.knifePulse) }
        knifePulse := some set.knifePulse }))

/-- A PASTE-MARK pulse (R80, R81): ignored outside the measuring states and below 300 tach counts; the first sets the reference; a
revolution is judged stable and matching; the third good one in ACCEL gives MATCHED with the reel's girth and diameter; a bad one
takes MATCHED back to ACCEL and clears a waiter's matched flag; with the flag clear a waiter counts good revolutions anew, and the
third sets the flag, the reel's girth and diameter, and an occasion for the arbiter, which the model counts (log 4). The three points
of the fire pulse (R92, R93); a revolution in FIRING after it only restarts the counts and is kept. -/
def Obligations.PasteMarkFormsRevolutions : Prop :=
  (∀ (st : StandIx) (s : State), s.runs →
    (∀ n sp, s.activeSplice st = some (n, sp) →
      (sp.state = .accel ∨ sp.state = .matched ∨ sp.state = .waiting ∨ sp.state = .firing) →
      ((s.work st).revolution = none →
        exec (.pasteMarkPulse st) s = .next (s.modWork st (fun w => { w with revolution := some { tach := 0, web := 0 } })))
      ∧ (∀ r, (s.work st).revolution = some r →
          (r.tach < 300 → exec (.pasteMarkPulse st) s = .next s)
          ∧ (300 ≤ r.tach → exec (.pasteMarkPulse st) s = .next (formRevolution st n sp r s))))
    ∧ ((∀ n sp, s.activeSplice st = some (n, sp) →
          ¬ (sp.state = .accel ∨ sp.state = .matched ∨ sp.state = .waiting ∨ sp.state = .firing)) →
        exec (.pasteMarkPulse st) s = .next s))
  ∧ (∀ (w : Working) (sp : Splice) (r : Revolution), goodRev w sp r = true ↔
      ∃ p tol, w.prevGirth = some p ∧ sp.params.matchTolerance = some tol ∧ |r.tach - p| ≤ roundDiv (3 * p) 1000
        ∧ 0 < r.web ∧ |r.tach - r.web| ≤ roundDiv (tol * r.web) 1000)
  ∧ (∀ (st : StandIx) (n : Nat) (sp : Splice) (r : Revolution) (s : State),
      let w := s.work st
      let good := goodRev w sp r
      let t := s.modWork st (fun w => { w with
        revolution := some { tach := 0, web := 0 }, keptGirth := some r.tach, prevGirth := some r.tach })
      (sp.state = .accel → good = false →
        formRevolution st n sp r s = t.modWork st (fun w => { w with goodCount := 0 }))
      ∧ (sp.state = .accel → good = true → w.goodCount < 2 →
          formRevolution st n sp r s = t.modWork st (fun w => { w with goodCount := w.goodCount + 1 }))
      ∧ (sp.state = .accel → good = true → 2 ≤ w.goodCount →
          formRevolution st n sp r s = judgeWaiting st (((t.modSplice n (fun x => { x with state := .matched })).modWork st
            (fun w => { w with goodCount := 3, accelTimer := none })).modReel sp.incoming (fun x =>
              { x with girth := some r.tach.toNat, diameter := some (diameterOf r.tach).toNat })))
      ∧ (sp.state = .matched → good = true → formRevolution st n sp r s = t)
      ∧ (sp.state = .matched → good = false →
          formRevolution st n sp r s = (t.modSplice n (fun x => { x with state := .accel })).modWork st (fun w =>
            { w with goodCount := 0, accelTimer := some ((s.stand st).profile.settings.accelTimeout * 1000) }))
      ∧ (sp.state = .waiting → w.matched = true → good = true → formRevolution st n sp r s = t)
      ∧ (sp.state = .waiting → w.matched = true → good = false → ∀ f, sp.folder = some f →
          formRevolution st n sp r s = (t.modWork st (fun w => { w with goodCount := 0, matched := false })).modFolder f
            (fun F => { F with waits := F.waits.map (fun e => if e.stand = st then { e with matched := false } else e) }))
      ∧ (sp.state = .waiting → w.matched = false → good = false →
          formRevolution st n sp r s = t.modWork st (fun w => { w with goodCount := 0 }))
      ∧ (sp.state = .waiting → w.matched = false → good = true → w.goodCount < 2 →
          formRevolution st n sp r s = t.modWork st (fun w => { w with goodCount := w.goodCount + 1 }))
      ∧ (sp.state = .waiting → w.matched = false → good = true → 2 ≤ w.goodCount → ∀ f, sp.folder = some f →
          formRevolution st n sp r s = ((t.modWork st (fun w => { w with goodCount := 3, matched := true })).modReel
            sp.incoming (fun x => { x with girth := some r.tach.toNat, diameter := some (diameterOf r.tach).toNat })).modFolder f
            (fun F => { F with
              waits := F.waits.map (fun e => if e.stand = st then { e with matched := true } else e)
              grantOccasions := F.grantOccasions + 1 }))
      ∧ (sp.state = .firing → w.points ≠ none →
          formRevolution st n sp r s = s.modWork st (fun w => { w with
            revolution := some { tach := 0, web := 0 }, keptGirth := some r.tach }))
      ∧ (sp.state = .firing → w.points = none →
          let k := firePointsFor r.tach (s.stand st).gauge.webSpeed (s.stand st).profile.settings
            (sp.params.pasteTarget.getD 0) (sp.params.knifeDistance.getD 0)
          let t := s.modWork st (fun w => { w with
            revolution := some { tach := 0, web := 0 }, keptGirth := some r.tach, points := some k.1
            fireCount := some 0 })
          formRevolution st n sp r s = judgeKnifePoint st (judgeFront st (judgeFirePoint st (
            if k.2 then t.modSplice n (fun x => { x with notes := addTo .knifeLate x.notes }) else t)))))
  ∧ (∀ (g : Int) (v : Nat) (set : Settings) (target distance : Int), 0 < g →
      let p := (firePointsFor g v set target distance).1
      let lead := roundDiv ((set.pasterLead : Int) * v) 1000
      let knife := p.front + distance - roundDiv ((set.knifeLead : Int) * v) 1000
      (∃ k : Nat, p.front = g * set.angle / 360 + k * g ∧ lead + target ≤ p.front
          ∧ ∀ j : Nat, lead + target ≤ g * set.angle / 360 + j * g → k ≤ j)
      ∧ p.fire = p.front - lead - target
      ∧ p.knife = (if knife < p.front then p.front else knife)
      ∧ ((firePointsFor g v set target distance).2 = true ↔ knife < p.front))

/-- A REV pulse (R39 to R41, R102), by the gauge and then the sequencer (log 9): on the running reel's arm it sets the reference, is
ignored, or forms a candidate diameter, accepted or rejected, the third rejection in a row raising DIAMETER_GLITCH; on the butt arm
it restarts the rev-quiet timer while that is watched. The order in which the receivers of R47 take a diameter change is the model's
own (log 10). -/
def Obligations.RevPulseMeasuresTheReel : Prop :=
  (∀ (st : StandIx) (arm : Arm) (s : State), s.runs →
    exec (.revPulse st arm) s = .next (
      let t := gaugeRevPulse st arm s
      if (t.spliceState st = some .braking ∨ t.uncarried st = true ∨ (t.work st).brakeKept = true)
          ∧ (t.work st).buttArm = some arm then
        t.modWork st (fun w => { w with revQuietTimer := some 3000 })
      else t))
  ∧ (∀ (st : StandIx) (arm : Arm) (s : State), (∀ h r, s.runningReel st = some (h, r) → r.loc ≠ some (st, arm)) →
      gaugeRevPulse st arm s = s)
  ∧ (∀ (st : StandIx) (arm : Arm) (h : Nat) (r : Reel) (s : State),
      s.runningReel st = some (h, r) → r.loc = some (st, arm) →
      let g := (s.stand st).gauge
      let d := diameterOf g.revCount
      let ok := (r.paper.core : Int) ≤ d ∧ ∀ held, r.diameter = some held → d ≤ (held : Int) + 3
      let t := s.modGauge st (fun g => { g with revCount := 0, runMark := 0 })
      (g.ref = false ∨ g.tripped = true →
        gaugeRevPulse st arm s =
          s.modGauge st (fun g => { g with ref := true, revCount := 0, runMark := 0, tripped := false }))
      ∧ (g.ref = true → g.tripped = false → g.revCount ≤ 0 → gaugeRevPulse st arm s = t)
      ∧ (g.ref = true → g.tripped = false → 0 < g.revCount → ok →
          gaugeRevPulse st arm s = diameterChanged st (
            (t.modReel h (fun x => { x with diameter := some d.toNat })).modGauge st (fun g => { g with streak := 0 })))
      ∧ (g.ref = true → g.tripped = false → 0 < g.revCount → ¬ ok → g.streak ≠ 2 →
          gaugeRevPulse st arm s = t.modGauge st (fun g => { g with streak := g.streak + 1 }))
      ∧ (g.ref = true → g.tripped = false → 0 < g.revCount → ¬ ok → g.streak = 2 →
          gaugeRevPulse st arm s = diameterChanged st (
            ((raise st .diameterGlitch t).modReel h (fun x => { x with diameter := none })).modGauge st
              (fun g => { g with streak := 0 }))))
  ∧ (∀ (st : StandIx) (s : State),
      diameterChanged st s = evalRisk st (refreshMargin st (judgeWaiting st (judgeStart false st (evalReelCall st s)))))
  ∧ (∀ c : Int, 0 ≤ c →
      2 * 31416 * diameterOf c ≤ 20000 * c + 31416 ∧ 20000 * c + 31416 < 2 * 31416 * (diameterOf c + 1))

/-! ### Timers (R45, R46, R79, R82, R87, R98 to R102, R104, R140, R141) -/

/-- What each timer expiry does, while its timer runs and in the states its rule names (log 5); the arbiter's occasions of a web speed
sample are counted (log 4). -/
def Obligations.TimersActWhenTheyExpire : Prop :=
  ∀ (st : StandIx) (s : State), s.runs →
    (∃ t, exec (.webSpeedTimerExpiry st) s = .next t
      ∧ ((s.stand st).gauge.speedTimer ≠ none →
          (t.stand st).gauge = { (s.stand st).gauge with
            webSpeed := min 65535 ((s.stand st).gauge.window * 20).toNat, window := 0, speedTimer := some 50 }
          ∧ (∀ n sp, s.activeSplice st = some (n, sp) → (s.work st).driveEn = true → sp.state ≠ .spindown →
              (t.work st).demand = min 65535 (roundDiv
                ((min 65535 ((s.stand st).gauge.window * 20).toNat : Nat) * (1000 + sp.params.matchOffset.getD 0))
                1000).toNat)
          ∧ (s.spliceState st = some .spindown → (t.work st).demand = (s.work st).demand)
          ∧ (∀ f, (t.folder f).grantOccasions = (s.folder f).grantOccasions
              + (if (s.folder f).waits.any (fun e => decide (e.stand = st)) then 1 else 0))))
    ∧ (exec (.knifePulseTimerExpiry st) s = .next (
        if (s.stand st).field.knifePulse = none then s
        else
          let t := s.modField st (fun x => { x with knife := { drive := .off, pullInTimer := none }, knifePulse := none })
          if s.accepted st .knifeHome = some 1 then t else t.modWork st (fun w => { w with knifeHomeTimer := some 500 })))
    ∧ (exec (.knifeHomeTimerExpiry st) s = .next (
        if (s.work st).knifeHomeTimer = none then s
        else raise st .knifeNotHome (s.modWork st (fun w => { w with knifeHomeTimer := none }))))
    ∧ (exec (.pullInTimerExpiry st .paster) s = .next (s.modField st (fun x => { x with paster := x.paster.pulledIn }))
      ∧ exec (.pullInTimerExpiry st .knife) s = .next (s.modField st (fun x => { x with knife := x.knife.pulledIn }))
      ∧ exec (.pullInTimerExpiry st .brake) s = .next (s.modField st (fun x => { x with brake := x.brake.pulledIn }))
      ∧ ∀ a : Actuator, a.pulledIn =
          if a.drive = .pullIn then { drive := .hold, pullInTimer := none } else a)
    ∧ (exec (.revQuietTimerExpiry st) s = .next (
        if (s.work st).revQuietTimer = none then s
        else
          let t := s.modWork st (fun w => { w with revQuietTimer := none })
          if (s.work st).brakeKept then
            (releaseBrake st t).modWork st (fun w => { w with brakeKept := false, buttArm := none })
          else
            match s.activeSplice st with
            | some (n, sp) =>
              if sp.state = .braking ∧ s.accepted st .pasterHome = some 1 then endBraking st n t
              else if s.uncarried st = true ∧ (s.work st).quietTimer = none then endUncarried st n t
              else t
            | none => t))
    ∧ (s.activeSplice st = none →
        exec (.accelTimerExpiry st) s = .next s ∧ exec (.quietTimerExpiry st) s = .next s
        ∧ exec (.stopTimerExpiry st) s = .next s ∧ exec (.confirmTimerExpiry st) s = .next s
        ∧ exec (.indexTimerExpiry st) s = .next s)
    ∧ (∀ n sp, s.activeSplice st = some (n, sp) →
        exec (.accelTimerExpiry st) s = .next (
          if sp.state = .accel ∧ (s.work st).accelTimer ≠ none then
            handOn st s (abortToSpindown st n sp .matchTimeout (raise st .matchTimeout s))
          else s)
        ∧ exec (.quietTimerExpiry st) s = .next (
            if sp.state = .spindown ∧ (s.work st).quietTimer ≠ none then
              if s.uncarried st = false then endSpindown st n s
              else if (s.work st).revQuietTimer = none then endUncarried st n s
              else s.modWork st (fun w => { w with quietTimer := none })
            else s)
        ∧ exec (.stopTimerExpiry st) s = .next (
            if (s.work st).stopTimer = none then s
            else if sp.state = .spindown then
              endSpindown st n (if s.uncarried st then keepBrake st (raise st .stopTimeout s) else raise st .stopTimeout s)
            else if sp.state = .braking then
              standEnd st n .brakeTimeout ((keepBrake st (raise st .stopTimeout s)).modWork st
                (fun w => { w with stopTimer := none }))
            else s)
        ∧ exec (.confirmTimerExpiry st) s = .next (
            if sp.state = .pasting ∧ (s.work st).confirmTimer ≠ none ∧ (s.work st).confirmed = false then
              failPaste st n sp (raise st .pasteNotConfirmed (setCause n .pasteNotConfirmed s))
            else s)
        ∧ exec (.indexTimerExpiry st) s = .next (
            if sp.state = .indexing ∧ (s.work st).indexTimer ≠ none then
              standEnd st n .indexTimeout (raise st .indexTimeout s)
            else s)
        ∧ (sp.state = .spindown →
            let t := endSpindown st n s
            (t.work st).active = none ∧ (t.work st).driveEn = false ∧ (t.work st).demand = 0
            ∧ (∃ e ∈ (t.stand st).queue.entries, Condition.spliceVoid ∈ e.conditions)
            ∧ (∀ x, t.splice? n = some x →
                x.state = (if (s.work st).outcome = some .failed then .failed else .aborted) ∧ x.ended = some s.link.time)))

/-! ### The operations that the rules share -/

/-- The triggers (R75, R76, R83) and the margins (R115, R116). An ARMED splice commits on the AUTO trigger or, where start pending is
judged, on start pending, unless DRIVER-HOT is accepted active; a MATCHED AUTO splice at or below its splice diameter enters WAITING;
a waiter's margin is worked out again, and a change gives it its place in the list and is an occasion, which the model counts
(log 4). The order of the list is by margin, absent margins last, then by stand. -/
def Obligations.TriggersAndMarginsAreJudged : Prop :=
  (∀ (st : StandIx) (pending : Bool) (s : State),
    (s.activeSplice st = none → judgeStart pending st s = s)
    ∧ (∀ n sp, s.activeSplice st = some (n, sp) →
        let auto := sp.trigger = .auto
          ∧ ∃ d : Nat, s.runningDiameter st = some d ∧ (d : Int) ≤ (s.tentative st sp.explicit).accelStart
        let met := sp.state = .armed ∧ s.accepted st .driverHot ≠ some 1
          ∧ (auto ∨ (pending = true ∧ (s.work st).startPending = true))
        (met → judgeStart pending st s = commit st n sp s) ∧ (¬ met → judgeStart pending st s = s)))
  ∧ (∀ (st : StandIx) (s : State),
      (s.activeSplice st = none → judgeWaiting st s = s)
      ∧ (∀ n sp, s.activeSplice st = some (n, sp) →
          let met := sp.state = .matched ∧ sp.trigger = .auto
            ∧ ∃ (d : Nat) (limit : Int), s.runningDiameter st = some d ∧ sp.params.spliceDiameter = some limit ∧ (d : Int) ≤ limit
          (¬ met → judgeWaiting st s = s)
          ∧ (met → ∀ f, sp.folder = some f → judgeWaiting st s =
              ((s.modSplice n (fun x => { x with state := .waiting })).modWork st
                (fun w => { w with matched := true })).modFolder f (fun F => { F with
                  waits := insertWait { stand := st, splice := n, matched := true, margin := s.marginOf st sp } F.waits
                  grantOccasions := F.grantOccasions + 1 }))))
  ∧ (∀ (st : StandIx) (sp : Splice) (s : State),
      (∀ (d : Nat) (l : Int), s.runningDiameter st = some d → sp.params.lastChance = some l →
        s.marginOf st sp = some ((d : Int) - l))
      ∧ (s.runningDiameter st = none ∨ sp.params.lastChance = none → s.marginOf st sp = none))
  ∧ (∀ (st : StandIx) (s : State),
      (∀ n sp f e, s.activeSplice st = some (n, sp) → sp.folder = some f →
        (s.folder f).waits.find? (fun e => decide (e.stand = st)) = some e →
        refreshMargin st s =
          if e.margin = s.marginOf st sp then s
          else s.modFolder f (fun F => { F with
            waits := insertWait { e with margin := s.marginOf st sp } (F.waits.filter (fun x => !decide (x.stand = st)))
            grantOccasions := F.grantOccasions + 1 }))
      ∧ (s.activeSplice st = none → refreshMargin st s = s)
      ∧ (∀ n sp, s.activeSplice st = some (n, sp) →
          (∀ f, sp.folder = some f → ∀ e ∈ (s.folder f).waits, e.stand ≠ st) → refreshMargin st s = s))
  ∧ (∀ (e : WaitEntry) (l : List WaitEntry),
      let first : WaitEntry → WaitEntry → Prop := fun a b =>
        match a.margin, b.margin with
        | some x, some y => x < y ∨ (x = y ∧ a.stand < b.stand)
        | some _, none => True
        | none, some _ => False
        | none, none => a.stand < b.stand
      (insertWait e l).Perm (e :: l)
      ∧ (l.Pairwise first → (∀ x ∈ l, x.stand ≠ e.stand) → (insertWait e l).Pairwise first))

/-- How marks leave the tracks and records the table (R72, R122, R125, R126). A record is retired exactly when it has ended, its end is
acknowledged and its mark is not ON_TRACK. An ejected mark leaves the list as EJECTED, the record is tested, an occasion is handed on;
marks purged together leave as PURGED, every record concerned is tested, and each track concerned hands one occasion on, which the
model counts (log 4). The track order is by remaining distance, marks at equal distances in the order of their placement. -/
def Obligations.MarksLeaveTheirTracks : Prop :=
  (∀ (n : Nat) (s : State),
    (s.splice? n = none → retire n s = s)
    ∧ (∀ sp, s.splice? n = some sp →
        (isEnded sp.state = true ∧ sp.endAck = true ∧ sp.mark.state ≠ .onTrack →
          retire n s = { s with splices := s.splices.filter (fun x => !decide (x.1 = n)) })
        ∧ (¬ (isEnded sp.state = true ∧ sp.endAck = true ∧ sp.mark.state ≠ .onTrack) → retire n s = s)))
  ∧ (∀ (f : FolderIx) (n : Nat) (sp : Splice) (s : State), s.splice? n = some sp → sp.folder = some f →
      let t := eject f n s
      t.splice? n = (if isEnded sp.state = true ∧ sp.endAck = true then none
        else some { sp with mark := { sp.mark with state := .ejected } })
      ∧ (∀ m, m ≠ n → t.splice? m = s.splice? m)
      ∧ t.folder f = { s.folder f with
          track := (s.folder f).track.filter (fun r => !decide (r.splice = n))
          grantOccasions := (s.folder f).grantOccasions + 1 }
      ∧ (∀ g, g ≠ f → t.folder g = s.folder g)
      ∧ t.stands = s.stands ∧ t.reels = s.reels ∧ t.nextSplice = s.nextSplice ∧ t.link = s.link)
  ∧ (∀ (test : Nat → Splice → Bool) (s : State), (s.splices.map Prod.fst).Nodup →
      let hit : Nat → Splice → Bool := fun n sp => decide (sp.mark.state = .onTrack) && test n sp
      let t := purge test s
      (∀ n, t.splice? n =
        match s.splice? n with
        | none => none
        | some sp =>
          if hit n sp = false then some sp
          else if isEnded sp.state = true ∧ sp.endAck = true then none
          else some { sp with mark := { sp.mark with state := .purged } })
      ∧ (∀ f, t.folder f = { s.folder f with
          track := (s.folder f).track.filter (fun r =>
            match s.splice? r.splice with
            | none => true
            | some sp => !(hit r.splice sp && decide (sp.folder = some f)))
          grantOccasions := (s.folder f).grantOccasions
            + (if s.splices.any (fun x => hit x.1 x.2 && decide (x.2.folder = some f)) then 1 else 0) })
      ∧ t.stands = s.stands ∧ t.reels = s.reels ∧ t.nextSplice = s.nextSplice ∧ t.link = s.link)
  ∧ (∀ (st : StandIx) (s : State), purgeStand st s = purge (fun _ sp => decide (sp.stand = st)) s)
  ∧ (∀ (f : FolderIx) (s : State),
      let distance : SpliceRef → Int := fun r => (s.remainingOf r).getD 0
      (s.trackOrder f).Perm (s.folder f).track
      ∧ (s.trackOrder f).Pairwise (fun a b => distance a ≤ distance b)
      ∧ ∀ d, (s.trackOrder f).filter (fun r => decide (distance r = d))
          = (s.folder f).track.filter (fun r => decide (distance r = d)))

/-- A paste failure (R98; with WEB_BREAK for its condition R106): the paster released, the placed mark purged, the incoming reel given
back with its paste used, the slot released, and the splice in SPINDOWN to end FAILED; the knife is not energised. PASTE_NOT_CONFIRMED
is raised first, and is the cause where none is recorded yet. That the sequencer's registers of the paste and of the measurement are
cleared at the entry to SPINDOWN is the model's reading (log 20); the occasions are counted (log 4). -/
def Obligations.PasteFailureSpinsDown : Prop :=
  (∀ (st : StandIx) (n : Nat) (sp x : Splice) (s : State),
    (s.splices.map Prod.fst).Nodup → s.activeSplice st = some (n, x) → x.stand = st → x.state = .pasting →
    sp.incoming = x.incoming → sp.folder = x.folder →
    let t := failPaste st n sp s
    let purged := (s.work st).markPlaced = true ∧ x.mark.state = .onTrack
    t.splice? n = some { x with
      state := .spindown, notes := addTo .pasteUsed x.notes
      mark := if purged then { x.mark with state := .purged } else x.mark }
    ∧ (∀ m, m ≠ n → t.splice? m = s.splice? m)
    ∧ t.work st = { s.work st with
        outcome := some .failed, demand := 0, accelTimer := none, revolution := none, goodCount := 0, matched := false,
        confirmTimer := none, stopTimer := some ((s.stand st).profile.settings.stopTimeout * 1000), quietTimer := some 2000 }
    ∧ (t.stand st).field = { (s.stand st).field with paster := { drive := .off, pullInTimer := none } }
    ∧ (∀ r, s.reel? x.incoming = some r → t.reel? x.incoming =
        some (verify (s.stand st).plan (s.stand st).profile { r with
          reservedBy := none, state := .ready, reasons := [], paper := { r.paper with paste := false }
          notes := addTo .pasteUsed r.notes }))
    ∧ (∀ h, h ≠ x.incoming → t.reel? h = s.reel? h)
    ∧ (∀ f, x.folder = some f → t.folder f = { s.folder f with
        slot := none
        track := if purged then (s.folder f).track.filter (fun r => !decide (r.splice = n)) else (s.folder f).track
        grantOccasions := (s.folder f).grantOccasions + (if purged then 2 else 1) })
    ∧ (∀ f, x.folder ≠ some f → t.folder f = s.folder f))
  ∧ (∀ (st : StandIx) (n : Nat) (sp : Splice) (s : State), s.activeSplice st = some (n, sp) →
      pasteNotConfirmed st n sp s = failPaste st n sp (raise st .pasteNotConfirmed (
        s.modSplice n (fun x => { x with cause := some (x.cause.getD .pasteNotConfirmed) })))
      ∧ ∃ e ∈ ((pasteNotConfirmed st n sp s).stand st).queue.entries, Condition.pasteNotConfirmed ∈ e.conditions)

/-- The end of a braking, the entry to INDEXING and a brake kept on (R101 to R103). At the end of a braking the brake and its timers
are off and INDEXING is entered. There a star at (k+1) mod 3 is the stand end, one elsewhere but at k the stand end with STAR_MOVED;
at k or between positions the sequencer waits, SAFETY_GATE_OPEN raised for a gate accepted open the first time, INDEX-REQ by gate and
knife. A kept brake is at HOLD with the rev-quiet timer running afresh (log 25). The end of the spin-down of a splice not carried
releases the brake. The model's own: an UNKNOWN star waits, an absent start index is settled elsewhere (log 24), a gate not yet
accepted is not found open (log 18). -/
def Obligations.BrakingEndsInIndexing : Prop :=
  (∀ (st : StandIx) (n : Nat) (s : State),
    endBraking st n s = enterIndexing st n (
      (s.modField st (fun x => { x with brake := { drive := .off, pullInTimer := none } })).modWork st
        (fun w => { w with stopTimer := none, revQuietTimer := none })))
  ∧ (∀ (st : StandIx) (n : Nat) (sp : Splice) (s : State), s.activeSplice st = some (n, sp) →
      let t := s.modSplice n (fun x => { x with state := .indexing })
      let want := decide (s.accepted st .safetyGate = some 1) && decide (s.accepted st .knifeHome = some 1)
      let u :=
        if s.accepted st .safetyGate = some 0 ∧ (s.work st).gateReported = false then
          (raise st .safetyGateOpen t).modWork st (fun w => { w with gateReported := true })
        else t
      let waits :=
        if want = (s.work st).indexReq then u
        else u.modWork st (fun w => { w with
          indexReq := want
          indexTimer := if want then some ((s.stand st).profile.settings.indexTimeout * 1000) else none })
      ((s.stand st).star = .moving ∨ (s.stand st).star = .unknown → enterIndexing st n s = waits)
      ∧ (∀ j k, (s.stand st).star = .settled j → (s.work st).startIndex = some k →
          (j = k → enterIndexing st n s = waits)
          ∧ (j = k + 1 → enterIndexing st n s = standEnd st n .indexed t)
          ∧ (j ≠ k → j ≠ k + 1 → enterIndexing st n s = standEnd st n .starSettledElsewhere (raise st .starMoved t)))
      ∧ (∀ j, (s.stand st).star = .settled j → (s.work st).startIndex = none →
          enterIndexing st n s = standEnd st n .starSettledElsewhere (raise st .starMoved t)))
  ∧ (∀ (st : StandIx) (s : State),
      keepBrake st s = (s.modField st (fun x => { x with
        brake := if x.brake.drive = .pullIn then { drive := .hold, pullInTimer := none } else x.brake })).modWork st
          (fun w => { w with brakeKept := true, revQuietTimer := some 3000 }))
  ∧ (∀ (st : StandIx) (n : Nat) (s : State),
      endUncarried st n s = endSpindown st n (
        (s.modField st (fun x => { x with brake := { drive := .off, pullInTimer := none } })).modWork st
          (fun w => { w with revQuietTimer := none })))
  ∧ (∀ (st : StandIx) (s : State), s.spliceState st ≠ some .indexing → updateIndexReq st s = s)

/-! ### Invariants -/

/-- Every step keeps these values in their ranges: the plan entries, profiles, one-shot sets and folder settings, the
demand 0 while DRIVE-EN is deasserted, the gauge's and the scanner's counts, the pull-in timers, the status queues of at most 4
entries, the two tables in ascending order of their keys, the answer order list of at most 16 (R7, R13, R41 to R45, R53, R56, R58,
R60, R62, R79, R81, R113, R133, R137, R140, R146, R163 to R165). -/
def Obligations.EveryStepKeepsTheRanges : Prop :=
  ∀ s t : State, s.InRange → step s = .next t → t.InRange

/-- Every step keeps the discipline of the folders: a splice is in FIRING, PASTING or CUTTING exactly while it holds its folder's
slot, so at most one splice of a folder is; every waiter is a WAITING splice; every mark listed on a track is ON_TRACK there, and a
track lists at most 8 (R53, R115, R117, R119, R120, R122). -/
def Obligations.EveryStepKeepsOneSplicePerSlot : Prop :=
  (∀ s t : State, s.Disciplined → step s = .next t → t.Disciplined)
  ∧ (∀ (s : State) (n m : Nat) (x y : Splice) (f : FolderIx), s.Disciplined →
      s.splice? n = some x → s.splice? m = some y → holdsSlot x.state = true → holdsSlot y.state = true →
      x.folder = some f → y.folder = some f → n = m)

/-- Every step keeps the reel records in order: paper data in range and reel codes checked and distinct, one reel on an arm, a location
and unready reasons exactly as the state has them, one RUNNING reel of a stand, a reserved reel the incoming reel of its stand's active
splice, READY while that is ARMED and COMMITTED up to CUTTING, the outgoing reel RUNNING until then (R13, R15 to R18, R30, R31). The two
invariants in the premise are kept by statements of their own. -/
def Obligations.EveryStepKeepsTheReelRecords : Prop :=
  ∀ s t : State, s.InRange → s.Disciplined → s.ReelsInOrder → step s = .next t → t.ReelsInOrder

/-- Every step keeps the wait lists in their order, the status entries in consecutive serials, no splice in two of them and each
entry's splice recorded with its end not yet acknowledged, the explicit and resolved values of every splice in their ranges, and the
waste copies of a mark at most 65,535; so no two entries of a queue share a serial (R56, R58, R72, R115, R128, R146, R148). The two
invariants in the premise are kept by statements of their own. -/
def Obligations.EveryStepKeepsQueuesAndWaitLists : Prop :=
  (∀ s t : State, s.InRange → s.Disciplined → s.QueuesInOrder → step s = .next t → t.QueuesInOrder)
  ∧ (∀ (s : State) (st : StandIx), s.InRange → s.QueuesInOrder →
      ((s.stand st).queue.entries.map StatusEntry.serial).Nodup)

/-- After a full reset the four invariants hold. -/
def Obligations.InvariantsHoldAtReset : Prop :=
  State.reset.InRange ∧ State.reset.Disciplined ∧ State.reset.ReelsInOrder ∧ State.reset.QueuesInOrder
end

