-- ==== Sys2Proof/Laws/Bytes.lean ====
section
/-! SUPPORT. The fields of R172 and R174 read back as they were written. -/

namespace Sys2Proof.Machine

@[simp] theorem toNat_byteOf {n : Nat} (h : n < 256) : (byteOf n).toNat = n := by simp [byteOf]; omega

@[simp] theorem num2_bytes2 {n : Nat} (h : n < 65536) : num2 (byteOf (n / 256)) (byteOf n) = n := by
  simp only [num2, byteOf, BitVec.toNat_ofNat]; omega

@[simp] theorem num4_bytes4 {n : Nat} (h : n < 4294967296) :
    num4 (byteOf (n / 16777216)) (byteOf (n / 65536)) (byteOf (n / 256)) (byteOf n) = n := by
  simp only [num4, byteOf, BitVec.toNat_ofNat]; omega

theorem toInt_byteOfInt {v : Int} (h : -128 ≤ v) (k : v ≤ 127) : (byteOfInt v).toInt = v := by
  simp only [byteOfInt, BitVec.toInt_ofInt]
  exact Int.bmod_eq_of_le (by simpa using h) (by simp; omega)

@[simp] theorem widthOf_widthByte (w : Width) : widthOf (widthByte w) = some w := by cases w <;> rfl
@[simp] theorem flagOf_flagByte (b : Bool) : flagOf (flagByte b) = some b := by cases b <;> rfl
@[simp] theorem armOf_armByte (a : Arm) : armOf (armByte a) = some a := by revert a; decide
@[simp] theorem triggerOf_triggerByte (t : Trigger) : triggerOf (triggerByte t) = some t := by cases t <;> rfl
@[simp] theorem modeOf_modeByte (m : Mode) : modeOf (modeByte m) = some m := by cases m <;> rfl
@[simp] theorem forceOf_forceByte (x : GateForce) : forceOf (forceByte x) = some x := by cases x <;> rfl
@[simp] theorem callFlagOf_callFlagByte (x : CallFlag) : callFlagOf (callFlagByte x) = some x := by cases x <;> rfl

@[simp] theorem clientOf_clientByte (c : Client) : clientOf (clientByte c) = some c := by
  cases c with
  | console => rfl
  | logistics => rfl
  | panel s => revert s; decide

/-- The bits of a presence byte of eight members. -/
theorem bitOf_presenceByte8 (a b c d e f g h : Bool) :
    bitOf (presenceByte [a, b, c, d, e, f, g, h]) 0 = a ∧ bitOf (presenceByte [a, b, c, d, e, f, g, h]) 1 = b
    ∧ bitOf (presenceByte [a, b, c, d, e, f, g, h]) 2 = c ∧ bitOf (presenceByte [a, b, c, d, e, f, g, h]) 3 = d
    ∧ bitOf (presenceByte [a, b, c, d, e, f, g, h]) 4 = e ∧ bitOf (presenceByte [a, b, c, d, e, f, g, h]) 5 = f
    ∧ bitOf (presenceByte [a, b, c, d, e, f, g, h]) 6 = g ∧ bitOf (presenceByte [a, b, c, d, e, f, g, h]) 7 = h := by
  revert a b c d e f g h; decide

/-- The bits of a presence byte of six members: bits 6 and 7 are clear. -/
theorem bitOf_presenceByte6 (a b c d e f : Bool) :
    bitOf (presenceByte [a, b, c, d, e, f]) 0 = a ∧ bitOf (presenceByte [a, b, c, d, e, f]) 1 = b
    ∧ bitOf (presenceByte [a, b, c, d, e, f]) 2 = c ∧ bitOf (presenceByte [a, b, c, d, e, f]) 3 = d
    ∧ bitOf (presenceByte [a, b, c, d, e, f]) 4 = e ∧ bitOf (presenceByte [a, b, c, d, e, f]) 5 = f
    ∧ bitOf (presenceByte [a, b, c, d, e, f]) 6 = false ∧ bitOf (presenceByte [a, b, c, d, e, f]) 7 = false := by
  revert a b c d e f; decide

/-- A parameter block whose values fit their fields reads back. -/
theorem paramBlockOf_paramBlock {p : Params Int} (h : p.wfBy (fun t v => t v) = true) :
    paramBlockOf (paramBlock p) = some p := by
  obtain ⟨a, s, l, t, o, m, g, k⟩ := p
  simp only [Params.wfBy, unsignedWf, Bool.and_eq_true, decide_eq_true_eq] at h
  simp only [paramBlock, bytes2, paramBlockOf, List.cons_append, List.nil_append]
  rw [num2_bytes2 (by omega), num2_bytes2 (by omega), num2_bytes2 (by omega), num2_bytes2 (by omega),
    num2_bytes2 (by omega), num2_bytes2 (by omega), toNat_byteOf (by omega), toInt_byteOfInt (by omega) (by omega)]
  simp only [Option.some.injEq, Params.mk.injEq]
  refine ⟨?_, ?_, ?_, ?_, trivial, ?_, ?_, ?_⟩ <;> omega

/-- The settings of a profile that fit their fields read back. -/
theorem settingsOf_settingsBlock {s : Settings} (h : s.wf = true) : settingsOf (settingsBlock s) = some s := by
  simp only [Settings.wf, fits, Bool.and_eq_true, decide_eq_true_eq] at h
  simp only [settingsBlock, bytes2, settingsOf, List.cons_append, List.nil_append]
  rw [num2_bytes2 (by omega), num2_bytes2 (by omega), num2_bytes2 (by omega), num2_bytes2 (by omega),
    num2_bytes2 (by omega), toNat_byteOf (by omega), toNat_byteOf (by omega), toNat_byteOf (by omega),
    toNat_byteOf (by omega), toNat_byteOf (by omega)]

/-- The digit bytes of a reel code read back. -/
theorem map_toNat_byteOf {l : List Nat} (h : l.all (fits 1) = true) : (l.map byteOf).map BitVec.toNat = l := by
  induction l with
  | nil => rfl
  | cons n t ih =>
    simp only [List.all_cons, Bool.and_eq_true, fits, decide_eq_true_eq] at h
    simp only [List.map_cons, toNat_byteOf (show n < 256 by omega)]
    rw [ih h.2]

/-- A frame is seven bytes longer than its payload (R162). -/
@[simp] theorem length_frameOf (client tag code : Byte) (payload : List Byte) :
    (frameOf client tag code payload).length = payload.length + 7 := by
  simp [frameOf, checkBytes]

end Sys2Proof.Machine
end

