-- ==== Sys2Proof/Laws/State.lean ====
section
/-! SUPPORT. What each update of the state leaves in each part: one lemma per part per update. -/

namespace Sys2Proof.Machine

/-! ### Stands and folders -/

@[simp] theorem stand_modStand (s : State) (i : StandIx) (f : Stand → Stand) :
    (s.modStand i f).stand i = f (s.stand i) := by
  simp [State.stand, State.modStand, Vector.get_eq_getElem]

@[simp] theorem stand_modStand_ne (s : State) {i j : StandIx} (f : Stand → Stand) (h : j ≠ i) :
    (s.modStand i f).stand j = s.stand j := by
  have : ¬ i.val = j.val := fun e => h (Fin.ext e.symm)
  simp [State.stand, State.modStand, Vector.get_eq_getElem, this]

@[simp] theorem folder_modFolder (s : State) (i : FolderIx) (f : Folder → Folder) :
    (s.modFolder i f).folder i = f (s.folder i) := by
  simp [State.folder, State.modFolder, Vector.get_eq_getElem]

@[simp] theorem folder_modFolder_ne (s : State) {i j : FolderIx} (f : Folder → Folder) (h : j ≠ i) :
    (s.modFolder i f).folder j = s.folder j := by
  have : ¬ i.val = j.val := fun e => h (Fin.ext e.symm)
  simp [State.folder, State.modFolder, Vector.get_eq_getElem, this]

/-! ### The parts that an update of a stand leaves -/

@[simp] theorem folders_modStand (s : State) (i : StandIx) (f : Stand → Stand) : (s.modStand i f).folders = s.folders := rfl
@[simp] theorem reels_modStand (s : State) (i : StandIx) (f : Stand → Stand) : (s.modStand i f).reels = s.reels := rfl
@[simp] theorem splices_modStand (s : State) (i : StandIx) (f : Stand → Stand) : (s.modStand i f).splices = s.splices := rfl
@[simp] theorem nextSplice_modStand (s : State) (i : StandIx) (f : Stand → Stand) : (s.modStand i f).nextSplice = s.nextSplice := rfl
@[simp] theorem link_modStand (s : State) (i : StandIx) (f : Stand → Stand) : (s.modStand i f).link = s.link := rfl
@[simp] theorem lastAnswer_modStand (s : State) (i : StandIx) (f : Stand → Stand) : (s.modStand i f).lastAnswer = s.lastAnswer := rfl
@[simp] theorem pending_modStand (s : State) (i : StandIx) (f : Stand → Stand) : (s.modStand i f).pending = s.pending := rfl
@[simp] theorem folder_modStand (s : State) (i : StandIx) (f : Stand → Stand) (k : FolderIx) :
    (s.modStand i f).folder k = s.folder k := rfl

@[simp] theorem folders_modSeq (s : State) (i : StandIx) (f : Sequencer → Sequencer) : (s.modSeq i f).folders = s.folders := rfl
@[simp] theorem reels_modSeq (s : State) (i : StandIx) (f : Sequencer → Sequencer) : (s.modSeq i f).reels = s.reels := rfl
@[simp] theorem splices_modSeq (s : State) (i : StandIx) (f : Sequencer → Sequencer) : (s.modSeq i f).splices = s.splices := rfl
@[simp] theorem nextSplice_modSeq (s : State) (i : StandIx) (f : Sequencer → Sequencer) : (s.modSeq i f).nextSplice = s.nextSplice := rfl
@[simp] theorem link_modSeq (s : State) (i : StandIx) (f : Sequencer → Sequencer) : (s.modSeq i f).link = s.link := rfl
@[simp] theorem lastAnswer_modSeq (s : State) (i : StandIx) (f : Sequencer → Sequencer) : (s.modSeq i f).lastAnswer = s.lastAnswer := rfl
@[simp] theorem pending_modSeq (s : State) (i : StandIx) (f : Sequencer → Sequencer) : (s.modSeq i f).pending = s.pending := rfl
@[simp] theorem folder_modSeq (s : State) (i : StandIx) (f : Sequencer → Sequencer) (k : FolderIx) :
    (s.modSeq i f).folder k = s.folder k := rfl

@[simp] theorem folders_modWork (s : State) (i : StandIx) (f : Working → Working) : (s.modWork i f).folders = s.folders := rfl
@[simp] theorem reels_modWork (s : State) (i : StandIx) (f : Working → Working) : (s.modWork i f).reels = s.reels := rfl
@[simp] theorem splices_modWork (s : State) (i : StandIx) (f : Working → Working) : (s.modWork i f).splices = s.splices := rfl
@[simp] theorem nextSplice_modWork (s : State) (i : StandIx) (f : Working → Working) : (s.modWork i f).nextSplice = s.nextSplice := rfl
@[simp] theorem link_modWork (s : State) (i : StandIx) (f : Working → Working) : (s.modWork i f).link = s.link := rfl
@[simp] theorem lastAnswer_modWork (s : State) (i : StandIx) (f : Working → Working) : (s.modWork i f).lastAnswer = s.lastAnswer := rfl
@[simp] theorem pending_modWork (s : State) (i : StandIx) (f : Working → Working) : (s.modWork i f).pending = s.pending := rfl
@[simp] theorem folder_modWork (s : State) (i : StandIx) (f : Working → Working) (k : FolderIx) :
    (s.modWork i f).folder k = s.folder k := rfl

@[simp] theorem folders_modGauge (s : State) (i : StandIx) (f : Gauge → Gauge) : (s.modGauge i f).folders = s.folders := rfl
@[simp] theorem reels_modGauge (s : State) (i : StandIx) (f : Gauge → Gauge) : (s.modGauge i f).reels = s.reels := rfl
@[simp] theorem splices_modGauge (s : State) (i : StandIx) (f : Gauge → Gauge) : (s.modGauge i f).splices = s.splices := rfl
@[simp] theorem nextSplice_modGauge (s : State) (i : StandIx) (f : Gauge → Gauge) : (s.modGauge i f).nextSplice = s.nextSplice := rfl
@[simp] theorem link_modGauge (s : State) (i : StandIx) (f : Gauge → Gauge) : (s.modGauge i f).link = s.link := rfl
@[simp] theorem lastAnswer_modGauge (s : State) (i : StandIx) (f : Gauge → Gauge) : (s.modGauge i f).lastAnswer = s.lastAnswer := rfl
@[simp] theorem pending_modGauge (s : State) (i : StandIx) (f : Gauge → Gauge) : (s.modGauge i f).pending = s.pending := rfl
@[simp] theorem folder_modGauge (s : State) (i : StandIx) (f : Gauge → Gauge) (k : FolderIx) :
    (s.modGauge i f).folder k = s.folder k := rfl

@[simp] theorem folders_modField (s : State) (i : StandIx) (f : Field → Field) : (s.modField i f).folders = s.folders := rfl
@[simp] theorem reels_modField (s : State) (i : StandIx) (f : Field → Field) : (s.modField i f).reels = s.reels := rfl
@[simp] theorem splices_modField (s : State) (i : StandIx) (f : Field → Field) : (s.modField i f).splices = s.splices := rfl
@[simp] theorem nextSplice_modField (s : State) (i : StandIx) (f : Field → Field) : (s.modField i f).nextSplice = s.nextSplice := rfl
@[simp] theorem link_modField (s : State) (i : StandIx) (f : Field → Field) : (s.modField i f).link = s.link := rfl
@[simp] theorem lastAnswer_modField (s : State) (i : StandIx) (f : Field → Field) : (s.modField i f).lastAnswer = s.lastAnswer := rfl
@[simp] theorem pending_modField (s : State) (i : StandIx) (f : Field → Field) : (s.modField i f).pending = s.pending := rfl
@[simp] theorem folder_modField (s : State) (i : StandIx) (f : Field → Field) (k : FolderIx) :
    (s.modField i f).folder k = s.folder k := rfl

@[simp] theorem folders_modQueue (s : State) (i : StandIx) (f : Queue → Queue) : (s.modQueue i f).folders = s.folders := rfl
@[simp] theorem reels_modQueue (s : State) (i : StandIx) (f : Queue → Queue) : (s.modQueue i f).reels = s.reels := rfl
@[simp] theorem splices_modQueue (s : State) (i : StandIx) (f : Queue → Queue) : (s.modQueue i f).splices = s.splices := rfl
@[simp] theorem nextSplice_modQueue (s : State) (i : StandIx) (f : Queue → Queue) : (s.modQueue i f).nextSplice = s.nextSplice := rfl
@[simp] theorem link_modQueue (s : State) (i : StandIx) (f : Queue → Queue) : (s.modQueue i f).link = s.link := rfl
@[simp] theorem lastAnswer_modQueue (s : State) (i : StandIx) (f : Queue → Queue) : (s.modQueue i f).lastAnswer = s.lastAnswer := rfl
@[simp] theorem pending_modQueue (s : State) (i : StandIx) (f : Queue → Queue) : (s.modQueue i f).pending = s.pending := rfl
@[simp] theorem folder_modQueue (s : State) (i : StandIx) (f : Queue → Queue) (k : FolderIx) :
    (s.modQueue i f).folder k = s.folder k := rfl

/-! ### A stand after an update of one of its blocks -/

@[simp] theorem stand_modSeq (s : State) (i : StandIx) (f : Sequencer → Sequencer) :
    (s.modSeq i f).stand i = { s.stand i with seq := f (s.stand i).seq } := by
  simp [State.modSeq]

@[simp] theorem stand_modSeq_ne (s : State) {i j : StandIx} (f : Sequencer → Sequencer) (h : j ≠ i) :
    (s.modSeq i f).stand j = s.stand j := by
  simp [State.modSeq, h]

@[simp] theorem stand_modWork (s : State) (i : StandIx) (f : Working → Working) :
    (s.modWork i f).stand i = { s.stand i with seq := { (s.stand i).seq with work := f (s.stand i).seq.work } } := by
  simp [State.modWork, State.modSeq]

@[simp] theorem stand_modWork_ne (s : State) {i j : StandIx} (f : Working → Working) (h : j ≠ i) :
    (s.modWork i f).stand j = s.stand j := by
  simp [State.modWork, State.modSeq, h]

@[simp] theorem stand_modGauge (s : State) (i : StandIx) (f : Gauge → Gauge) :
    (s.modGauge i f).stand i = { s.stand i with gauge := f (s.stand i).gauge } := by
  simp [State.modGauge]

@[simp] theorem stand_modGauge_ne (s : State) {i j : StandIx} (f : Gauge → Gauge) (h : j ≠ i) :
    (s.modGauge i f).stand j = s.stand j := by
  simp [State.modGauge, h]

@[simp] theorem stand_modField (s : State) (i : StandIx) (f : Field → Field) :
    (s.modField i f).stand i = { s.stand i with field := f (s.stand i).field } := by
  simp [State.modField]

@[simp] theorem stand_modField_ne (s : State) {i j : StandIx} (f : Field → Field) (h : j ≠ i) :
    (s.modField i f).stand j = s.stand j := by
  simp [State.modField, h]

@[simp] theorem stand_modQueue (s : State) (i : StandIx) (f : Queue → Queue) :
    (s.modQueue i f).stand i = { s.stand i with queue := f (s.stand i).queue } := by
  simp [State.modQueue]

@[simp] theorem stand_modQueue_ne (s : State) {i j : StandIx} (f : Queue → Queue) (h : j ≠ i) :
    (s.modQueue i f).stand j = s.stand j := by
  simp [State.modQueue, h]

/-! ### The parts that the other updates leave -/

@[simp] theorem stands_modFolder (s : State) (i : FolderIx) (f : Folder → Folder) : (s.modFolder i f).stands = s.stands := rfl
@[simp] theorem reels_modFolder (s : State) (i : FolderIx) (f : Folder → Folder) : (s.modFolder i f).reels = s.reels := rfl
@[simp] theorem splices_modFolder (s : State) (i : FolderIx) (f : Folder → Folder) : (s.modFolder i f).splices = s.splices := rfl
@[simp] theorem nextSplice_modFolder (s : State) (i : FolderIx) (f : Folder → Folder) : (s.modFolder i f).nextSplice = s.nextSplice := rfl
@[simp] theorem link_modFolder (s : State) (i : FolderIx) (f : Folder → Folder) : (s.modFolder i f).link = s.link := rfl
@[simp] theorem lastAnswer_modFolder (s : State) (i : FolderIx) (f : Folder → Folder) : (s.modFolder i f).lastAnswer = s.lastAnswer := rfl
@[simp] theorem pending_modFolder (s : State) (i : FolderIx) (f : Folder → Folder) : (s.modFolder i f).pending = s.pending := rfl
@[simp] theorem stand_modFolder (s : State) (i : FolderIx) (f : Folder → Folder) (k : StandIx) :
    (s.modFolder i f).stand k = s.stand k := rfl

@[simp] theorem stands_modLink (s : State) (f : Link → Link) : (s.modLink f).stands = s.stands := rfl
@[simp] theorem folders_modLink (s : State) (f : Link → Link) : (s.modLink f).folders = s.folders := rfl
@[simp] theorem reels_modLink (s : State) (f : Link → Link) : (s.modLink f).reels = s.reels := rfl
@[simp] theorem splices_modLink (s : State) (f : Link → Link) : (s.modLink f).splices = s.splices := rfl
@[simp] theorem nextSplice_modLink (s : State) (f : Link → Link) : (s.modLink f).nextSplice = s.nextSplice := rfl
@[simp] theorem lastAnswer_modLink (s : State) (f : Link → Link) : (s.modLink f).lastAnswer = s.lastAnswer := rfl
@[simp] theorem pending_modLink (s : State) (f : Link → Link) : (s.modLink f).pending = s.pending := rfl
@[simp] theorem stand_modLink (s : State) (f : Link → Link) (k : StandIx) :
    (s.modLink f).stand k = s.stand k := rfl
@[simp] theorem folder_modLink (s : State) (f : Link → Link) (k : FolderIx) :
    (s.modLink f).folder k = s.folder k := rfl

@[simp] theorem stands_modReel (s : State) (h : Nat) (f : Reel → Reel) : (s.modReel h f).stands = s.stands := rfl
@[simp] theorem folders_modReel (s : State) (h : Nat) (f : Reel → Reel) : (s.modReel h f).folders = s.folders := rfl
@[simp] theorem splices_modReel (s : State) (h : Nat) (f : Reel → Reel) : (s.modReel h f).splices = s.splices := rfl
@[simp] theorem nextSplice_modReel (s : State) (h : Nat) (f : Reel → Reel) : (s.modReel h f).nextSplice = s.nextSplice := rfl
@[simp] theorem link_modReel (s : State) (h : Nat) (f : Reel → Reel) : (s.modReel h f).link = s.link := rfl
@[simp] theorem lastAnswer_modReel (s : State) (h : Nat) (f : Reel → Reel) : (s.modReel h f).lastAnswer = s.lastAnswer := rfl
@[simp] theorem pending_modReel (s : State) (h : Nat) (f : Reel → Reel) : (s.modReel h f).pending = s.pending := rfl
@[simp] theorem stand_modReel (s : State) (h : Nat) (f : Reel → Reel) (k : StandIx) :
    (s.modReel h f).stand k = s.stand k := rfl
@[simp] theorem folder_modReel (s : State) (h : Nat) (f : Reel → Reel) (k : FolderIx) :
    (s.modReel h f).folder k = s.folder k := rfl

@[simp] theorem stands_modSplice (s : State) (n : Nat) (f : Splice → Splice) : (s.modSplice n f).stands = s.stands := rfl
@[simp] theorem folders_modSplice (s : State) (n : Nat) (f : Splice → Splice) : (s.modSplice n f).folders = s.folders := rfl
@[simp] theorem reels_modSplice (s : State) (n : Nat) (f : Splice → Splice) : (s.modSplice n f).reels = s.reels := rfl
@[simp] theorem nextSplice_modSplice (s : State) (n : Nat) (f : Splice → Splice) : (s.modSplice n f).nextSplice = s.nextSplice := rfl
@[simp] theorem link_modSplice (s : State) (n : Nat) (f : Splice → Splice) : (s.modSplice n f).link = s.link := rfl
@[simp] theorem lastAnswer_modSplice (s : State) (n : Nat) (f : Splice → Splice) : (s.modSplice n f).lastAnswer = s.lastAnswer := rfl
@[simp] theorem pending_modSplice (s : State) (n : Nat) (f : Splice → Splice) : (s.modSplice n f).pending = s.pending := rfl
@[simp] theorem stand_modSplice (s : State) (n : Nat) (f : Splice → Splice) (k : StandIx) :
    (s.modSplice n f).stand k = s.stand k := rfl
@[simp] theorem folder_modSplice (s : State) (n : Nat) (f : Splice → Splice) (k : FolderIx) :
    (s.modSplice n f).folder k = s.folder k := rfl

@[simp] theorem link_modLink (s : State) (f : Link → Link) : (s.modLink f).link = f s.link := rfl

@[simp] theorem reels_modReel (s : State) (h : Nat) (f : Reel → Reel) :
    (s.modReel h f).reels = Table.update h f s.reels := rfl

@[simp] theorem splices_modSplice (s : State) (n : Nat) (f : Splice → Splice) :
    (s.modSplice n f).splices = Table.update n f s.splices := rfl

/-! ### Tables -/

@[simp] theorem find_update_self {α : Type} (k : Nat) (f : α → α) (t : List (Nat × α)) :
    Table.find k (Table.update k f t) = (Table.find k t).map f := by
  induction t with
  | nil => rfl
  | cons p t ih =>
    obtain ⟨j, a⟩ := p
    by_cases h : j = k
    · simp [Table.find, Table.update, h]
    · simp [Table.find, Table.update, h, ih]

theorem find_update_ne {α : Type} {k j : Nat} (f : α → α) (t : List (Nat × α)) (h : j ≠ k) :
    Table.find j (Table.update k f t) = Table.find j t := by
  induction t with
  | nil => rfl
  | cons p t ih =>
    obtain ⟨i, a⟩ := p
    by_cases hi : i = j
    · subst hi
      simp [Table.find, Table.update, h]
    · simp [Table.find, Table.update, hi, ih]

theorem find_mapAll {α : Type} (k : Nat) (f : Nat → α → α) (t : List (Nat × α)) :
    Table.find k (Table.mapAll f t) = (Table.find k t).map (f k) := by
  induction t with
  | nil => rfl
  | cons p t ih =>
    obtain ⟨j, a⟩ := p
    by_cases h : j = k
    · subst h
      simp [Table.find, Table.mapAll]
    · simpa [Table.find, Table.mapAll, h] using ih

theorem length_update {α : Type} (k : Nat) (f : α → α) (t : List (Nat × α)) :
    (Table.update k f t).length = t.length := by
  induction t with
  | nil => rfl
  | cons p t ih => simp [Table.update, ih]

/-- The keys of a table. -/
theorem keys_update {α : Type} (k : Nat) (f : α → α) (t : List (Nat × α)) :
    (Table.update k f t).map Prod.fst = t.map Prod.fst := by
  induction t with
  | nil => rfl
  | cons p t ih => simp [Table.update, ih]

@[simp] theorem splice?_modSplice (s : State) (n : Nat) (f : Splice → Splice) :
    (s.modSplice n f).splice? n = (s.splice? n).map f := by
  simp [State.splice?]

@[simp] theorem reel?_modReel (s : State) (h : Nat) (f : Reel → Reel) :
    (s.modReel h f).reel? h = (s.reel? h).map f := by
  simp [State.reel?]

/-! ### The working state -/

@[simp] theorem work_modWork (s : State) (i : StandIx) (f : Working → Working) :
    (s.modWork i f).work i = f (s.work i) := by
  simp [State.work]

@[simp] theorem work_modWork_ne (s : State) {i j : StandIx} (f : Working → Working) (h : j ≠ i) :
    (s.modWork i f).work j = s.work j := by
  simp [State.work, h]

@[simp] theorem work_modGauge (s : State) (i j : StandIx) (f : Gauge → Gauge) :
    (s.modGauge i f).work j = s.work j := by
  by_cases h : j = i
  · subst h; simp [State.work]
  · simp [State.work, h]

@[simp] theorem work_modField (s : State) (i j : StandIx) (f : Field → Field) :
    (s.modField i f).work j = s.work j := by
  by_cases h : j = i
  · subst h; simp [State.work]
  · simp [State.work, h]

@[simp] theorem work_modQueue (s : State) (i j : StandIx) (f : Queue → Queue) :
    (s.modQueue i f).work j = s.work j := by
  by_cases h : j = i
  · subst h; simp [State.work]
  · simp [State.work, h]

@[simp] theorem work_modFolder (s : State) (i : FolderIx) (f : Folder → Folder) (k : StandIx) :
    (s.modFolder i f).work k = s.work k := rfl

@[simp] theorem work_modLink (s : State) (f : Link → Link) (k : StandIx) : (s.modLink f).work k = s.work k := rfl

@[simp] theorem work_modReel (s : State) (h : Nat) (f : Reel → Reel) (k : StandIx) :
    (s.modReel h f).work k = s.work k := rfl

@[simp] theorem work_modSplice (s : State) (n : Nat) (f : Splice → Splice) (k : StandIx) :
    (s.modSplice n f).work k = s.work k := rfl

end Sys2Proof.Machine
end

