-- ==== Sys2Proof/Laws/Effects.lean ====
section
/-! SUPPORT. What each shared operation leaves alone and what it sets, part by part: the two tables, the folders, the working
state of a stand. The provers cite these instead of unfolding an operation. -/

namespace Sys2Proof.Machine

/-! ### Two updates of one part are one -/

@[simp] theorem modStand_modStand (s : State) (i : StandIx) (f g : Stand → Stand) :
    (s.modStand i f).modStand i g = s.modStand i (fun x => g (f x)) := by
  simp [State.modStand, State.stand, Vector.get_eq_getElem]

@[simp] theorem modWork_modWork (s : State) (i : StandIx) (f g : Working → Working) :
    (s.modWork i f).modWork i g = s.modWork i (fun x => g (f x)) := by
  simp [State.modWork, State.modSeq]

@[simp] theorem modFolder_modFolder (s : State) (i : FolderIx) (f g : Folder → Folder) :
    (s.modFolder i f).modFolder i g = s.modFolder i (fun x => g (f x)) := by
  simp [State.modFolder, State.folder, Vector.get_eq_getElem]

theorem update_update {α : Type} (k : Nat) (f g : α → α) (t : List (Nat × α)) :
    Table.update k g (Table.update k f t) = Table.update k (fun x => g (f x)) t := by
  induction t with
  | nil => rfl
  | cons p t ih =>
    obtain ⟨j, a⟩ := p
    simp only [Table.update, ih]
    by_cases h : j = k <;> simp [h]

@[simp] theorem modReel_modReel (s : State) (h : Nat) (f g : Reel → Reel) :
    (s.modReel h f).modReel h g = s.modReel h (fun x => g (f x)) := by
  simp [State.modReel, update_update]

@[simp] theorem modSplice_modSplice (s : State) (n : Nat) (f g : Splice → Splice) :
    (s.modSplice n f).modSplice n g = s.modSplice n (fun x => g (f x)) := by
  simp [State.modSplice, update_update]

/-! ### Tables -/

theorem splice?_modSplice_ne (s : State) {n m : Nat} (f : Splice → Splice) (h : m ≠ n) :
    (s.modSplice n f).splice? m = s.splice? m := find_update_ne f s.splices h

theorem reel?_modReel_ne (s : State) {n m : Nat} (f : Reel → Reel) (h : m ≠ n) :
    (s.modReel n f).reel? m = s.reel? m := find_update_ne f s.reels h

/-- A record found after an update: the updated one under its own key, the old ones under the others. -/
theorem splice?_modSplice_eq (s : State) (n m : Nat) (f : Splice → Splice) :
    (s.modSplice n f).splice? m = if m = n then (s.splice? m).map f else s.splice? m := by
  by_cases h : m = n
  · subst h; simp
  · simp [h, splice?_modSplice_ne]

theorem find_erase {α : Type} (k j : Nat) (t : List (Nat × α)) :
    Table.find j (Table.erase k t) = if j = k then none else Table.find j t := by
  induction t with
  | nil => simp [Table.erase, Table.find]
  | cons p t ih =>
    obtain ⟨i, a⟩ := p
    simp only [Table.erase] at ih
    by_cases h : i = k
    · subst h
      by_cases hj : j = i
      · subst hj; simp [Table.erase, ih]
      · have e : i ≠ j := fun e => hj e.symm
        simpa [Table.erase, hj, Table.find, e] using ih
    · by_cases hj : i = j
      · subst hj; simp [Table.erase, Table.find, h]
      · simpa [Table.erase, Table.find, h, hj] using ih

theorem find_insert {α : Type} (k j : Nat) (a : α) (t : List (Nat × α)) (h : Table.find k t = none) :
    Table.find j (Table.insert k a t) = if j = k then some a else Table.find j t := by
  induction t with
  | nil => simp [Table.insert, Table.find, eq_comm]
  | cons p t ih =>
    obtain ⟨i, b⟩ := p
    have hik : i ≠ k := by intro e; simp [Table.find, e] at h
    have ht : Table.find k t = none := by simpa [Table.find, hik] using h
    simp only [Table.insert]
    split
    · by_cases e : j = k
      · subst e; simp [Table.find]
      · have e' : k ≠ j := fun x => e x.symm
        simp [Table.find, e, e']
    · by_cases e : i = j
      · subst e; simp [Table.find, hik]
      · simp [Table.find, e, ih ht]

/-- The table after the retirement test holds a record of the table before, or misses the tested one. -/
theorem splice?_retire (n m : Nat) (s : State) :
    (retire n s).splice? m = s.splice? m
    ∨ m = n ∧ (retire n s).splice? m = none
      ∧ ∃ sp, s.splice? n = some sp ∧ isEnded sp.state = true ∧ sp.mark.state ≠ .onTrack := by
  unfold retire
  split
  · rename_i sp h
    split
    · rename_i hc
      by_cases e : m = n
      · subst e; exact Or.inr ⟨rfl, by simp [State.splice?, find_erase], sp, h, hc.1, hc.2.2⟩
      · left; simp [State.splice?, find_erase, e]
    · exact Or.inl rfl
  · exact Or.inl rfl

theorem splice?_of_retire {n m : Nat} {s : State} {x : Splice} (h : (retire n s).splice? m = some x) :
    s.splice? m = some x := by
  rcases splice?_retire n m s with e | ⟨_, e, _⟩
  · rwa [e] at h
  · rw [e] at h; exact absurd h (by simp)

/-- A sequencer's own flags are not its working state. -/
theorem work_modSeq (s : State) (i j : StandIx) (f : Sequencer → Sequencer) (h : ∀ q, (f q).work = q.work) :
    (s.modSeq i f).work j = s.work j := by
  by_cases e : j = i
  · subst e; simp [State.work, State.modSeq, h]
  · simp [State.work, State.modSeq, e]

/-! ### Conditions and hand-overs change no table, no folder and no working state -/

@[simp] theorem reels_raise (st : StandIx) (c : Condition) (s : State) (r : Option Nat × Option Nat) : (raise st c s r).reels = s.reels := by
  simp [raise]
@[simp] theorem splices_raise (st : StandIx) (c : Condition) (s : State) (r : Option Nat × Option Nat) : (raise st c s r).splices = s.splices := by
  simp [raise]
@[simp] theorem nextSplice_raise (st : StandIx) (c : Condition) (s : State) (r : Option Nat × Option Nat) : (raise st c s r).nextSplice = s.nextSplice := by
  simp [raise]
@[simp] theorem link_raise (st : StandIx) (c : Condition) (s : State) (r : Option Nat × Option Nat) : (raise st c s r).link = s.link := by
  simp [raise]
@[simp] theorem folder_raise (st : StandIx) (c : Condition) (s : State) (r : Option Nat × Option Nat) (f : FolderIx) : (raise st c s r).folder f = s.folder f := by
  simp [raise]
@[simp] theorem work_raise (st : StandIx) (c : Condition) (s : State) (r : Option Nat × Option Nat) (j : StandIx) : (raise st c s r).work j = s.work j := by
  simp [raise]
@[simp] theorem splice?_raise (st : StandIx) (c : Condition) (s : State) (r : Option Nat × Option Nat) (n : Nat) : (raise st c s r).splice? n = s.splice? n := by
  simp [State.splice?]
@[simp] theorem reel?_raise (st : StandIx) (c : Condition) (s : State) (r : Option Nat × Option Nat) (h : Nat) : (raise st c s r).reel? h = s.reel? h := by
  simp [State.reel?]

@[simp] theorem reels_evalReelCall (st : StandIx) (s : State) : (evalReelCall st s).reels = s.reels := by
  simp [evalReelCall]
@[simp] theorem splices_evalReelCall (st : StandIx) (s : State) : (evalReelCall st s).splices = s.splices := by
  simp [evalReelCall]
@[simp] theorem nextSplice_evalReelCall (st : StandIx) (s : State) : (evalReelCall st s).nextSplice = s.nextSplice := by
  simp [evalReelCall]
@[simp] theorem link_evalReelCall (st : StandIx) (s : State) : (evalReelCall st s).link = s.link := by
  simp [evalReelCall]
@[simp] theorem folder_evalReelCall (st : StandIx) (s : State) (f : FolderIx) : (evalReelCall st s).folder f = s.folder f := by
  simp [evalReelCall]
@[simp] theorem work_evalReelCall (st : StandIx) (s : State) (j : StandIx) : (evalReelCall st s).work j = s.work j := by
  simp [evalReelCall]
@[simp] theorem splice?_evalReelCall (st : StandIx) (s : State) (n : Nat) : (evalReelCall st s).splice? n = s.splice? n := by
  simp [State.splice?]
@[simp] theorem reel?_evalReelCall (st : StandIx) (s : State) (h : Nat) : (evalReelCall st s).reel? h = s.reel? h := by
  simp [State.reel?]

@[simp] theorem reels_evalRisk (st : StandIx) (s : State) : (evalRisk st s).reels = s.reels := by
  unfold evalRisk; dsimp only; split <;> simp
@[simp] theorem splices_evalRisk (st : StandIx) (s : State) : (evalRisk st s).splices = s.splices := by
  unfold evalRisk; dsimp only; split <;> simp
@[simp] theorem nextSplice_evalRisk (st : StandIx) (s : State) : (evalRisk st s).nextSplice = s.nextSplice := by
  unfold evalRisk; dsimp only; split <;> simp
@[simp] theorem link_evalRisk (st : StandIx) (s : State) : (evalRisk st s).link = s.link := by
  unfold evalRisk; dsimp only; split <;> simp
@[simp] theorem folder_evalRisk (st : StandIx) (s : State) (f : FolderIx) : (evalRisk st s).folder f = s.folder f := by
  unfold evalRisk; dsimp only; split <;> simp
@[simp] theorem work_evalRisk (st : StandIx) (s : State) (j : StandIx) : (evalRisk st s).work j = s.work j := by
  unfold evalRisk; dsimp only; split <;> simp
@[simp] theorem splice?_evalRisk (st : StandIx) (s : State) (n : Nat) : (evalRisk st s).splice? n = s.splice? n := by
  simp [State.splice?]
@[simp] theorem reel?_evalRisk (st : StandIx) (s : State) (h : Nat) : (evalRisk st s).reel? h = s.reel? h := by
  simp [State.reel?]

@[simp] theorem reels_chainOccasion (st : StandIx) (s : State) : (chainOccasion st s).reels = s.reels := by
  simp [chainOccasion]
@[simp] theorem splices_chainOccasion (st : StandIx) (s : State) : (chainOccasion st s).splices = s.splices := by
  simp [chainOccasion]
@[simp] theorem nextSplice_chainOccasion (st : StandIx) (s : State) : (chainOccasion st s).nextSplice = s.nextSplice := by
  simp [chainOccasion]
@[simp] theorem link_chainOccasion (st : StandIx) (s : State) : (chainOccasion st s).link = s.link := by
  simp [chainOccasion]
@[simp] theorem folder_chainOccasion (st : StandIx) (s : State) (f : FolderIx) : (chainOccasion st s).folder f = s.folder f := by
  simp [chainOccasion]
@[simp] theorem work_chainOccasion (st : StandIx) (s : State) (j : StandIx) : (chainOccasion st s).work j = s.work j :=
  work_modSeq _ _ _ _ (fun _ => rfl)
@[simp] theorem splice?_chainOccasion (st : StandIx) (s : State) (n : Nat) : (chainOccasion st s).splice? n = s.splice? n := by
  simp [State.splice?]
@[simp] theorem reel?_chainOccasion (st : StandIx) (s : State) (h : Nat) : (chainOccasion st s).reel? h = s.reel? h := by
  simp [State.reel?]

@[simp] theorem reels_handOn (st : StandIx) (b s : State) : (handOn st b s).reels = s.reels := by
  unfold handOn; dsimp only; split <;> simp
@[simp] theorem splices_handOn (st : StandIx) (b s : State) : (handOn st b s).splices = s.splices := by
  unfold handOn; dsimp only; split <;> simp
@[simp] theorem nextSplice_handOn (st : StandIx) (b s : State) : (handOn st b s).nextSplice = s.nextSplice := by
  unfold handOn; dsimp only; split <;> simp
@[simp] theorem link_handOn (st : StandIx) (b s : State) : (handOn st b s).link = s.link := by
  unfold handOn; dsimp only; split <;> simp
@[simp] theorem folder_handOn (st : StandIx) (b s : State) (f : FolderIx) : (handOn st b s).folder f = s.folder f := by
  unfold handOn; dsimp only; split <;> simp
@[simp] theorem work_handOn (st : StandIx) (b s : State) (j : StandIx) : (handOn st b s).work j = s.work j := by
  unfold handOn; dsimp only; split <;> simp
@[simp] theorem splice?_handOn (st : StandIx) (b s : State) (n : Nat) : (handOn st b s).splice? n = s.splice? n := by
  simp [State.splice?]
@[simp] theorem reel?_handOn (st : StandIx) (b s : State) (h : Nat) : (handOn st b s).reel? h = s.reel? h := by
  simp [State.reel?]

@[simp] theorem reels_energisePaster (st : StandIx) (s : State) : (energisePaster st s).reels = s.reels := by
  simp [energisePaster]
@[simp] theorem splices_energisePaster (st : StandIx) (s : State) : (energisePaster st s).splices = s.splices := by
  simp [energisePaster]
@[simp] theorem nextSplice_energisePaster (st : StandIx) (s : State) : (energisePaster st s).nextSplice = s.nextSplice := by
  simp [energisePaster]
@[simp] theorem link_energisePaster (st : StandIx) (s : State) : (energisePaster st s).link = s.link := by
  simp [energisePaster]
@[simp] theorem folder_energisePaster (st : StandIx) (s : State) (f : FolderIx) : (energisePaster st s).folder f = s.folder f := by
  simp [energisePaster]
@[simp] theorem work_energisePaster (st : StandIx) (s : State) (j : StandIx) : (energisePaster st s).work j = s.work j := by
  simp [energisePaster]
@[simp] theorem splice?_energisePaster (st : StandIx) (s : State) (n : Nat) : (energisePaster st s).splice? n = s.splice? n := by
  simp [State.splice?]
@[simp] theorem reel?_energisePaster (st : StandIx) (s : State) (h : Nat) : (energisePaster st s).reel? h = s.reel? h := by
  simp [State.reel?]

@[simp] theorem reels_energiseBrake (st : StandIx) (s : State) : (energiseBrake st s).reels = s.reels := by
  simp [energiseBrake]
@[simp] theorem splices_energiseBrake (st : StandIx) (s : State) : (energiseBrake st s).splices = s.splices := by
  simp [energiseBrake]
@[simp] theorem nextSplice_energiseBrake (st : StandIx) (s : State) : (energiseBrake st s).nextSplice = s.nextSplice := by
  simp [energiseBrake]
@[simp] theorem link_energiseBrake (st : StandIx) (s : State) : (energiseBrake st s).link = s.link := by
  simp [energiseBrake]
@[simp] theorem folder_energiseBrake (st : StandIx) (s : State) (f : FolderIx) : (energiseBrake st s).folder f = s.folder f := by
  simp [energiseBrake]
@[simp] theorem work_energiseBrake (st : StandIx) (s : State) (j : StandIx) : (energiseBrake st s).work j = s.work j := by
  simp [energiseBrake]
@[simp] theorem splice?_energiseBrake (st : StandIx) (s : State) (n : Nat) : (energiseBrake st s).splice? n = s.splice? n := by
  simp [State.splice?]
@[simp] theorem reel?_energiseBrake (st : StandIx) (s : State) (h : Nat) : (energiseBrake st s).reel? h = s.reel? h := by
  simp [State.reel?]

@[simp] theorem reels_energiseKnife (st : StandIx) (s : State) : (energiseKnife st s).reels = s.reels := by
  simp [energiseKnife]
@[simp] theorem splices_energiseKnife (st : StandIx) (s : State) : (energiseKnife st s).splices = s.splices := by
  simp [energiseKnife]
@[simp] theorem nextSplice_energiseKnife (st : StandIx) (s : State) : (energiseKnife st s).nextSplice = s.nextSplice := by
  simp [energiseKnife]
@[simp] theorem link_energiseKnife (st : StandIx) (s : State) : (energiseKnife st s).link = s.link := by
  simp [energiseKnife]
@[simp] theorem folder_energiseKnife (st : StandIx) (s : State) (f : FolderIx) : (energiseKnife st s).folder f = s.folder f := by
  simp [energiseKnife]
@[simp] theorem work_energiseKnife (st : StandIx) (s : State) (j : StandIx) : (energiseKnife st s).work j = s.work j := by
  simp [energiseKnife]
@[simp] theorem splice?_energiseKnife (st : StandIx) (s : State) (n : Nat) : (energiseKnife st s).splice? n = s.splice? n := by
  simp [State.splice?]
@[simp] theorem reel?_energiseKnife (st : StandIx) (s : State) (h : Nat) : (energiseKnife st s).reel? h = s.reel? h := by
  simp [State.reel?]

@[simp] theorem reels_releasePaster (st : StandIx) (s : State) : (releasePaster st s).reels = s.reels := by
  simp [releasePaster]
@[simp] theorem splices_releasePaster (st : StandIx) (s : State) : (releasePaster st s).splices = s.splices := by
  simp [releasePaster]
@[simp] theorem nextSplice_releasePaster (st : StandIx) (s : State) : (releasePaster st s).nextSplice = s.nextSplice := by
  simp [releasePaster]
@[simp] theorem link_releasePaster (st : StandIx) (s : State) : (releasePaster st s).link = s.link := by
  simp [releasePaster]
@[simp] theorem folder_releasePaster (st : StandIx) (s : State) (f : FolderIx) : (releasePaster st s).folder f = s.folder f := by
  simp [releasePaster]
@[simp] theorem work_releasePaster (st : StandIx) (s : State) (j : StandIx) : (releasePaster st s).work j = s.work j := by
  simp [releasePaster]
@[simp] theorem splice?_releasePaster (st : StandIx) (s : State) (n : Nat) : (releasePaster st s).splice? n = s.splice? n := by
  simp [State.splice?]
@[simp] theorem reel?_releasePaster (st : StandIx) (s : State) (h : Nat) : (releasePaster st s).reel? h = s.reel? h := by
  simp [State.reel?]

@[simp] theorem reels_releaseBrake (st : StandIx) (s : State) : (releaseBrake st s).reels = s.reels := by
  simp [releaseBrake]
@[simp] theorem splices_releaseBrake (st : StandIx) (s : State) : (releaseBrake st s).splices = s.splices := by
  simp [releaseBrake]
@[simp] theorem nextSplice_releaseBrake (st : StandIx) (s : State) : (releaseBrake st s).nextSplice = s.nextSplice := by
  simp [releaseBrake]
@[simp] theorem link_releaseBrake (st : StandIx) (s : State) : (releaseBrake st s).link = s.link := by
  simp [releaseBrake]
@[simp] theorem folder_releaseBrake (st : StandIx) (s : State) (f : FolderIx) : (releaseBrake st s).folder f = s.folder f := by
  simp [releaseBrake]
@[simp] theorem work_releaseBrake (st : StandIx) (s : State) (j : StandIx) : (releaseBrake st s).work j = s.work j := by
  simp [releaseBrake]
@[simp] theorem splice?_releaseBrake (st : StandIx) (s : State) (n : Nat) : (releaseBrake st s).splice? n = s.splice? n := by
  simp [State.splice?]
@[simp] theorem reel?_releaseBrake (st : StandIx) (s : State) (h : Nat) : (releaseBrake st s).reel? h = s.reel? h := by
  simp [State.reel?]

/-! ### The knife pulse may start the knife-home timer -/

@[simp] theorem reels_endKnifePulse (st : StandIx) (s : State) : (endKnifePulse st s).reels = s.reels := by
  unfold endKnifePulse; dsimp only; split <;> simp
@[simp] theorem splices_endKnifePulse (st : StandIx) (s : State) : (endKnifePulse st s).splices = s.splices := by
  unfold endKnifePulse; dsimp only; split <;> simp
@[simp] theorem nextSplice_endKnifePulse (st : StandIx) (s : State) : (endKnifePulse st s).nextSplice = s.nextSplice := by
  unfold endKnifePulse; dsimp only; split <;> simp
@[simp] theorem link_endKnifePulse (st : StandIx) (s : State) : (endKnifePulse st s).link = s.link := by
  unfold endKnifePulse; dsimp only; split <;> simp
@[simp] theorem folder_endKnifePulse (st : StandIx) (s : State) (f : FolderIx) : (endKnifePulse st s).folder f = s.folder f := by
  unfold endKnifePulse; dsimp only; split <;> simp
@[simp] theorem splice?_endKnifePulse (st : StandIx) (s : State) (n : Nat) : (endKnifePulse st s).splice? n = s.splice? n := by
  simp [State.splice?]
@[simp] theorem reel?_endKnifePulse (st : StandIx) (s : State) (h : Nat) : (endKnifePulse st s).reel? h = s.reel? h := by
  simp [State.reel?]

@[simp] theorem reels_releaseKnife (st : StandIx) (s : State) : (releaseKnife st s).reels = s.reels := by
  unfold releaseKnife; split <;> simp
@[simp] theorem splices_releaseKnife (st : StandIx) (s : State) : (releaseKnife st s).splices = s.splices := by
  unfold releaseKnife; split <;> simp
@[simp] theorem nextSplice_releaseKnife (st : StandIx) (s : State) : (releaseKnife st s).nextSplice = s.nextSplice := by
  unfold releaseKnife; split <;> simp
@[simp] theorem link_releaseKnife (st : StandIx) (s : State) : (releaseKnife st s).link = s.link := by
  unfold releaseKnife; split <;> simp
@[simp] theorem folder_releaseKnife (st : StandIx) (s : State) (f : FolderIx) : (releaseKnife st s).folder f = s.folder f := by
  unfold releaseKnife; split <;> simp
@[simp] theorem splice?_releaseKnife (st : StandIx) (s : State) (n : Nat) : (releaseKnife st s).splice? n = s.splice? n := by
  simp [State.splice?]
@[simp] theorem reel?_releaseKnife (st : StandIx) (s : State) (h : Nat) : (releaseKnife st s).reel? h = s.reel? h := by
  simp [State.reel?]

@[simp] theorem reels_startBraking (st : StandIx) (a : Option Arm) (s : State) : (startBraking st a s).reels = s.reels := by
  simp [startBraking]
@[simp] theorem splices_startBraking (st : StandIx) (a : Option Arm) (s : State) : (startBraking st a s).splices = s.splices := by
  simp [startBraking]
@[simp] theorem nextSplice_startBraking (st : StandIx) (a : Option Arm) (s : State) : (startBraking st a s).nextSplice = s.nextSplice := by
  simp [startBraking]
@[simp] theorem link_startBraking (st : StandIx) (a : Option Arm) (s : State) : (startBraking st a s).link = s.link := by
  simp [startBraking]
@[simp] theorem folder_startBraking (st : StandIx) (a : Option Arm) (s : State) (f : FolderIx) : (startBraking st a s).folder f = s.folder f := by
  simp [startBraking]
@[simp] theorem splice?_startBraking (st : StandIx) (a : Option Arm) (s : State) (n : Nat) : (startBraking st a s).splice? n = s.splice? n := by
  simp [State.splice?]
@[simp] theorem reel?_startBraking (st : StandIx) (a : Option Arm) (s : State) (h : Nat) : (startBraking st a s).reel? h = s.reel? h := by
  simp [State.reel?]

@[simp] theorem reels_gateFoundOpen (st : StandIx) (s : State) : (gateFoundOpen st s).reels = s.reels := by
  unfold gateFoundOpen; split <;> simp
@[simp] theorem splices_gateFoundOpen (st : StandIx) (s : State) : (gateFoundOpen st s).splices = s.splices := by
  unfold gateFoundOpen; split <;> simp
@[simp] theorem nextSplice_gateFoundOpen (st : StandIx) (s : State) : (gateFoundOpen st s).nextSplice = s.nextSplice := by
  unfold gateFoundOpen; split <;> simp
@[simp] theorem link_gateFoundOpen (st : StandIx) (s : State) : (gateFoundOpen st s).link = s.link := by
  unfold gateFoundOpen; split <;> simp
@[simp] theorem folder_gateFoundOpen (st : StandIx) (s : State) (f : FolderIx) : (gateFoundOpen st s).folder f = s.folder f := by
  unfold gateFoundOpen; split <;> simp
@[simp] theorem splice?_gateFoundOpen (st : StandIx) (s : State) (n : Nat) : (gateFoundOpen st s).splice? n = s.splice? n := by
  simp [State.splice?]
@[simp] theorem reel?_gateFoundOpen (st : StandIx) (s : State) (h : Nat) : (gateFoundOpen st s).reel? h = s.reel? h := by
  simp [State.reel?]

@[simp] theorem reels_updateIndexReq (st : StandIx) (s : State) : (updateIndexReq st s).reels = s.reels := by
  unfold updateIndexReq; dsimp only; (repeat' split) <;> simp
@[simp] theorem splices_updateIndexReq (st : StandIx) (s : State) : (updateIndexReq st s).splices = s.splices := by
  unfold updateIndexReq; dsimp only; (repeat' split) <;> simp
@[simp] theorem nextSplice_updateIndexReq (st : StandIx) (s : State) : (updateIndexReq st s).nextSplice = s.nextSplice := by
  unfold updateIndexReq; dsimp only; (repeat' split) <;> simp
@[simp] theorem link_updateIndexReq (st : StandIx) (s : State) : (updateIndexReq st s).link = s.link := by
  unfold updateIndexReq; dsimp only; (repeat' split) <;> simp
@[simp] theorem folder_updateIndexReq (st : StandIx) (s : State) (f : FolderIx) : (updateIndexReq st s).folder f = s.folder f := by
  unfold updateIndexReq; dsimp only; (repeat' split) <;> simp
@[simp] theorem splice?_updateIndexReq (st : StandIx) (s : State) (n : Nat) : (updateIndexReq st s).splice? n = s.splice? n := by
  simp [State.splice?]
@[simp] theorem reel?_updateIndexReq (st : StandIx) (s : State) (h : Nat) : (updateIndexReq st s).reel? h = s.reel? h := by
  simp [State.reel?]

/-! ### Operations on one table or one folder -/

@[simp] theorem reels_setSpliceState (n : Nat) (x : SpliceState) (s : State) : (setSpliceState n x s).reels = s.reels := by
  simp [setSpliceState]
@[simp] theorem nextSplice_setSpliceState (n : Nat) (x : SpliceState) (s : State) : (setSpliceState n x s).nextSplice = s.nextSplice := by
  simp [setSpliceState]
@[simp] theorem link_setSpliceState (n : Nat) (x : SpliceState) (s : State) : (setSpliceState n x s).link = s.link := by
  simp [setSpliceState]
@[simp] theorem folder_setSpliceState (n : Nat) (x : SpliceState) (s : State) (f : FolderIx) : (setSpliceState n x s).folder f = s.folder f := by
  simp [setSpliceState]
@[simp] theorem work_setSpliceState (n : Nat) (x : SpliceState) (s : State) (j : StandIx) : (setSpliceState n x s).work j = s.work j := by
  simp [setSpliceState]
@[simp] theorem reel?_setSpliceState (n : Nat) (x : SpliceState) (s : State) (h : Nat) : (setSpliceState n x s).reel? h = s.reel? h := by
  simp [State.reel?]

@[simp] theorem reels_setCause (n : Nat) (c : EndCause) (s : State) : (setCause n c s).reels = s.reels := by
  simp [setCause]
@[simp] theorem nextSplice_setCause (n : Nat) (c : EndCause) (s : State) : (setCause n c s).nextSplice = s.nextSplice := by
  simp [setCause]
@[simp] theorem link_setCause (n : Nat) (c : EndCause) (s : State) : (setCause n c s).link = s.link := by
  simp [setCause]
@[simp] theorem folder_setCause (n : Nat) (c : EndCause) (s : State) (f : FolderIx) : (setCause n c s).folder f = s.folder f := by
  simp [setCause]
@[simp] theorem work_setCause (n : Nat) (c : EndCause) (s : State) (j : StandIx) : (setCause n c s).work j = s.work j := by
  simp [setCause]
@[simp] theorem reel?_setCause (n : Nat) (c : EndCause) (s : State) (h : Nat) : (setCause n c s).reel? h = s.reel? h := by
  simp [State.reel?]

@[simp] theorem reels_noteSplice (n : Nat) (x : SpliceNote) (s : State) : (noteSplice n x s).reels = s.reels := by
  simp [noteSplice]
@[simp] theorem nextSplice_noteSplice (n : Nat) (x : SpliceNote) (s : State) : (noteSplice n x s).nextSplice = s.nextSplice := by
  simp [noteSplice]
@[simp] theorem link_noteSplice (n : Nat) (x : SpliceNote) (s : State) : (noteSplice n x s).link = s.link := by
  simp [noteSplice]
@[simp] theorem folder_noteSplice (n : Nat) (x : SpliceNote) (s : State) (f : FolderIx) : (noteSplice n x s).folder f = s.folder f := by
  simp [noteSplice]
@[simp] theorem work_noteSplice (n : Nat) (x : SpliceNote) (s : State) (j : StandIx) : (noteSplice n x s).work j = s.work j := by
  simp [noteSplice]
@[simp] theorem reel?_noteSplice (n : Nat) (x : SpliceNote) (s : State) (h : Nat) : (noteSplice n x s).reel? h = s.reel? h := by
  simp [State.reel?]

@[simp] theorem reels_endRecord (n : Nat) (x : SpliceState) (s : State) : (endRecord n x s).reels = s.reels := by
  simp [endRecord]
@[simp] theorem nextSplice_endRecord (n : Nat) (x : SpliceState) (s : State) : (endRecord n x s).nextSplice = s.nextSplice := by
  simp [endRecord]
@[simp] theorem link_endRecord (n : Nat) (x : SpliceState) (s : State) : (endRecord n x s).link = s.link := by
  simp [endRecord]
@[simp] theorem folder_endRecord (n : Nat) (x : SpliceState) (s : State) (f : FolderIx) : (endRecord n x s).folder f = s.folder f := by
  simp [endRecord]
@[simp] theorem work_endRecord (n : Nat) (x : SpliceState) (s : State) (j : StandIx) : (endRecord n x s).work j = s.work j := by
  simp [endRecord]
@[simp] theorem reel?_endRecord (n : Nat) (x : SpliceState) (s : State) (h : Nat) : (endRecord n x s).reel? h = s.reel? h := by
  simp [State.reel?]

@[simp] theorem reels_retire (n : Nat) (s : State) : (retire n s).reels = s.reels := by
  unfold retire; (repeat' split) <;> rfl
@[simp] theorem nextSplice_retire (n : Nat) (s : State) : (retire n s).nextSplice = s.nextSplice := by
  unfold retire; (repeat' split) <;> rfl
@[simp] theorem link_retire (n : Nat) (s : State) : (retire n s).link = s.link := by
  unfold retire; (repeat' split) <;> rfl
@[simp] theorem folder_retire (n : Nat) (s : State) (f : FolderIx) : (retire n s).folder f = s.folder f := by
  unfold retire; (repeat' split) <;> rfl
@[simp] theorem work_retire (n : Nat) (s : State) (j : StandIx) : (retire n s).work j = s.work j := by
  unfold retire; (repeat' split) <;> rfl
@[simp] theorem reel?_retire (n : Nat) (s : State) (h : Nat) : (retire n s).reel? h = s.reel? h := by
  simp [State.reel?]

@[simp] theorem reels_copyResiduals (n out : Nat) (s : State) : (copyResiduals n out s).reels = s.reels := by
  unfold copyResiduals; split <;> simp
@[simp] theorem nextSplice_copyResiduals (n out : Nat) (s : State) : (copyResiduals n out s).nextSplice = s.nextSplice := by
  unfold copyResiduals; split <;> simp
@[simp] theorem link_copyResiduals (n out : Nat) (s : State) : (copyResiduals n out s).link = s.link := by
  unfold copyResiduals; split <;> simp
@[simp] theorem folder_copyResiduals (n out : Nat) (s : State) (f : FolderIx) : (copyResiduals n out s).folder f = s.folder f := by
  unfold copyResiduals; split <;> simp
@[simp] theorem work_copyResiduals (n out : Nat) (s : State) (j : StandIx) : (copyResiduals n out s).work j = s.work j := by
  unfold copyResiduals; split <;> simp
@[simp] theorem reel?_copyResiduals (n out : Nat) (s : State) (h : Nat) : (copyResiduals n out s).reel? h = s.reel? h := by
  simp [State.reel?]

@[simp] theorem splices_giveBack (st : StandIx) (u : Bool) (h : Nat) (s : State) : (giveBack st u h s).splices = s.splices := by
  simp [giveBack]
@[simp] theorem nextSplice_giveBack (st : StandIx) (u : Bool) (h : Nat) (s : State) : (giveBack st u h s).nextSplice = s.nextSplice := by
  simp [giveBack]
@[simp] theorem link_giveBack (st : StandIx) (u : Bool) (h : Nat) (s : State) : (giveBack st u h s).link = s.link := by
  simp [giveBack]
@[simp] theorem folder_giveBack (st : StandIx) (u : Bool) (h : Nat) (s : State) (f : FolderIx) : (giveBack st u h s).folder f = s.folder f := by
  simp [giveBack]
@[simp] theorem work_giveBack (st : StandIx) (u : Bool) (h : Nat) (s : State) (j : StandIx) : (giveBack st u h s).work j = s.work j := by
  simp [giveBack]
@[simp] theorem splice?_giveBack (st : StandIx) (u : Bool) (h : Nat) (s : State) (n : Nat) : (giveBack st u h s).splice? n = s.splice? n := by
  simp [State.splice?]

@[simp] theorem splices_verifyStand (st : StandIx) (s : State) : (verifyStand st s).splices = s.splices := by
  rfl
@[simp] theorem nextSplice_verifyStand (st : StandIx) (s : State) : (verifyStand st s).nextSplice = s.nextSplice := by
  rfl
@[simp] theorem link_verifyStand (st : StandIx) (s : State) : (verifyStand st s).link = s.link := by
  rfl
@[simp] theorem folder_verifyStand (st : StandIx) (s : State) (f : FolderIx) : (verifyStand st s).folder f = s.folder f := by
  rfl
@[simp] theorem work_verifyStand (st : StandIx) (s : State) (j : StandIx) : (verifyStand st s).work j = s.work j := by
  rfl
@[simp] theorem splice?_verifyStand (st : StandIx) (s : State) (n : Nat) : (verifyStand st s).splice? n = s.splice? n := by
  simp [State.splice?]

@[simp] theorem reels_grantOccasion (i : FolderIx) (s : State) : (grantOccasion i s).reels = s.reels := by
  simp [grantOccasion]
@[simp] theorem splices_grantOccasion (i : FolderIx) (s : State) : (grantOccasion i s).splices = s.splices := by
  simp [grantOccasion]
@[simp] theorem nextSplice_grantOccasion (i : FolderIx) (s : State) : (grantOccasion i s).nextSplice = s.nextSplice := by
  simp [grantOccasion]
@[simp] theorem link_grantOccasion (i : FolderIx) (s : State) : (grantOccasion i s).link = s.link := by
  simp [grantOccasion]
@[simp] theorem work_grantOccasion (i : FolderIx) (s : State) (j : StandIx) : (grantOccasion i s).work j = s.work j := by
  simp [grantOccasion]
@[simp] theorem splice?_grantOccasion (i : FolderIx) (s : State) (n : Nat) : (grantOccasion i s).splice? n = s.splice? n := by
  simp [State.splice?]
@[simp] theorem reel?_grantOccasion (i : FolderIx) (s : State) (h : Nat) : (grantOccasion i s).reel? h = s.reel? h := by
  simp [State.reel?]
@[simp] theorem stand_grantOccasion (i : FolderIx) (s : State) (j : StandIx) : (grantOccasion i s).stand j = s.stand j := by
  simp [grantOccasion]

@[simp] theorem reels_leaveWaits (i : FolderIx) (st : StandIx) (s : State) : (leaveWaits i st s).reels = s.reels := by
  simp [leaveWaits]
@[simp] theorem splices_leaveWaits (i : FolderIx) (st : StandIx) (s : State) : (leaveWaits i st s).splices = s.splices := by
  simp [leaveWaits]
@[simp] theorem nextSplice_leaveWaits (i : FolderIx) (st : StandIx) (s : State) : (leaveWaits i st s).nextSplice = s.nextSplice := by
  simp [leaveWaits]
@[simp] theorem link_leaveWaits (i : FolderIx) (st : StandIx) (s : State) : (leaveWaits i st s).link = s.link := by
  simp [leaveWaits]
@[simp] theorem work_leaveWaits (i : FolderIx) (st : StandIx) (s : State) (j : StandIx) : (leaveWaits i st s).work j = s.work j := by
  simp [leaveWaits]
@[simp] theorem splice?_leaveWaits (i : FolderIx) (st : StandIx) (s : State) (n : Nat) : (leaveWaits i st s).splice? n = s.splice? n := by
  simp [State.splice?]
@[simp] theorem reel?_leaveWaits (i : FolderIx) (st : StandIx) (s : State) (h : Nat) : (leaveWaits i st s).reel? h = s.reel? h := by
  simp [State.reel?]
@[simp] theorem stand_leaveWaits (i : FolderIx) (st : StandIx) (s : State) (j : StandIx) : (leaveWaits i st s).stand j = s.stand j := by
  simp [leaveWaits]

@[simp] theorem reels_releaseSlot (i : FolderIx) (s : State) : (releaseSlot i s).reels = s.reels := by
  simp [releaseSlot]
@[simp] theorem splices_releaseSlot (i : FolderIx) (s : State) : (releaseSlot i s).splices = s.splices := by
  simp [releaseSlot]
@[simp] theorem nextSplice_releaseSlot (i : FolderIx) (s : State) : (releaseSlot i s).nextSplice = s.nextSplice := by
  simp [releaseSlot]
@[simp] theorem link_releaseSlot (i : FolderIx) (s : State) : (releaseSlot i s).link = s.link := by
  simp [releaseSlot]
@[simp] theorem work_releaseSlot (i : FolderIx) (s : State) (j : StandIx) : (releaseSlot i s).work j = s.work j := by
  simp [releaseSlot]
@[simp] theorem splice?_releaseSlot (i : FolderIx) (s : State) (n : Nat) : (releaseSlot i s).splice? n = s.splice? n := by
  simp [State.splice?]
@[simp] theorem reel?_releaseSlot (i : FolderIx) (s : State) (h : Nat) : (releaseSlot i s).reel? h = s.reel? h := by
  simp [State.reel?]
@[simp] theorem stand_releaseSlot (i : FolderIx) (s : State) (j : StandIx) : (releaseSlot i s).stand j = s.stand j := by
  simp [releaseSlot]

@[simp] theorem splice?_setSpliceState (n : Nat) (x : SpliceState) (s : State) :
    (setSpliceState n x s).splice? n = (s.splice? n).map (fun sp => { sp with state := x }) := by simp [setSpliceState]

@[simp] theorem splice?_setCause (n : Nat) (c : EndCause) (s : State) :
    (setCause n c s).splice? n = (s.splice? n).map (fun sp => { sp with cause := some (sp.cause.getD c) }) := by
  simp [setCause]

@[simp] theorem splice?_noteSplice (n : Nat) (x : SpliceNote) (s : State) :
    (noteSplice n x s).splice? n = (s.splice? n).map (fun sp => { sp with notes := addTo x sp.notes }) := by
  simp [noteSplice]

@[simp] theorem splice?_endRecord (n : Nat) (x : SpliceState) (s : State) :
    (endRecord n x s).splice? n = (s.splice? n).map (fun sp => { sp with state := x, ended := some s.now }) := by
  simp [endRecord]

theorem folder_grantOccasion (i f : FolderIx) (s : State) :
    (grantOccasion i s).folder f =
      if f = i then { s.folder f with grantOccasions := (s.folder f).grantOccasions + 1 } else s.folder f := by
  by_cases h : f = i
  · subst h; simp [grantOccasion]
  · simp [grantOccasion, h]

theorem folder_leaveWaits (i f : FolderIx) (st : StandIx) (s : State) :
    (leaveWaits i st s).folder f =
      if f = i then { s.folder f with waits := (s.folder f).waits.filter (fun e => !decide (e.stand = st)) }
      else s.folder f := by
  by_cases h : f = i
  · subst h; simp [leaveWaits]
  · simp [leaveWaits, h]

theorem folder_releaseSlot (i f : FolderIx) (s : State) :
    (releaseSlot i s).folder f =
      if f = i then { s.folder f with slot := none, grantOccasions := (s.folder f).grantOccasions + 1 }
      else s.folder f := by
  by_cases h : f = i
  · subst h; simp [releaseSlot, folder_grantOccasion]
  · simp [releaseSlot, folder_grantOccasion, h]

end Sys2Proof.Machine
end

