-- ==== Sys2Proof/Laws/Local.lean ====
section
/-! SUPPORT. What the shared operations leave alone. `Local st s t` says that t has the link, the last answer and the queue
of s, and the stands of s but for stand st. Every operation of a stand keeps it; each lemma is an equivalence, so that `simp`
walks through a composition of operations. -/

namespace Sys2Proof.Machine

@[simp] theorem Local.refl (st : StandIx) (s : State) : Local st s s := ⟨rfl, rfl, rfl, fun _ _ => rfl⟩

theorem Local.trans {st : StandIx} {s t u : State} (h : Local st s t) (k : Local st t u) : Local st s u :=
  ⟨k.link.trans h.link, k.lastAnswer.trans h.lastAnswer, k.pending.trans h.pending,
   fun i hi => (k.others i hi).trans (h.others i hi)⟩

/-- What a step changes in none of the parts that `Local` speaks of does not matter to it. -/
theorem local_iff_of_eq {st : StandIx} {s t u : State} (hl : u.link = t.link) (ha : u.lastAnswer = t.lastAnswer)
    (hp : u.pending = t.pending) (ho : ∀ i, i ≠ st → u.stand i = t.stand i) : Local st s u ↔ Local st s t :=
  ⟨fun h => ⟨hl ▸ h.link, ha ▸ h.lastAnswer, hp ▸ h.pending, fun i hi => (ho i hi) ▸ h.others i hi⟩,
   fun h => ⟨hl.trans h.link, ha.trans h.lastAnswer, hp.trans h.pending, fun i hi => (ho i hi).trans (h.others i hi)⟩⟩

theorem local_foldl {α : Type} {st : StandIx} {s : State} (g : State → α → State)
    (hg : ∀ t x, Local st s (g t x) ↔ Local st s t) (l : List α) (t : State) :
    Local st s (l.foldl g t) ↔ Local st s t := by
  induction l generalizing t with
  | nil => rfl
  | cons x l ih => rw [List.foldl_cons, ih, hg]

variable (st : StandIx) (s t : State)

/-! ### The updates -/

@[simp] theorem local_modStand (f : Stand → Stand) : Local st s (t.modStand st f) ↔ Local st s t :=
  local_iff_of_eq rfl rfl rfl (fun _ h => stand_modStand_ne t f h)

@[simp] theorem local_modSeq (f : Sequencer → Sequencer) : Local st s (t.modSeq st f) ↔ Local st s t :=
  local_modStand ..

@[simp] theorem local_modWork (f : Working → Working) : Local st s (t.modWork st f) ↔ Local st s t :=
  local_modSeq ..

@[simp] theorem local_modGauge (f : Gauge → Gauge) : Local st s (t.modGauge st f) ↔ Local st s t :=
  local_modStand ..

@[simp] theorem local_modField (f : Field → Field) : Local st s (t.modField st f) ↔ Local st s t :=
  local_modStand ..

@[simp] theorem local_modQueue (f : Queue → Queue) : Local st s (t.modQueue st f) ↔ Local st s t :=
  local_modStand ..

@[simp] theorem local_modFolder (i : FolderIx) (f : Folder → Folder) :
    Local st s (t.modFolder i f) ↔ Local st s t := local_iff_of_eq rfl rfl rfl (fun _ _ => rfl)

@[simp] theorem local_modReel (h : Nat) (f : Reel → Reel) : Local st s (t.modReel h f) ↔ Local st s t :=
  local_iff_of_eq rfl rfl rfl (fun _ _ => rfl)

@[simp] theorem local_modSplice (n : Nat) (f : Splice → Splice) : Local st s (t.modSplice n f) ↔ Local st s t :=
  local_iff_of_eq rfl rfl rfl (fun _ _ => rfl)

@[simp] theorem local_tables (r : List (Nat × Reel)) (x : List (Nat × Splice)) (n : Nat) :
    Local st s { t with reels := r, splices := x, nextSplice := n } ↔ Local st s t :=
  local_iff_of_eq rfl rfl rfl (fun _ _ => rfl)

@[simp] theorem local_reels (r : List (Nat × Reel)) : Local st s { t with reels := r } ↔ Local st s t :=
  local_iff_of_eq rfl rfl rfl (fun _ _ => rfl)

@[simp] theorem local_splices (x : List (Nat × Splice)) : Local st s { t with splices := x } ↔ Local st s t :=
  local_iff_of_eq rfl rfl rfl (fun _ _ => rfl)

/-! ### Machine/Ops.lean -/

@[simp] theorem local_raise (c : Condition) (r : Option Nat × Option Nat) :
    Local st s (raise st c t r) ↔ Local st s t := by simp [raise]

@[simp] theorem local_evalReelCall : Local st s (evalReelCall st t) ↔ Local st s t := by simp [evalReelCall]

@[simp] theorem local_evalRisk : Local st s (evalRisk st t) ↔ Local st s t := by
  unfold evalRisk; dsimp only; split <;> simp

@[simp] theorem local_retire (n : Nat) : Local st s (retire n t) ↔ Local st s t := by
  unfold retire; (repeat' split) <;> simp

@[simp] theorem local_chainOccasion : Local st s (chainOccasion st t) ↔ Local st s t := by simp [chainOccasion]

@[simp] theorem local_handOn (b : State) : Local st s (handOn st b t) ↔ Local st s t := by
  unfold handOn; dsimp only; split <;> simp

@[simp] theorem local_verifyStand : Local st s (verifyStand st t) ↔ Local st s t := by simp [verifyStand]

@[simp] theorem local_giveBack (u : Bool) (h : Nat) : Local st s (giveBack st u h t) ↔ Local st s t := by
  simp [giveBack]

@[simp] theorem local_grantOccasion (f : FolderIx) : Local st s (grantOccasion f t) ↔ Local st s t := by
  simp [grantOccasion]

@[simp] theorem local_leaveWaits (f : FolderIx) (i : StandIx) : Local st s (leaveWaits f i t) ↔ Local st s t := by
  simp [leaveWaits]

@[simp] theorem local_releaseSlot (f : FolderIx) : Local st s (releaseSlot f t) ↔ Local st s t := by
  simp [releaseSlot]

@[simp] theorem local_unlist (n : Nat) (sp : Splice) : Local st s (unlist n sp t) ↔ Local st s t := by
  unfold unlist; split <;> simp

@[simp] theorem local_markLeaves (x : MarkState) (n : Nat) : Local st s (markLeaves x n t) ↔ Local st s t := by
  unfold markLeaves; split <;> simp

@[simp] theorem local_eject (f : FolderIx) (n : Nat) : Local st s (eject f n t) ↔ Local st s t := by simp [eject]

@[simp] theorem local_purge (test : Nat → Splice → Bool) : Local st s (purge test t) ↔ Local st s t := by
  simp only [purge]
  rw [local_foldl _ (fun t f => local_grantOccasion st s t f),
    local_foldl _ (fun t (p : Nat × Splice) => local_retire st s t p.1),
    local_foldl _ (fun t (p : Nat × Splice) => local_markLeaves st s t .purged p.1)]

@[simp] theorem local_purgeStand (i : StandIx) : Local st s (purgeStand i t) ↔ Local st s t := by simp [purgeStand]

@[simp] theorem local_energisePaster : Local st s (energisePaster st t) ↔ Local st s t := by simp [energisePaster]

@[simp] theorem local_energiseBrake : Local st s (energiseBrake st t) ↔ Local st s t := by simp [energiseBrake]

@[simp] theorem local_energiseKnife : Local st s (energiseKnife st t) ↔ Local st s t := by simp [energiseKnife]

@[simp] theorem local_releasePaster : Local st s (releasePaster st t) ↔ Local st s t := by simp [releasePaster]

@[simp] theorem local_releaseBrake : Local st s (releaseBrake st t) ↔ Local st s t := by simp [releaseBrake]

@[simp] theorem local_endKnifePulse : Local st s (endKnifePulse st t) ↔ Local st s t := by
  unfold endKnifePulse; dsimp only; split <;> simp

@[simp] theorem local_releaseKnife : Local st s (releaseKnife st t) ↔ Local st s t := by
  unfold releaseKnife; split <;> simp

@[simp] theorem local_setSpliceState (n : Nat) (x : SpliceState) :
    Local st s (setSpliceState n x t) ↔ Local st s t := by simp [setSpliceState]

@[simp] theorem local_setCause (n : Nat) (c : EndCause) : Local st s (setCause n c t) ↔ Local st s t := by
  simp [setCause]

@[simp] theorem local_noteSplice (n : Nat) (x : SpliceNote) : Local st s (noteSplice n x t) ↔ Local st s t := by
  simp [noteSplice]

@[simp] theorem local_endRecord (n : Nat) (x : SpliceState) : Local st s (endRecord n x t) ↔ Local st s t := by
  simp [endRecord]

@[simp] theorem local_endSplice (n : Nat) (x : SpliceState) (c : Condition) :
    Local st s (endSplice st n x c t) ↔ Local st s t := by simp [endSplice]

@[simp] theorem local_afterEnd (n : Nat) : Local st s (afterEnd st n t) ↔ Local st s t := by simp [afterEnd]

/-! ### Machine/Sequence.lean -/

@[simp] theorem local_enterSpindown (n : Nat) (x : SpinOutcome) :
    Local st s (enterSpindown st n x t) ↔ Local st s t := by simp [enterSpindown]

@[simp] theorem local_leaveArbiter (sp : Splice) : Local st s (leaveArbiter st sp t) ↔ Local st s t := by
  unfold leaveArbiter; (repeat' split) <;> simp

@[simp] theorem local_immediateAbort (n : Nat) (sp : Splice) (c : EndCause) :
    Local st s (immediateAbort st n sp c t) ↔ Local st s t := by simp [immediateAbort]

@[simp] theorem local_abortToSpindown (n : Nat) (sp : Splice) (c : EndCause) :
    Local st s (abortToSpindown st n sp c t) ↔ Local st s t := by simp [abortToSpindown]

@[simp] theorem local_giveUp (n : Nat) (sp : Splice) (c : EndCause) :
    Local st s (giveUp st n sp c t) ↔ Local st s t := by
  unfold giveUp; split <;> simp

@[simp] theorem local_endSpindown (n : Nat) : Local st s (endSpindown st n t) ↔ Local st s t := by simp [endSpindown]

@[simp] theorem local_allocate (o : Origin) (g : Trigger) (e : Params (Option Int)) (c : Bool) :
    Local st s (allocate st o g e c t) ↔ Local st s t := by
  unfold allocate; split <;> simp

@[simp] theorem local_resolveSplice (n : Nat) (sp : Splice) :
    Local st s (resolveSplice st n sp t) ↔ Local st s t := by
  unfold resolveSplice; dsimp only; (repeat' split) <;> simp

@[simp] theorem local_failCommit (n : Nat) (sp : Splice) : Local st s (failCommit st n sp t) ↔ Local st s t := by
  simp [failCommit]

@[simp] theorem local_succeedCommit (n : Nat) (sp : Splice) (o : Int) :
    Local st s (succeedCommit st n sp o t) ↔ Local st s t := by simp [succeedCommit]

@[simp] theorem local_commit (n : Nat) (sp : Splice) : Local st s (commit st n sp t) ↔ Local st s t := by
  unfold commit; dsimp only; split <;> simp

@[simp] theorem local_judgeStart (p : Bool) : Local st s (judgeStart p st t) ↔ Local st s t := by
  unfold judgeStart; (repeat' split) <;> simp

@[simp] theorem local_enterWaiting (n : Nat) (sp : Splice) : Local st s (enterWaiting st n sp t) ↔ Local st s t := by
  unfold enterWaiting; split <;> simp

@[simp] theorem local_judgeWaiting : Local st s (judgeWaiting st t) ↔ Local st s t := by
  unfold judgeWaiting; (repeat' split) <;> simp

@[simp] theorem local_refreshMargin : Local st s (refreshMargin st t) ↔ Local st s t := by
  unfold refreshMargin; (repeat' (first | split | dsimp only)) <;> simp

@[simp] theorem local_diameterChanged : Local st s (diameterChanged st t) ↔ Local st s t := by simp [diameterChanged]

@[simp] theorem local_copyResiduals (n out : Nat) : Local st s (copyResiduals n out t) ↔ Local st s t := by
  unfold copyResiduals; split <;> simp

@[simp] theorem local_startBraking (a : Option Arm) : Local st s (startBraking st a t) ↔ Local st s t := by
  simp [startBraking]

@[simp] theorem local_notCarried (n : Nat) (sp : Splice) : Local st s (notCarried st n sp t) ↔ Local st s t := by
  unfold notCarried; dsimp only; split <;> simp

@[simp] theorem local_webEnd (n : Nat) (sp : Splice) : Local st s (webEnd st n sp t) ↔ Local st s t := by
  unfold webEnd; dsimp only; (repeat' split) <;> simp

@[simp] theorem local_failPaste (n : Nat) (sp : Splice) : Local st s (failPaste st n sp t) ↔ Local st s t := by
  unfold failPaste; dsimp only; (repeat' split) <;> simp

@[simp] theorem local_pasteNotConfirmed (n : Nat) (sp : Splice) :
    Local st s (pasteNotConfirmed st n sp t) ↔ Local st s t := by simp [pasteNotConfirmed]

@[simp] theorem local_firePoint (n : Nat) : Local st s (firePoint st n t) ↔ Local st s t := by simp [firePoint]

@[simp] theorem local_pasteFront (n : Nat) (sp : Splice) : Local st s (pasteFront st n sp t) ↔ Local st s t := by
  unfold pasteFront; dsimp only; split <;> simp

@[simp] theorem local_knifePoint (n : Nat) (sp : Splice) : Local st s (knifePoint st n sp t) ↔ Local st s t := by
  unfold knifePoint; dsimp only; split <;> simp

@[simp] theorem local_standEnd (n : Nat) (c : EndCause) : Local st s (standEnd st n c t) ↔ Local st s t := by
  simp [standEnd]

@[simp] theorem local_updateIndexReq : Local st s (updateIndexReq st t) ↔ Local st s t := by
  unfold updateIndexReq; dsimp only; (repeat' split) <;> simp

@[simp] theorem local_gateFoundOpen : Local st s (gateFoundOpen st t) ↔ Local st s t := by
  unfold gateFoundOpen; split <;> simp

@[simp] theorem local_enterIndexing (n : Nat) : Local st s (enterIndexing st n t) ↔ Local st s t := by
  unfold enterIndexing; dsimp only; (repeat' split) <;> simp

@[simp] theorem local_endBraking (n : Nat) : Local st s (endBraking st n t) ↔ Local st s t := by simp [endBraking]

/-! ### Machine/FieldEvents.lean -/

@[simp] theorem local_acceptInput (i : Input) (l : Fin 4) : Local st s (acceptInput st i l t) ↔ Local st s t := by
  simp [acceptInput]

@[simp] theorem local_settleIndex (i : Input) : Local st s (settleIndex st i t) ↔ Local st s t := by
  unfold settleIndex; split <;> simp

@[simp] theorem local_sampleInput (i : Input) (l : Fin 4) : Local st s (sampleInput st i l t) ↔ Local st s t := by
  unfold sampleInput; dsimp only; (repeat' split) <;> simp

theorem local_takeChange (i : Input) (l : Fin 4) (g : State → State) (hg : ∀ t, Local st s (g t) ↔ Local st s t) :
    Local st s (takeChange st i l g t) ↔ Local st s t := by
  unfold takeChange; dsimp only; (repeat' split) <;> simp [hg]

@[simp] theorem local_departure : Local st s (departure st t) ↔ Local st s t := by
  unfold departure; (repeat' split) <;> simp

@[simp] theorem local_settling (j : Arm) : Local st s (settling st j t) ↔ Local st s t := by
  unfold settling; (repeat' split) <;> simp

@[simp] theorem local_setStar (x : StarIndex) : Local st s (setStar st x t) ↔ Local st s t := by simp [setStar]

@[simp] theorem local_starTaken (c : Fin 4) : Local st s (starTaken st c t) ↔ Local st s t := by
  unfold starTaken; dsimp only; split <;> simp

@[simp] theorem local_removeReel (h : Nat) : Local st s (removeReel h t) ↔ Local st s t := by simp [removeReel]

@[simp] theorem local_loseReserved (h : Nat) : Local st s (loseReserved st h t) ↔ Local st s t := by
  unfold loseReserved; dsimp only; (repeat' split) <;> simp

@[simp] theorem local_reelLost (a : Arm) : Local st s (reelLost st a t) ↔ Local st s t := by
  unfold reelLost; (repeat' split) <;> simp

@[simp] theorem local_webBreak : Local st s (webBreak st t) ↔ Local st s t := by
  unfold webBreak; dsimp only; (repeat' split) <;> simp

@[simp] theorem local_webLost : Local st s (webLost st t) ↔ Local st s t := by
  unfold webLost; (repeat' split) <;> simp

/-! ### Machine/Counts.lean -/

@[simp] theorem local_dropRunningDiameter : Local st s (dropRunningDiameter st t) ↔ Local st s t := by
  unfold dropRunningDiameter; split <;> simp

@[simp] theorem local_runMarkLost : Local st s (runMarkLost st t) ↔ Local st s t := by simp [runMarkLost]

@[simp] theorem local_gaugeWebCount (d : Direction) : Local st s (gaugeWebCount st d t) ↔ Local st s t := by
  unfold gaugeWebCount; dsimp only; split <;> simp

@[simp] theorem local_carryCheck : Local st s (carryCheck st t) ↔ Local st s t := by
  unfold carryCheck; (repeat' split) <;> simp

@[simp] theorem local_ejectPast (f : FolderIx) (p : SpliceRef → Bool) :
    Local st s (ejectPast f p t) ↔ Local st s t := by
  unfold ejectPast
  exact local_foldl _ (fun t (r : SpliceRef) => local_eject st s t f r.splice) _ t

@[simp] theorem local_crossed (d : Direction) (f : FolderIx) : Local st s (crossed st d t f) ↔ Local st s t := by
  unfold crossed; dsimp only
  split
  · rw [local_foldl _ (fun t (_ : SpliceRef) => local_grantOccasion st s t f)]
    simp
  · simp

@[simp] theorem local_trackWebCount (d : Direction) : Local st s (trackWebCount st d t) ↔ Local st s t := by
  unfold trackWebCount
  rw [local_foldl _ (fun t f => local_crossed st s t d f)]
  simp [moveMarks]

@[simp] theorem local_judgePoints : Local st s (judgePoints st t) ↔ Local st s t := by
  have h1 : ∀ t, Local st s (judgeFirePoint st t) ↔ Local st s t := by
    intro t; unfold judgeFirePoint; (repeat' split) <;> simp
  have h2 : ∀ t, Local st s (judgeFront st t) ↔ Local st s t := by
    intro t; unfold judgeFront; (repeat' split) <;> simp
  have h3 : ∀ t, Local st s (judgeKnifePoint st t) ↔ Local st s t := by
    intro t; unfold judgeKnifePoint; (repeat' split) <;> simp
  simp [judgePoints, h1, h2, h3]

@[simp] theorem local_restartQuiet : Local st s (restartQuiet st t) ↔ Local st s t := by
  unfold restartQuiet; split <;> simp

@[simp] theorem local_setGirth (h : Nat) (g : Int) : Local st s (setGirth h g t) ↔ Local st s t := by simp [setGirth]

@[simp] theorem local_enterMatched (n : Nat) (sp : Splice) (g : Int) :
    Local st s (enterMatched st n sp g t) ↔ Local st s t := by simp [enterMatched]

@[simp] theorem local_setMatched (sp : Splice) (x : Bool) : Local st s (setMatched st sp x t) ↔ Local st s t := by
  unfold setMatched; dsimp only; split <;> simp

@[simp] theorem local_rematch (sp : Splice) (g : Int) : Local st s (rematch st sp g t) ↔ Local st s t := by
  unfold rematch; dsimp only; split <;> simp

@[simp] theorem local_afterRevolution (n : Nat) (sp : Splice) (b : Bool) (g : Int) :
    Local st s (afterRevolution st n sp b g t) ↔ Local st s t := by
  unfold afterRevolution; dsimp only; (repeat' split) <;> simp

@[simp] theorem local_firePulse (n : Nat) (sp : Splice) (g : Int) :
    Local st s (firePulse st n sp g t) ↔ Local st s t := by
  unfold firePulse; dsimp only; rw [local_judgePoints]; split <;> simp

@[simp] theorem local_formRevolution (n : Nat) (sp : Splice) (r : Revolution) :
    Local st s (formRevolution st n sp r t) ↔ Local st s t := by
  unfold formRevolution; dsimp only; (repeat' split) <;> simp

@[simp] theorem local_judgeCandidate (h : Nat) (r : Reel) (d : Int) :
    Local st s (judgeCandidate st h r d t) ↔ Local st s t := by
  unfold judgeCandidate; (repeat' split) <;> simp

@[simp] theorem local_gaugeRevPulse (a : Arm) : Local st s (gaugeRevPulse st a t) ↔ Local st s t := by
  unfold gaugeRevPulse; dsimp only; (repeat' split) <;> simp

@[simp] theorem local_seqRevPulse (a : Arm) : Local st s (seqRevPulse st a t) ↔ Local st s t := by
  unfold seqRevPulse; split <;> simp

/-! ### Machine/Timers.lean and Machine/HandOvers.lean -/

@[simp] theorem local_followWeb : Local st s (followWeb st t) ↔ Local st s t := by
  unfold followWeb; (repeat' split) <;> simp

@[simp] theorem local_sampleOccasion (i : StandIx) (f : FolderIx) :
    Local st s (sampleOccasion i t f) ↔ Local st s t := by
  unfold sampleOccasion; split <;> simp

@[simp] theorem local_endUncarried (n : Nat) : Local st s (endUncarried st n t) ↔ Local st s t := by simp [endUncarried]

@[simp] theorem local_keepBrake : Local st s (keepBrake st t) ↔ Local st s t := by simp [keepBrake]

@[simp] theorem local_buttQuiet : Local st s (buttQuiet st t) ↔ Local st s t := by
  unfold buttQuiet releaseKeptBrake; (repeat' split) <;> simp

@[simp] theorem local_chainBlocked : Local st s (chainBlocked st t) ↔ Local st s t := by
  unfold chainBlocked; split <;> simp

@[simp] theorem local_arm (o : Origin) (g : Trigger) (e : Params (Option Int)) (c : Bool) :
    Local st s (arm st o g e c t) ↔ Local st s t := by simp [arm]

@[simp] theorem local_autoArm : Local st s (autoArm st t) ↔ Local st s t := by
  unfold autoArm; split <;> simp

@[simp] theorem local_takeChainOccasion : Local st s (takeChainOccasion st t) ↔ Local st s t := by
  unfold takeChainOccasion; dsimp only; split <;> simp

@[simp] theorem local_grant (f : FolderIx) (e : WaitEntry) : Local e.stand s (grant f e t) ↔ Local e.stand s t := by
  simp [grant]

/-! ### The effects of requests -/

@[simp] theorem local_thread (h : Nat) (r : Reel) : Local st s (thread st h r t) ↔ Local st s t := by simp [thread]

@[simp] theorem local_writePlan (e : PlanEntry) : Local st s (writePlan st e t) ↔ Local st s t := by simp [writePlan]

@[simp] theorem local_writeProfile (p : Profile) : Local st s (writeProfile st p t) ↔ Local st s t := by
  simp [writeProfile]

@[simp] theorem local_collect (e : StatusEntry) : Local st s (collect e t) ↔ Local st s t := by
  unfold collect; (repeat' split) <;> simp

@[simp] theorem local_acknowledge (e : StatusEntry) (l : List StatusEntry) :
    Local st s (acknowledge st e l t) ↔ Local st s t := by
  unfold acknowledge
  extract_lets kept u
  split
  · rw [local_chainOccasion, local_modQueue, local_collect]
  · rw [local_modQueue, local_collect]

@[simp] theorem local_endAtReset : Local st s (endAtReset st t) ↔ Local st s t := by
  unfold endAtReset giveBackReserved; dsimp only; (repeat' split) <;> simp

@[simp] theorem local_resetStand : Local st s (resetStand st t) ↔ Local st s t := by
  unfold resetStand; dsimp only
  rw [local_evalReelCall, local_evalRisk, local_modStand, local_modWork,
    local_foldl _ (fun t f => local_leaveWaits st s t f st)]
  simp [clearDiameters]

end Sys2Proof.Machine
end

