-- ==== Sys2Proof/Laws/Taking.lean ====
section
/-! SUPPORT. How a command is taken: a request by its owner (R165), an event by the running device (R170). -/

namespace Sys2Proof.Machine

/-- A request taken by its owner is answered. -/
theorem serve_of_takes {r : Instr} {s : State} (own : State → Answer × State) (h : s.takes r) :
    serve r own s = .next (deliver r (own s).1 (own s).2) := by
  unfold serve; rw [if_neg (by simp [h.1]), if_pos h.2]

/-- A request that it is not the owner's turn to take changes nothing. -/
theorem serve_of_not_mayTake {r : Instr} {s : State} (own : State → Answer × State) (h : s.mayTake r = false) :
    serve r own s = .next s := by
  unfold serve; rw [h]; split <;> rfl

/-- While the RESET pin is asserted no request is taken. -/
theorem serve_of_resetPin {s : State} (r : Instr) (own : State → Answer × State) (h : s.link.resetPin = true) :
    serve r own s = .next s := by
  unfold serve; rw [if_pos h]

/-- Every request completes. -/
theorem serve_completes (r : Instr) (own : State → Answer × State) (s : State) :
    serve r own s = .next s ∨ serve r own s = .next (deliver r (own s).1 (own s).2) := by
  unfold serve; (repeat' split) <;> simp

/-- An event of the running device has its effect. -/
theorem onDevice_of_runs {s : State} (f : State → State) (h : s.runs) : onDevice f s = .next (f s) := by
  unfold onDevice; rw [if_neg (by simp [h])]

/-- While the RESET pin is asserted no event is taken. -/
theorem onDevice_of_resetPin {s : State} (f : State → State) (h : s.link.resetPin = true) : onDevice f s = .next s := by
  unfold onDevice; rw [if_pos h]

/-- Every event completes. -/
theorem onDevice_completes (f : State → State) (s : State) : onDevice f s = .next s ∨ onDevice f s = .next (f s) := by
  unfold onDevice; split <;> simp

/-- Every request but RESET_DEVICE is taken by `serve`. -/
theorem exec_request (r : Instr) (h : requestClient r ≠ none) (hr : ∀ c, r ≠ .resetDevice c) :
    ∃ own : State → Answer × State, ∀ s, exec r s = serve r own s := by
  cases r <;> first
    | exact absurd rfl h
    | (exfalso; exact hr _ rfl)
    | (simp only [exec]; exact ⟨_, fun _ => rfl⟩)

/-- Every command that is not a request is an event, but for power and the pin. -/
theorem exec_event (c : Instr) (h : requestClient c = none) (h1 : c ≠ .powerOn) (h2 : c ≠ .resetPinAsserted)
    (h3 : c ≠ .resetPinReleased) : ∃ f : State → State, ∀ s, exec c s = onDevice f s := by
  cases c <;> first
    | (simp only [requestClient, reduceCtorEq] at h; done)
    | exact absurd rfl h1
    | exact absurd rfl h2
    | exact absurd rfl h3
    | (simp only [exec]; exact ⟨_, fun _ => rfl⟩)

/-! ### What an answer leaves alone -/

@[simp] theorem stands_deliver (r : Instr) (a : Answer) (s : State) : (deliver r a s).stands = s.stands := rfl
@[simp] theorem stand_deliver (r : Instr) (a : Answer) (s : State) (i : StandIx) : (deliver r a s).stand i = s.stand i := rfl
@[simp] theorem work_deliver (r : Instr) (a : Answer) (s : State) (i : StandIx) : (deliver r a s).work i = s.work i := rfl
@[simp] theorem folders_deliver (r : Instr) (a : Answer) (s : State) : (deliver r a s).folders = s.folders := rfl
@[simp] theorem folder_deliver (r : Instr) (a : Answer) (s : State) (f : FolderIx) :
    (deliver r a s).folder f = s.folder f := rfl
@[simp] theorem reels_deliver (r : Instr) (a : Answer) (s : State) : (deliver r a s).reels = s.reels := rfl
@[simp] theorem reel?_deliver (r : Instr) (a : Answer) (s : State) (h : Nat) : (deliver r a s).reel? h = s.reel? h := rfl
@[simp] theorem splices_deliver (r : Instr) (a : Answer) (s : State) : (deliver r a s).splices = s.splices := rfl
@[simp] theorem splice?_deliver (r : Instr) (a : Answer) (s : State) (n : Nat) :
    (deliver r a s).splice? n = s.splice? n := rfl
@[simp] theorem nextSplice_deliver (r : Instr) (a : Answer) (s : State) : (deliver r a s).nextSplice = s.nextSplice := rfl
@[simp] theorem pending_deliver (r : Instr) (a : Answer) (s : State) : (deliver r a s).pending = s.pending := rfl

/-- An answer leaves the length of the answer order list. -/
@[simp] theorem length_answerEntry (r : Instr) (a : Answer) (l : List LinkEntry) :
    (answerEntry r a l).length = l.length := by
  induction l with
  | nil => rfl
  | cons e t ih => unfold answerEntry; split <;> simp [ih]

end Sys2Proof.Machine
end

