-- ==== Sys2Proof/Laws/Discipline.lean ====
section
/-! SUPPORT. The discipline of the folders (`State.Disciplined`) seen through a view of the state: of each splice record its
stand, folder, state and mark state; of each stand its active splice and `markPlaced`; of each folder its slot, its waiters and
its track. Operations that leave the view leave the discipline; each of the others has a lemma. -/

namespace Sys2Proof.Machine

/-- What the discipline says of one splice record. -/
structure SpliceView where
  stand : StandIx
  folder : Option FolderIx
  state : SpliceState
  mark : MarkState
deriving DecidableEq, Repr

def Splice.view (sp : Splice) : SpliceView := ⟨sp.stand, sp.folder, sp.state, sp.mark.state⟩

/-- The view of a splice record by its number. -/
def State.viewOf (s : State) (n : Nat) : Option SpliceView := (s.splice? n).map Splice.view

/-- The waiters of a folder: stand and splice. -/
def Folder.waiters (F : Folder) : List (StandIx × Nat) := F.waits.map (fun e => (e.stand, e.splice))

/-- Two states with the same view. -/
structure SameView (s t : State) : Prop where
  splices : ∀ n, t.viewOf n = s.viewOf n
  active : ∀ st, (t.work st).active = (s.work st).active
  placed : ∀ st, (t.work st).markPlaced = (s.work st).markPlaced
  slot : ∀ f, (t.folder f).slot = (s.folder f).slot
  waits : ∀ f, (t.folder f).waiters.Perm (s.folder f).waiters
  track : ∀ f, (t.folder f).track = (s.folder f).track

/-- The discipline in terms of the view. -/
structure Ordered (s : State) : Prop where
  active : ∀ st n, (s.work st).active = some n → ∃ v, s.viewOf n = some v ∧ v.stand = st ∧ isEnded v.state = false
  holder : ∀ n v, s.viewOf n = some v → holdsSlot v.state = true →
    ∃ f, v.folder = some f ∧ (s.folder f).slot = some { splice := n, stand := v.stand }
  slot : ∀ f r, (s.folder f).slot = some r →
    ∃ v, s.viewOf r.splice = some v ∧ v.stand = r.stand ∧ v.folder = some f ∧ holdsSlot v.state = true
  waiter : ∀ f p, p ∈ (s.folder f).waiters → ∃ v, s.viewOf p.2 = some v ∧ v.stand = p.1 ∧ v.folder = some f
    ∧ v.state = .waiting ∧ (s.work p.1).active = some p.2
  waiters : ∀ f, ((s.folder f).waiters.map Prod.fst).Nodup
  listed : ∀ f r, r ∈ (s.folder f).track →
    ∃ v, s.viewOf r.splice = some v ∧ v.stand = r.stand ∧ v.folder = some f ∧ v.mark = .onTrack
  distinct : ∀ f, ((s.folder f).track.map SpliceRef.splice).Nodup
  unmarked : ∀ n v, s.viewOf n = some v → beforePasting v.state = true → v.mark = .none
  idle : ∀ st, (s.work st).active = none → (s.work st).markPlaced = false
  before : ∀ st n v, (s.work st).active = some n → s.viewOf n = some v → beforePasting v.state = true →
    (s.work st).markPlaced = false
  pasting : ∀ st n v, (s.work st).active = some n → s.viewOf n = some v → v.state = .pasting →
    (s.work st).markPlaced = false → v.mark = .none
  full : ∀ f, (s.folder f).track.length ≤ 8
  room : ∀ f r v, (s.folder f).slot = some r → s.viewOf r.splice = some v → v.mark = .none →
    (s.folder f).track.length < 8

theorem viewOf_eq_some {s : State} {n : Nat} {v : SpliceView} :
    s.viewOf n = some v ↔ ∃ sp, s.splice? n = some sp ∧ sp.view = v := by
  simp [State.viewOf]

theorem viewOf_of_splice? {s : State} {n : Nat} {sp : Splice} (h : s.splice? n = some sp) :
    s.viewOf n = some sp.view := by simp [State.viewOf, h]

/-- No two records have the same splice number (R53). -/
abbrev State.KeysOnce (s : State) : Prop := (s.splices.map Prod.fst).Nodup

/-- The two forms of the discipline say the same. -/
theorem disciplined_iff_ordered (s : State) : s.Disciplined ↔ s.KeysOnce ∧ Ordered s := by
  constructor
  · intro h
    refine ⟨h.keys, fun st n k => ?_, fun n v k hv => ?_, fun f r k => ?_, fun f p hp => ?_, fun f => ?_, fun f r hr => ?_,
      fun f => (h.listed f).2, fun n v k hv => ?_, fun st => (h.placed st).1, fun st n v k hk hv => ?_,
      fun st n v k hk hv hp => ?_, fun f => (h.room f).1, fun f r v k hk hv => ?_⟩
    · obtain ⟨sp, h1, h2, h3⟩ := h.active st n k
      exact ⟨_, viewOf_of_splice? h1, h2, h3⟩
    · obtain ⟨sp, h1, rfl⟩ := viewOf_eq_some.1 k
      exact h.holder n sp h1 hv
    · obtain ⟨sp, h1, h2⟩ := h.slot f r k
      exact ⟨_, viewOf_of_splice? h1, h2⟩
    · obtain ⟨e, he, rfl⟩ := List.mem_map.1 hp
      obtain ⟨sp, h1, h2⟩ := (h.waiter f).1 e he
      exact ⟨_, viewOf_of_splice? h1, h2⟩
    · have := (h.waiter f).2
      simpa [Folder.waiters, List.map_map, Function.comp_def] using this
    · obtain ⟨sp, h1, h2⟩ := (h.listed f).1 r hr
      exact ⟨_, viewOf_of_splice? h1, h2⟩
    · obtain ⟨sp, h1, rfl⟩ := viewOf_eq_some.1 k
      exact h.unmarked n sp h1 hv
    · obtain ⟨sp, h1, rfl⟩ := viewOf_eq_some.1 hk
      exact ((h.placed st).2 n sp k h1).1 hv
    · obtain ⟨sp, h1, rfl⟩ := viewOf_eq_some.1 hk
      exact ((h.placed st).2 n sp k h1).2 hv hp
    · obtain ⟨sp, h1, rfl⟩ := viewOf_eq_some.1 hk
      exact (h.room f).2 r sp k h1 hv
  · rintro ⟨hk, h⟩
    refine ⟨hk, fun st n k => ?_, fun n sp k hv => h.holder n _ (viewOf_of_splice? k) hv, fun f r k => ?_,
      fun f => ⟨fun e he => ?_, ?_⟩, fun f => ⟨fun r hr => ?_, h.distinct f⟩,
      fun n sp k hv => h.unmarked n _ (viewOf_of_splice? k) hv, fun st => ⟨h.idle st, fun n sp k hk => ⟨fun hv => ?_,
      fun hv hp => ?_⟩⟩, fun f => ⟨h.full f, fun r sp k hk hv => ?_⟩⟩
    · obtain ⟨v, h1, h2⟩ := h.active st n k
      obtain ⟨sp, h3, rfl⟩ := viewOf_eq_some.1 h1
      exact ⟨sp, h3, h2⟩
    · obtain ⟨v, h1, h2⟩ := h.slot f r k
      obtain ⟨sp, h3, rfl⟩ := viewOf_eq_some.1 h1
      exact ⟨sp, h3, h2⟩
    · obtain ⟨v, h1, h2⟩ := h.waiter f (e.stand, e.splice) (List.mem_map.2 ⟨e, he, rfl⟩)
      obtain ⟨sp, h3, rfl⟩ := viewOf_eq_some.1 h1
      exact ⟨sp, h3, h2⟩
    · have := h.waiters f
      simpa [Folder.waiters, List.map_map, Function.comp_def] using this
    · obtain ⟨v, h1, h2⟩ := h.listed f r hr
      obtain ⟨sp, h3, rfl⟩ := viewOf_eq_some.1 h1
      exact ⟨sp, h3, h2⟩
    · exact h.before st n _ k (viewOf_of_splice? hk) hv
    · exact h.pasting st n _ k (viewOf_of_splice? hk) hv hp
    · exact h.room f r _ k (viewOf_of_splice? hk) hv

/-! ### Operations that leave the view -/

theorem SameView.refl (s : State) : SameView s s :=
  ⟨fun _ => rfl, fun _ => rfl, fun _ => rfl, fun _ => rfl, fun _ => List.Perm.refl _, fun _ => rfl⟩

theorem SameView.symm {s t : State} (h : SameView s t) : SameView t s :=
  ⟨fun n => (h.splices n).symm, fun st => (h.active st).symm, fun st => (h.placed st).symm, fun f => (h.slot f).symm,
   fun f => (h.waits f).symm, fun f => (h.track f).symm⟩

theorem SameView.trans {s t u : State} (h : SameView s t) (k : SameView t u) : SameView s u :=
  ⟨fun n => (k.splices n).trans (h.splices n), fun st => (k.active st).trans (h.active st),
   fun st => (k.placed st).trans (h.placed st), fun f => (k.slot f).trans (h.slot f),
   fun f => (k.waits f).trans (h.waits f), fun f => (k.track f).trans (h.track f)⟩

/-- The discipline depends on the view alone. -/
theorem Ordered.of_sameView {s t : State} (h : Ordered s) (k : SameView s t) : Ordered t := by
  constructor
  · intro st n; rw [k.active, k.splices]; exact h.active st n
  · intro n v; rw [k.splices]; intro h1 h2
    obtain ⟨f, a, b⟩ := h.holder n v h1 h2
    exact ⟨f, a, by rw [k.slot]; exact b⟩
  · intro f r; rw [k.slot, k.splices]; exact h.slot f r
  · intro f p hp
    rw [k.splices, k.active]
    exact h.waiter f p ((k.waits f).mem_iff.1 hp)
  · intro f; exact ((k.waits f).map Prod.fst).nodup_iff.2 (h.waiters f)
  · intro f r; rw [k.track, k.splices]; exact h.listed f r
  · intro f; rw [k.track]; exact h.distinct f
  · intro n v; rw [k.splices]; exact h.unmarked n v
  · intro st; rw [k.active, k.placed]; exact h.idle st
  · intro st n v; rw [k.active, k.placed, k.splices]; exact h.before st n v
  · intro st n v; rw [k.active, k.placed, k.splices]; exact h.pasting st n v
  · intro f; rw [k.track]; exact h.full f
  · intro f r v; rw [k.slot, k.splices, k.track]; exact h.room f r v

theorem ordered_iff {s t : State} (h : SameView s t) : Ordered t ↔ Ordered s :=
  ⟨fun k => k.of_sameView h.symm, fun k => k.of_sameView h⟩

/-- The same splice records, working states and folders give the same view. -/
theorem sameView_of_eq {s t : State} (h1 : t.splices = s.splices) (h2 : ∀ st, t.work st = s.work st)
    (h3 : ∀ f, t.folder f = s.folder f) : SameView s t :=
  ⟨fun n => by simp [State.viewOf, State.splice?, h1], fun st => by rw [h2], fun st => by rw [h2], fun f => by rw [h3],
   fun f => by rw [h3], fun f => by rw [h3]⟩

/-! ### Changes of the view -/

/-- The state t has the view of s but for the splice n, whose view is v. -/
def Becomes (s t : State) (n : Nat) (v : SpliceView) : Prop :=
  ∀ m, t.viewOf m = if m = n then some v else s.viewOf m

theorem Becomes.self {s t : State} {n : Nat} {v : SpliceView} (h : Becomes s t n v) : t.viewOf n = some v := by
  rw [h]; simp

theorem Becomes.other {s t : State} {n m : Nat} {v : SpliceView} (h : Becomes s t n v) (k : m ≠ n) :
    t.viewOf m = s.viewOf m := by
  rw [h]; simp [k]

/-- A splice that is neither in the slot nor on the wait list changes outside them, or changes state within the slot. -/
theorem Ordered.change {s t : State} (h : Ordered s) {n : Nat} {v w : SpliceView} (hv : s.viewOf n = some v)
    (hb : Becomes s t n w) (hs : w.stand = v.stand) (hm : w.mark = v.mark) (he : isEnded w.state = false)
    (hf : w.folder = v.folder ∨ v.mark = .none ∧ holdsSlot v.state = false)
    (hh : holdsSlot w.state = holdsSlot v.state) (hw : v.state ≠ .waiting)
    (hbp : beforePasting w.state = true → beforePasting v.state = true)
    (hpa : w.state = .pasting → beforePasting v.state = true ∨ v.state = .pasting)
    (ha : ∀ st, (t.work st).active = (s.work st).active) (hp : ∀ st, (t.work st).markPlaced = (s.work st).markPlaced)
    (hsl : ∀ f, (t.folder f).slot = (s.folder f).slot) (hwa : ∀ f, (t.folder f).waiters.Perm (s.folder f).waiters)
    (htr : ∀ f, (t.folder f).track = (s.folder f).track) : Ordered t := by
  have hfold : holdsSlot v.state = true → w.folder = v.folder := fun e => hf.elim id (fun k => by simp [k.2] at e)
  constructor
  · intro st m k
    rw [ha] at k
    by_cases e : m = n
    · subst e
      obtain ⟨v', h1, h2, _⟩ := h.active st m k
      rw [hv] at h1; cases h1
      exact ⟨w, hb.self, hs.trans h2, he⟩
    · rw [hb.other e]; exact h.active st m k
  · intro m u hu hk
    by_cases e : m = n
    · subst e
      rw [hb.self] at hu; cases hu
      rw [hh] at hk
      obtain ⟨f, a, b⟩ := h.holder m v hv hk
      exact ⟨f, (hfold hk).trans a, by rw [hsl, hs]; exact b⟩
    · rw [hb.other e] at hu
      obtain ⟨f, a, b⟩ := h.holder m u hu hk
      exact ⟨f, a, by rw [hsl]; exact b⟩
  · intro f r k
    rw [hsl] at k
    obtain ⟨u, h1, h2, h3, h4⟩ := h.slot f r k
    by_cases e : r.splice = n
    · rw [e] at h1 ⊢
      rw [hv] at h1; cases h1
      exact ⟨w, hb.self, hs.trans h2, (hfold h4).trans h3, hh.trans h4⟩
    · rw [hb.other e]; exact ⟨u, h1, h2, h3, h4⟩
  · intro f p hpm
    obtain ⟨u, h1, h2, h3, h4, h5⟩ := h.waiter f p ((hwa f).mem_iff.1 hpm)
    have e : p.2 ≠ n := by rintro e; rw [e, hv] at h1; cases h1; exact hw h4
    rw [hb.other e, ha]; exact ⟨u, h1, h2, h3, h4, h5⟩
  · intro f; exact ((hwa f).map Prod.fst).nodup_iff.2 (h.waiters f)
  · intro f r hr
    rw [htr] at hr
    obtain ⟨u, h1, h2, h3, h4⟩ := h.listed f r hr
    by_cases e : r.splice = n
    · rw [e] at h1 ⊢
      rw [hv] at h1; cases h1
      refine ⟨w, hb.self, hs.trans h2, ?_, hm.trans h4⟩
      rcases hf with hf | hf
      · exact hf.trans h3
      · rw [h4] at hf; exact absurd hf.1 (by simp)
    · rw [hb.other e]; exact ⟨u, h1, h2, h3, h4⟩
  · intro f; rw [htr]; exact h.distinct f
  · intro m u hu hk
    by_cases e : m = n
    · subst e
      rw [hb.self] at hu; cases hu
      rw [hm]; exact h.unmarked m v hv (hbp hk)
    · rw [hb.other e] at hu; exact h.unmarked m u hu hk
  · intro st; rw [ha, hp]; exact h.idle st
  · intro st m u k hu hk
    rw [ha] at k; rw [hp]
    by_cases e : m = n
    · subst e
      rw [hb.self] at hu; cases hu
      exact h.before st m v k hv (hbp hk)
    · rw [hb.other e] at hu; exact h.before st m u k hu hk
  · intro st m u k hu hk hx
    rw [ha] at k; rw [hp] at hx
    by_cases e : m = n
    · subst e
      rw [hb.self] at hu; cases hu
      rw [hm]
      rcases hpa hk with h1 | h1
      · exact h.unmarked m v hv h1
      · exact h.pasting st m v k hv h1 hx
    · rw [hb.other e] at hu; exact h.pasting st m u k hu hk hx
  · intro f; rw [htr]; exact h.full f
  · intro f r u k hu hx
    rw [hsl] at k; rw [htr]
    by_cases e : r.splice = n
    · rw [e, hb.self] at hu; cases hu
      exact h.room f r v k (by rw [e]; exact hv) (hm ▸ hx)
    · rw [hb.other e] at hu; exact h.room f r u k hu hx

/-- The slot's holder leaves FIRING, PASTING or CUTTING, and the slot is free (R120). -/
theorem Ordered.exit {s t : State} (h : Ordered s) {n : Nat} {v w : SpliceView} {f : FolderIx} (hv : s.viewOf n = some v)
    (hh : holdsSlot v.state = true) (hf : v.folder = some f) (hb : Becomes s t n w) (hs : w.stand = v.stand)
    (hm : w.mark = v.mark) (hwf : w.folder = v.folder) (he : isEnded w.state = false) (hwh : holdsSlot w.state = false)
    (hwb : beforePasting w.state = false)
    (ha : ∀ st, (t.work st).active = (s.work st).active) (hp : ∀ st, (t.work st).markPlaced = (s.work st).markPlaced)
    (hsl : ∀ g, (t.folder g).slot = if g = f then none else (s.folder g).slot)
    (hwa : ∀ f, (t.folder f).waiters.Perm (s.folder f).waiters)
    (htr : ∀ f, (t.folder f).track = (s.folder f).track) : Ordered t := by
  have hvw : v.state ≠ .waiting := by intro e; rw [e] at hh; exact absurd hh (by decide)
  have hwp : w.state ≠ .pasting := by intro e; rw [e] at hwh; exact absurd hwh (by decide)
  obtain ⟨f', hf1, hf2⟩ := h.holder n v hv hh
  rw [hf] at hf1; cases hf1
  constructor
  · intro st m k
    rw [ha] at k
    by_cases e : m = n
    · subst e
      obtain ⟨v', h1, h2, _⟩ := h.active st m k
      rw [hv] at h1; cases h1
      exact ⟨w, hb.self, hs.trans h2, he⟩
    · rw [hb.other e]; exact h.active st m k
  · intro m u hu hk
    by_cases e : m = n
    · subst e
      rw [hb.self] at hu; cases hu
      rw [hwh] at hk; exact absurd hk (by simp)
    · rw [hb.other e] at hu
      obtain ⟨g, a, b⟩ := h.holder m u hu hk
      refine ⟨g, a, ?_⟩
      rw [hsl, if_neg, b]
      rintro rfl
      rw [hf2] at b
      exact e (by simpa using congrArg (Option.map SpliceRef.splice) b.symm)
  · intro g r k
    rw [hsl] at k
    by_cases hg : g = f
    · simp [hg] at k
    · rw [if_neg hg] at k
      obtain ⟨u, h1, h2, h3, h4⟩ := h.slot g r k
      have e : r.splice ≠ n := by
        rintro e; rw [e, hv] at h1; cases h1; rw [hf] at h3; cases h3; exact hg rfl
      rw [hb.other e]; exact ⟨u, h1, h2, h3, h4⟩
  · intro g p hpm
    obtain ⟨u, h1, h2, h3, h4, h5⟩ := h.waiter g p ((hwa g).mem_iff.1 hpm)
    have e : p.2 ≠ n := by rintro e; rw [e, hv] at h1; cases h1; exact hvw h4
    rw [hb.other e, ha]; exact ⟨u, h1, h2, h3, h4, h5⟩
  · intro g; exact ((hwa g).map Prod.fst).nodup_iff.2 (h.waiters g)
  · intro g r hr
    rw [htr] at hr
    obtain ⟨u, h1, h2, h3, h4⟩ := h.listed g r hr
    by_cases e : r.splice = n
    · rw [e] at h1 ⊢
      rw [hv] at h1; cases h1
      exact ⟨w, hb.self, hs.trans h2, hwf.trans h3, hm.trans h4⟩
    · rw [hb.other e]; exact ⟨u, h1, h2, h3, h4⟩
  · intro g; rw [htr]; exact h.distinct g
  · intro m u hu hk
    by_cases e : m = n
    · subst e
      rw [hb.self] at hu; cases hu
      rw [hwb] at hk; exact absurd hk (by simp)
    · rw [hb.other e] at hu; exact h.unmarked m u hu hk
  · intro st; rw [ha, hp]; exact h.idle st
  · intro st m u k hu hk
    rw [ha] at k; rw [hp]
    by_cases e : m = n
    · subst e
      rw [hb.self] at hu; cases hu
      rw [hwb] at hk; exact absurd hk (by simp)
    · rw [hb.other e] at hu; exact h.before st m u k hu hk
  · intro st m u k hu hk hx
    rw [ha] at k; rw [hp] at hx
    by_cases e : m = n
    · subst e
      rw [hb.self] at hu; cases hu
      exact absurd hk hwp
    · rw [hb.other e] at hu; exact h.pasting st m u k hu hk hx
  · intro g; rw [htr]; exact h.full g
  · intro g r u k hu hx
    rw [hsl] at k; rw [htr]
    by_cases hg : g = f
    · simp [hg] at k
    · rw [if_neg hg] at k
      by_cases e : r.splice = n
      · rw [e, hb.self] at hu; cases hu
        exact h.room g r v k (by rw [e]; exact hv) (hm ▸ hx)
      · rw [hb.other e] at hu; exact h.room g r u k hu hx

/-- The active splice of a stand ends, off every wait list (R74, R91). -/
theorem Ordered.finish {s t : State} (h : Ordered s) {st : StandIx} {n : Nat} {v w : SpliceView}
    (hact : (s.work st).active = some n) (hv : s.viewOf n = some v)
    (hh : holdsSlot v.state = false) (hb : Becomes s t n w) (hs : w.stand = v.stand)
    (hm : w.mark = v.mark) (hwf : w.folder = v.folder) (he : isEnded w.state = true)
    (ha : ∀ i, (t.work i).active = if i = st then none else (s.work i).active)
    (hp : ∀ i, (t.work i).markPlaced = if i = st then false else (s.work i).markPlaced)
    (hsl : ∀ g, (t.folder g).slot = (s.folder g).slot)
    (hwa : ∀ g, (t.folder g).waiters.Sublist (s.folder g).waiters ∧ ∀ p ∈ (t.folder g).waiters, p.2 ≠ n)
    (htr : ∀ f, (t.folder f).track = (s.folder f).track) : Ordered t := by
  have hwh : holdsSlot w.state = false := by cases hws : w.state <;> simp [hws, isEnded, holdsSlot] at he ⊢
  have hwb : beforePasting w.state = false := by cases hws : w.state <;> simp [hws, isEnded, beforePasting] at he ⊢
  have hwp : w.state ≠ .pasting := by intro e; rw [e] at hwh; exact absurd hwh (by decide)
  have hst : v.stand = st := by
    obtain ⟨v', h1, h2, _⟩ := h.active st n hact; rw [hv] at h1; cases h1; exact h2
  have only : ∀ i m, (t.work i).active = some m → i ≠ st ∧ (s.work i).active = some m ∧ m ≠ n := by
    intro i m k
    rw [ha] at k
    by_cases e : i = st
    · simp [e] at k
    · rw [if_neg e] at k
      refine ⟨e, k, ?_⟩
      rintro rfl
      obtain ⟨v', h1, h2, _⟩ := h.active i m k
      rw [hv] at h1; cases h1
      exact e (h2.symm.trans hst)
  constructor
  · intro i m k
    obtain ⟨_, k', e⟩ := only i m k
    rw [hb.other e]; exact h.active i m k'
  · intro m u hu hk
    by_cases e : m = n
    · subst e
      rw [hb.self] at hu; cases hu
      rw [hwh] at hk; exact absurd hk (by simp)
    · rw [hb.other e] at hu
      obtain ⟨g, a, b⟩ := h.holder m u hu hk
      exact ⟨g, a, by rw [hsl]; exact b⟩
  · intro g r k
    rw [hsl] at k
    obtain ⟨u, h1, h2, h3, h4⟩ := h.slot g r k
    have e : r.splice ≠ n := by
      rintro e; rw [e, hv] at h1; cases h1; rw [hh] at h4; exact absurd h4 (by simp)
    rw [hb.other e]; exact ⟨u, h1, h2, h3, h4⟩
  · intro g p hpm
    have e := (hwa g).2 p hpm
    obtain ⟨u, h1, h2, h3, h4, h5⟩ := h.waiter g p ((hwa g).1.subset hpm)
    refine ⟨u, by rw [hb.other e]; exact h1, h2, h3, h4, ?_⟩
    rw [ha, if_neg, h5]
    intro k; rw [k, hact] at h5
    exact e (Option.some.inj h5).symm
  · intro g; exact ((hwa g).1.map Prod.fst).nodup (h.waiters g)
  · intro g r hr
    rw [htr] at hr
    obtain ⟨u, h1, h2, h3, h4⟩ := h.listed g r hr
    by_cases e : r.splice = n
    · rw [e] at h1 ⊢
      rw [hv] at h1; cases h1
      exact ⟨w, hb.self, hs.trans h2, hwf.trans h3, hm.trans h4⟩
    · rw [hb.other e]; exact ⟨u, h1, h2, h3, h4⟩
  · intro g; rw [htr]; exact h.distinct g
  · intro m u hu hk
    by_cases e : m = n
    · subst e
      rw [hb.self] at hu; cases hu
      rw [hwb] at hk; exact absurd hk (by simp)
    · rw [hb.other e] at hu; exact h.unmarked m u hu hk
  · intro i
    rw [ha, hp]
    by_cases e : i = st
    · simp [e]
    · simp only [if_neg e]; exact h.idle i
  · intro i m u k hu hk
    obtain ⟨k1, k', e⟩ := only i m k
    rw [hb.other e] at hu
    rw [hp, if_neg k1]; exact h.before i m u k' hu hk
  · intro i m u k hu hk hx
    obtain ⟨k1, k', e⟩ := only i m k
    rw [hb.other e] at hu
    rw [hp, if_neg k1] at hx; exact h.pasting i m u k' hu hk hx
  · intro g; rw [htr]; exact h.full g
  · intro g r u k hu hx
    rw [hsl] at k; rw [htr]
    by_cases e : r.splice = n
    · rw [e, hb.self] at hu; cases hu
      exact h.room g r v k (by rw [e]; exact hv) (hm ▸ hx)
    · rw [hb.other e] at hu; exact h.room g r u k hu hx

/-- A waiter is given up: it leaves its state and every wait list (R85, R115). -/
theorem Ordered.leave {s t : State} (h : Ordered s) {n : Nat} {v w : SpliceView} (hv : s.viewOf n = some v)
    (hh : holdsSlot v.state = false) (hb : Becomes s t n w) (hs : w.stand = v.stand)
    (hm : w.mark = v.mark) (hwf : w.folder = v.folder) (he : isEnded w.state = false) (hwh : holdsSlot w.state = false)
    (hwb : beforePasting w.state = false)
    (ha : ∀ st, (t.work st).active = (s.work st).active) (hp : ∀ st, (t.work st).markPlaced = (s.work st).markPlaced)
    (hsl : ∀ f, (t.folder f).slot = (s.folder f).slot)
    (hwa : ∀ g, (t.folder g).waiters.Sublist (s.folder g).waiters ∧ ∀ p ∈ (t.folder g).waiters, p.2 ≠ n)
    (htr : ∀ f, (t.folder f).track = (s.folder f).track) : Ordered t := by
  have hwp : w.state ≠ .pasting := by intro e; rw [e] at hwh; exact absurd hwh (by decide)
  constructor
  · intro st m k
    rw [ha] at k
    by_cases e : m = n
    · subst e
      obtain ⟨v', h1, h2, _⟩ := h.active st m k
      rw [hv] at h1; cases h1
      exact ⟨w, hb.self, hs.trans h2, he⟩
    · rw [hb.other e]; exact h.active st m k
  · intro m u hu hk
    by_cases e : m = n
    · subst e
      rw [hb.self] at hu; cases hu
      rw [hwh] at hk; exact absurd hk (by simp)
    · rw [hb.other e] at hu
      obtain ⟨g, a, b⟩ := h.holder m u hu hk
      exact ⟨g, a, by rw [hsl]; exact b⟩
  · intro g r k
    rw [hsl] at k
    obtain ⟨u, h1, h2, h3, h4⟩ := h.slot g r k
    have e : r.splice ≠ n := by
      rintro e; rw [e, hv] at h1; cases h1; rw [hh] at h4; exact absurd h4 (by simp)
    rw [hb.other e]; exact ⟨u, h1, h2, h3, h4⟩
  · intro g p hpm
    have e := (hwa g).2 p hpm
    obtain ⟨u, h1, h2, h3, h4, h5⟩ := h.waiter g p ((hwa g).1.subset hpm)
    exact ⟨u, by rw [hb.other e]; exact h1, h2, h3, h4, by rw [ha]; exact h5⟩
  · intro g; exact ((hwa g).1.map Prod.fst).nodup (h.waiters g)
  · intro g r hr
    rw [htr] at hr
    obtain ⟨u, h1, h2, h3, h4⟩ := h.listed g r hr
    by_cases e : r.splice = n
    · rw [e] at h1 ⊢
      rw [hv] at h1; cases h1
      exact ⟨w, hb.self, hs.trans h2, hwf.trans h3, hm.trans h4⟩
    · rw [hb.other e]; exact ⟨u, h1, h2, h3, h4⟩
  · intro g; rw [htr]; exact h.distinct g
  · intro m u hu hk
    by_cases e : m = n
    · subst e
      rw [hb.self] at hu; cases hu
      rw [hwb] at hk; exact absurd hk (by simp)
    · rw [hb.other e] at hu; exact h.unmarked m u hu hk
  · intro i; rw [ha, hp]; exact h.idle i
  · intro i m u k hu hk
    rw [ha] at k; rw [hp]
    by_cases e : m = n
    · subst e
      rw [hb.self] at hu; cases hu
      rw [hwb] at hk; exact absurd hk (by simp)
    · rw [hb.other e] at hu; exact h.before i m u k hu hk
  · intro i m u k hu hk hx
    rw [ha] at k; rw [hp] at hx
    by_cases e : m = n
    · subst e
      rw [hb.self] at hu; cases hu
      exact absurd hk hwp
    · rw [hb.other e] at hu; exact h.pasting i m u k hu hk hx
  · intro g; rw [htr]; exact h.full g
  · intro g r u k hu hx
    rw [hsl] at k; rw [htr]
    by_cases e : r.splice = n
    · rw [e, hb.self] at hu; cases hu
      exact h.room g r v k (by rw [e]; exact hv) (hm ▸ hx)
    · rw [hb.other e] at hu; exact h.room g r u k hu hx

/-- A MATCHED splice enters WAITING and joins its folder's wait list (R83, R115). -/
theorem Ordered.join {s t : State} (h : Ordered s) {st : StandIx} {n : Nat} {v w : SpliceView} {f : FolderIx}
    (hact : (s.work st).active = some n) (hv : s.viewOf n = some v) (hvs : v.state = .matched) (hf : v.folder = some f)
    (hb : Becomes s t n w) (hw : w = { v with state := .waiting })
    (ha : ∀ st, (t.work st).active = (s.work st).active) (hp : ∀ st, (t.work st).markPlaced = (s.work st).markPlaced)
    (hsl : ∀ f, (t.folder f).slot = (s.folder f).slot)
    (hwa : ∀ g, (t.folder g).waiters.Perm (if g = f then (st, n) :: (s.folder g).waiters else (s.folder g).waiters))
    (htr : ∀ f, (t.folder f).track = (s.folder f).track) : Ordered t := by
  have hst : v.stand = st := by
    obtain ⟨v', h1, h2, _⟩ := h.active st n hact; rw [hv] at h1; cases h1; exact h2
  have hws : w.state = .waiting := by rw [hw]
  have notThere : ∀ g p, p ∈ (s.folder g).waiters → p.2 ≠ n ∧ p.1 ≠ st := by
    intro g p hpm
    obtain ⟨u, h1, h2, h3, h4, h5⟩ := h.waiter g p hpm
    have e : p.2 ≠ n := by rintro e; rw [e, hv] at h1; cases h1; rw [hvs] at h4; exact absurd h4 (by simp)
    refine ⟨e, fun k => ?_⟩
    rw [k, hact] at h5
    exact e (Option.some.inj h5).symm
  constructor
  · intro i m k
    rw [ha] at k
    by_cases e : m = n
    · subst e
      obtain ⟨v', h1, h2, _⟩ := h.active i m k
      rw [hv] at h1; cases h1
      exact ⟨w, hb.self, by rw [hw]; exact h2, by rw [hws]; rfl⟩
    · rw [hb.other e]; exact h.active i m k
  · intro m u hu hk
    by_cases e : m = n
    · subst e
      rw [hb.self] at hu; cases hu
      rw [hws] at hk; exact absurd hk (by decide)
    · rw [hb.other e] at hu
      obtain ⟨g, a, b⟩ := h.holder m u hu hk
      exact ⟨g, a, by rw [hsl]; exact b⟩
  · intro g r k
    rw [hsl] at k
    obtain ⟨u, h1, h2, h3, h4⟩ := h.slot g r k
    have e : r.splice ≠ n := by
      rintro e; rw [e, hv] at h1; cases h1; rw [hvs] at h4; exact absurd h4 (by decide)
    rw [hb.other e]; exact ⟨u, h1, h2, h3, h4⟩
  · intro g p hpm
    have hpm := (hwa g).mem_iff.1 hpm
    have old : p ∈ (s.folder g).waiters → _ := fun k => h.waiter g p k
    by_cases hg : g = f
    · subst hg
      simp only [if_true, List.mem_cons] at hpm
      rcases hpm with rfl | hpm
      · exact ⟨w, hb.self, by rw [hw]; exact hst, by rw [hw]; exact hf, hws, by rw [ha]; exact hact⟩
      · rw [hb.other (notThere g p hpm).1, ha]; exact h.waiter g p hpm
    · rw [if_neg hg] at hpm
      rw [hb.other (notThere g p hpm).1, ha]; exact h.waiter g p hpm
  · intro g
    refine ((hwa g).map Prod.fst).nodup_iff.2 ?_
    by_cases hg : g = f
    · subst hg
      simp only [if_true, List.map_cons, List.nodup_cons]
      refine ⟨fun k => ?_, h.waiters g⟩
      obtain ⟨p, hpm, e⟩ := List.mem_map.1 k
      exact (notThere g p hpm).2 e
    · rw [if_neg hg]; exact h.waiters g
  · intro g r hr
    rw [htr] at hr
    obtain ⟨u, h1, h2, h3, h4⟩ := h.listed g r hr
    by_cases e : r.splice = n
    · rw [e] at h1 ⊢
      rw [hv] at h1; cases h1
      exact ⟨w, hb.self, by rw [hw]; exact h2, by rw [hw]; exact h3, by rw [hw]; exact h4⟩
    · rw [hb.other e]; exact ⟨u, h1, h2, h3, h4⟩
  · intro g; rw [htr]; exact h.distinct g
  · intro m u hu hk
    by_cases e : m = n
    · subst e
      rw [hb.self] at hu; cases hu
      rw [hw]; exact h.unmarked m v hv (by rw [hvs]; rfl)
    · rw [hb.other e] at hu; exact h.unmarked m u hu hk
  · intro i; rw [ha, hp]; exact h.idle i
  · intro i m u k hu hk
    rw [ha] at k; rw [hp]
    by_cases e : m = n
    · subst e
      exact h.before i m v k hv (by rw [hvs]; rfl)
    · rw [hb.other e] at hu; exact h.before i m u k hu hk
  · intro i m u k hu hk hx
    rw [ha] at k; rw [hp] at hx
    by_cases e : m = n
    · subst e
      rw [hb.self] at hu; cases hu
      rw [hws] at hk; exact absurd hk (by simp)
    · rw [hb.other e] at hu; exact h.pasting i m u k hu hk hx
  · intro g; rw [htr]; exact h.full g
  · intro g r u k hu hx
    rw [hsl] at k; rw [htr]
    by_cases e : r.splice = n
    · rw [e, hb.self] at hu; cases hu
      exact h.room g r v k (by rw [e]; exact hv) (by rw [hw] at hx; exact hx)
    · rw [hb.other e] at hu; exact h.room g r u k hu hx

/-- The grant of a free slot to a waiter (R117, R119). -/
theorem Ordered.granted {s t : State} (h : Ordered s) {st : StandIx} {n : Nat} {v w : SpliceView} {f : FolderIx}
    (hin : (st, n) ∈ (s.folder f).waiters) (hfree : (s.folder f).slot = none) (hroom : (s.folder f).track.length < 8)
    (hv : s.viewOf n = some v) (hb : Becomes s t n w) (hw : w = { v with state := .firing })
    (ha : ∀ st, (t.work st).active = (s.work st).active) (hp : ∀ st, (t.work st).markPlaced = (s.work st).markPlaced)
    (hsl : ∀ g, (t.folder g).slot = if g = f then some { splice := n, stand := st } else (s.folder g).slot)
    (hwa : ∀ g, (t.folder g).waiters.Sublist (s.folder g).waiters ∧ (g = f → ∀ p ∈ (t.folder g).waiters, p.1 ≠ st))
    (htr : ∀ f, (t.folder f).track = (s.folder f).track) : Ordered t := by
  obtain ⟨v', h1, hst, hfo, hvs, hact⟩ := h.waiter f (st, n) hin
  simp only at h1 hst hact
  rw [hv] at h1; cases h1
  have hws : w.state = .firing := by rw [hw]
  have hmark : v.mark = .none := h.unmarked n v hv (by rw [hvs]; rfl)
  have gone : ∀ g p, p ∈ (t.folder g).waiters → p.2 ≠ n := by
    intro g p hpm e
    obtain ⟨u, k1, k2, k3, k4, k5⟩ := h.waiter g p ((hwa g).1.subset hpm)
    rw [e, hv] at k1; cases k1
    rw [hfo] at k3; cases k3
    exact (hwa f).2 rfl p hpm (k2.symm.trans hst)
  constructor
  · intro i m k
    rw [ha] at k
    by_cases e : m = n
    · subst e
      obtain ⟨v', h1, h2, _⟩ := h.active i m k
      rw [hv] at h1; cases h1
      exact ⟨w, hb.self, by rw [hw]; exact h2, by rw [hws]; rfl⟩
    · rw [hb.other e]; exact h.active i m k
  · intro m u hu hk
    by_cases e : m = n
    · subst e
      rw [hb.self] at hu; cases hu
      exact ⟨f, by rw [hw]; exact hfo, by rw [hsl, if_pos rfl, hw]; simp [hst]⟩
    · rw [hb.other e] at hu
      obtain ⟨g, a, b⟩ := h.holder m u hu hk
      refine ⟨g, a, ?_⟩
      rw [hsl, if_neg, b]
      rintro rfl
      rw [hfree] at b; exact absurd b (by simp)
  · intro g r k
    rw [hsl] at k
    by_cases hg : g = f
    · subst hg
      rw [if_pos rfl] at k; cases k
      exact ⟨w, hb.self, by rw [hw]; exact hst, by rw [hw]; exact hfo, by rw [hws]; rfl⟩
    · rw [if_neg hg] at k
      obtain ⟨u, h1, h2, h3, h4⟩ := h.slot g r k
      have e : r.splice ≠ n := by
        rintro e; rw [e, hv] at h1; cases h1; rw [hvs] at h4; exact absurd h4 (by decide)
      rw [hb.other e]; exact ⟨u, h1, h2, h3, h4⟩
  · intro g p hpm
    rw [hb.other (gone g p hpm), ha]
    exact h.waiter g p ((hwa g).1.subset hpm)
  · intro g; exact ((hwa g).1.map Prod.fst).nodup (h.waiters g)
  · intro g r hr
    rw [htr] at hr
    obtain ⟨u, h1, h2, h3, h4⟩ := h.listed g r hr
    have e : r.splice ≠ n := by
      rintro e; rw [e, hv] at h1; cases h1; rw [hmark] at h4; exact absurd h4 (by simp)
    rw [hb.other e]; exact ⟨u, h1, h2, h3, h4⟩
  · intro g; rw [htr]; exact h.distinct g
  · intro m u hu hk
    by_cases e : m = n
    · subst e
      rw [hb.self] at hu; cases hu
      rw [hw]; exact hmark
    · rw [hb.other e] at hu; exact h.unmarked m u hu hk
  · intro i; rw [ha, hp]; exact h.idle i
  · intro i m u k hu hk
    rw [ha] at k; rw [hp]
    by_cases e : m = n
    · subst e
      exact h.before i m v k hv (by rw [hvs]; rfl)
    · rw [hb.other e] at hu; exact h.before i m u k hu hk
  · intro i m u k hu hk hx
    rw [ha] at k; rw [hp] at hx
    by_cases e : m = n
    · subst e
      rw [hb.self] at hu; cases hu
      rw [hws] at hk; exact absurd hk (by simp)
    · rw [hb.other e] at hu; exact h.pasting i m u k hu hk hx
  · intro g; rw [htr]; exact h.full g
  · intro g r u k hu hx
    rw [hsl] at k; rw [htr]
    by_cases hg : g = f
    · subst hg; exact hroom
    · rw [if_neg hg] at k
      by_cases e : r.splice = n
      · rw [e, hb.self] at hu; cases hu
        exact h.room g r v k (by rw [e]; exact hv) (by rw [hw] at hx; exact hx)
      · rw [hb.other e] at hu; exact h.room g r u k hu hx

/-- A record that has ended and has no mark on a track is removed (R72). -/
theorem Ordered.removed {s t : State} (h : Ordered s) {n : Nat} {v : SpliceView} (hv : s.viewOf n = some v)
    (he : isEnded v.state = true) (hm : v.mark ≠ .onTrack)
    (hb : ∀ m, t.viewOf m = if m = n then none else s.viewOf m) (hw : ∀ st, t.work st = s.work st)
    (hf : ∀ f, t.folder f = s.folder f) : Ordered t := by
  have hh : holdsSlot v.state = false := by cases hs : v.state <;> simp [hs, isEnded, holdsSlot] at he ⊢
  have sub : ∀ m u, t.viewOf m = some u → m ≠ n ∧ s.viewOf m = some u := by
    intro m u k
    rw [hb] at k
    by_cases e : m = n
    · simp [e] at k
    · rw [if_neg e] at k; exact ⟨e, k⟩
  have keep : ∀ m, m ≠ n → t.viewOf m = s.viewOf m := fun m e => by rw [hb, if_neg e]
  constructor
  · intro st m k
    rw [hw] at k
    obtain ⟨u, h1, h2, h3⟩ := h.active st m k
    have e : m ≠ n := by rintro rfl; rw [hv] at h1; cases h1; rw [he] at h3; exact absurd h3 (by simp)
    rw [keep m e]; exact ⟨u, h1, h2, h3⟩
  · intro m u k hk
    obtain ⟨g, a, b⟩ := h.holder m u (sub m u k).2 hk
    exact ⟨g, a, by rw [hf]; exact b⟩
  · intro g r k
    rw [hf] at k
    obtain ⟨u, h1, h2, h3, h4⟩ := h.slot g r k
    have e : r.splice ≠ n := by rintro e; rw [e, hv] at h1; cases h1; rw [hh] at h4; exact absurd h4 (by simp)
    rw [keep _ e]; exact ⟨u, h1, h2, h3, h4⟩
  · intro g p hpm
    rw [hf] at hpm
    obtain ⟨u, h1, h2, h3, h4, h5⟩ := h.waiter g p hpm
    have e : p.2 ≠ n := by rintro e; rw [e, hv] at h1; cases h1; rw [h4] at he; exact absurd he (by decide)
    rw [keep _ e, hw]; exact ⟨u, h1, h2, h3, h4, h5⟩
  · intro g; rw [hf]; exact h.waiters g
  · intro g r hr
    rw [hf] at hr
    obtain ⟨u, h1, h2, h3, h4⟩ := h.listed g r hr
    have e : r.splice ≠ n := by rintro e; rw [e, hv] at h1; cases h1; exact hm h4
    rw [keep _ e]; exact ⟨u, h1, h2, h3, h4⟩
  · intro g; rw [hf]; exact h.distinct g
  · intro m u k; exact h.unmarked m u (sub m u k).2
  · intro i; rw [hw]; exact h.idle i
  · intro i m u k hu; rw [hw] at k ⊢; exact h.before i m u k (sub m u hu).2
  · intro i m u k hu; rw [hw] at k ⊢; exact h.pasting i m u k (sub m u hu).2
  · intro g; rw [hf]; exact h.full g
  · intro g r u k hu; rw [hf] at k ⊢; exact h.room g r u k (sub _ u hu).2

/-- A mark leaves its track, ejected or purged (R125, R126). -/
theorem Ordered.unmark {s t : State} (h : Ordered s) {n : Nat} {v w : SpliceView} (hv : s.viewOf n = some v)
    (hon : v.mark = .onTrack) (hb : Becomes s t n w) (hs : w.stand = v.stand) (hwf : w.folder = v.folder)
    (hst : w.state = v.state) (hfin : w.mark = .ejected ∨ w.mark = .purged)
    (hw : ∀ st, t.work st = s.work st) (hsl : ∀ f, (t.folder f).slot = (s.folder f).slot)
    (hwa : ∀ f, (t.folder f).waiters = (s.folder f).waiters)
    (htr : ∀ f, (t.folder f).track.Sublist (s.folder f).track ∧ ∀ r ∈ (t.folder f).track, r.splice ≠ n) : Ordered t := by
  have hnb : beforePasting v.state = false := by
    cases hx : beforePasting v.state
    · rfl
    · exact absurd (hon.symm.trans (h.unmarked n v hv hx)) (by simp)
  have hwn : w.mark ≠ .none := by rcases hfin with e | e <;> rw [e] <;> simp
  constructor
  · intro st m k
    rw [hw] at k
    by_cases e : m = n
    · subst e
      obtain ⟨u, h1, h2, h3⟩ := h.active st m k
      rw [hv] at h1; cases h1
      exact ⟨w, hb.self, hs.trans h2, by rw [hst]; exact h3⟩
    · rw [hb.other e]; exact h.active st m k
  · intro m u hu hk
    by_cases e : m = n
    · subst e
      rw [hb.self] at hu; cases hu
      rw [hst] at hk
      obtain ⟨f, a, b⟩ := h.holder m v hv hk
      exact ⟨f, hwf.trans a, by rw [hsl, hs]; exact b⟩
    · rw [hb.other e] at hu
      obtain ⟨f, a, b⟩ := h.holder m u hu hk
      exact ⟨f, a, by rw [hsl]; exact b⟩
  · intro f r k
    rw [hsl] at k
    obtain ⟨u, h1, h2, h3, h4⟩ := h.slot f r k
    by_cases e : r.splice = n
    · rw [e] at h1 ⊢
      rw [hv] at h1; cases h1
      exact ⟨w, hb.self, hs.trans h2, hwf.trans h3, by rw [hst]; exact h4⟩
    · rw [hb.other e]; exact ⟨u, h1, h2, h3, h4⟩
  · intro f p hpm
    rw [hwa] at hpm
    obtain ⟨u, h1, h2, h3, h4, h5⟩ := h.waiter f p hpm
    have e : p.2 ≠ n := by rintro e; rw [e, hv] at h1; cases h1; rw [h4] at hnb; exact absurd hnb (by decide)
    rw [hb.other e, hw]; exact ⟨u, h1, h2, h3, h4, h5⟩
  · intro f; rw [hwa]; exact h.waiters f
  · intro f r hr
    rw [hb.other ((htr f).2 r hr)]
    exact h.listed f r ((htr f).1.subset hr)
  · intro f; exact ((htr f).1.map SpliceRef.splice).nodup (h.distinct f)
  · intro m u hu hk
    by_cases e : m = n
    · subst e
      rw [hb.self] at hu; cases hu
      rw [hst, hnb] at hk; exact absurd hk (by simp)
    · rw [hb.other e] at hu; exact h.unmarked m u hu hk
  · intro i; rw [hw]; exact h.idle i
  · intro i m u k hu hk
    rw [hw] at k ⊢
    by_cases e : m = n
    · subst e
      rw [hb.self] at hu; cases hu
      rw [hst, hnb] at hk; exact absurd hk (by simp)
    · rw [hb.other e] at hu; exact h.before i m u k hu hk
  · intro i m u k hu hk hx
    rw [hw] at k hx
    by_cases e : m = n
    · subst e
      rw [hb.self] at hu; cases hu
      rw [hst] at hk
      exact absurd (hon.symm.trans (h.pasting i m v k hv hk hx)) (by simp)
    · rw [hb.other e] at hu; exact h.pasting i m u k hu hk hx
  · intro f; exact (htr f).1.length_le.trans (h.full f)
  · intro f r u k hu hx
    rw [hsl] at k
    by_cases e : r.splice = n
    · rw [e, hb.self] at hu; cases hu
      exact absurd hx hwn
    · rw [hb.other e] at hu; exact lt_of_le_of_lt (htr f).1.length_le (h.room f r u k hu hx)

/-- The paste front places the mark of the slot's holder on its folder's track (R96, R123). -/
theorem Ordered.front {s t : State} (h : Ordered s) {st : StandIx} {n : Nat} {v w : SpliceView} {f : FolderIx}
    (hact : (s.work st).active = some n) (hv : s.viewOf n = some v) (hvs : v.state = .pasting)
    (hnot : (s.work st).markPlaced = false) (hf : v.folder = some f) (hb : Becomes s t n w)
    (hwv : w = { v with mark := .onTrack })
    (ha : ∀ i, (t.work i).active = (s.work i).active)
    (hp : ∀ i, (t.work i).markPlaced = if i = st then true else (s.work i).markPlaced)
    (hsl : ∀ g, (t.folder g).slot = (s.folder g).slot) (hwa : ∀ g, (t.folder g).waiters = (s.folder g).waiters)
    (htr : ∀ g, (t.folder g).track =
      if g = f then (s.folder g).track ++ [{ splice := n, stand := st }] else (s.folder g).track) : Ordered t := by
  have hmark : v.mark = .none := h.pasting st n v hact hv hvs hnot
  have hstand : v.stand = st := by
    obtain ⟨u, h1, h2, _⟩ := h.active st n hact; rw [hv] at h1; cases h1; exact h2
  have hslot : (s.folder f).slot = some { splice := n, stand := v.stand } := by
    obtain ⟨g, a, b⟩ := h.holder n v hv (by rw [hvs]; rfl)
    rw [hf] at a; cases a; exact b
  have hroom : (s.folder f).track.length < 8 := h.room f _ v hslot hv hmark
  have off : ∀ g r, r ∈ (s.folder g).track → r.splice ≠ n := by
    intro g r hr e
    obtain ⟨u, h1, _, _, h4⟩ := h.listed g r hr
    rw [e, hv] at h1; cases h1
    rw [hmark] at h4; exact absurd h4 (by simp)
  have only : ∀ i m, (s.work i).active = some m → m = n → i = st := by
    intro i m k e
    subst e
    obtain ⟨u, h1, h2, _⟩ := h.active i m k
    rw [hv] at h1; cases h1
    exact h2.symm.trans hstand
  constructor
  · intro i m k
    rw [ha] at k
    by_cases e : m = n
    · subst e
      obtain ⟨u, h1, h2, h3⟩ := h.active i m k
      rw [hv] at h1; cases h1
      exact ⟨w, hb.self, by rw [hwv]; exact h2, by rw [hwv]; exact h3⟩
    · rw [hb.other e]; exact h.active i m k
  · intro m u hu hk
    by_cases e : m = n
    · subst e
      rw [hb.self] at hu; cases hu
      exact ⟨f, by rw [hwv]; exact hf, by rw [hsl, hwv]; exact hslot⟩
    · rw [hb.other e] at hu
      obtain ⟨g, a, b⟩ := h.holder m u hu hk
      exact ⟨g, a, by rw [hsl]; exact b⟩
  · intro g r k
    rw [hsl] at k
    obtain ⟨u, h1, h2, h3, h4⟩ := h.slot g r k
    by_cases e : r.splice = n
    · rw [e] at h1 ⊢
      rw [hv] at h1; cases h1
      exact ⟨w, hb.self, by rw [hwv]; exact h2, by rw [hwv]; exact h3, by rw [hwv]; exact h4⟩
    · rw [hb.other e]; exact ⟨u, h1, h2, h3, h4⟩
  · intro g p hpm
    rw [hwa] at hpm
    obtain ⟨u, h1, h2, h3, h4, h5⟩ := h.waiter g p hpm
    have e : p.2 ≠ n := by rintro e; rw [e, hv] at h1; cases h1; rw [hvs] at h4; exact absurd h4 (by simp)
    rw [hb.other e, ha]; exact ⟨u, h1, h2, h3, h4, h5⟩
  · intro g; rw [hwa]; exact h.waiters g
  · intro g r hr
    have old : r ∈ (s.folder g).track → ∃ u, t.viewOf r.splice = some u ∧ u.stand = r.stand ∧ u.folder = some g
        ∧ u.mark = .onTrack := by
      intro k
      rw [hb.other (off g r k)]; exact h.listed g r k
    rw [htr] at hr
    by_cases hg : g = f
    · subst hg
      simp only [if_true, List.mem_append, List.mem_singleton] at hr
      rcases hr with hr | rfl
      · exact old hr
      · exact ⟨w, hb.self, by rw [hwv]; exact hstand, by rw [hwv]; exact hf, by rw [hwv]⟩
    · rw [if_neg hg] at hr; exact old hr
  · intro g
    rw [htr]
    by_cases hg : g = f
    · subst hg
      simp only [if_true, List.map_append, List.map_cons, List.map_nil]
      refine List.nodup_append.2 ⟨h.distinct g, by simp, ?_⟩
      intro a ha' b hb' e
      obtain ⟨r, hr, rfl⟩ := List.mem_map.1 ha'
      simp only [List.mem_singleton] at hb'
      exact off g r hr (e.trans hb')
    · rw [if_neg hg]; exact h.distinct g
  · intro m u hu hk
    by_cases e : m = n
    · subst e
      rw [hb.self] at hu; cases hu
      rw [hwv, hvs] at hk; exact absurd hk (by decide)
    · rw [hb.other e] at hu; exact h.unmarked m u hu hk
  · intro i k
    rw [ha] at k; rw [hp]
    by_cases e : i = st
    · rw [e, hact] at k; exact absurd k (by simp)
    · rw [if_neg e]; exact h.idle i k
  · intro i m u k hu hk
    rw [ha] at k
    by_cases e : m = n
    · subst e
      rw [hb.self] at hu; cases hu
      rw [hwv, hvs] at hk; exact absurd hk (by decide)
    · rw [hb.other e] at hu
      rw [hp, if_neg]
      · exact h.before i m u k hu hk
      · rintro rfl
        rw [hact] at k; exact e (Option.some.inj k).symm
  · intro i m u k hu hk hx
    rw [ha] at k
    rw [hp] at hx
    by_cases e : m = n
    · rw [only i m k e, if_pos rfl] at hx; exact absurd hx (by simp)
    · rw [hb.other e] at hu
      refine h.pasting i m u k hu hk ?_
      rwa [if_neg] at hx
      rintro rfl
      rw [hact] at k; exact e (Option.some.inj k).symm
  · intro g
    rw [htr]
    by_cases hg : g = f
    · subst hg; simp only [if_true, List.length_append, List.length_singleton]; omega
    · rw [if_neg hg]; exact h.full g
  · intro g r u k hu hx
    rw [hsl] at k; rw [htr]
    by_cases hg : g = f
    · subst hg
      rw [hslot] at k; cases k
      simp only at hu
      rw [hb.self] at hu; cases hu
      rw [hwv] at hx; exact absurd hx (by simp)
    · rw [if_neg hg]
      by_cases e : r.splice = n
      · obtain ⟨u', h1, _, h3, _⟩ := h.slot g r k
        rw [e, hv] at h1; cases h1
        rw [hf] at h3; cases h3; exact absurd rfl hg
      · rw [hb.other e] at hu; exact h.room g r u k hu hx

/-- A splice is allocated, ARMED, on a stand that has none (R53, R64). -/
theorem Ordered.armed {s t : State} (h : Ordered s) {st : StandIx} {n : Nat} {w : SpliceView}
    (hfree : s.viewOf n = none) (hidle : (s.work st).active = none) (hb : Becomes s t n w)
    (hwv : w = { stand := st, folder := none, state := .armed, mark := .none })
    (ha : ∀ i, (t.work i).active = if i = st then some n else (s.work i).active)
    (hp : ∀ i, (t.work i).markPlaced = (s.work i).markPlaced)
    (hf : ∀ f, t.folder f = s.folder f) : Ordered t := by
  have ne : ∀ {m u}, s.viewOf m = some u → m ≠ n := by
    rintro m u k rfl; rw [hfree] at k; exact absurd k (by simp)
  have only : ∀ i m, (t.work i).active = some m → m ≠ n → i ≠ st ∧ (s.work i).active = some m := by
    intro i m k e
    rw [ha] at k
    by_cases hi : i = st
    · rw [if_pos hi] at k; exact absurd (Option.some.inj k).symm e
    · rw [if_neg hi] at k; exact ⟨hi, k⟩
  constructor
  · intro i m k
    by_cases e : m = n
    · subst e
      have hi : i = st := by
        by_contra hi
        rw [ha, if_neg hi] at k
        obtain ⟨u, h1, _⟩ := h.active i m k
        rw [hfree] at h1; exact absurd h1 (by simp)
      exact ⟨w, hb.self, by rw [hwv, hi], by rw [hwv]; rfl⟩
    · rw [hb.other e]; exact h.active i m (only i m k e).2
  · intro m u hu hk
    by_cases e : m = n
    · subst e
      rw [hb.self] at hu; cases hu
      rw [hwv] at hk; exact absurd hk (by simp [holdsSlot])
    · rw [hb.other e] at hu
      obtain ⟨g, a, b⟩ := h.holder m u hu hk
      exact ⟨g, a, by rw [hf]; exact b⟩
  · intro g r k
    rw [hf] at k
    obtain ⟨u, h1, h2⟩ := h.slot g r k
    rw [hb.other (ne h1)]; exact ⟨u, h1, h2⟩
  · intro g p hpm
    rw [hf] at hpm
    obtain ⟨u, h1, h2, h3, h4, h5⟩ := h.waiter g p hpm
    refine ⟨u, by rw [hb.other (ne h1)]; exact h1, h2, h3, h4, ?_⟩
    rw [ha, if_neg, h5]
    intro e; rw [e, hidle] at h5; exact absurd h5 (by simp)
  · intro g; rw [hf]; exact h.waiters g
  · intro g r hr
    rw [hf] at hr
    obtain ⟨u, h1, h2⟩ := h.listed g r hr
    rw [hb.other (ne h1)]; exact ⟨u, h1, h2⟩
  · intro g; rw [hf]; exact h.distinct g
  · intro m u hu hk
    by_cases e : m = n
    · subst e
      rw [hb.self] at hu; cases hu
      rw [hwv]
    · rw [hb.other e] at hu; exact h.unmarked m u hu hk
  · intro i k
    rw [hp]
    rw [ha] at k
    by_cases hi : i = st
    · rw [if_pos hi] at k; exact absurd k (by simp)
    · rw [if_neg hi] at k; exact h.idle i k
  · intro i m u k hu hk
    rw [hp]
    by_cases e : m = n
    · have hi : i = st := by
        by_contra hi
        rw [ha, if_neg hi, e] at k
        obtain ⟨u, h1, _⟩ := h.active i n k
        rw [hfree] at h1; exact absurd h1 (by simp)
      rw [hi]; exact h.idle st hidle
    · rw [hb.other e] at hu; exact h.before i m u (only i m k e).2 hu hk
  · intro i m u k hu hk hx
    rw [hp] at hx
    by_cases e : m = n
    · subst e
      rw [hb.self] at hu; cases hu
      rw [hwv]
    · rw [hb.other e] at hu; exact h.pasting i m u (only i m k e).2 hu hk hx
  · intro g; rw [hf]; exact h.full g
  · intro g r u k hu hx
    rw [hf] at k ⊢
    obtain ⟨u', h1, _⟩ := h.slot g r k
    rw [hb.other (ne h1)] at hu; exact h.room g r u k hu hx

end Sys2Proof.Machine
end

