-- ==== Sys2Proof/Laws/Images.lean ====
section
/-! SUPPORT. The fields of an answer's images: the length of each, and its bytes where they are worked out from a number, a set or
an absent value. -/

namespace Sys2Proof.Machine

/-- The bytes of a number, by the power of 256 that each stands for. -/
theorem beBytes_eq (size n : Nat) :
    beBytes size n = ((List.range size).map (fun j => BitVec.ofNat 8 (n / 256 ^ j))).reverse := by
  induction size with
  | zero => rfl
  | succ k ih => simp only [beBytes, List.range_succ, List.map_append, List.reverse_append, ih]; rfl

/-- An unsigned field of a natural number. -/
theorem natField_eq (size n : Nat) :
    natField size n = beBytes size (if n < 256 ^ size then n else Config.overflowField size n) := by
  have e : ((n : Int) < (256 : Int) ^ size) ↔ n < 256 ^ size := by exact_mod_cast Iff.rfl
  simp only [natField, unsignedField, e, Int.natCast_nonneg, true_and, Int.toNat_natCast]
  split <;> rfl

/-- A signed field. -/
theorem intField_eq (size : Nat) (v : Int) :
    intField size v = beBytes size (if -(2 : Int) ^ (8 * size - 1) ≤ v ∧ v < (2 : Int) ^ (8 * size - 1) then
      (v % (256 : Int) ^ size).toNat else Config.overflowField size v) := by
  unfold intField; split <;> rfl

/-- A set as a bit field, member by member. -/
theorem setBits_eq {α : Type} [DecidableEq α] (members held : List α) :
    setBits members held = (members.map (fun x => decide (x ∈ held))).foldr (fun b n => b.toNat + 2 * n) 0 := by
  induction members with
  | nil => rfl
  | cons a t ih => simp only [setBits, List.foldr, List.map] at *; rw [ih]; by_cases h : a ∈ held <;> simp [h]

/-- A presence byte, bit by bit. -/
theorem presenceByte_eq (l : List Bool) : presenceByte l = BitVec.ofNat 8 (l.foldr (fun b n => b.toNat + 2 * n) 0) := by
  unfold presenceByte byteOf
  congr 1
  induction l with
  | nil => rfl
  | cons a t ih => simp only [List.foldr]; rw [ih]; cases a <;> rfl

theorem flagByte_eq (x : Bool) : flagByte x = BitVec.ofNat 8 x.toNat := by cases x <;> rfl

/-- The slots of an image that has room for every item. -/
theorem slots_eq {α : Type} {n size : Nat} {f : α → List Byte} {l : List α} (h : l.length ≤ n) :
    slots n size f l = l.flatMap f ++ List.replicate ((n - l.length) * size) 0 := by
  unfold slots; rw [List.take_of_length_le h]

/-! ### Lengths -/

@[simp] theorem length_beBytes (size n : Nat) : (beBytes size n).length = size := by simp [beBytes_eq]

@[simp] theorem length_unsignedField (size : Nat) (v : Int) : (unsignedField size v).length = size := by
  unfold unsignedField; split <;> exact length_beBytes _ _

@[simp] theorem length_natField (size n : Nat) : (natField size n).length = size := length_unsignedField _ _

@[simp] theorem length_intField (size : Nat) (v : Int) : (intField size v).length = size := by
  unfold intField; split <;> exact length_beBytes _ _

@[simp] theorem length_optField (size absent : Nat) (v : Option Nat) : (optField size absent v).length = size :=
  length_natField _ _

@[simp] theorem length_stampField (t : Stamp) : (stampField t).length = 4 := length_beBytes _ _

@[simp] theorem length_optStamp (t : Option Stamp) : (optStamp t).length = 4 := length_stampField _

@[simp] theorem length_presenceBits (l : List Bool) : (presenceBits l).length = 1 := rfl

@[simp] theorem length_maskField (m : BitVec 13) : (maskField m).length = 2 := length_beBytes _ _

@[simp] theorem length_conditionsField (l : List Condition) : (conditionsField l).length = 3 := length_beBytes _ _

@[simp] theorem length_remainingField (x : Option Int) : (remainingField x).length = 4 := by
  cases x
  · exact length_beBytes _ _
  · exact length_intField _ _

@[simp] theorem length_marginField (x : Option Int) : (marginField x).length = 2 := by
  cases x
  · exact length_beBytes _ _
  · exact length_intField _ _

@[simp] theorem length_slotField (x : Option SpliceRef) : (slotField x).length = 3 := by
  cases x
  · rfl
  · simp only [slotField, List.length_append, length_natField, List.length_cons, List.length_nil]

/-- A parameter of an image has the length of its field. -/
theorem length_imageParam {field : Nat → Int → List Byte} (hf : ∀ size v, (field size v).length = size) (size index : Nat)
    (v : Option Int) : (imageParam field size index v).length = size := by
  cases v
  · exact length_beBytes _ _
  · exact hf _ _

@[simp] theorem length_imageParams (p : Params (Option Int)) : (imageParams p).length = 14 := by
  simp only [imageParams, List.length_append, length_imageParam length_unsignedField, length_imageParam length_intField]

/-- Items of one size, one after another. -/
theorem length_flatMap {α : Type} {f : α → List Byte} {size : Nat} (hf : ∀ x, (f x).length = size) (l : List α) :
    (l.flatMap f).length = l.length * size := by
  induction l with
  | nil => simp
  | cons a t ih => simp only [List.flatMap_cons, List.length_append, hf, ih, List.length_cons]; ring

/-- Slots that hold items of one size. -/
theorem length_slots {α : Type} {n size : Nat} {f : α → List Byte} (hf : ∀ x, (f x).length = size) {l : List α}
    (h : l.length ≤ n) : (slots n size f l).length = n * size := by
  rw [slots_eq h, List.length_append, length_flatMap hf, List.length_replicate, ← Nat.add_mul]
  congr 1
  omega

end Sys2Proof.Machine
end

