-- ==== Sys2Proof/Laws/Quiet.lean ====
section
/-! SUPPORT. The operations that the folder discipline does not see: they keep the splice numbers of the table and the view of
Laws/Discipline.lean. -/

namespace Sys2Proof.Machine

/-- The view and the splice numbers are as before. -/
structure Quiet (s t : State) : Prop where
  keys : t.splices.map Prod.fst = s.splices.map Prod.fst
  view : SameView s t

theorem Quiet.refl (s : State) : Quiet s s := ⟨rfl, SameView.refl s⟩

theorem Quiet.trans {s t u : State} (h : Quiet s t) (k : Quiet t u) : Quiet s u :=
  ⟨k.keys.trans h.keys, h.view.trans k.view⟩

theorem Quiet.viewOf {s t : State} (h : Quiet s t) (n : Nat) : t.viewOf n = s.viewOf n := h.view.splices n

/-- A quiet change keeps the discipline. -/
theorem Quiet.disciplined {s t : State} (h : Quiet s t) (k : s.Disciplined) : t.Disciplined := by
  rw [disciplined_iff_ordered] at k ⊢
  exact ⟨by rw [State.KeysOnce, h.keys]; exact k.1, k.2.of_sameView h.view⟩

/-! ### The updates -/

theorem quiet_of_eq {s t : State} (h1 : t.splices = s.splices) (h2 : ∀ st, t.work st = s.work st)
    (h3 : ∀ f, t.folder f = s.folder f) : Quiet s t := ⟨by rw [h1], sameView_of_eq h1 h2 h3⟩

theorem quiet_modReel (s : State) (h : Nat) (f : Reel → Reel) : Quiet s (s.modReel h f) :=
  quiet_of_eq rfl (fun _ => by simp) (fun _ => rfl)

theorem quiet_modLink (s : State) (f : Link → Link) : Quiet s (s.modLink f) :=
  quiet_of_eq rfl (fun _ => rfl) (fun _ => rfl)

theorem quiet_modGauge (s : State) (i : StandIx) (f : Gauge → Gauge) : Quiet s (s.modGauge i f) :=
  quiet_of_eq rfl (fun _ => by simp) (fun _ => rfl)

theorem quiet_modField (s : State) (i : StandIx) (f : Field → Field) : Quiet s (s.modField i f) :=
  quiet_of_eq rfl (fun _ => by simp) (fun _ => rfl)

theorem quiet_modQueue (s : State) (i : StandIx) (f : Queue → Queue) : Quiet s (s.modQueue i f) :=
  quiet_of_eq rfl (fun _ => by simp) (fun _ => rfl)

theorem quiet_modStand (s : State) (i : StandIx) (f : Stand → Stand)
    (h : (f (s.stand i)).seq.work = (s.stand i).seq.work) : Quiet s (s.modStand i f) := by
  refine quiet_of_eq rfl (fun j => ?_) (fun _ => rfl)
  by_cases e : j = i
  · subst e; simp [State.work, h]
  · simp [State.work, e]

theorem quiet_modSeq (s : State) (i : StandIx) (f : Sequencer → Sequencer)
    (h : (f (s.stand i).seq).work = (s.stand i).seq.work) : Quiet s (s.modSeq i f) :=
  quiet_modStand s i _ h

theorem quiet_modWork (s : State) (i : StandIx) (f : Working → Working)
    (h1 : (f (s.work i)).active = (s.work i).active) (h2 : (f (s.work i)).markPlaced = (s.work i).markPlaced) :
    Quiet s (s.modWork i f) := by
  refine ⟨rfl, fun _ => rfl, fun j => ?_, fun j => ?_, fun _ => rfl, fun _ => List.Perm.refl _, fun _ => rfl⟩
  · by_cases e : j = i
    · subst e; simpa using h1
    · simp [e]
  · by_cases e : j = i
    · subst e; simpa using h2
    · simp [e]

theorem viewOf_modSplice (s : State) (n m : Nat) (f : Splice → Splice) :
    (s.modSplice n f).viewOf m = if m = n then (s.splice? n).map (fun sp => (f sp).view) else s.viewOf m := by
  by_cases h : m = n
  · subst h; simp [State.viewOf, Function.comp_def]
  · simp [State.viewOf, splice?_modSplice_ne, h]

theorem quiet_modSplice (s : State) (n : Nat) (f : Splice → Splice) (h : ∀ sp, (f sp).view = sp.view) :
    Quiet s (s.modSplice n f) := by
  refine ⟨by simp [keys_update], fun m => ?_, fun _ => by simp, fun _ => by simp, fun _ => rfl, fun _ => List.Perm.refl _, fun _ => rfl⟩
  rw [viewOf_modSplice]
  by_cases e : m = n
  · subst e; simp only [if_true, h]; rfl
  · simp [e]

theorem quiet_modFolder (s : State) (i : FolderIx) (g : Folder → Folder) (h1 : (g (s.folder i)).slot = (s.folder i).slot)
    (h2 : (g (s.folder i)).waiters.Perm (s.folder i).waiters) (h3 : (g (s.folder i)).track = (s.folder i).track) :
    Quiet s (s.modFolder i g) := by
  refine ⟨rfl, fun _ => rfl, fun _ => by simp, fun _ => by simp, fun f => ?_, fun f => ?_, fun f => ?_⟩ <;>
  · by_cases e : f = i
    · subst e; simpa
    · simp [e]

/-! ### The operations -/

theorem quiet_raise (st : StandIx) (c : Condition) (s : State) (r : Option Nat × Option Nat) : Quiet s (raise st c s r) :=
  quiet_modQueue s st _

theorem quiet_evalReelCall (st : StandIx) (s : State) : Quiet s (evalReelCall st s) := by
  unfold evalReelCall; exact quiet_modQueue s st _

theorem quiet_evalRisk (st : StandIx) (s : State) : Quiet s (evalRisk st s) :=
  quiet_of_eq (by simp) (fun _ => by simp) (fun _ => by simp)

theorem quiet_chainOccasion (st : StandIx) (s : State) : Quiet s (chainOccasion st s) := quiet_modSeq s st _ rfl

theorem quiet_handOn (st : StandIx) (b s : State) : Quiet s (handOn st b s) :=
  quiet_of_eq (by simp) (fun _ => by simp) (fun _ => by simp)

theorem quiet_grantOccasion (f : FolderIx) (s : State) : Quiet s (grantOccasion f s) :=
  quiet_modFolder s f _ rfl (List.Perm.refl _) rfl

theorem quiet_giveBack (st : StandIx) (u : Bool) (h : Nat) (s : State) : Quiet s (giveBack st u h s) := quiet_modReel s h _

theorem quiet_verifyStand (st : StandIx) (s : State) : Quiet s (verifyStand st s) :=
  quiet_of_eq rfl (fun _ => rfl) (fun _ => rfl)

theorem quiet_setCause (n : Nat) (c : EndCause) (s : State) : Quiet s (setCause n c s) :=
  quiet_modSplice s n _ (fun _ => rfl)

theorem quiet_noteSplice (n : Nat) (x : SpliceNote) (s : State) : Quiet s (noteSplice n x s) :=
  quiet_modSplice s n _ (fun _ => rfl)

theorem quiet_copyResiduals (n out : Nat) (s : State) : Quiet s (copyResiduals n out s) := by
  unfold copyResiduals
  split
  · exact quiet_modSplice s n _ (fun _ => rfl)
  · exact Quiet.refl s

theorem quiet_energisePaster (st : StandIx) (s : State) : Quiet s (energisePaster st s) := by
  unfold energisePaster; exact quiet_modField s st _
theorem quiet_energiseBrake (st : StandIx) (s : State) : Quiet s (energiseBrake st s) := by
  unfold energiseBrake; exact quiet_modField s st _
theorem quiet_energiseKnife (st : StandIx) (s : State) : Quiet s (energiseKnife st s) := by
  unfold energiseKnife; exact quiet_modField s st _
theorem quiet_releasePaster (st : StandIx) (s : State) : Quiet s (releasePaster st s) := quiet_modField s st _
theorem quiet_releaseBrake (st : StandIx) (s : State) : Quiet s (releaseBrake st s) := quiet_modField s st _

theorem quiet_endKnifePulse (st : StandIx) (s : State) : Quiet s (endKnifePulse st s) := by
  unfold endKnifePulse
  dsimp only
  split
  · exact quiet_modField s st _
  · exact (quiet_modField s st _).trans (quiet_modWork _ st _ rfl rfl)

theorem quiet_releaseKnife (st : StandIx) (s : State) : Quiet s (releaseKnife st s) := by
  unfold releaseKnife
  split
  · exact quiet_endKnifePulse st s
  · exact Quiet.refl s

theorem quiet_startBraking (st : StandIx) (a : Option Arm) (s : State) : Quiet s (startBraking st a s) :=
  (quiet_energiseBrake st s).trans (quiet_modWork _ st _ rfl rfl)

theorem quiet_keepBrake (st : StandIx) (s : State) : Quiet s (keepBrake st s) :=
  (quiet_modField s st _).trans (quiet_modWork _ st _ rfl rfl)

theorem quiet_gateFoundOpen (st : StandIx) (s : State) : Quiet s (gateFoundOpen st s) := by
  unfold gateFoundOpen
  split
  · exact Quiet.refl s
  · exact (quiet_raise st _ s _).trans (quiet_modWork _ st _ rfl rfl)

theorem quiet_updateIndexReq (st : StandIx) (s : State) : Quiet s (updateIndexReq st s) := by
  unfold updateIndexReq
  dsimp only
  split
  · split
    · exact Quiet.refl s
    · exact quiet_modWork s st _ rfl rfl
  · exact Quiet.refl s

theorem quiet_resolveSplice (st : StandIx) (n : Nat) (sp : Splice) (s : State) : Quiet s (resolveSplice st n sp s) := by
  unfold resolveSplice
  dsimp only
  refine Quiet.trans ?_ (quiet_modStand _ st _ rfl)
  refine Quiet.trans (quiet_modSplice s n (fun x => { x with params := (s.resolved sp).map some }) (fun _ => rfl)) ?_
  split <;> split
  · exact (quiet_noteSplice _ _ _).trans (quiet_noteSplice _ _ _)
  · exact quiet_noteSplice _ _ _
  · exact quiet_noteSplice _ _ _
  · exact Quiet.refl _

theorem quiet_setMatched (st : StandIx) (sp : Splice) (x : Bool) (s : State) : Quiet s (setMatched st sp x s) := by
  unfold setMatched
  dsimp only
  have h := quiet_modWork s st (fun w => { w with matched := x }) rfl rfl
  split
  · rename_i f _
    refine h.trans (quiet_modFolder _ f _ rfl ?_ rfl)
    simp only [Folder.waiters, List.map_map]
    refine List.Perm.of_eq (List.map_congr_left (fun e _ => ?_))
    simp only [Function.comp]
    split <;> rfl
  · exact h

/-- Putting an entry in its place permutes the list. -/
theorem perm_insertWait (e : WaitEntry) (l : List WaitEntry) : (insertWait e l).Perm (e :: l) := by
  induction l with
  | nil => exact List.Perm.refl _
  | cons x t ih =>
    simp only [insertWait]
    split
    · exact List.Perm.refl _
    · exact (List.Perm.cons x ih).trans (List.Perm.swap e x t)

theorem quiet_deliver (r : Instr) (a : Answer) (s : State) : Quiet s (deliver r a s) :=
  quiet_of_eq rfl (fun _ => rfl) (fun _ => rfl)

theorem quiet_moveMarks (st : StandIx) (d : Direction) (s : State) : Quiet s (moveMarks st d s) := by
  refine ⟨by simp [moveMarks, Table.mapAll, Function.comp_def], fun n => ?_, fun _ => rfl, fun _ => rfl, fun _ => rfl,
    fun _ => List.Perm.refl _, fun _ => rfl⟩
  simp only [State.viewOf, State.splice?, moveMarks, find_mapAll, Option.map_map]
  refine congrArg (fun g => Option.map g _) (funext fun sp => ?_)
  simp only [Function.comp]
  split
  · cases d <;> simp only [Mark.move, Splice.view]
    split <;> rfl
  · rfl

end Sys2Proof.Machine
end

