-- ==== Sys2Proof/Laws/Orderly.lean ====
section
/-! SUPPORT. The folder discipline (`State.Disciplined`) under each shared operation that changes what it speaks of: states of
splices, slots, wait lists, marks, arming and ends. -/

namespace Sys2Proof.Machine

/-! ### The view under the small operations -/

theorem activeSplice_eq_some {s : State} {st : StandIx} {n : Nat} {sp : Splice} :
    s.activeSplice st = some (n, sp) ↔ (s.work st).active = some n ∧ s.splice? n = some sp := by
  unfold State.activeSplice
  cases h : (s.work st).active with
  | none => simp
  | some m =>
    simp only [Option.map_eq_some_iff, Option.some.injEq, Prod.mk.injEq]
    constructor
    · rintro ⟨x, hx, rfl, rfl⟩; exact ⟨rfl, hx⟩
    · rintro ⟨rfl, hx⟩; exact ⟨sp, hx, rfl, rfl⟩

theorem State.Disciplined.ordered {s : State} (h : s.Disciplined) : Ordered s := ((disciplined_iff_ordered s).1 h).2

theorem State.Disciplined.of_ordered {s t : State} (h : s.Disciplined)
    (hk : t.splices.map Prod.fst = s.splices.map Prod.fst) (ho : Ordered t) : t.Disciplined :=
  (disciplined_iff_ordered t).2 ⟨by rw [State.KeysOnce, hk]; exact h.keys, ho⟩

theorem viewOf_setSpliceState (n : Nat) (x : SpliceState) (s : State) (m : Nat) :
    (setSpliceState n x s).viewOf m =
      if m = n then (s.viewOf n).map (fun v => { v with state := x }) else s.viewOf m := by
  unfold setSpliceState
  rw [viewOf_modSplice]
  by_cases e : m = n
  · subst e; simp [State.viewOf, Splice.view, Function.comp_def]
  · simp [e]

theorem becomes_setSpliceState {s : State} {n : Nat} {v : SpliceView} (h : s.viewOf n = some v) (x : SpliceState) :
    Becomes s (setSpliceState n x s) n { v with state := x } := by
  intro m
  rw [viewOf_setSpliceState, h]; rfl

@[simp] theorem waiters_releaseSlot (f g : FolderIx) (s : State) :
    ((releaseSlot f s).folder g).waiters = (s.folder g).waiters := by
  rw [folder_releaseSlot]; split <;> rfl

@[simp] theorem track_releaseSlot (f g : FolderIx) (s : State) :
    ((releaseSlot f s).folder g).track = (s.folder g).track := by
  rw [folder_releaseSlot]; split <;> rfl

theorem slot_releaseSlot (f g : FolderIx) (s : State) :
    ((releaseSlot f s).folder g).slot = if g = f then none else (s.folder g).slot := by
  rw [folder_releaseSlot]; split <;> rfl

@[simp] theorem slot_leaveWaits (f g : FolderIx) (st : StandIx) (s : State) :
    ((leaveWaits f st s).folder g).slot = (s.folder g).slot := by
  rw [folder_leaveWaits]; split <;> rfl

@[simp] theorem track_leaveWaits (f g : FolderIx) (st : StandIx) (s : State) :
    ((leaveWaits f st s).folder g).track = (s.folder g).track := by
  rw [folder_leaveWaits]; split <;> rfl

theorem waiters_leaveWaits (f g : FolderIx) (st : StandIx) (s : State) :
    ((leaveWaits f st s).folder g).waiters =
      if g = f then (s.folder g).waiters.filter (fun p => !decide (p.1 = st)) else (s.folder g).waiters := by
  rw [folder_leaveWaits]
  split
  · simp [Folder.waiters, List.filter_map, Function.comp_def]
  · rfl

@[simp] theorem viewOf_releaseSlot (f : FolderIx) (s : State) (n : Nat) : (releaseSlot f s).viewOf n = s.viewOf n := by
  simp [State.viewOf]

@[simp] theorem viewOf_leaveWaits (f : FolderIx) (st : StandIx) (s : State) (n : Nat) :
    (leaveWaits f st s).viewOf n = s.viewOf n := by
  simp [State.viewOf]

theorem keys_setSpliceState (n : Nat) (x : SpliceState) (s : State) :
    (setSpliceState n x s).splices.map Prod.fst = s.splices.map Prod.fst := by
  simp [setSpliceState, keys_update]

/-- A quiet change stays quiet under a change of a splice's state. -/
theorem Quiet.setSpliceState {s t : State} (h : Quiet s t) (n : Nat) (x : SpliceState) :
    Quiet (setSpliceState n x s) (setSpliceState n x t) := by
  refine ⟨by simp only [keys_setSpliceState, h.keys], fun m => ?_, fun i => ?_, fun i => ?_, fun f => ?_, fun f => ?_, fun f => ?_⟩
  · simp only [viewOf_setSpliceState, h.viewOf]
  · simpa using h.view.active i
  · simpa using h.view.placed i
  · simpa using h.view.slot f
  · simpa using h.view.waits f
  · simpa using h.view.track f

/-- A quiet change stays quiet under a departure from a wait list. -/
theorem Quiet.leaveWaits {s t : State} (h : Quiet s t) (f : FolderIx) (st : StandIx) :
    Quiet (leaveWaits f st s) (leaveWaits f st t) := by
  refine ⟨by simpa using h.keys, fun m => ?_, fun i => ?_, fun i => ?_, fun g => ?_, fun g => ?_, fun g => ?_⟩
  · simpa using h.viewOf m
  · simpa using h.view.active i
  · simpa using h.view.placed i
  · simpa using h.view.slot g
  · simp only [waiters_leaveWaits]
    split
    · exact (h.view.waits g).filter _
    · exact h.view.waits g
  · simpa using h.view.track g

/-! ### Changes of state

`s.Holds st n v` says that splice n is the active splice of stand st, and what the view has of it. -/

/-- Splice n, of view v, is the active splice of stand st. -/
structure State.Holds (s : State) (st : StandIx) (n : Nat) (v : SpliceView) : Prop where
  active : (s.work st).active = some n
  view : s.viewOf n = some v

theorem State.Holds.quiet {s t : State} {st : StandIx} {n : Nat} {v : SpliceView} (h : s.Holds st n v) (q : Quiet s t) :
    t.Holds st n v := ⟨by rw [q.view.active]; exact h.active, by rw [q.viewOf]; exact h.view⟩

theorem State.Holds.of_active {s : State} {st : StandIx} {n : Nat} {sp : Splice} (h : s.activeSplice st = some (n, sp)) :
    s.Holds st n sp.view := by
  obtain ⟨h1, h2⟩ := activeSplice_eq_some.1 h
  exact ⟨h1, viewOf_of_splice? h2⟩

theorem State.Holds.stand {s : State} {st : StandIx} {n : Nat} {v : SpliceView} (h : s.Holds st n v) (k : s.Disciplined) :
    v.stand = st ∧ isEnded v.state = false := by
  obtain ⟨u, h1, h2, h3⟩ := k.ordered.active st n h.active
  rw [h.view] at h1; cases h1
  exact ⟨h2, h3⟩

/-- A splice that is neither on a wait list nor leaves or takes the slot changes state. -/
theorem disciplined_setSpliceState {s : State} (h : s.Disciplined) {n : Nat} {v : SpliceView} (hv : s.viewOf n = some v)
    (x : SpliceState) (he : isEnded x = false) (hh : holdsSlot x = holdsSlot v.state) (hw : v.state ≠ .waiting)
    (hb : beforePasting x = true → beforePasting v.state = true)
    (hp : x = .pasting → beforePasting v.state = true ∨ v.state = .pasting) : (setSpliceState n x s).Disciplined := by
  refine h.of_ordered (keys_setSpliceState n x s) ?_
  exact h.ordered.change hv (becomes_setSpliceState hv x) rfl rfl he (Or.inl rfl) hh hw hb hp
    (fun _ => by simp) (fun _ => by simp) (fun _ => by simp) (fun _ => by simp) (fun _ => by simp)

/-- The slot's holder leaves it. -/
theorem disciplined_exit {s : State} (h : s.Disciplined) {n : Nat} {v : SpliceView} {f : FolderIx}
    (hv : s.viewOf n = some v) (hh : holdsSlot v.state = true) (hf : v.folder = some f) (x : SpliceState)
    (he : isEnded x = false) (hx : holdsSlot x = false) (hb : beforePasting x = false) :
    (setSpliceState n x (releaseSlot f s)).Disciplined := by
  refine h.of_ordered (by rw [keys_setSpliceState]; simp) ?_
  refine h.ordered.exit hv hh hf (w := { v with state := x }) ?_ rfl rfl rfl he hx hb
    (fun _ => by simp) (fun _ => by simp) (fun g => by simp [slot_releaseSlot]) (fun _ => by simp) (fun _ => by simp)
  intro m
  rw [viewOf_setSpliceState]; simp [hv]

/-- A waiter leaves its folder's list. -/
theorem disciplined_leave {s : State} (h : s.Disciplined) {st : StandIx} {n : Nat} {v : SpliceView} {f : FolderIx}
    (hv : s.viewOf n = some v) (hs : v.stand = st) (hw : v.state = .waiting) (hf : v.folder = some f)
    (x : SpliceState) (he : isEnded x = false) (hx : holdsSlot x = false) (hb : beforePasting x = false) :
    (setSpliceState n x (leaveWaits f st s)).Disciplined := by
  refine h.of_ordered (by rw [keys_setSpliceState]; simp) ?_
  refine h.ordered.leave hv (by simp [hw, holdsSlot]) (w := { v with state := x }) ?_ rfl rfl rfl he hx hb
    (fun _ => by simp) (fun _ => by simp) (fun g => by simp) (fun g => ?_) (fun _ => by simp)
  · intro m
    rw [viewOf_setSpliceState]; simp [hv]
  · rw [folder_setSpliceState, waiters_leaveWaits]
    have off : ∀ p ∈ (s.folder g).waiters, p.2 = n → g = f ∧ p.1 = st := by
      intro p hp e
      obtain ⟨u, h1, h2, h3, _⟩ := h.ordered.waiter g p hp
      rw [e, hv] at h1; cases h1
      exact ⟨Option.some.inj (h3.symm.trans hf), h2.symm.trans hs⟩
    by_cases e : g = f
    · rw [if_pos e]
      refine ⟨List.filter_sublist, fun p hp k => ?_⟩
      obtain ⟨h1, h2⟩ := List.mem_filter.1 hp
      have := (off p h1 k).2
      simp [this] at h2
    · rw [if_neg e]
      exact ⟨List.Sublist.refl _, fun p hp k => e (off p hp k).1⟩

/-- A splice leaves the arbiter, if it is there, and spins down (R85, R87). -/
theorem disciplined_leaveArbiter {s : State} (h : s.Disciplined) {st : StandIx} {n : Nat} {v : SpliceView} {sp : Splice}
    (hv : s.Holds st n v) (hst : v.state = sp.state) (hfo : v.folder = sp.folder) :
    (setSpliceState n .spindown (leaveArbiter st sp s)).Disciplined := by
  have hs := (hv.stand h).1
  unfold leaveArbiter
  cases hf : sp.folder with
  | some f =>
    dsimp only
    split
    · rename_i hw
      exact disciplined_leave h hv.view hs (hst.trans hw) (hfo.trans hf) .spindown rfl rfl rfl
    · rename_i hw
      split
      · rename_i hh
        exact disciplined_exit h hv.view (by rw [hst]; exact hh) (hfo.trans hf) .spindown rfl rfl rfl
      · rename_i hh
        refine disciplined_setSpliceState h hv.view .spindown rfl ?_ (by rw [hst]; exact hw)
          (fun k => absurd k (by decide)) (fun k => absurd k (by decide))
        rw [hst, Bool.not_eq_true] at *
        rw [hh]; rfl
  | none =>
    dsimp only
    have hno : holdsSlot v.state = false := by
      cases hh : holdsSlot v.state
      · rfl
      · obtain ⟨f, h1, _⟩ := h.ordered.holder n v hv.view hh
        rw [hfo, hf] at h1; exact absurd h1 (by simp)
    refine h.of_ordered (keys_setSpliceState n _ s) ?_
    refine h.ordered.leave hv.view hno (becomes_setSpliceState hv.view .spindown) rfl rfl rfl rfl rfl rfl
      (fun _ => by simp) (fun _ => by simp) (fun g => by simp) (fun g => ?_) (fun _ => by simp)
    rw [folder_setSpliceState]
    refine ⟨List.Sublist.refl _, fun p hp e => ?_⟩
    obtain ⟨u, h1, _, h3, _⟩ := h.ordered.waiter g p hp
    rw [e, hv.view] at h1; cases h1
    rw [hfo, hf] at h3; exact absurd h3 (by simp)

/-- What follows a change of state in `enterSpindown` is not seen. -/
theorem disciplined_enterSpindown {s : State} {st : StandIx} {n : Nat} {o : SpinOutcome}
    (h : (setSpliceState n .spindown s).Disciplined) : (enterSpindown st n o s).Disciplined := by
  unfold enterSpindown
  exact (quiet_modWork _ st _ rfl rfl).disciplined h

/-- The active splice ends, off the slot and the wait list. -/
theorem disciplined_endSplice {s : State} (h : s.Disciplined) {st : StandIx} {n : Nat} {v : SpliceView} (hv : s.Holds st n v)
    (hh : holdsSlot v.state = false) (hw : v.state ≠ .waiting) (x : SpliceState) (hx : isEnded x = true) (c : Condition) :
    (endSplice st n x c s).Disciplined := by
  have hr := (quiet_raise st c s (none, none)).disciplined h
  have hv' := hv.quiet (quiet_raise st c s (none, none))
  unfold endSplice
  refine hr.of_ordered (by simp [endRecord, keys_update]) ?_
  refine hr.ordered.finish hv'.active hv'.view hh (w := { v with state := x }) ?_ rfl rfl rfl hx (fun i => ?_) (fun i => ?_)
    (fun g => by simp [endRecord]) (fun g => ?_) (fun g => by simp [endRecord])
  · intro m
    show (endRecord n x _).viewOf m = _
    unfold endRecord
    rw [viewOf_modSplice]
    by_cases e : m = n
    · subst e
      rw [if_pos rfl, if_pos rfl]
      obtain ⟨sp, h1, rfl⟩ := viewOf_eq_some.1 hv'.view
      rw [h1]; rfl
    · rw [if_neg e, if_neg e]
  · by_cases e : i = st
    · subst e; simp [Working.afterEnd]; split <;> rfl
    · simp [e]
  · by_cases e : i = st
    · subst e; simp [Working.afterEnd]; split <;> rfl
    · simp [e]
  · have : (((endRecord n x (raise st c s)).modWork st Working.afterEnd).folder g).waiters = ((raise st c s).folder g).waiters := by
      simp [endRecord]
    rw [this]
    refine ⟨List.Sublist.refl _, fun p hp e => ?_⟩
    obtain ⟨u, h1, _, _, h4, _⟩ := hr.ordered.waiter g p hp
    rw [e, hv'.view] at h1; cases h1
    exact hw h4

/-- The retirement test (R72). -/
theorem disciplined_retire {s : State} (h : s.Disciplined) (n : Nat) : (retire n s).Disciplined := by
  cases hs : s.splice? n with
  | none => simpa [retire, hs] using h
  | some sp =>
    by_cases hc : isEnded sp.state = true ∧ sp.endAck = true ∧ sp.mark.state ≠ .onTrack
    · have ht : retire n s = { s with splices := Table.erase n s.splices } := by simp [retire, hs, hc]
      rw [ht, disciplined_iff_ordered]
      refine ⟨?_, ?_⟩
      · show (List.map Prod.fst (Table.erase n s.splices)).Nodup
        exact h.keys.sublist (List.Sublist.map _ List.filter_sublist)
      · refine h.ordered.removed (viewOf_of_splice? hs) hc.1 hc.2.2 (fun m => ?_) (fun _ => rfl) (fun _ => rfl)
        simp only [State.viewOf, State.splice?, find_erase]
        split <;> simp
    · have ht : retire n s = s := by simp only [retire, hs]; rw [if_neg hc]
      rwa [ht]

theorem disciplined_afterEnd {s : State} (h : s.Disciplined) (st : StandIx) (n : Nat) : (afterEnd st n s).Disciplined :=
  ((quiet_evalRisk st _).trans (quiet_evalReelCall st _)).disciplined (disciplined_retire h n)

/-! ### Giving up, spin-down, commit -/

theorem disciplined_immediateAbort {s : State} (h : s.Disciplined) {st : StandIx} {n : Nat} {v : SpliceView} {sp : Splice}
    (hv : s.Holds st n v) (ha : v.state = .armed) (cause : EndCause) : (immediateAbort st n sp cause s).Disciplined := by
  have q := quiet_setCause n cause s
  have h1 := disciplined_endSplice (q.disciplined h) (hv.quiet q) (by rw [ha]; rfl) (by rw [ha]; decide) .aborted rfl .spliceVoid
  exact (quiet_evalRisk st _).disciplined (disciplined_retire ((quiet_giveBack st false sp.incoming _).disciplined h1) n)

theorem disciplined_abortToSpindown {s : State} (h : s.Disciplined) {st : StandIx} {n : Nat} {v : SpliceView} {sp : Splice}
    (hv : s.Holds st n v) (hst : v.state = sp.state) (hfo : v.folder = sp.folder) (cause : EndCause) :
    (abortToSpindown st n sp cause s).Disciplined := by
  have q := (quiet_setCause n cause s).trans (quiet_giveBack st false sp.incoming _)
  exact disciplined_enterSpindown (disciplined_leaveArbiter (q.disciplined h) (hv.quiet q) hst hfo)

theorem disciplined_giveUp {s : State} (h : s.Disciplined) {st : StandIx} {n : Nat} {v : SpliceView} {sp : Splice}
    (hv : s.Holds st n v) (hst : v.state = sp.state) (hfo : v.folder = sp.folder) (cause : EndCause) :
    (giveUp st n sp cause s).Disciplined := by
  unfold giveUp
  split
  · rename_i e; exact disciplined_immediateAbort h hv (hst.trans e) cause
  all_goals first
    | exact disciplined_abortToSpindown h hv hst hfo cause
    | exact h

theorem disciplined_endSpindown {s : State} (h : s.Disciplined) {st : StandIx} {n : Nat} {v : SpliceView}
    (hv : s.Holds st n v) (hs : v.state = .spindown) :
    (endSpindown st n s).Disciplined := by
  have q := quiet_modWork s st (fun w => { w with driveEn := false, demand := 0, quietTimer := none, stopTimer := none }) rfl rfl
  exact disciplined_afterEnd (disciplined_endSplice (q.disciplined h) (hv.quiet q) (by rw [hs]; rfl) (by rw [hs]; decide) _
    (by cases (s.work st).outcome.getD .aborted <;> rfl) _) st n

/-! ### Commit and triggers -/

theorem disciplined_failCommit {s : State} (h : s.Disciplined) {st : StandIx} {n : Nat} {v : SpliceView} {sp : Splice}
    (hv : s.Holds st n v) (ha : v.state = .armed) : (failCommit st n sp s).Disciplined := by
  have q := (quiet_setCause n .paramConflict s).trans (quiet_raise st .paramConflict _ (none, none))
  have h1 := disciplined_endSplice (q.disciplined h) (hv.quiet q) (by rw [ha]; rfl) (by rw [ha]; decide) .aborted rfl .spliceVoid
  exact disciplined_afterEnd (((quiet_giveBack st false sp.incoming _).trans (quiet_handOn st s _)).disciplined h1) st n

theorem disciplined_succeedCommit {s : State} (h : s.Disciplined) {st : StandIx} {n : Nat} {v : SpliceView} {sp : Splice}
    (hv : s.Holds st n v) (ha : v.state = .armed) (off : Int) : (succeedCommit st n sp off s).Disciplined := by
  have q := quiet_modReel s sp.incoming (fun r => { r with state := .committed })
  have hq := q.disciplined h
  have hvq := hv.quiet q
  have hm : v.mark = .none := h.ordered.unmarked n v hv.view (by rw [ha]; rfl)
  unfold succeedCommit
  refine ((quiet_modWork _ st _ rfl rfl).trans ((quiet_handOn st s _).trans (quiet_evalRisk st _))).disciplined ?_
  refine hq.of_ordered (by simp [keys_update]) ?_
  refine hq.ordered.change hvq.view (w := { v with folder := some (s.stand st).plan.folder, state := .accel }) ?_ rfl rfl rfl
    (Or.inr ⟨hm, by rw [ha]; rfl⟩) (by rw [ha]; rfl) (by rw [ha]; decide) (fun _ => by rw [ha]; rfl) (fun k => absurd k (by simp))
    (fun _ => by simp) (fun _ => by simp) (fun _ => rfl) (fun _ => List.Perm.refl _) (fun _ => rfl)
  intro m
  rw [viewOf_modSplice]
  by_cases e : m = n
  · subst e
    rw [if_pos rfl, if_pos rfl]
    obtain ⟨x, h1, rfl⟩ := viewOf_eq_some.1 hvq.view
    rw [h1]; rfl
  · rw [if_neg e, if_neg e]

theorem disciplined_commit {s : State} (h : s.Disciplined) {st : StandIx} {n : Nat} {v : SpliceView} {sp : Splice}
    (hv : s.Holds st n v) (ha : v.state = .armed) : (commit st n sp s).Disciplined := by
  have q := quiet_resolveSplice st n sp s
  unfold commit
  dsimp only
  split
  · exact disciplined_succeedCommit (q.disciplined h) (hv.quiet q) ha _
  · exact disciplined_failCommit (q.disciplined h) (hv.quiet q) ha

theorem disciplined_judgeStart {s : State} (h : s.Disciplined) (p : Bool) (st : StandIx) : (judgeStart p st s).Disciplined := by
  unfold judgeStart
  split
  · rename_i n sp hs
    split
    · rename_i hc
      exact disciplined_commit h (State.Holds.of_active hs) hc.1
    · exact h
  · exact h

theorem disciplined_enterWaiting {s : State} (h : s.Disciplined) {st : StandIx} {n : Nat} {v : SpliceView} {sp : Splice}
    (hv : s.Holds st n v) (hst : v.state = .matched) (hfo : v.folder = sp.folder) : (enterWaiting st n sp s).Disciplined := by
  unfold enterWaiting
  split
  · rename_i f hf
    dsimp only
    refine (quiet_grantOccasion f _).disciplined ?_
    refine h.of_ordered (by simp [keys_setSpliceState]) ?_
    refine h.ordered.join hv.active hv.view hst (hfo.trans hf) (w := { v with state := .waiting }) ?_ rfl (fun i => ?_) (fun i => ?_)
      (fun g => ?_) (fun g => ?_) (fun g => ?_)
    · exact becomes_setSpliceState hv.view .waiting
    · by_cases e : i = st
      · subst e; simp
      · simp [e]
    · by_cases e : i = st
      · subst e; simp
      · simp [e]
    · by_cases e : g = f
      · subst e; simp
      · simp [e]
    · by_cases e : g = f
      · subst e
        simp only [folder_modFolder, if_true, folder_modWork, folder_setSpliceState, Folder.waiters]
        exact (perm_insertWait _ _).map _
      · simp [e]
    · by_cases e : g = f
      · subst e; simp
      · simp [e]
  · exact h

theorem disciplined_judgeWaiting {s : State} (h : s.Disciplined) (st : StandIx) : (judgeWaiting st s).Disciplined := by
  unfold judgeWaiting
  split
  · rename_i n sp hs
    split
    · split
      · rename_i hc
        exact disciplined_enterWaiting h (State.Holds.of_active hs) hc.1 rfl
      · exact h
    · exact h
  · exact h

/-- With every stand at most once on a list, an entry and the rest of the list are the list. -/
theorem perm_cons_filter {l : List WaitEntry} {st : StandIx} {e : WaitEntry} (hn : (l.map WaitEntry.stand).Nodup)
    (hf : l.find? (fun e => decide (e.stand = st)) = some e) :
    (e :: l.filter (fun x => !decide (x.stand = st))).Perm l := by
  induction l with
  | nil => simp at hf
  | cons x t ih =>
    simp only [List.map_cons, List.nodup_cons] at hn
    by_cases c : x.stand = st
    · have : e = x := by simpa [List.find?, c] using hf.symm
      subst this
      have ht : t.filter (fun x => !decide (x.stand = st)) = t := by
        rw [List.filter_eq_self]
        intro y hy
        have : y.stand ≠ st := by
          intro k
          exact hn.1 (by rw [c, ← k]; exact List.mem_map_of_mem hy)
        simp [this]
      simp [c, ht]
    · have h2 : t.find? (fun e => decide (e.stand = st)) = some e := by simpa [List.find?, c] using hf
      have hp := ih hn.2 h2
      have : (x :: t).filter (fun x => !decide (x.stand = st)) = x :: t.filter (fun x => !decide (x.stand = st)) := by
        simp [c]
      rw [this]
      exact (List.Perm.swap x e _).trans (List.Perm.cons x hp)

theorem quiet_refreshMargin {s : State} (h : s.Disciplined) (st : StandIx) : Quiet s (refreshMargin st s) := by
  unfold refreshMargin
  split
  · split
    · rename_i f _
      split
      · rename_i e he
        dsimp only
        split
        · exact Quiet.refl s
        · refine Quiet.trans (quiet_modFolder s f _ rfl ?_ rfl) (quiet_grantOccasion f _)
          have hp := perm_cons_filter (h.waiter f).2 he
          refine ((perm_insertWait _ _).map _).trans ?_
          have := hp.map (fun e => (e.stand, e.splice))
          simpa [Folder.waiters] using this
      · exact Quiet.refl s
    · exact Quiet.refl s
  · exact Quiet.refl s

theorem disciplined_diameterChanged {s : State} (h : s.Disciplined) (st : StandIx) : (diameterChanged st s).Disciplined := by
  have h1 := disciplined_judgeWaiting (disciplined_judgeStart ((quiet_evalReelCall st s).disciplined h) false st) st
  exact ((quiet_refreshMargin h1 st).trans (quiet_evalRisk st _)).disciplined h1

/-! ### Marks -/

/-- What the departures of marks leave: the work of every stand, and of every splice that has not ended all but its mark. -/
structure Kept (s t : State) : Prop where
  work : ∀ st, t.work st = s.work st
  view : ∀ n v, s.viewOf n = some v → isEnded v.state = false → ∃ m, t.viewOf n = some { v with mark := m }

theorem Kept.refl (s : State) : Kept s s := ⟨fun _ => rfl, fun _ v h _ => ⟨v.mark, h⟩⟩

theorem Kept.trans {s t u : State} (h : Kept s t) (k : Kept t u) : Kept s u := by
  refine ⟨fun st => (k.work st).trans (h.work st), fun n v hv he => ?_⟩
  obtain ⟨m, h1⟩ := h.view n v hv he
  obtain ⟨m', h2⟩ := k.view n { v with mark := m } h1 he
  exact ⟨m', h2⟩

theorem Kept.holds {s t : State} (h : Kept s t) {st : StandIx} {n : Nat} {v : SpliceView} (hv : s.Holds st n v)
    (he : isEnded v.state = false) : ∃ m, t.Holds st n { v with mark := m } := by
  obtain ⟨m, h1⟩ := h.view n v hv.view he
  exact ⟨m, by rw [h.work]; exact hv.active, h1⟩

theorem viewOf_markLeaves (final : MarkState) (n m : Nat) (s : State) :
    (markLeaves final n s).viewOf m = if m = n then (s.viewOf n).map (fun v => { v with mark := final }) else s.viewOf m := by
  unfold markLeaves
  split
  · rename_i sp hs
    have hu : ∀ t : State, (unlist n sp t).viewOf m = t.viewOf m := by
      intro t; unfold unlist; split <;> rfl
    rw [hu, viewOf_modSplice]
    by_cases e : m = n
    · rw [if_pos e, if_pos e, hs]; simp [State.viewOf, hs, Splice.view]
    · rw [if_neg e, if_neg e]
  · rename_i hs
    by_cases e : m = n
    · subst e; simp [State.viewOf, hs]
    · rw [if_neg e]

@[simp] theorem work_markLeaves (final : MarkState) (n : Nat) (s : State) (st : StandIx) :
    (markLeaves final n s).work st = s.work st := by
  unfold markLeaves
  split
  · unfold unlist; split <;> simp
  · rfl

theorem keys_markLeaves (final : MarkState) (n : Nat) (s : State) :
    (markLeaves final n s).splices.map Prod.fst = s.splices.map Prod.fst := by
  unfold markLeaves
  split
  · unfold unlist; split <;> simp [keys_update]
  · rfl

theorem kept_markLeaves (final : MarkState) (n : Nat) (s : State) : Kept s (markLeaves final n s) := by
  refine ⟨fun _ => by simp, fun m v hv _ => ?_⟩
  rw [viewOf_markLeaves]
  by_cases e : m = n
  · subst e; rw [if_pos rfl, hv]; exact ⟨final, rfl⟩
  · rw [if_neg e]; exact ⟨v.mark, hv⟩

/-- A mark on a track leaves it. -/
theorem disciplined_markLeaves {s : State} (h : s.Disciplined) {n : Nat} {v : SpliceView} (hv : s.viewOf n = some v)
    (hon : v.mark = .onTrack) {final : MarkState} (hf : final = .ejected ∨ final = .purged) :
    (markLeaves final n s).Disciplined := by
  refine h.of_ordered (keys_markLeaves final n s) ?_
  have hb : Becomes s (markLeaves final n s) n { v with mark := final } := by
    intro m; rw [viewOf_markLeaves, hv]; rfl
  obtain ⟨sp, hs, rfl⟩ := viewOf_eq_some.1 hv
  have ht : markLeaves final n s = unlist n sp (s.modSplice n (fun sp => { sp with mark := { sp.mark with state := final } })) := by
    simp [markLeaves, hs]
  have off : ∀ g r, r ∈ (s.folder g).track → r.splice = n → sp.folder = some g := by
    intro g r hr e
    obtain ⟨u, h1, _, h3, _⟩ := h.ordered.listed g r hr
    rw [e, hv] at h1; cases h1; exact h3
  refine h.ordered.unmark hv hon hb rfl rfl rfl hf (fun _ => by simp) (fun g => ?_) (fun g => ?_) (fun g => ?_)
  · rw [ht]; unfold unlist
    split
    · rename_i f _
      by_cases e : g = f
      · subst e; simp
      · simp [e]
    · simp
  · rw [ht]; unfold unlist
    split
    · rename_i f _
      by_cases e : g = f
      · subst e; simp [Folder.waiters]
      · simp [e]
    · simp
  · rw [ht]; unfold unlist
    split
    · rename_i f hfo
      by_cases e : g = f
      · subst e
        simp only [folder_modFolder, folder_modSplice]
        exact ⟨List.filter_sublist, fun r hr => by simpa using (List.mem_filter.1 hr).2⟩
      · rw [folder_modFolder_ne _ _ e, folder_modSplice]
        refine ⟨List.Sublist.refl _, fun r hr k => ?_⟩
        have := off g r hr k
        rw [hfo] at this
        exact e (Option.some.inj this).symm
    · rename_i hfo
      rw [folder_modSplice]
      refine ⟨List.Sublist.refl _, fun r hr k => ?_⟩
      have := off g r hr k
      rw [hfo] at this
      exact absurd this (by simp)

theorem kept_retire (n : Nat) (s : State) : Kept s (retire n s) := by
  refine ⟨fun _ => by simp, fun m v hv he => ?_⟩
  rcases splice?_retire n m s with e | ⟨rfl, _, sp, h1, h2, _⟩
  · exact ⟨v.mark, by simp only [State.viewOf, e]; exact hv⟩
  · obtain ⟨x, k1, rfl⟩ := viewOf_eq_some.1 hv
    rw [h1] at k1; cases k1
    have he' : isEnded sp.state = false := he
    rw [h2] at he'; exact absurd he' (by simp)

theorem viewOf_retire_ne {n m : Nat} (s : State) (h : m ≠ n) : (retire n s).viewOf m = s.viewOf m := by
  rcases splice?_retire n m s with e | ⟨e, _⟩
  · simp only [State.viewOf, e]
  · exact absurd e h

theorem kept_grantOccasion (f : FolderIx) (s : State) : Kept s (grantOccasion f s) := by
  refine ⟨fun st => by simp [grantOccasion], fun m v hv _ => ⟨v.mark, ?_⟩⟩
  rw [(quiet_grantOccasion f s).viewOf]; exact hv

/-- A mark on a track is ejected. -/
theorem disciplined_eject {s : State} (h : s.Disciplined) (f : FolderIx) {n : Nat} {v : SpliceView} (hv : s.viewOf n = some v)
    (hon : v.mark = .onTrack) : (eject f n s).Disciplined :=
  (quiet_grantOccasion f _).disciplined (disciplined_retire (disciplined_markLeaves h hv hon (Or.inl rfl)) n)

theorem viewOf_eject_ne (f : FolderIx) {n m : Nat} (s : State) (h : m ≠ n) : (eject f n s).viewOf m = s.viewOf m := by
  unfold eject
  rw [(quiet_grantOccasion f _).viewOf, viewOf_retire_ne _ h, viewOf_markLeaves, if_neg h]

/-- Marks on a track, each once, are ejected one after another. -/
theorem disciplined_ejects (f : FolderIx) (l : List SpliceRef) : ∀ {s : State}, s.Disciplined → (l.map SpliceRef.splice).Nodup →
    (∀ r ∈ l, ∃ v, s.viewOf r.splice = some v ∧ v.mark = .onTrack) →
    (l.foldl (fun t r => eject f r.splice t) s).Disciplined := by
  induction l with
  | nil => intro s h _ _; exact h
  | cons r t ih =>
    intro s h hn hm
    simp only [List.map_cons, List.nodup_cons] at hn
    obtain ⟨v, h1, h2⟩ := hm r (List.mem_cons_self)
    refine ih (disciplined_eject h f h1 h2) hn.2 (fun x hx => ?_)
    obtain ⟨u, h3, h4⟩ := hm x (List.mem_cons_of_mem _ hx)
    have ne : x.splice ≠ r.splice := fun e => hn.1 (e ▸ List.mem_map_of_mem hx)
    exact ⟨u, by rw [viewOf_eject_ne f s ne]; exact h3, h4⟩

/-- Marks on tracks, each once, are purged one after another. -/
theorem disciplined_leaves (l : List (Nat × Splice)) : ∀ {s : State}, s.Disciplined → (l.map Prod.fst).Nodup →
    (∀ p ∈ l, ∃ v, s.viewOf p.1 = some v ∧ v.mark = .onTrack) →
    (l.foldl (fun t p => markLeaves .purged p.1 t) s).Disciplined := by
  induction l with
  | nil => intro s h _ _; exact h
  | cons r t ih =>
    intro s h hn hm
    simp only [List.map_cons, List.nodup_cons] at hn
    obtain ⟨v, h1, h2⟩ := hm r (List.mem_cons_self)
    refine ih (disciplined_markLeaves h h1 h2 (Or.inr rfl)) hn.2 (fun x hx => ?_)
    obtain ⟨u, h3, h4⟩ := hm x (List.mem_cons_of_mem _ hx)
    have ne : x.1 ≠ r.1 := fun e => hn.1 (e ▸ List.mem_map_of_mem hx)
    exact ⟨u, by rw [viewOf_markLeaves, if_neg ne]; exact h3, h4⟩

theorem disciplined_retires (l : List (Nat × Splice)) : ∀ {s : State}, s.Disciplined →
    (l.foldl (fun t p => retire p.1 t) s).Disciplined := by
  induction l with
  | nil => intro s h; exact h
  | cons r t ih => intro s h; exact ih (disciplined_retire h r.1)

theorem quiet_occasions (l : List FolderIx) : ∀ s : State, Quiet s (l.foldl (fun t f => grantOccasion f t) s) := by
  induction l with
  | nil => intro s; exact Quiet.refl s
  | cons f t ih => intro s; exact (quiet_grantOccasion f s).trans (ih _)

theorem kept_foldl {α : Type} (g : State → α → State) (hg : ∀ s a, Kept s (g s a)) (l : List α) :
    ∀ s : State, Kept s (l.foldl g s) := by
  induction l with
  | nil => intro s; exact Kept.refl s
  | cons a t ih => intro s; exact (hg s a).trans (ih _)

theorem kept_purge (test : Nat → Splice → Bool) (s : State) : Kept s (purge test s) := by
  unfold purge
  exact ((kept_foldl _ (fun s (p : Nat × Splice) => kept_markLeaves .purged p.1 s) _ s).trans
    (kept_foldl _ (fun s (p : Nat × Splice) => kept_retire p.1 s) _ _)).trans (kept_foldl _ (fun s f => kept_grantOccasion f s) _ _)

/-- A key that occurs once finds its record. -/
theorem find_of_mem {α : Type} {t : List (Nat × α)} (hn : (t.map Prod.fst).Nodup) {p : Nat × α} (hp : p ∈ t) :
    Table.find p.1 t = some p.2 := by
  induction t with
  | nil => simp at hp
  | cons x t ih =>
    simp only [List.map_cons, List.nodup_cons] at hn
    rcases List.mem_cons.1 hp with rfl | hp
    · simp [Table.find]
    · have : x.1 ≠ p.1 := fun e => hn.1 (e ▸ List.mem_map_of_mem hp)
      simp [Table.find, this, ih hn.2 hp]

theorem disciplined_purge {s : State} (h : s.Disciplined) (test : Nat → Splice → Bool) : (purge test s).Disciplined := by
  unfold purge
  refine (quiet_occasions _ _).disciplined (disciplined_retires _ (disciplined_leaves _ h ?_ (fun p hp => ?_)))
  · exact h.keys.sublist (List.Sublist.map _ List.filter_sublist)
  · obtain ⟨h1, h2⟩ := List.mem_filter.1 hp
    refine ⟨p.2.view, viewOf_of_splice? (find_of_mem h.keys h1), ?_⟩
    exact of_decide_eq_true (Bool.and_eq_true _ _ ▸ h2).1

/-! ### The paste, its failure, the web end -/

/-- The slot's holder is found where its splice's folder says. -/
theorem disciplined_exitSlot {s : State} (h : s.Disciplined) {st : StandIx} {n : Nat} {v : SpliceView} {sp : Splice}
    (hv : s.Holds st n v) (hh : holdsSlot v.state = true) (hfo : v.folder = sp.folder) (x : SpliceState)
    (he : isEnded x = false) (hx : holdsSlot x = false) (hb : beforePasting x = false) :
    (setSpliceState n x (match sp.folder with
      | some f => releaseSlot f s
      | none => s)).Disciplined := by
  cases hf : sp.folder with
  | some f => exact disciplined_exit h hv.view hh (hfo.trans hf) x he hx hb
  | none =>
    obtain ⟨f, h1, _⟩ := h.ordered.holder n v hv.view hh
    rw [hfo, hf] at h1; exact absurd h1 (by simp)

theorem disciplined_failPaste {s : State} (h : s.Disciplined) {st : StandIx} {n : Nat} {v : SpliceView} {sp : Splice}
    (hv : s.Holds st n v) (hst : v.state = .pasting) (hfo : v.folder = sp.folder) : (failPaste st n sp s).Disciplined := by
  have he : isEnded v.state = false := (hv.stand h).2
  have q := (quiet_releasePaster st s).trans (quiet_modWork (releasePaster st s) st (fun w => { w with confirmTimer := none }) rfl rfl)
  have key : ∀ t : State, t.Disciplined → (∃ m, t.Holds st n { v with mark := m }) →
      (evalRisk st (handOn st s (enterSpindown st n .failed (match sp.folder with
        | some f => releaseSlot f (noteSplice n .pasteUsed (giveBack st true sp.incoming t))
        | none => noteSplice n .pasteUsed (giveBack st true sp.incoming t))))).Disciplined := by
    intro t ht hm
    obtain ⟨m, hm⟩ := hm
    have q' := (quiet_giveBack st true sp.incoming t).trans (quiet_noteSplice n .pasteUsed _)
    refine ((quiet_handOn st s _).trans (quiet_evalRisk st _)).disciplined (disciplined_enterSpindown ?_)
    exact disciplined_exitSlot (q'.disciplined ht) (hm.quiet q') (by rw [hst]; rfl) hfo .spindown rfl rfl rfl
  have main : ∀ t : State, t = (if (s.work st).markPlaced then purge (fun k _ => decide (k = n))
      ((releasePaster st s).modWork st (fun w => { w with confirmTimer := none }))
      else (releasePaster st s).modWork st (fun w => { w with confirmTimer := none })) →
      t.Disciplined ∧ ∃ m, t.Holds st n { v with mark := m } := by
    intro t ht
    subst ht
    split
    · exact ⟨disciplined_purge (q.disciplined h) _, (kept_purge _ _).holds (hv.quiet q) he⟩
    · exact ⟨q.disciplined h, v.mark, hv.quiet q⟩
  obtain ⟨h1, h2⟩ := main _ rfl
  unfold failPaste
  dsimp only
  generalize (if (s.work st).markPlaced then purge (fun k _ => decide (k = n))
      ((releasePaster st s).modWork st (fun w => { w with confirmTimer := none }))
      else (releasePaster st s).modWork st (fun w => { w with confirmTimer := none })) = t at h1 h2 ⊢
  exact key t h1 h2

theorem disciplined_pasteNotConfirmed {s : State} (h : s.Disciplined) {st : StandIx} {n : Nat} {v : SpliceView} {sp : Splice}
    (hv : s.Holds st n v) (hst : v.state = .pasting) (hfo : v.folder = sp.folder) :
    (pasteNotConfirmed st n sp s).Disciplined := by
  have q := (quiet_setCause n .pasteNotConfirmed s).trans (quiet_raise st .pasteNotConfirmed _ (none, none))
  exact disciplined_failPaste (q.disciplined h) (hv.quiet q) hst hfo

theorem disciplined_notCarried {s : State} (h : s.Disciplined) {st : StandIx} {n : Nat} {v : SpliceView} {sp : Splice}
    (hv : s.Holds st n v) (hst : v.state = .cutting) (hfo : v.folder = sp.folder) : (notCarried st n sp s).Disciplined := by
  have q1 := ((((quiet_setCause n .spliceNotCarried s).trans (quiet_raise st .spliceNotCarried _ (none, none))).trans
    (quiet_releasePaster st _)).trans (quiet_releaseKnife st _)).trans
    (quiet_modSeq _ st (fun q => { q with webBroken := true }) rfl)
  have h1 := disciplined_purge (q1.disciplined h) (fun _ sp => decide (sp.stand = st))
  obtain ⟨m, hm⟩ := (kept_purge (fun _ sp => decide (sp.stand = st)) _).holds (hv.quiet q1) (hv.stand h).2
  have h2 := disciplined_exitSlot (sp := sp) h1 hm (by rw [hst]; rfl) hfo .spindown rfl rfl rfl
  unfold notCarried
  refine ((quiet_handOn st s _).trans (quiet_evalRisk st _)).disciplined (disciplined_enterSpindown ?_)
  refine Quiet.disciplined ?_ h2
  refine Quiet.setSpliceState ?_ n .spindown
  exact (((((quiet_modReel _ _ _).trans (quiet_giveBack st true sp.incoming _)).trans (quiet_noteSplice n .pasteUsed _)).trans
    (quiet_copyResiduals n sp.outgoing _)).trans (quiet_modGauge _ st _)).trans (quiet_startBraking st _ _)

theorem disciplined_webEnd {s : State} (h : s.Disciplined) {st : StandIx} {n : Nat} {v : SpliceView} {sp : Splice}
    (hv : s.Holds st n v) (hst : v.state = .cutting) (hfo : v.folder = sp.folder) : (webEnd st n sp s).Disciplined := by
  unfold webEnd
  dsimp only
  refine ((quiet_handOn st s _).trans (quiet_evalRisk st _)).disciplined ?_
  have q1 := (((quiet_releaseKnife st s).trans (quiet_modReel _ sp.outgoing toButt)).trans (quiet_modReel _ sp.incoming
    (fun r => { r with state := .running, reservedBy := none, reasons := [], runningSince := some s.now }))).trans
    (quiet_copyResiduals n sp.outgoing _)
  have key : ∀ t : State, Quiet s t → (setSpliceState n .braking (startBraking st (s.armOf sp.outgoing) (evalRisk st
      (State.modGauge (match sp.folder with
        | some f => releaseSlot f t
        | none => t) st (fun g => { g.afresh with riskRaised := false }))))).Disciplined := by
    intro t qt
    have h2 := disciplined_exitSlot (sp := sp) (qt.disciplined h) (hv.quiet qt) (by rw [hst]; rfl) hfo .braking rfl rfl rfl
    refine Quiet.disciplined (Quiet.setSpliceState ?_ n .braking) h2
    exact ((quiet_modGauge _ st _).trans (quiet_evalRisk st _)).trans (quiet_startBraking st _ _)
  exact key _ (((q1.trans (quiet_raise st .webEnd _ _)).trans (quiet_releasePaster st _)).trans (quiet_modWork _ st _ rfl rfl))

theorem disciplined_firePoint {s : State} (h : s.Disciplined) {st : StandIx} {n : Nat} {v : SpliceView}
    (hv : s.Holds st n v) (hst : v.state = .firing) : (firePoint st n s).Disciplined := by
  have q := (quiet_energisePaster st s).trans (quiet_modWork _ st (fun w =>
    { w with
      confirmed := s.isActive st .pasterEngaged
      confirmTimer := if s.isActive st .pasterEngaged then none else some ((s.stand st).profile.settings.pasterLead + 80)
      revolution := none }) rfl rfl)
  refine (quiet_evalRisk st _).disciplined ?_
  exact disciplined_setSpliceState (q.disciplined h) (hv.quiet q).view .pasting rfl (by rw [hst]; rfl) (by rw [hst]; decide)
    (fun k => absurd k (by decide)) (fun _ => Or.inl (by rw [hst]; rfl))

theorem disciplined_pasteFront {s : State} (h : s.Disciplined) {st : StandIx} {n : Nat} {v : SpliceView} {sp : Splice}
    (hv : s.Holds st n v) (hst : v.state = .pasting) (hno : (s.work st).markPlaced = false) (hfo : v.folder = sp.folder) :
    (pasteFront st n sp s).Disciplined := by
  unfold pasteFront
  dsimp only
  split
  · rename_i f hf
    refine (quiet_grantOccasion f _).disciplined ?_
    refine h.of_ordered (by simp [keys_update]) ?_
    refine h.ordered.front hv.active hv.view hst hno (hfo.trans hf) (w := { v with mark := .onTrack }) ?_ rfl (fun i => ?_)
      (fun i => ?_) (fun g => ?_) (fun g => ?_) (fun g => ?_)
    · intro m
      show (State.modSplice s n _).viewOf m = _
      rw [viewOf_modSplice]
      by_cases e : m = n
      · subst e
        rw [if_pos rfl, if_pos rfl]
        obtain ⟨x, h1, rfl⟩ := viewOf_eq_some.1 hv.view
        rw [h1]; rfl
      · rw [if_neg e, if_neg e]
    · by_cases e : i = st
      · subst e; simp
      · simp [e]
    · by_cases e : i = st
      · subst e; simp
      · simp [e]
    · by_cases e : g = f
      · subst e; simp
      · simp [e]
    · by_cases e : g = f
      · subst e; simp [Folder.waiters]
      · simp [e]
    · by_cases e : g = f
      · subst e; simp
      · simp [e]
  · rename_i hf
    obtain ⟨f, h1, _⟩ := h.ordered.holder n v hv.view (by rw [hst]; rfl)
    rw [hfo, hf] at h1; exact absurd h1 (by simp)

theorem disciplined_knifePoint {s : State} (h : s.Disciplined) {st : StandIx} {n : Nat} {v : SpliceView} {sp : Splice}
    (hv : s.Holds st n v) (hst : v.state = .pasting) (hfo : v.folder = sp.folder) : (knifePoint st n sp s).Disciplined := by
  have q := (quiet_energiseKnife st s).trans (quiet_modWork _ st (fun w =>
    { w with carryDistance := some (s.stand st).profile.settings.carry, carryCount := 0 }) rfl rfl)
  have hvq := hv.quiet q
  have h1 := disciplined_setSpliceState (q.disciplined h) hvq.view .cutting rfl (by rw [hst]; rfl) (by rw [hst]; decide)
    (fun k => absurd k (by decide)) (fun k => absurd k (by decide))
  have hc := becomes_setSpliceState hvq.view .cutting
  have hv2 : (setSpliceState n .cutting _).Holds st n { v with state := .cutting } :=
    ⟨by rw [work_setSpliceState]; exact hvq.active, hc.self⟩
  have q2 := quiet_evalRisk st (setSpliceState n .cutting ((energiseKnife st s).modWork st (fun w =>
    { w with carryDistance := some (s.stand st).profile.settings.carry, carryCount := 0 })))
  unfold knifePoint
  dsimp only
  split
  · exact q2.disciplined h1
  · have q3 := q2.trans (quiet_modField _ st Field.takeWebLoss)
    exact disciplined_notCarried (q3.disciplined h1) (hv2.quiet q3) rfl hfo

theorem disciplined_judgeFirePoint {s : State} (h : s.Disciplined) (st : StandIx) : (judgeFirePoint st s).Disciplined := by
  unfold judgeFirePoint
  split
  · rename_i n sp hs
    split
    · rename_i hc; exact disciplined_firePoint h (State.Holds.of_active hs) hc.1
    · exact h
  · exact h

theorem disciplined_judgeFront {s : State} (h : s.Disciplined) (st : StandIx) : (judgeFront st s).Disciplined := by
  unfold judgeFront
  split
  · rename_i n sp hs
    split
    · rename_i hc; exact disciplined_pasteFront h (State.Holds.of_active hs) hc.1 hc.2.1 rfl
    · exact h
  · exact h

theorem disciplined_judgeKnifePoint {s : State} (h : s.Disciplined) (st : StandIx) : (judgeKnifePoint st s).Disciplined := by
  unfold judgeKnifePoint
  split
  · rename_i n sp hs
    split
    · rename_i hc
      split
      · exact disciplined_knifePoint h (State.Holds.of_active hs) hc.1 rfl
      · exact disciplined_pasteNotConfirmed h (State.Holds.of_active hs) hc.1 rfl
    · exact h
  · exact h

theorem disciplined_judgePoints {s : State} (h : s.Disciplined) (st : StandIx) : (judgePoints st s).Disciplined :=
  disciplined_judgeKnifePoint (disciplined_judgeFront (disciplined_judgeFirePoint h st) st) st

/-! ### Braking, indexing, stand end -/

theorem disciplined_standEnd {s : State} (h : s.Disciplined) {st : StandIx} {n : Nat} {v : SpliceView} (hv : s.Holds st n v)
    (hh : holdsSlot v.state = false) (hw : v.state ≠ .waiting) (cause : EndCause) : (standEnd st n cause s).Disciplined := by
  have q := (quiet_setCause n cause s).trans (quiet_modWork _ st (fun w => { w with indexReq := false, indexTimer := none }) rfl rfl)
  exact disciplined_afterEnd ((quiet_chainOccasion st _).disciplined
    (disciplined_endSplice (q.disciplined h) (hv.quiet q) hh hw .completed rfl .standEnd)) st n

theorem disciplined_enterIndexing {s : State} (h : s.Disciplined) {st : StandIx} {n : Nat} {v : SpliceView} (hv : s.Holds st n v)
    (hst : v.state = .braking) : (enterIndexing st n s).Disciplined := by
  have h1 := disciplined_setSpliceState h hv.view .indexing rfl (by rw [hst]; rfl) (by rw [hst]; decide)
    (fun k => absurd k (by decide)) (fun k => absurd k (by decide))
  have hv1 : (setSpliceState n .indexing s).Holds st n { v with state := .indexing } :=
    ⟨by rw [work_setSpliceState]; exact hv.active, (becomes_setSpliceState hv.view .indexing).self⟩
  have wait : (updateIndexReq st (if (setSpliceState n .indexing s).isInactive st .safetyGate then
      gateFoundOpen st (setSpliceState n .indexing s) else setSpliceState n .indexing s)).Disciplined := by
    refine (quiet_updateIndexReq st _).disciplined ?_
    split
    · exact (quiet_gateFoundOpen st _).disciplined h1
    · exact h1
  have moved := quiet_raise st .starMoved (setSpliceState n .indexing s) (none, none)
  unfold enterIndexing
  dsimp only
  split
  · split
    · exact disciplined_standEnd h1 hv1 rfl (by simp) _
    · split
      · exact wait
      · exact disciplined_standEnd (moved.disciplined h1) (hv1.quiet moved) rfl (by simp) _
  · exact disciplined_standEnd (moved.disciplined h1) (hv1.quiet moved) rfl (by simp) _
  · exact wait
  · exact wait

theorem disciplined_endBraking {s : State} (h : s.Disciplined) {st : StandIx} {n : Nat} {v : SpliceView} (hv : s.Holds st n v)
    (hst : v.state = .braking) : (endBraking st n s).Disciplined := by
  have q := (quiet_releaseBrake st s).trans (quiet_modWork _ st (fun w => { w with stopTimer := none, revQuietTimer := none }) rfl rfl)
  exact disciplined_enterIndexing (q.disciplined h) (hv.quiet q) hst

/-! ### Counts -/

theorem perm_insertByDistance (s : State) (r : SpliceRef) (l : List SpliceRef) : (insertByDistance s r l).Perm (r :: l) := by
  induction l with
  | nil => exact List.Perm.refl _
  | cons x t ih =>
    simp only [insertByDistance]
    split
    · exact List.Perm.refl _
    · exact (List.Perm.cons x ih).trans (List.Perm.swap r x t)

/-- Track order lists the marks of the track (R122). -/
theorem perm_trackOrder (s : State) (f : FolderIx) : (s.trackOrder f).Perm (s.folder f).track := by
  have : ∀ (l a : List SpliceRef), (l.foldl (fun l r => insertByDistance s r l) a).Perm (l ++ a) := by
    intro l
    induction l with
    | nil => intro a; exact List.Perm.refl _
    | cons x t ih =>
      intro a
      refine (ih _).trans ?_
      exact ((perm_insertByDistance s x a).append_left t).trans (List.perm_middle)
  have h := this (s.folder f).track []
  rwa [List.append_nil] at h

theorem disciplined_ejectPast {s : State} (h : s.Disciplined) (f : FolderIx) (test : SpliceRef → Bool) :
    (ejectPast f test s).Disciplined := by
  unfold ejectPast
  refine disciplined_ejects f _ h ?_ (fun r hr => ?_)
  · refine List.Nodup.sublist (List.Sublist.map _ List.filter_sublist) ?_
    exact ((perm_trackOrder s f).map _).nodup_iff.2 (h.ordered.distinct f)
  · obtain ⟨v, h1, _, _, h4⟩ := h.ordered.listed f r ((perm_trackOrder s f).mem_iff.1 (List.mem_filter.1 hr).1)
    exact ⟨v, h1, h4⟩

theorem quiet_grants {α : Type} (f : FolderIx) (l : List α) : ∀ s : State, Quiet s (l.foldl (fun t _ => grantOccasion f t) s) := by
  induction l with
  | nil => intro s; exact Quiet.refl s
  | cons a t ih => intro s; exact (quiet_grantOccasion f s).trans (ih _)

theorem disciplined_crossed {s : State} (h : s.Disciplined) (st : StandIx) (d : Direction) (f : FolderIx) :
    (crossed st d s f).Disciplined := by
  have h1 := disciplined_ejectPast h f (fun r => decide (r.stand = st))
  unfold crossed
  cases d with
  | forward => exact (quiet_grants f _ _).disciplined h1
  | reverse => exact h1

theorem disciplined_trackWebCount {s : State} (h : s.Disciplined) (st : StandIx) (d : Direction) :
    (trackWebCount st d s).Disciplined := by
  unfold trackWebCount
  have h0 := (quiet_moveMarks st d s).disciplined h
  generalize moveMarks st d s = t at h0
  generalize allFolders = l
  induction l generalizing t with
  | nil => exact h0
  | cons f l ih => exact ih _ (disciplined_crossed h0 st d f)

theorem quiet_dropRunningDiameter (st : StandIx) (s : State) : Quiet s (dropRunningDiameter st s) := by
  unfold dropRunningDiameter
  split
  · exact quiet_modReel s _ _
  · exact Quiet.refl s

theorem disciplined_runMarkLost {s : State} (h : s.Disciplined) (st : StandIx) : (runMarkLost st s).Disciplined := by
  have q := (quiet_raise st .runMarkLost s (none, none)).trans (quiet_dropRunningDiameter st _)
  exact (quiet_modGauge _ st _).disciplined (disciplined_diameterChanged (q.disciplined h) st)

theorem disciplined_gaugeWebCount {s : State} (h : s.Disciplined) (st : StandIx) (d : Direction) :
    (gaugeWebCount st d s).Disciplined := by
  unfold gaugeWebCount
  dsimp only
  split
  · exact disciplined_runMarkLost (((quiet_modGauge s st _).trans (quiet_modGauge _ st _)).disciplined h) st
  · exact (quiet_modGauge s st _).disciplined h

theorem disciplined_carryCheck {s : State} (h : s.Disciplined) (st : StandIx) : (carryCheck st s).Disciplined := by
  unfold carryCheck
  split
  · rename_i n sp hs
    split
    · split
      · rename_i hc
        exact disciplined_webEnd h (State.Holds.of_active hs) hc.1 rfl
      · exact h
    · exact h
  · exact h

theorem disciplined_judgeCandidate {s : State} (h : s.Disciplined) (st : StandIx) (k : Nat) (r : Reel) (d : Int) :
    (judgeCandidate st k r d s).Disciplined := by
  unfold judgeCandidate
  split
  · exact disciplined_diameterChanged (((quiet_modReel s k _).trans (quiet_modGauge _ st _)).disciplined h) st
  · split
    · exact disciplined_diameterChanged ((((quiet_raise st .diameterGlitch s (none, none)).trans
        (quiet_dropRunningDiameter st _)).trans (quiet_modGauge _ st _)).disciplined h) st
    · exact (quiet_modGauge s st _).disciplined h

theorem disciplined_gaugeRevPulse {s : State} (h : s.Disciplined) (st : StandIx) (a : Arm) :
    (gaugeRevPulse st a s).Disciplined := by
  unfold gaugeRevPulse
  split
  · split
    · dsimp only
      split
      · exact (quiet_modGauge s st _).disciplined h
      · split
        · exact (quiet_modGauge s st _).disciplined h
        · exact disciplined_judgeCandidate ((quiet_modGauge s st _).disciplined h) st _ _ _
    · exact h
  · exact h

theorem quiet_seqRevPulse (st : StandIx) (a : Arm) (s : State) : Quiet s (seqRevPulse st a s) := by
  unfold seqRevPulse
  split
  · exact quiet_modWork s st _ rfl rfl
  · exact Quiet.refl s

theorem disciplined_enterMatched {s : State} (h : s.Disciplined) {st : StandIx} {n : Nat} {v : SpliceView} {sp : Splice}
    (hv : s.Holds st n v) (hst : v.state = .accel) (g : Int) : (enterMatched st n sp g s).Disciplined := by
  have h1 := disciplined_setSpliceState h hv.view .matched rfl (by rw [hst]; rfl) (by rw [hst]; decide)
    (fun _ => by rw [hst]; rfl) (fun k => absurd k (by decide))
  exact disciplined_judgeWaiting (((quiet_modWork _ st (fun w => { w with goodCount := 3, accelTimer := none }) rfl rfl).trans
    (quiet_modReel _ sp.incoming _)).disciplined h1) st

theorem quiet_rematch (st : StandIx) (sp : Splice) (g : Int) (s : State) : Quiet s (rematch st sp g s) := by
  have q := ((quiet_modWork s st (fun w => { w with goodCount := 3 }) rfl rfl).trans (quiet_setMatched st sp true _)).trans
    (quiet_modReel _ sp.incoming (fun r => { r with girth := some g.toNat, diameter := some (diameterOf g).toNat }))
  unfold rematch
  dsimp only
  split
  · exact q.trans (quiet_grantOccasion _ _)
  · exact q

theorem disciplined_afterRevolution {s : State} (h : s.Disciplined) {st : StandIx} {n : Nat} {v : SpliceView} {sp : Splice}
    (hv : s.Holds st n v) (hst : v.state = sp.state) (good : Bool) (g : Int) : (afterRevolution st n sp good g s).Disciplined := by
  have clear := quiet_modWork s st (fun w => { w with goodCount := 0 }) rfl rfl
  have add := (quiet_modWork s st (fun w => { w with goodCount := w.goodCount + 1 }) rfl rfl).disciplined h
  unfold afterRevolution
  dsimp only
  split
  · rename_i e
    split
    · split
      · exact disciplined_enterMatched h hv (hst.trans e) g
      · exact add
    · exact clear.disciplined h
  · rename_i e
    split
    · exact h
    · refine (quiet_modWork _ st _ rfl rfl).disciplined ?_
      exact disciplined_setSpliceState (clear.disciplined h) (hv.quiet clear).view .accel rfl (by rw [hst, e]; rfl)
        (by rw [hst, e]; decide) (fun _ => by rw [hst, e]; rfl) (fun k => absurd k (by decide))
  · split
    · split
      · exact h
      · exact (clear.trans (quiet_setMatched st sp false _)).disciplined h
    · split
      · split
        · exact (quiet_rematch st sp g s).disciplined h
        · exact add
      · exact clear.disciplined h
  all_goals exact h

theorem disciplined_firePulse {s : State} (h : s.Disciplined) (st : StandIx) (n : Nat) (sp : Splice) (g : Int) :
    (firePulse st n sp g s).Disciplined := by
  unfold firePulse
  dsimp only
  refine disciplined_judgePoints ?_ st
  split
  · exact ((quiet_modWork s st _ rfl rfl).trans (quiet_noteSplice n .knifeLate _)).disciplined h
  · exact (quiet_modWork s st _ rfl rfl).disciplined h

theorem disciplined_formRevolution {s : State} (h : s.Disciplined) {st : StandIx} {n : Nat} {v : SpliceView} {sp : Splice}
    (hv : s.Holds st n v) (hst : v.state = sp.state) (r : Revolution) : (formRevolution st n sp r s).Disciplined := by
  have q := quiet_modWork s st (fun w => { w with revolution := some { tach := 0, web := 0 }, keptGirth := some r.tach }) rfl rfl
  unfold formRevolution
  dsimp only
  split
  · split
    · exact disciplined_firePulse (q.disciplined h) st n sp r.tach
    · exact q.disciplined h
  · have q2 := q.trans (quiet_modWork _ st (fun w => { w with prevGirth := some r.tach }) rfl rfl)
    exact disciplined_afterRevolution (q2.disciplined h) (hv.quiet q2) hst _ _

/-! ### Events of the star, the reels and the web -/

theorem disciplined_departure {s : State} (h : s.Disciplined) (st : StandIx) : (departure st s).Disciplined := by
  have q := quiet_raise st .starMoved s (none, none)
  unfold departure
  split
  · exact h
  · rename_i n sp hs
    have hv := State.Holds.of_active hs
    split
    all_goals first
      | exact disciplined_giveUp (q.disciplined h) (hv.quiet q) rfl rfl .starMoved
      | exact q.disciplined h
      | exact h

theorem disciplined_settling {s : State} (h : s.Disciplined) (st : StandIx) (j : Arm) : (settling st j s).Disciplined := by
  have q := quiet_raise st .starMoved s (none, none)
  unfold settling
  split
  · exact h
  · rename_i n sp hs
    have hv := State.Holds.of_active hs
    split
    · rename_i e
      have e' : sp.view.state = .indexing := e
      split
      · exact disciplined_standEnd h hv (by rw [e']; rfl) (by rw [e']; decide) _
      · exact disciplined_standEnd (q.disciplined h) (hv.quiet q) (by rw [e']; rfl) (by rw [e']; decide) _
    · exact h

theorem quiet_setStar (st : StandIx) (x : StarIndex) (s : State) : Quiet s (setStar st x s) := quiet_modStand s st _ rfl

theorem disciplined_starTaken {s : State} (h : s.Disciplined) (st : StandIx) (code : Fin 4) : (starTaken st code s).Disciplined := by
  have h1 := (quiet_setStar st (starOf code) s).disciplined h
  unfold starTaken
  dsimp only
  split
  · exact (quiet_handOn st _ _).disciplined (disciplined_settling (disciplined_departure h1 st) st _)
  · exact (quiet_handOn st _ _).disciplined (disciplined_departure h1 st)
  · exact (quiet_handOn st _ _).disciplined (disciplined_settling h1 st _)
  · exact (quiet_handOn st _ _).disciplined (disciplined_settling h1 st _)
  all_goals exact h1

theorem disciplined_loseReserved {s : State} (h : s.Disciplined) (st : StandIx) (k : Nat) : (loseReserved st k s).Disciplined := by
  have q := quiet_raise st .reelLost s (none, none)
  unfold loseReserved
  dsimp only
  split
  · exact q.disciplined h
  · rename_i n sp hs
    have hv := State.Holds.of_active hs
    split
    all_goals first
      | exact q.disciplined h
      | exact ((quiet_modReel _ k _).trans (quiet_handOn st s _)).disciplined
          (disciplined_giveUp (q.disciplined h) (hv.quiet q) rfl rfl .reelLost)

theorem disciplined_reelLost {s : State} (h : s.Disciplined) (st : StandIx) (a : Arm) : (reelLost st a s).Disciplined := by
  unfold reelLost
  split
  · exact h
  · split
    · exact disciplined_loseReserved h st _
    · split
      · exact ((quiet_modReel s _ _).trans (quiet_handOn st s _)).disciplined h
      · exact ((quiet_modReel s _ _).trans (quiet_handOn st s _)).disciplined h
      · exact ((quiet_modReel s _ _).trans (quiet_handOn st s _)).disciplined h
      · exact (quiet_raise st _ s _).disciplined h
      · exact disciplined_loseReserved h st _
      · exact h

theorem disciplined_webBreak {s : State} (h : s.Disciplined) (st : StandIx) : (webBreak st s).Disciplined := by
  have q := (quiet_raise st .webBreak s (none, none)).trans (quiet_modSeq _ st (fun q => { q with webBroken := true }) rfl)
  have h1 : (purgeStand st ((raise st .webBreak s).modSeq st (fun q => { q with webBroken := true }))).Disciplined :=
    disciplined_purge (q.disciplined h) _
  unfold webBreak
  dsimp only
  split
  · exact h1
  · rename_i n sp hs
    have hv := State.Holds.of_active hs
    split
    all_goals first
      | exact h1
      | exact (quiet_handOn st s _).disciplined (disciplined_giveUp h1 hv rfl rfl .webBreak)
      | skip
    rename_i e
    have qc := quiet_setCause n .webBreak (purgeStand st ((raise st .webBreak s).modSeq st (fun q => { q with webBroken := true })))
    exact disciplined_failPaste (qc.disciplined h1) (hv.quiet qc) e rfl

theorem disciplined_webLost {s : State} (h : s.Disciplined) (st : StandIx) : (webLost st s).Disciplined := by
  unfold webLost
  split
  · rename_i n sp hs
    split
    · rename_i e; exact disciplined_notCarried h (State.Holds.of_active hs) e rfl
    · exact disciplined_webBreak h st
  · exact disciplined_webBreak h st

/-! ### Arming -/

theorem nextNumber_iterate (n j : Nat) (hj : j ≤ 33) :
    nextNumber^[j] n = if n ≤ 65535 ∧ 65535 < n + j then n + j - 65535 else n + j := by
  induction j with
  | zero => simp
  | succ j ih =>
    rw [Function.iterate_succ_apply', ih (by omega), nextNumber]
    split_ifs <;> omega

theorem freeNumber_free_or (t : List (Nat × Splice)) (k : Nat) : ∀ n,
    Table.find (freeNumber t k n) t = none ∨ ∀ j, j < k → (Table.find (nextNumber^[j] n) t).isSome = true := by
  induction k with
  | zero => intro n; exact Or.inr (fun j hj => absurd hj (by omega))
  | succ k ih =>
    intro n
    unfold freeNumber
    by_cases h : (Table.find n t).isSome = true
    · rw [if_pos h]
      rcases ih (nextNumber n) with e | e
      · exact Or.inl e
      · refine Or.inr (fun j hj => ?_)
        cases j with
        | zero => exact h
        | succ j => rw [Function.iterate_succ_apply]; exact e j (by omega)
    · rw [if_neg h]; left; simpa using h

theorem mem_keys_of_find {α : Type} {k : Nat} {t : List (Nat × α)} (h : (Table.find k t).isSome = true) :
    k ∈ t.map Prod.fst := by
  induction t with
  | nil => simp [Table.find] at h
  | cons x t ih =>
    by_cases e : x.1 = k
    · simp [e]
    · have : (Table.find k t).isSome = true := by simpa [Table.find, e] using h
      exact List.mem_cons_of_mem _ (ih this)

/-- With at most 32 records in the table the number found is free (R53). -/
theorem find_freeNumber {t : List (Nat × Splice)} (ht : t.length ≤ 32) (n : Nat) :
    Table.find (freeNumber t 33 n) t = none := by
  rcases freeNumber_free_or t 33 n with h | h
  · exact h
  · exfalso
    have hn : ((List.range 33).map (fun j => nextNumber^[j] n)).Nodup := by
      refine List.Nodup.map_on (fun i hi j hj e => ?_) List.nodup_range
      have hi' := List.mem_range.1 hi
      have hj' := List.mem_range.1 hj
      simp only [nextNumber_iterate n i (by omega), nextNumber_iterate n j (by omega)] at e
      split_ifs at e <;> omega
    have hs : ((List.range 33).map (fun j => nextNumber^[j] n)) ⊆ t.map Prod.fst := by
      intro x hx
      obtain ⟨j, hj, rfl⟩ := List.mem_map.1 hx
      exact mem_keys_of_find (h j (List.mem_range.1 hj))
    have := (hn.subperm hs).length_le
    simp at this
    omega

theorem keys_insert {α : Type} (k : Nat) (a : α) (t : List (Nat × α)) :
    ((Table.insert k a t).map Prod.fst).Perm (k :: t.map Prod.fst) := by
  induction t with
  | nil => exact List.Perm.refl _
  | cons x t ih =>
    obtain ⟨j, b⟩ := x
    simp only [Table.insert]
    split
    · exact List.Perm.refl _
    · exact (List.Perm.cons j ih).trans (List.Perm.swap k j _)

theorem not_mem_keys_of_find {α : Type} {k : Nat} {t : List (Nat × α)} (h : Table.find k t = none) : k ∉ t.map Prod.fst := by
  induction t with
  | nil => simp
  | cons x t ih =>
    by_cases e : x.1 = k
    · simp [Table.find, e] at h
    · have : Table.find k t = none := by simpa [Table.find, e] using h
      simp only [List.map_cons, List.mem_cons, not_or]
      exact ⟨fun k' => e k'.symm, ih this⟩

theorem disciplined_allocate {s : State} (h : s.Disciplined) {st : StandIx} (hidle : (s.work st).active = none)
    (hroom : s.splices.length < 32) (o : Origin) (tr : Trigger) (x : Params (Option Int)) (c : Bool) :
    (allocate st o tr x c s).Disciplined := by
  unfold allocate
  split
  · rename_i out _ inc _ _ _
    dsimp only
    have hfree := find_freeNumber (t := s.splices) (by omega) s.nextSplice
    generalize freeNumber s.splices 33 s.nextSplice = n at hfree
    rw [disciplined_iff_ordered]
    refine ⟨?_, ?_⟩
    · show (List.map Prod.fst (Table.insert n _ s.splices)).Nodup
      exact (keys_insert n _ _).nodup_iff.2 (List.nodup_cons.2 ⟨not_mem_keys_of_find hfree, h.keys⟩)
    · refine h.ordered.armed (st := st) (n := n) (w := { stand := st, folder := none, state := .armed, mark := .none })
        (by simp [State.viewOf, State.splice?, hfree]) hidle (fun m => ?_) rfl (fun i => ?_) (fun i => ?_) (fun _ => rfl)
      · show (Table.find m (Table.insert n _ s.splices)).map Splice.view = _
        rw [find_insert _ _ _ _ hfree]
        by_cases e : m = n
        · subst e; simp [newSplice, Splice.view]
        · simp [e]; rfl
      · by_cases e : i = st
        · subst e; simp
        · simp [e]; rfl
      · by_cases e : i = st
        · subst e; simp; rfl
        · simp [e]; rfl
  · exact h

/-- What the checks of R63 leave: no splice on the stand, and room in the table. -/
theorem armFault_none {st : StandIx} {x : Params (Option Int)} {s : State} (h : armFault st x s = none) :
    (s.work st).active = none ∧ s.splices.length < 32 := by
  unfold armFault at h
  split at h
  · exact absurd h (by simp)
  · split at h
    · exact absurd h (by simp)
    · rename_i h1
      split at h
      · exact absurd h (by simp)
      · split at h
        · exact absurd h (by simp)
        · split at h
          · exact absurd h (by simp)
          · rename_i h2
            exact ⟨by simpa using h1, by omega⟩

theorem disciplined_arm {s : State} (h : s.Disciplined) {st : StandIx} (hidle : (s.work st).active = none)
    (hroom : s.splices.length < 32) (o : Origin) (tr : Trigger) (x : Params (Option Int)) (c : Bool) :
    (arm st o tr x c s).Disciplined :=
  disciplined_judgeStart ((quiet_handOn st s _).disciplined (disciplined_allocate h hidle hroom o tr x c)) false st

theorem quiet_chainBlocked (st : StandIx) (s : State) : Quiet s (chainBlocked st s) := by
  unfold chainBlocked
  split
  · exact Quiet.refl s
  · exact (quiet_raise st .chainBlocked s (none, none)).trans (quiet_modSeq _ st _ rfl)

theorem disciplined_autoArm {s : State} (h : s.Disciplined) (st : StandIx) : (autoArm st s).Disciplined := by
  have q := quiet_modSeq s st (fun q => { q with chainBlocked := false }) rfl
  unfold autoArm
  split
  · rename_i hf
    obtain ⟨h1, h2⟩ := armFault_none hf
    refine disciplined_arm (q.disciplined h) ?_ h2 _ _ _ _
    rw [q.view.active]; exact h1
  · exact (quiet_chainBlocked st s).disciplined h
  · exact (quiet_chainBlocked st s).disciplined h
  all_goals exact h

/-! ### The grant -/

theorem disciplined_evaluateGrant {s : State} (h : s.Disciplined) (f : FolderIx) : (evaluateGrant f s).Disciplined := by
  unfold evaluateGrant
  split
  · exact h
  · rename_i hb
    split
    · rename_i e he
      have hmem := List.mem_of_find?_eq_some he
      simp only [State.folderBarred, Bool.or_eq_true, not_or, Bool.not_eq_true, Option.isSome_eq_false_iff,
        decide_eq_false_iff_not, Option.isNone_iff_eq_none] at hb
      obtain ⟨⟨hfree, hroom⟩, _⟩ := hb
      have hin : (e.stand, e.splice) ∈ (s.folder f).waiters := List.mem_map_of_mem hmem
      obtain ⟨v, hv, _, _, hvs, hact⟩ := h.ordered.waiter f _ hin
      unfold grant
      dsimp only
      refine h.of_ordered (by simp [keys_setSpliceState]) ?_
      refine h.ordered.granted hin hfree (by omega) hv (w := { v with state := .firing }) ?_ rfl (fun i => ?_) (fun i => ?_)
        (fun g => ?_) (fun g => ?_) (fun g => ?_)
      · intro m
        show (setSpliceState e.splice .firing _).viewOf m = _
        rw [viewOf_setSpliceState]
        by_cases k : m = e.splice
        · rw [if_pos k, if_pos k, viewOf_leaveWaits]
          show (s.viewOf e.splice).map _ = _
          rw [hv]; rfl
        · rw [if_neg k, if_neg k, viewOf_leaveWaits]; rfl
      · by_cases k : i = e.stand
        · subst k; simp
        · simp [k]
      · by_cases k : i = e.stand
        · subst k; simp
        · simp [k]
      · by_cases k : g = f
        · subst k; simp
        · simp [k]
      · simp only [folder_modWork, folder_setSpliceState, waiters_leaveWaits]
        by_cases k : g = f
        · subst k
          rw [if_pos rfl]
          have : ((s.modFolder g (fun F => { F with slot := some { splice := e.splice, stand := e.stand } })).folder g).waiters
              = (s.folder g).waiters := by simp [Folder.waiters]
          rw [this]
          exact ⟨List.filter_sublist, fun _ p hp => by simpa using (List.mem_filter.1 hp).2⟩
        · rw [if_neg k, folder_modFolder_ne _ _ k]
          exact ⟨List.Sublist.refl _, fun e => absurd e k⟩
      · by_cases k : g = f
        · subst k; simp
        · simp [k]
    · exact h

/-! ### RESET STAND -/

@[simp] theorem active_leavesAll (l : List FolderIx) (st i : StandIx) (s : State) :
    ((l.foldl (fun t f => leaveWaits f st t) s).work i) = s.work i := by
  induction l generalizing s with
  | nil => rfl
  | cons f l ih => rw [List.foldl_cons, ih]; simp

theorem splices_leavesAll (l : List FolderIx) (st : StandIx) (s : State) :
    (l.foldl (fun t f => leaveWaits f st t) s).splices = s.splices := by
  induction l generalizing s with
  | nil => rfl
  | cons f l ih => rw [List.foldl_cons, ih]; simp

theorem folder_leavesAll (l : List FolderIx) (st : StandIx) (s : State) (g : FolderIx) :
    (l.foldl (fun t f => leaveWaits f st t) s).folder g =
      if g ∈ l then { s.folder g with waits := (s.folder g).waits.filter (fun e => !decide (e.stand = st)) } else s.folder g := by
  induction l generalizing s with
  | nil => simp
  | cons f l ih =>
    rw [List.foldl_cons, ih, folder_leaveWaits]
    by_cases e : g = f
    · subst e
      by_cases k : g ∈ l <;> simp [k, List.filter_filter]
    · simp [e]

theorem splices_retire_congr {n : Nat} {s t : State} (h : t.splices = s.splices) : (retire n t).splices = (retire n s).splices := by
  have hs : t.splice? n = s.splice? n := by simp [State.splice?, h]
  unfold retire
  rw [hs]
  split
  · split
    · simp [h]
    · exact h
  · exact h

theorem splices_giveBackReserved (st : StandIx) (n : Nat) (sp : Splice) (s : State) :
    (giveBackReserved st n sp s).splices = s.splices := by
  unfold giveBackReserved; (repeat' split) <;> rfl

theorem work_giveBackReserved (st : StandIx) (n : Nat) (sp : Splice) (s : State) (i : StandIx) :
    (giveBackReserved st n sp s).work i = s.work i := by
  unfold giveBackReserved; (repeat' split) <;> rfl

theorem folder_giveBackReserved (st : StandIx) (n : Nat) (sp : Splice) (s : State) (f : FolderIx) :
    (giveBackReserved st n sp s).folder f = s.folder f := by
  unfold giveBackReserved; (repeat' split) <;> rfl

/-- The stand off every wait list, its working state cleared. -/
def offLists (st : StandIx) (s : State) : State :=
  (allFolders.foldl (fun t f => leaveWaits f st t) s).modWork st (fun _ => Working.reset)

theorem splices_offLists (st : StandIx) (s : State) : (offLists st s).splices = s.splices := by
  simp [offLists, splices_leavesAll]

theorem folder_offLists (st : StandIx) (s : State) (g : FolderIx) :
    (offLists st s).folder g = { s.folder g with waits := (s.folder g).waits.filter (fun e => !decide (e.stand = st)) } := by
  have : g ∈ allFolders := by revert g; decide
  simp [offLists, folder_leavesAll, this]

theorem work_offLists (st i : StandIx) (s : State) :
    (offLists st s).work i = if i = st then Working.reset else s.work i := by
  by_cases e : i = st
  · subst e; simp [offLists]
  · simp [offLists, e]

/-- A stand with no splice off every wait list. -/
theorem quiet_offLists {s : State} (h : s.Disciplined) {st : StandIx} (hidle : (s.work st).active = none) :
    Quiet s (offLists st s) := by
  refine ⟨by rw [splices_offLists], fun m => by simp only [State.viewOf, State.splice?, splices_offLists], fun i => ?_,
    fun i => ?_, fun g => by rw [folder_offLists], fun g => ?_, fun g => by rw [folder_offLists]⟩
  · rw [work_offLists]
    by_cases e : i = st
    · subst e; rw [if_pos rfl, hidle]; rfl
    · rw [if_neg e]
  · rw [work_offLists]
    by_cases e : i = st
    · subst e; rw [if_pos rfl, h.ordered.idle i hidle]; rfl
    · rw [if_neg e]
  · rw [folder_offLists]
    refine List.Perm.of_eq ?_
    simp only [Folder.waiters]
    congr 1
    rw [List.filter_eq_self]
    intro e he
    obtain ⟨_, _, _, _, _, k⟩ := h.ordered.waiter g _ (List.mem_map_of_mem he)
    have : e.stand ≠ st := by
      rintro rfl
      simp only at k
      rw [hidle] at k; exact absurd k (by simp)
    simp [this]

/-- The active splice of a stand ends while the stand goes off every wait list. -/
theorem disciplined_endOffLists {s : State} (h : s.Disciplined) {st : StandIx} {n : Nat} {v : SpliceView} (hv : s.Holds st n v)
    (hh : holdsSlot v.state = false) (x : SpliceState) (hx : isEnded x = true) (c : Condition) :
    (offLists st (endSplice st n x c s)).Disciplined := by
  have hr := (quiet_raise st c s (none, none)).disciplined h
  have hv' := hv.quiet (quiet_raise st c s (none, none))
  have hst := (hv'.stand hr).1
  refine hr.of_ordered (by rw [splices_offLists]; simp [endSplice, endRecord, keys_update]) ?_
  refine hr.ordered.finish hv'.active hv'.view hh (w := { v with state := x }) ?_ rfl rfl rfl hx (fun i => ?_) (fun i => ?_)
    (fun g => by rw [folder_offLists]; simp [endSplice, endRecord]) (fun g => ?_)
    (fun g => by rw [folder_offLists]; simp [endSplice, endRecord])
  · intro m
    have : (offLists st (endSplice st n x c s)).viewOf m = (endRecord n x (raise st c s)).viewOf m := by
      simp only [State.viewOf, State.splice?, splices_offLists]; rfl
    rw [this]
    unfold endRecord
    rw [viewOf_modSplice]
    by_cases e : m = n
    · subst e
      rw [if_pos rfl, if_pos rfl]
      obtain ⟨sp, h1, rfl⟩ := viewOf_eq_some.1 hv'.view
      rw [h1]; rfl
    · rw [if_neg e, if_neg e]
  · rw [work_offLists]
    by_cases e : i = st
    · rw [if_pos e, if_pos e]; rfl
    · rw [if_neg e, if_neg e]; simp [endSplice, e]
  · rw [work_offLists]
    by_cases e : i = st
    · rw [if_pos e, if_pos e]; rfl
    · rw [if_neg e, if_neg e]; simp [endSplice, e]
  · rw [folder_offLists]
    have hw : ((endSplice st n x c s).folder g).waits = ((raise st c s).folder g).waits := by simp [endSplice, endRecord]
    simp only [Folder.waiters, hw]
    refine ⟨List.Sublist.map _ List.filter_sublist, fun p hp e => ?_⟩
    obtain ⟨w, h1, rfl⟩ := List.mem_map.1 hp
    obtain ⟨h2, h3⟩ := List.mem_filter.1 h1
    obtain ⟨u, k1, k2, _⟩ := hr.ordered.waiter g _ (List.mem_map_of_mem h2)
    simp only at e k1 k2
    rw [e, hv'.view] at k1; cases k1
    rw [← k2, hst] at h3
    simp at h3

theorem disciplined_resetStand {s : State} (h : s.Disciplined) {st : StandIx}
    (hh : ∀ n sp, s.activeSplice st = some (n, sp) → holdsSlot sp.state = false) : (resetStand st s).Disciplined := by
  have q1 : Quiet s (clearDiameters st s) := quiet_of_eq rfl (fun _ => rfl) (fun _ => rfl)
  have h1 := q1.disciplined h
  have tail : ∀ t : State, (offLists st t).Disciplined →
      (evalReelCall st (evalRisk st ((offLists st t).modStand st (fun x =>
        { x with star := .unknown, lastSettled := none, gauge := Gauge.reset, field := x.field.restart })))).Disciplined := by
    intro t ht
    exact (((quiet_modStand _ st _ rfl).trans (quiet_evalRisk st _)).trans (quiet_evalReelCall st _)).disciplined ht
  show (evalReelCall st (evalRisk st ((offLists st (endAtReset st (clearDiameters st s))).modStand st _))).Disciplined
  refine tail _ ?_
  unfold endAtReset
  split
  · rename_i hn
    refine (quiet_offLists h1 ?_).disciplined h1
    cases ha : ((clearDiameters st s).work st).active with
    | none => rfl
    | some m =>
      obtain ⟨sp, k1, _⟩ := h1.active st m ha
      rw [activeSplice_eq_some.2 ⟨ha, k1⟩] at hn
      exact absurd hn (by simp)
  · rename_i n sp hs
    have hv := State.Holds.of_active hs
    have hno : holdsSlot sp.view.state = false := hh n sp hs
    have q2 := (quiet_setCause n .standReset (clearDiameters st s)).trans (quiet_noteSplice n .standReset _)
    have main : ∀ (x : SpliceState) (c : Condition) (t : State), isEnded x = true →
        t.splices = (retire n (endSplice st n x c (noteSplice n .standReset (setCause n .standReset (clearDiameters st s))))).splices →
        (∀ i, t.work i = (endSplice st n x c (noteSplice n .standReset (setCause n .standReset (clearDiameters st s)))).work i) →
        (∀ f, t.folder f = (endSplice st n x c (noteSplice n .standReset (setCause n .standReset (clearDiameters st s)))).folder f) →
        (offLists st t).Disciplined := by
      intro x c t hx e1 e2 e3
      have hd := disciplined_retire (disciplined_endOffLists (q2.disciplined h1) (hv.quiet q2) hno x hx c) n
      refine Quiet.disciplined (quiet_of_eq ?_ (fun i => ?_) (fun f => ?_)) hd
      · rw [splices_offLists, e1]
        exact splices_retire_congr (splices_offLists st _).symm
      · rw [work_offLists, work_retire, work_offLists, e2]
      · rw [folder_offLists, folder_retire, folder_offLists, e3]
    dsimp only
    split
    · exact main .completed .standEnd _ rfl (by simp) (fun _ => by simp) (fun _ => by simp)
    · exact main .aborted .spliceVoid _ rfl (by rw [splices_giveBackReserved]) (fun _ => by rw [work_giveBackReserved]; simp)
        (fun _ => by rw [folder_giveBackReserved]; simp)

/-! ### How commands take the operations -/

/-- An operation keeps the discipline. -/
abbrev Keeps (f : State → State) : Prop := ∀ s : State, s.Disciplined → (f s).Disciplined

/-- An event of the running device. -/
theorem keeps_onDevice {f : State → State} (h : Keeps f) {s t : State} (hs : s.Disciplined) (e : onDevice f s = .next t) :
    t.Disciplined := by
  rcases onDevice_completes f s with k | k <;> rw [k] at e <;> cases e
  · exact hs
  · exact h s hs

/-- A request. -/
theorem keeps_serve {r : Instr} {own : State → Answer × State} (h : ∀ s : State, s.Disciplined → (own s).2.Disciplined)
    {s t : State} (hs : s.Disciplined) (e : serve r own s = .next t) : t.Disciplined := by
  rcases serve_completes r own s with k | k <;> rw [k] at e <;> cases e
  · exact hs
  · exact (quiet_deliver r _ _).disciplined (h s hs)

theorem disciplined_reset (c : ResetCause) : (State.afterReset c).Disciplined := by
  rw [disciplined_iff_ordered]
  refine ⟨by simp [State.KeysOnce, State.afterReset], ?_⟩
  have hw : ∀ i, (State.afterReset c).work i = Working.reset := by
    intro i; simp [State.work, State.stand, State.afterReset, Stand.reset, Sequencer.reset]
  have hf : ∀ f, (State.afterReset c).folder f = Folder.reset := by
    intro f; simp [State.folder, State.afterReset]
  have hv : ∀ n, (State.afterReset c).viewOf n = none := fun _ => rfl
  have hr : Working.reset.active = none ∧ Working.reset.markPlaced = false := ⟨rfl, rfl⟩
  have hF : Folder.reset.slot = none ∧ Folder.reset.waiters = [] ∧ Folder.reset.track = [] := ⟨rfl, rfl, rfl⟩
  constructor <;> simp [hw, hf, hv, hr, hF]

theorem disciplined_pending {s : State} (h : s.Disciplined) (p : List Instr) : ({ s with pending := p } : State).Disciplined :=
  (quiet_of_eq (s := s) (t := { s with pending := p }) rfl (fun _ => rfl) (fun _ => rfl)).disciplined h

theorem disciplined_fullReset (c : ResetCause) (s : State) : (fullReset c s).Disciplined :=
  disciplined_pending (disciplined_reset c) s.pending

theorem quiet_acceptInput (st : StandIx) (i : Input) (l : Fin 4) (s : State) : Quiet s (acceptInput st i l s) :=
  quiet_modField s st _

theorem quiet_settleIndex (st : StandIx) (i : Input) (s : State) : Quiet s (settleIndex st i s) := by
  unfold settleIndex
  split
  · exact quiet_updateIndexReq st s
  · exact Quiet.refl s

/-- An accepted change taken by its block. -/
theorem keeps_takeChange {st : StandIx} {i : Input} {l : Fin 4} {f : State → State} (h : Keeps f) : Keeps (takeChange st i l f) := by
  intro s hs
  unfold takeChange
  dsimp only
  split
  · split
    · exact h _ ((quiet_modField s st _).disciplined hs)
    · exact hs
  · split
    · exact hs
    · split
      · exact h _ ((quiet_acceptInput st i l s).disciplined hs)
      · exact ((quiet_acceptInput st i l s).trans (quiet_settleIndex st i _)).disciplined hs

theorem quiet_sampleInput (st : StandIx) (i : Input) (l : Fin 4) (s : State) : Quiet s (sampleInput st i l s) := by
  unfold sampleInput
  dsimp only
  split
  · split
    · exact (quiet_acceptInput st i l s).trans (quiet_modField _ st _)
    · exact (quiet_acceptInput st i l s).trans (quiet_settleIndex st i _)
  · exact quiet_modField s st _

theorem quiet_foldl {α : Type} (g : State → α → State) (hg : ∀ s a, Quiet s (g s a)) (l : List α) :
    ∀ s : State, Quiet s (l.foldl g s) := by
  induction l with
  | nil => intro s; exact Quiet.refl s
  | cons a t ih => intro s; exact (hg s a).trans (ih _)

theorem quiet_handOnAt (r : Reel) (b s : State) : Quiet s (handOnAt r b s) := by
  unfold handOnAt
  split
  · exact quiet_handOn _ b s
  · exact Quiet.refl s

theorem quiet_dropOutputs (st : StandIx) (s : State) : Quiet s (dropOutputs st s) :=
  (quiet_modField s st _).trans (quiet_modWork _ st _ rfl rfl)

theorem uncarried_spindown {s : State} {st : StandIx} {n : Nat} {sp : Splice} (h : s.activeSplice st = some (n, sp))
    (hu : s.uncarried st = true) : sp.state = .spindown := by
  unfold State.uncarried at hu
  rw [h] at hu
  simp at hu
  exact hu.1

theorem disciplined_endUncarried {s : State} (h : s.Disciplined) {st : StandIx} {n : Nat} {v : SpliceView}
    (hv : s.Holds st n v) (hs : v.state = .spindown) : (endUncarried st n s).Disciplined := by
  have q := (quiet_releaseBrake st s).trans (quiet_modWork _ st (fun w => { w with revQuietTimer := none }) rfl rfl)
  exact disciplined_endSpindown (q.disciplined h) (hv.quiet q) hs

theorem keeps_buttQuiet (st : StandIx) : Keeps (buttQuiet st) := by
  intro s h
  unfold buttQuiet
  split
  · exact ((quiet_releaseBrake st s).trans (quiet_modWork _ st _ rfl rfl)).disciplined h
  · split
    · rename_i n sp hs
      have hv := State.Holds.of_active hs
      split
      · rename_i c; exact disciplined_endBraking h hv c.1
      · split
        · rename_i c; exact disciplined_endUncarried h hv (uncarried_spindown hs c.1)
        · exact h
    · exact h

theorem keeps_retireAck (n : Nat) : Keeps (fun s => retire n (s.modSplice n (fun sp => { sp with endAck := true }))) := by
  intro s h
  exact disciplined_retire ((quiet_modSplice s n (fun sp => { sp with endAck := true }) (fun _ => rfl)).disciplined h) n

theorem keeps_acknowledge (st : StandIx) (e : StatusEntry) (rest : List StatusEntry) : Keeps (acknowledge st e rest) := by
  intro s h
  have hc : (collect e s).Disciplined := by
    unfold collect
    split
    · split
      · exact keeps_retireAck _ s h
      · exact h
    · exact h
  unfold acknowledge
  generalize (if s.persists st e then e.persisted :: rest else rest) = kept
  dsimp only
  split
  · exact ((quiet_modQueue _ st _).trans (quiet_chainOccasion st _)).disciplined hc
  · exact (quiet_modQueue _ st _).disciplined hc

theorem quiet_followWeb (st) (s : State) : Quiet s (followWeb st s) := by
  unfold followWeb
  split
  · split
    · exact quiet_modWork s st _ rfl rfl
    · exact Quiet.refl s
  · exact Quiet.refl s

end Sys2Proof.Machine
end

