-- ==== Sys2Proof/Laws/Range.lean ====
section
/-! SUPPORT. The ranges of the device's values (`State.InRange`) under each update and each shared operation. -/

namespace Sys2Proof.Machine

/-! ### The updates -/

theorem inRange_modStand {s : State} (h : s.InRange) (i : StandIx) (f : Stand → Stand)
    (hf : (s.stand i).InRange → (f (s.stand i)).InRange) : (s.modStand i f).InRange := by
  refine ⟨fun j => ?_, h.folders, h.reels, h.splices, h.link⟩
  by_cases e : j = i
  · subst e; rw [stand_modStand]; exact hf (h.stands j)
  · rw [stand_modStand_ne _ _ e]; exact h.stands j

/-- The range of a stand sees nothing of its star, its flags and its counters of occasions. -/
theorem Stand.InRange.of_eq {x y : Stand} (h : x.InRange) (h1 : y.plan = x.plan) (h2 : y.profile = x.profile)
    (h3 : y.oneShot = x.oneShot) (h4 : y.seq.work = x.seq.work) (h5 : y.gauge = x.gauge) (h6 : y.field = x.field)
    (h7 : y.queue = x.queue) : y.InRange := by
  obtain ⟨a, b, c, d, e, f, g, i, j, k, l⟩ := h
  exact ⟨by rw [h1]; exact a, by rw [h2]; exact b, by rw [h2]; exact c, by rw [h3]; exact d, by rw [h4]; exact e,
    by rw [h4]; exact f, by rw [h5]; exact g, by rw [h6]; exact i, by rw [h6]; exact j, by rw [h6]; exact k,
    by rw [h7]; exact l⟩

theorem inRange_modSeq {s : State} (h : s.InRange) (i : StandIx) (f : Sequencer → Sequencer)
    (hf : (f (s.stand i).seq).work = (s.stand i).seq.work) : (s.modSeq i f).InRange :=
  inRange_modStand h i _ (fun k => k.of_eq rfl rfl rfl hf rfl rfl rfl)

/-- What a working state must satisfy. -/
abbrev Working.InRange (w : Working) : Prop :=
  (w.demand ≤ 65535 ∧ (w.driveEn = false → w.demand = 0)) ∧ w.goodCount ≤ 3

theorem inRange_modWork {s : State} (h : s.InRange) (i : StandIx) (f : Working → Working)
    (hf : ∀ w, w.InRange → (f w).InRange) : (s.modWork i f).InRange := by
  refine inRange_modStand h i (fun x => { x with seq := { x.seq with work := f x.seq.work } }) (fun k => ?_)
  have := hf _ ⟨k.demand, k.goodCount⟩
  exact { k with demand := this.1, goodCount := this.2 }

theorem inRange_modWork_at {s : State} (h : s.InRange) (i : StandIx) (f : Working → Working)
    (hf : (f (s.work i)).InRange) : (s.modWork i f).InRange :=
  inRange_modStand h i (fun x => { x with seq := { x.seq with work := f x.seq.work } })
    (fun k => { k with demand := hf.1, goodCount := hf.2 })

abbrev Gauge.InRange (g : Gauge) : Prop :=
  g.streak ≤ 2 ∧ g.webSpeed ≤ 65535 ∧ g.runMark ≤ 4500 ∧ (g.tripped = false → g.runMark < 4500)

theorem inRange_modGauge {s : State} (h : s.InRange) (i : StandIx) (f : Gauge → Gauge)
    (hf : (s.stand i).gauge.InRange → (f (s.stand i).gauge).InRange) : (s.modGauge i f).InRange :=
  inRange_modStand h i _ (fun k => { k with gauge := hf k.gauge })

/-- What a field interface must satisfy. -/
structure Field.InRange (x : Field) : Prop where
  inputs : ∀ i, (x.input i).run ≤ 2 ∧ ((x.input i).run = 0 ↔ (x.input i).candidate = none)
    ∧ ((x.input i).candidate ≠ none → (x.input i).candidate ≠ (x.input i).accepted)
  changes : (x.changes.map ChangeEntry.input).Nodup ∧ x.snapshot ≤ 4294967295
    ∧ ∀ e ∈ x.changes, 1 ≤ e.changes ∧ e.changes ≤ 255
  outputs : ∀ a ∈ [x.paster, x.knife, x.brake], (a.pullInTimer ≠ none ↔ a.drive = .pullIn)

theorem Stand.InRange.field {x : Stand} (h : x.InRange) : x.field.InRange := ⟨h.inputs, h.changes, h.outputs⟩

theorem inRange_modField {s : State} (h : s.InRange) (i : StandIx) (f : Field → Field)
    (hf : (s.stand i).field.InRange → (f (s.stand i).field).InRange) : (s.modField i f).InRange :=
  inRange_modStand h i _ (fun k => by
    have := hf k.field
    exact { k with inputs := this.inputs, changes := this.changes, outputs := this.outputs })

/-- What an actuator output must satisfy (R140). -/
abbrev Actuator.InRange (a : Actuator) : Prop := a.pullInTimer ≠ none ↔ a.drive = .pullIn

theorem inRange_actuators {s : State} (h : s.InRange) (i : StandIx) (f : Field → Field)
    (h1 : ∀ x, (f x).inputs = x.inputs ∧ (f x).changes = x.changes ∧ (f x).snapshot = x.snapshot)
    (h2 : ∀ x, x.paster.InRange → x.knife.InRange → x.brake.InRange →
      (f x).paster.InRange ∧ (f x).knife.InRange ∧ (f x).brake.InRange) : (s.modField i f).InRange := by
  refine inRange_modField h i f (fun k => ?_)
  obtain ⟨e1, e2, e3⟩ := h1 (s.stand i).field
  have ho : ∀ a ∈ [(s.stand i).field.paster, (s.stand i).field.knife, (s.stand i).field.brake], a.InRange := k.outputs
  obtain ⟨a, b, c⟩ := h2 (s.stand i).field (ho _ (by simp)) (ho _ (by simp)) (ho _ (by simp))
  refine ⟨fun j => ?_, ?_, ?_⟩
  · simp only [Field.input, e1]; exact k.inputs j
  · rw [e2, e3]; exact k.changes
  · intro x hx
    simp only [List.mem_cons, List.not_mem_nil, or_false] at hx
    rcases hx with rfl | rfl | rfl <;> assumption

abbrev Queue.InRange (q : Queue) : Prop :=
  q.entries.length ≤ 4 ∧ 1 ≤ q.nextSerial ∧ q.nextSerial ≤ 65535
    ∧ ∀ e ∈ q.entries, e.conditions ≠ [] ∧ e.conditions.Nodup ∧ 1 ≤ e.serial ∧ e.serial ≤ 65535

theorem inRange_modQueue {s : State} (h : s.InRange) (i : StandIx) (f : Queue → Queue)
    (hf : (s.stand i).queue.InRange → (f (s.stand i).queue).InRange) : (s.modQueue i f).InRange :=
  inRange_modStand h i _ (fun k => { k with queue := hf k.queue })

abbrev Folder.InRange (F : Folder) : Prop :=
  400 ≤ F.cutoff ∧ F.cutoff ≤ 700 ∧ F.lead ≤ 5 ∧ F.trail ≤ 10 ∧ F.spacing ≤ 50000

theorem inRange_modFolder {s : State} (h : s.InRange) (i : FolderIx) (g : Folder → Folder)
    (hg : (s.folder i).InRange → (g (s.folder i)).InRange) : (s.modFolder i g).InRange := by
  refine ⟨h.stands, fun f => ?_, h.reels, h.splices, h.link⟩
  by_cases e : f = i
  · subst e; rw [folder_modFolder]; exact hg (h.folders f)
  · rw [folder_modFolder_ne _ _ e]; exact h.folders f

theorem inRange_modLink {s : State} (h : s.InRange) (f : Link → Link)
    (hf : (f s.link).list.length ≤ 16 ∧ (f s.link).overrun ≤ 65535 ∧ (f s.link).receiver.InRange) : (s.modLink f).InRange :=
  ⟨h.stands, h.folders, h.reels, h.splices, hf⟩

/-- Only the keys of the Reel Table have a range. -/
theorem inRange_reels {s : State} (h : s.InRange) {l : List (Nat × Reel)} (hl : l.map Prod.fst = s.reels.map Prod.fst) :
    ({ s with reels := l } : State).InRange := by
  refine ⟨h.stands, h.folders, ?_, h.splices, h.link⟩
  have hm : ∀ k ∈ s.reels.map Prod.fst, 1 ≤ k ∧ k ≤ 48 := by
    intro k hk; obtain ⟨x, hx, rfl⟩ := List.mem_map.1 hk; exact h.reels.2 x hx
  exact ⟨hl ▸ h.reels.1, fun x hx => hm x.1 (hl ▸ List.mem_map_of_mem hx)⟩

theorem inRange_modReel {s : State} (h : s.InRange) (k : Nat) (f : Reel → Reel) : (s.modReel k f).InRange :=
  inRange_reels h (keys_update k f s.reels)

theorem mem_update {α : Type} {k : Nat} {f : α → α} {t : List (Nat × α)} {x : Nat × α} (hx : x ∈ Table.update k f t) :
    x ∈ t ∨ ∃ y ∈ t, x = (y.1, f y.2) := by
  induction t with
  | nil => simp [Table.update] at hx
  | cons y t ih =>
    simp only [Table.update, List.mem_cons] at hx
    rcases hx with rfl | hx
    · split
      · exact Or.inr ⟨y, by simp, rfl⟩
      · exact Or.inl (by simp)
    · rcases ih hx with e | ⟨z, hz, e⟩
      · exact Or.inl (List.mem_cons_of_mem _ e)
      · exact Or.inr ⟨z, List.mem_cons_of_mem _ hz, e⟩

theorem inRange_modSplice {s : State} (h : s.InRange) (n : Nat) (f : Splice → Splice)
    (hf : ∀ sp, (f sp).outgoing = sp.outgoing ∧ (f sp).incoming = sp.incoming) : (s.modSplice n f).InRange := by
  obtain ⟨h1, h2, h3, h4, h5, h6⟩ := h.splices
  refine ⟨h.stands, h.folders, h.reels, ⟨?_, fun x hx => ?_, ?_, h4, h5, fun x hx => ?_⟩, h.link⟩
  · rw [splices_modSplice, keys_update]; exact h1
  · rcases mem_update hx with e | ⟨y, hy, rfl⟩
    · exact h2 x e
    · exact h2 y hy
  · rw [splices_modSplice, length_update]; exact h3
  · rcases mem_update hx with e | ⟨y, hy, rfl⟩
    · exact h6 x e
    · rw [(hf y.2).1, (hf y.2).2]; exact h6 y hy

/-! ### Conditions, calls, reels -/

theorem mem_addTo {α : Type} [DecidableEq α] {a b : α} {l : List α} : b ∈ addTo a l ↔ b = a ∨ b ∈ l := by
  unfold addTo; split <;> simp_all [or_comm]

theorem nodup_addTo {α : Type} [DecidableEq α] {a : α} {l : List α} (h : l.Nodup) : (addTo a l).Nodup := by
  unfold addTo
  split
  · exact h
  · rename_i hn
    refine List.Nodup.append h (by simp) ?_
    simpa using hn

theorem nextNumber_inRange {n : Nat} (h : 1 ≤ n ∧ n ≤ 65535) : 1 ≤ nextNumber n ∧ nextNumber n ≤ 65535 := by
  unfold nextNumber; split <;> omega

theorem length_onLast (f : StatusEntry → StatusEntry) (l : List StatusEntry) : (onLast f l).length = l.length := by
  induction l with
  | nil => rfl
  | cons e t ih => cases t with
    | nil => rfl
    | cons x t => simp [onLast, ih]

theorem mem_onLast {f : StatusEntry → StatusEntry} {l : List StatusEntry} {e : StatusEntry} (h : e ∈ onLast f l) :
    e ∈ l ∨ ∃ x ∈ l, e = f x := by
  induction l with
  | nil => simp [onLast] at h
  | cons y t ih => cases t with
    | nil => simp [onLast] at h; exact Or.inr ⟨y, by simp, h⟩
    | cons x t =>
      simp only [onLast, List.mem_cons] at h
      rcases h with rfl | h
      · exact Or.inl (by simp)
      · rcases ih h with k | ⟨z, hz, k⟩
        · exact Or.inl (List.mem_cons_of_mem _ k)
        · exact Or.inr ⟨z, List.mem_cons_of_mem _ hz, k⟩

theorem inRange_place {q : Queue} (h : q.InRange) (c : Condition) (a : Option Nat) (now : Stamp) (r : Option Nat × Option Nat) :
    (q.place c a now r).InRange := by
  obtain ⟨h1, h2, h3, h4⟩ := h
  have fresh : ∀ e : StatusEntry, e.conditions = [c] → e.serial = q.nextSerial →
      e.conditions ≠ [] ∧ e.conditions.Nodup ∧ 1 ≤ e.serial ∧ e.serial ≤ 65535 := by
    intro e h5 h6; rw [h5, h6]; exact ⟨by simp, by simp, h2, h3⟩
  have hn := nextNumber_inRange ⟨h2, h3⟩
  unfold Queue.place
  dsimp only
  split
  · split
    · refine ⟨by simpa [length_onLast] using h1, h2, h3, fun e he => ?_⟩
      rcases mem_onLast he with k | ⟨x, hx, rfl⟩
      · exact h4 e k
      · obtain ⟨_, k2, k3⟩ := h4 x hx
        exact ⟨List.ne_nil_of_mem (mem_addTo.2 (Or.inl rfl)), nodup_addTo k2, k3⟩
    · rename_i hlt
      refine ⟨?_, hn.1, hn.2, fun e he => ?_⟩
      · simp only [not_or, not_le] at hlt
        simp only [List.length_append, List.length_singleton]
        omega
      · simp only [List.mem_append, List.mem_singleton] at he
        rcases he with k | rfl
        · exact h4 e k
        · exact fresh _ rfl rfl
  · refine ⟨by simp, hn.1, hn.2, fun e he => ?_⟩
    simp only [List.mem_singleton] at he
    rw [he]; exact fresh _ rfl rfl

theorem inRange_raise {s : State} (h : s.InRange) (st : StandIx) (c : Condition) (r : Option Nat × Option Nat) :
    (raise st c s r).InRange := by
  unfold raise; exact inRange_modQueue h st _ (fun k => inRange_place k c _ _ _)

theorem inRange_evalReelCall {s : State} (h : s.InRange) (st : StandIx) : (evalReelCall st s).InRange := by
  unfold evalReelCall; exact inRange_modQueue h st _ (fun k => k)

theorem inRange_evalRisk {s : State} (h : s.InRange) (st : StandIx) : (evalRisk st s).InRange := by
  unfold evalRisk
  dsimp only
  split
  · exact inRange_raise (inRange_modGauge h st _ (fun k => k)) st _ _
  · exact inRange_modGauge h st _ (fun k => k)

theorem inRange_retire {s : State} (h : s.InRange) (n : Nat) : (retire n s).InRange := by
  obtain ⟨h1, h2, h3, h4, h5, h6⟩ := h.splices
  have sub : (Table.erase n s.splices).Sublist s.splices := List.filter_sublist
  unfold retire
  split
  · split
    · exact ⟨h.stands, h.folders, h.reels, ⟨h1.sublist (sub.map _), fun x hx => h2 x (sub.subset hx),
        sub.length_le.trans h3, h4, h5, fun x hx => h6 x (sub.subset hx)⟩, h.link⟩
    · exact h
  · exact h

theorem inRange_chainOccasion {s : State} (h : s.InRange) (st : StandIx) : (chainOccasion st s).InRange :=
  inRange_modSeq h st _ rfl

theorem inRange_handOn {s : State} (h : s.InRange) (st : StandIx) (b : State) : (handOn st b s).InRange := by
  unfold handOn
  dsimp only
  split
  · exact inRange_evalReelCall (inRange_chainOccasion h st) st
  · exact inRange_evalReelCall h st

theorem keys_mapAll {α : Type} (f : Nat → α → α) (t : List (Nat × α)) : (Table.mapAll f t).map Prod.fst = t.map Prod.fst := by
  simp [Table.mapAll, Function.comp_def]

theorem inRange_verifyStand {s : State} (h : s.InRange) (st : StandIx) : (verifyStand st s).InRange :=
  inRange_reels h (keys_mapAll _ _)

theorem inRange_giveBack {s : State} (h : s.InRange) (st : StandIx) (u : Bool) (k : Nat) : (giveBack st u k s).InRange :=
  inRange_modReel h k _

theorem inRange_grantOccasion {s : State} (h : s.InRange) (f : FolderIx) : (grantOccasion f s).InRange :=
  inRange_modFolder h f _ (fun k => k)

theorem inRange_leaveWaits {s : State} (h : s.InRange) (f : FolderIx) (st : StandIx) : (leaveWaits f st s).InRange :=
  inRange_modFolder h f _ (fun k => k)

theorem inRange_releaseSlot {s : State} (h : s.InRange) (f : FolderIx) : (releaseSlot f s).InRange :=
  inRange_grantOccasion (inRange_modFolder h f _ (fun k => k)) f

theorem inRange_foldl {α : Type} (g : State → α → State) (hg : ∀ s a, s.InRange → (g s a).InRange) (l : List α) :
    ∀ {s : State}, s.InRange → (l.foldl g s).InRange := by
  induction l with
  | nil => intro s h; exact h
  | cons a t ih => intro s h; exact ih (hg s a h)

theorem inRange_markLeaves {s : State} (h : s.InRange) (x : MarkState) (n : Nat) : (markLeaves x n s).InRange := by
  unfold markLeaves
  split
  · have := inRange_modSplice h n (fun sp => { sp with mark := { sp.mark with state := x } }) (fun _ => ⟨rfl, rfl⟩)
    unfold unlist
    split
    · exact inRange_modFolder this _ _ (fun k => k)
    · exact this
  · exact h

theorem inRange_eject {s : State} (h : s.InRange) (f : FolderIx) (n : Nat) : (eject f n s).InRange :=
  inRange_grantOccasion (inRange_retire (inRange_markLeaves h _ n) n) f

theorem inRange_purge {s : State} (h : s.InRange) (test : Nat → Splice → Bool) : (purge test s).InRange := by
  unfold purge
  refine inRange_foldl _ (fun s f k => inRange_grantOccasion k f) _ ?_
  refine inRange_foldl _ (fun s p k => inRange_retire k _) _ ?_
  exact inRange_foldl _ (fun s p k => inRange_markLeaves k _ _) _ h

/-! ### Outputs -/

theorem Actuator.inRange_energise {a : Actuator} (h : a.InRange) (hot : Bool) (p : Nat) : (a.energise hot p).InRange := by
  unfold Actuator.energise
  split
  · split <;> simp [Actuator.InRange]
  · exact h
  · exact h

theorem Actuator.inRange_release (a : Actuator) : a.release.InRange := by simp [Actuator.InRange, Actuator.release]

theorem Actuator.inRange_pulledIn {a : Actuator} (h : a.InRange) : a.pulledIn.InRange := by
  unfold Actuator.pulledIn
  split
  · simp [Actuator.InRange]
  · exact h
  · exact h

theorem inRange_energisePaster {s : State} (h : s.InRange) (st : StandIx) : (energisePaster st s).InRange := by
  unfold energisePaster
  exact inRange_actuators h st _ (fun _ => ⟨rfl, rfl, rfl⟩) (fun _ a b c => ⟨Actuator.inRange_energise a _ _, b, c⟩)

theorem inRange_energiseBrake {s : State} (h : s.InRange) (st : StandIx) : (energiseBrake st s).InRange := by
  unfold energiseBrake
  exact inRange_actuators h st _ (fun _ => ⟨rfl, rfl, rfl⟩) (fun _ a b c => ⟨a, b, Actuator.inRange_energise c _ _⟩)

theorem inRange_energiseKnife {s : State} (h : s.InRange) (st : StandIx) : (energiseKnife st s).InRange := by
  unfold energiseKnife
  exact inRange_actuators h st _ (fun _ => ⟨rfl, rfl, rfl⟩) (fun _ a b c => ⟨a, Actuator.inRange_energise b _ _, c⟩)

theorem inRange_releasePaster {s : State} (h : s.InRange) (st : StandIx) : (releasePaster st s).InRange :=
  inRange_actuators h st _ (fun _ => ⟨rfl, rfl, rfl⟩) (fun x _ b c => ⟨Actuator.inRange_release x.paster, b, c⟩)

theorem inRange_releaseBrake {s : State} (h : s.InRange) (st : StandIx) : (releaseBrake st s).InRange :=
  inRange_actuators h st _ (fun _ => ⟨rfl, rfl, rfl⟩) (fun x a b _ => ⟨a, b, Actuator.inRange_release x.brake⟩)

/-- A change of the working state that leaves the demand, DRIVE-EN and the good count. -/
theorem inRange_modWork_same {s : State} (h : s.InRange) (st : StandIx) (f : Working → Working)
    (hf : ∀ w, (f w).demand = w.demand ∧ (f w).driveEn = w.driveEn ∧ (f w).goodCount = w.goodCount) :
    (s.modWork st f).InRange := by
  refine inRange_modWork h st f (fun w k => ?_)
  obtain ⟨a, b, c⟩ := hf w
  rw [Working.InRange, a, b, c]; exact k

theorem inRange_endKnifePulse {s : State} (h : s.InRange) (st : StandIx) : (endKnifePulse st s).InRange := by
  have h1 : (s.modField st (fun x => { x with knife := x.knife.release, knifePulse := none })).InRange :=
    inRange_actuators h st _ (fun _ => ⟨rfl, rfl, rfl⟩) (fun x a _ c => ⟨a, Actuator.inRange_release x.knife, c⟩)
  unfold endKnifePulse
  dsimp only
  split
  · exact h1
  · exact inRange_modWork_same h1 st _ (fun _ => ⟨rfl, rfl, rfl⟩)

theorem inRange_releaseKnife {s : State} (h : s.InRange) (st : StandIx) : (releaseKnife st s).InRange := by
  unfold releaseKnife
  split
  · exact inRange_endKnifePulse h st
  · exact h

/-! ### The splice record and the working state -/

theorem inRange_setSpliceState {s : State} (h : s.InRange) (n : Nat) (x : SpliceState) : (setSpliceState n x s).InRange :=
  inRange_modSplice h n _ (fun _ => ⟨rfl, rfl⟩)

theorem inRange_setCause {s : State} (h : s.InRange) (n : Nat) (c : EndCause) : (setCause n c s).InRange :=
  inRange_modSplice h n _ (fun _ => ⟨rfl, rfl⟩)

theorem inRange_noteSplice {s : State} (h : s.InRange) (n : Nat) (x : SpliceNote) : (noteSplice n x s).InRange :=
  inRange_modSplice h n _ (fun _ => ⟨rfl, rfl⟩)

theorem inRange_endRecord {s : State} (h : s.InRange) (n : Nat) (x : SpliceState) : (endRecord n x s).InRange := by
  unfold endRecord
  refine inRange_modSplice h n _ ?_
  intro _; exact ⟨rfl, rfl⟩

theorem inRange_workingReset : Working.reset.InRange := by decide

theorem inRange_endSplice {s : State} (h : s.InRange) (st : StandIx) (n : Nat) (x : SpliceState) (c : Condition) :
    (endSplice st n x c s).InRange := by
  unfold endSplice
  refine inRange_modWork (inRange_endRecord (inRange_raise h st c _) n x) st _ (fun w _ => ?_)
  unfold Working.afterEnd
  split
  · exact inRange_workingReset
  · exact inRange_workingReset

theorem inRange_afterEnd {s : State} (h : s.InRange) (st : StandIx) (n : Nat) : (afterEnd st n s).InRange :=
  inRange_evalReelCall (inRange_evalRisk (inRange_retire h n) st) st

theorem inRange_enterSpindown {s : State} (h : s.InRange) (st : StandIx) (n : Nat) (o : SpinOutcome) :
    (enterSpindown st n o s).InRange := by
  unfold enterSpindown
  exact inRange_modWork (inRange_setSpliceState h n _) st _ (fun w _ => ⟨⟨by simp, fun _ => rfl⟩, by simp⟩)

theorem inRange_leaveArbiter {s : State} (h : s.InRange) (st : StandIx) (sp : Splice) : (leaveArbiter st sp s).InRange := by
  unfold leaveArbiter
  (repeat' split) <;> first
    | exact inRange_leaveWaits h _ st
    | exact inRange_releaseSlot h _
    | exact h

theorem inRange_immediateAbort {s : State} (h : s.InRange) (st : StandIx) (n : Nat) (sp : Splice) (c : EndCause) :
    (immediateAbort st n sp c s).InRange :=
  inRange_evalRisk (inRange_retire (inRange_giveBack (inRange_endSplice (inRange_setCause h n c) st n _ _) st _ _) n) st

theorem inRange_abortToSpindown {s : State} (h : s.InRange) (st : StandIx) (n : Nat) (sp : Splice) (c : EndCause) :
    (abortToSpindown st n sp c s).InRange :=
  inRange_enterSpindown (inRange_leaveArbiter (inRange_giveBack (inRange_setCause h n c) st _ _) st sp) st n _

theorem inRange_giveUp {s : State} (h : s.InRange) (st : StandIx) (n : Nat) (sp : Splice) (c : EndCause) :
    (giveUp st n sp c s).InRange := by
  unfold giveUp
  split <;> first
    | exact inRange_immediateAbort h st n sp c
    | exact inRange_abortToSpindown h st n sp c
    | exact h

theorem inRange_endSpindown {s : State} (h : s.InRange) (st : StandIx) (n : Nat) : (endSpindown st n s).InRange :=
  inRange_afterEnd (inRange_endSplice (inRange_modWork h st
    (fun w => { w with driveEn := false, demand := 0, quietTimer := none, stopTimer := none })
    (fun w k => ⟨⟨by simp, fun _ => rfl⟩, k.2⟩)) st n _ _) st n

/-! ### Commit, triggers, margins -/

/-- A change of stand data that no range sees. -/
theorem inRange_modStand_same {s : State} (h : s.InRange) (st : StandIx) (f : Stand → Stand)
    (hf : ∀ x, (f x).plan = x.plan ∧ (f x).profile = x.profile ∧ (f x).oneShot = x.oneShot ∧ (f x).seq.work = x.seq.work
      ∧ (f x).gauge = x.gauge ∧ (f x).field = x.field ∧ (f x).queue = x.queue) : (s.modStand st f).InRange := by
  refine inRange_modStand h st f (fun k => ?_)
  obtain ⟨a, b, c, d, e, g, i⟩ := hf (s.stand st)
  exact k.of_eq a b c d e g i

theorem clampOptional_none : clampOptional noParams = noParams := by decide

theorem inRange_emptyOneShot {s : State} (h : s.InRange) (st : StandIx) :
    (s.modStand st (fun x => { x with oneShot := OneShot.empty })).InRange := by
  refine inRange_modStand h st _ (fun k => { k with oneShot := ?_ })
  exact clampOptional_none

theorem inRange_resolveSplice {s : State} (h : s.InRange) (st : StandIx) (n : Nat) (sp : Splice) :
    (resolveSplice st n sp s).InRange := by
  have h1 : (s.modSplice n (fun x => { x with params := (s.resolved sp).map some })).InRange :=
    inRange_modSplice h n _ (fun _ => ⟨rfl, rfl⟩)
  unfold resolveSplice
  dsimp only
  refine inRange_emptyOneShot ?_ st
  (repeat' split) <;> first
    | exact inRange_noteSplice (inRange_noteSplice h1 n _) n _
    | exact inRange_noteSplice h1 n _
    | exact h1

theorem inRange_failCommit {s : State} (h : s.InRange) (st : StandIx) (n : Nat) (sp : Splice) : (failCommit st n sp s).InRange :=
  inRange_afterEnd (inRange_handOn (inRange_giveBack (inRange_endSplice (inRange_raise (inRange_setCause h n _) st _ _) st n _ _)
    st _ _) st _) st n

theorem demandFor_le (v : Nat) (o : Int) : demandFor v o ≤ 65535 := by unfold demandFor; omega

theorem inRange_succeedCommit {s : State} (h : s.InRange) (st : StandIx) (n : Nat) (sp : Splice) (o : Int) :
    (succeedCommit st n sp o s).InRange := by
  unfold succeedCommit
  refine inRange_evalRisk (inRange_handOn (inRange_modWork (inRange_modSplice (inRange_modReel h _ _) n _ ?_) st _ ?_) st _) st
  · intro _; exact ⟨rfl, rfl⟩
  · intro w _; exact ⟨⟨demandFor_le _ _, by simp⟩, by simp⟩

theorem inRange_commit {s : State} (h : s.InRange) (st : StandIx) (n : Nat) (sp : Splice) : (commit st n sp s).InRange := by
  unfold commit
  dsimp only
  split
  · exact inRange_succeedCommit (inRange_resolveSplice h st n sp) st n sp _
  · exact inRange_failCommit (inRange_resolveSplice h st n sp) st n sp

theorem inRange_judgeStart {s : State} (h : s.InRange) (p : Bool) (st : StandIx) : (judgeStart p st s).InRange := by
  unfold judgeStart
  (repeat' split) <;> first
    | exact inRange_commit h st _ _
    | exact h

theorem inRange_enterWaiting {s : State} (h : s.InRange) (st : StandIx) (n : Nat) (sp : Splice) : (enterWaiting st n sp s).InRange := by
  unfold enterWaiting
  split
  · refine inRange_grantOccasion (inRange_modFolder (inRange_modWork_same (inRange_setSpliceState h n _) st _ ?_) _ _ (fun k => k)) _
    intro _; exact ⟨rfl, rfl, rfl⟩
  · exact h

theorem inRange_judgeWaiting {s : State} (h : s.InRange) (st : StandIx) : (judgeWaiting st s).InRange := by
  unfold judgeWaiting
  (repeat' split) <;> first
    | exact inRange_enterWaiting h st _ _
    | exact h

theorem inRange_refreshMargin {s : State} (h : s.InRange) (st : StandIx) : (refreshMargin st s).InRange := by
  unfold refreshMargin
  split
  · split
    · split
      · dsimp only
        split
        · exact h
        · exact inRange_grantOccasion (inRange_modFolder h _ _ (fun k => k)) _
      · exact h
    · exact h
  · exact h

theorem inRange_diameterChanged {s : State} (h : s.InRange) (st : StandIx) : (diameterChanged st s).InRange :=
  inRange_evalRisk (inRange_refreshMargin (inRange_judgeWaiting (inRange_judgeStart (inRange_evalReelCall h st) false st) st) st) st

/-! ### The paste, its failure, the web end, braking, indexing -/

theorem inRange_copyResiduals {s : State} (h : s.InRange) (n out : Nat) : (copyResiduals n out s).InRange := by
  unfold copyResiduals
  split
  · refine inRange_modSplice h n _ ?_
    intro _; exact ⟨rfl, rfl⟩
  · exact h

theorem inRange_startBraking {s : State} (h : s.InRange) (st : StandIx) (a : Option Arm) : (startBraking st a s).InRange := by
  unfold startBraking
  refine inRange_modWork_same (inRange_energiseBrake h st) st _ ?_
  intro _; exact ⟨rfl, rfl, rfl⟩

theorem Gauge.inRange_afresh {g : Gauge} (h : g.InRange) : g.afresh.InRange := ⟨by simp [Gauge.afresh], h.2.1, by simp [Gauge.afresh], by simp [Gauge.afresh]⟩

theorem inRange_gaugeAfresh {s : State} (h : s.InRange) (st : StandIx) (f : Gauge → Bool) :
    (s.modGauge st (fun g => { g.afresh with riskRaised := f g })).InRange :=
  inRange_modGauge h st (fun g => { g.afresh with riskRaised := f g }) (fun k => Gauge.inRange_afresh (g := (s.stand st).gauge) k)

theorem inRange_exitSlot {s : State} (h : s.InRange) (sp : Splice) : (match sp.folder with
      | some f => releaseSlot f s
      | none => s).InRange := by
  split
  · exact inRange_releaseSlot h _
  · exact h

theorem inRange_notCarried {s : State} (h : s.InRange) (st : StandIx) (n : Nat) (sp : Splice) : (notCarried st n sp s).InRange := by
  unfold notCarried
  refine inRange_evalRisk (inRange_handOn (inRange_enterSpindown (inRange_startBraking (inRange_gaugeAfresh (inRange_copyResiduals
    (inRange_noteSplice (inRange_giveBack (inRange_modReel (inRange_exitSlot ?_ sp) _ _) st _ _) n _) n _) st _) st _) st n _) st _) st
  exact inRange_purge (inRange_modSeq (inRange_releaseKnife (inRange_releasePaster (inRange_raise (inRange_setCause h n _) st _ _) st) st) st _ rfl) _

theorem inRange_webEnd {s : State} (h : s.InRange) (st : StandIx) (n : Nat) (sp : Splice) : (webEnd st n sp s).InRange := by
  unfold webEnd
  dsimp only
  refine inRange_evalRisk (inRange_handOn (inRange_setSpliceState (inRange_startBraking (inRange_evalRisk (inRange_gaugeAfresh
    (inRange_exitSlot ?_ sp) st (fun _ => false)) st) st _) n _) st _) st
  refine inRange_modWork (inRange_releasePaster (inRange_raise (inRange_copyResiduals (inRange_modReel (inRange_modReel
    (inRange_releaseKnife h st) _ _) _ _) n _) st _ _) st) st _ (fun w k => ⟨⟨by simp, fun _ => rfl⟩, k.2⟩)

theorem inRange_failPaste {s : State} (h : s.InRange) (st : StandIx) (n : Nat) (sp : Splice) : (failPaste st n sp s).InRange := by
  have h1 : ((releasePaster st s).modWork st (fun w => { w with confirmTimer := none })).InRange :=
    inRange_modWork_same (inRange_releasePaster h st) st _ (fun _ => ⟨rfl, rfl, rfl⟩)
  have h2 : (if (s.work st).markPlaced then purge (fun k _ => decide (k = n))
      ((releasePaster st s).modWork st (fun w => { w with confirmTimer := none }))
      else (releasePaster st s).modWork st (fun w => { w with confirmTimer := none })).InRange := by
    split
    · exact inRange_purge h1 _
    · exact h1
  unfold failPaste
  dsimp only
  generalize (if (s.work st).markPlaced then purge (fun k _ => decide (k = n))
      ((releasePaster st s).modWork st (fun w => { w with confirmTimer := none }))
      else (releasePaster st s).modWork st (fun w => { w with confirmTimer := none })) = t at h2 ⊢
  exact inRange_evalRisk (inRange_handOn (inRange_enterSpindown (inRange_exitSlot (inRange_noteSplice (inRange_giveBack h2 st _ _) n _) sp)
    st n _) st _) st

theorem inRange_pasteNotConfirmed {s : State} (h : s.InRange) (st : StandIx) (n : Nat) (sp : Splice) :
    (pasteNotConfirmed st n sp s).InRange :=
  inRange_failPaste (inRange_raise (inRange_setCause h n _) st _ _) st n sp

theorem inRange_firePoint {s : State} (h : s.InRange) (st : StandIx) (n : Nat) : (firePoint st n s).InRange := by
  unfold firePoint
  refine inRange_evalRisk (inRange_setSpliceState (inRange_modWork_same (inRange_energisePaster h st) st _ ?_) n _) st
  intro _; exact ⟨rfl, rfl, rfl⟩

theorem inRange_pasteFront {s : State} (h : s.InRange) (st : StandIx) (n : Nat) (sp : Splice) : (pasteFront st n sp s).InRange := by
  have h1 : ((s.modSplice n (fun x =>
    { x with
      pasted := some s.now
      mark := { state := .onTrack, path := some (s.stand st).plan.path, remaining := some ((s.stand st).plan.path : Int), waste := 0 } })).modWork st
      (fun w => { w with markPlaced := true })).InRange := by
    refine inRange_modWork_same (inRange_modSplice h n _ ?_) st _ ?_
    · intro _; exact ⟨rfl, rfl⟩
    · intro _; exact ⟨rfl, rfl, rfl⟩
  unfold pasteFront
  dsimp only
  split
  · exact inRange_grantOccasion (inRange_modFolder h1 _ _ (fun k => k)) _
  · exact h1

theorem inRange_handed {s : State} (h : s.InRange) (st : StandIx) (f : Field → List Handed) :
    (s.modField st (fun x => { x with handed := f x })).InRange :=
  inRange_modField h st _ (fun k => ⟨k.inputs, k.changes, k.outputs⟩)

theorem inRange_knifePoint {s : State} (h : s.InRange) (st : StandIx) (n : Nat) (sp : Splice) : (knifePoint st n sp s).InRange := by
  have h1 : ((energiseKnife st s).modWork st (fun w =>
    { w with carryDistance := some (s.stand st).profile.settings.carry, carryCount := 0 })).InRange :=
    inRange_modWork_same (inRange_energiseKnife h st) st _ (fun _ => ⟨rfl, rfl, rfl⟩)
  have h2 := inRange_evalRisk (inRange_setSpliceState h1 n .cutting) st
  unfold knifePoint
  dsimp only
  split
  · exact h2
  · exact inRange_notCarried (inRange_handed h2 st _) st n _

theorem inRange_judgePoints {s : State} (h : s.InRange) (st : StandIx) : (judgePoints st s).InRange := by
  have h1 : (judgeFirePoint st s).InRange := by
    unfold judgeFirePoint
    (repeat' split) <;> first
      | exact inRange_firePoint h st _
      | exact h
  have h2 : (judgeFront st (judgeFirePoint st s)).InRange := by
    unfold judgeFront
    (repeat' split) <;> first
      | exact inRange_pasteFront h1 st _ _
      | exact h1
  show (judgeKnifePoint st _).InRange
  unfold judgeKnifePoint
  (repeat' split) <;> first
    | exact inRange_knifePoint h2 st _ _
    | exact inRange_pasteNotConfirmed h2 st _ _
    | exact h2

theorem inRange_standEnd {s : State} (h : s.InRange) (st : StandIx) (n : Nat) (c : EndCause) : (standEnd st n c s).InRange := by
  unfold standEnd
  refine inRange_afterEnd (inRange_chainOccasion (inRange_endSplice (inRange_modWork_same (inRange_setCause h n _) st _ ?_) st n _ _) st) st n
  intro _; exact ⟨rfl, rfl, rfl⟩

theorem inRange_updateIndexReq {s : State} (h : s.InRange) (st : StandIx) : (updateIndexReq st s).InRange := by
  unfold updateIndexReq
  split
  · dsimp only
    split
    · exact h
    · exact inRange_modWork_same h st _ (fun _ => ⟨rfl, rfl, rfl⟩)
  · exact h

theorem inRange_gateFoundOpen {s : State} (h : s.InRange) (st : StandIx) : (gateFoundOpen st s).InRange := by
  unfold gateFoundOpen
  split
  · exact h
  · exact inRange_modWork_same (inRange_raise h st _ _) st _ (fun _ => ⟨rfl, rfl, rfl⟩)

theorem inRange_enterIndexing {s : State} (h : s.InRange) (st : StandIx) (n : Nat) : (enterIndexing st n s).InRange := by
  have h1 := inRange_setSpliceState h n .indexing
  have wait : (updateIndexReq st (if (setSpliceState n .indexing s).isInactive st .safetyGate then
      gateFoundOpen st (setSpliceState n .indexing s) else setSpliceState n .indexing s)).InRange := by
    refine inRange_updateIndexReq ?_ st
    split
    · exact inRange_gateFoundOpen h1 st
    · exact h1
  unfold enterIndexing
  dsimp only
  split
  · split
    · exact inRange_standEnd h1 st n _
    · split
      · exact wait
      · exact inRange_standEnd (inRange_raise h1 st _ _) st n _
  · exact inRange_standEnd (inRange_raise h1 st _ _) st n _
  · exact wait
  · exact wait

theorem inRange_endBraking {s : State} (h : s.InRange) (st : StandIx) (n : Nat) : (endBraking st n s).InRange := by
  unfold endBraking
  refine inRange_enterIndexing (inRange_modWork_same (inRange_releaseBrake h st) st _ ?_) st n
  intro _; exact ⟨rfl, rfl, rfl⟩

/-! ### Counts and pulses -/

theorem inRange_dropRunningDiameter {s : State} (h : s.InRange) (st : StandIx) : (dropRunningDiameter st s).InRange := by
  unfold dropRunningDiameter
  split
  · exact inRange_modReel h _ _
  · exact h

theorem inRange_streak {s : State} (h : s.InRange) (st : StandIx) : (s.modGauge st (fun g => { g with streak := 0 })).InRange :=
  inRange_modGauge h st _ (fun k => ⟨by simp, k.2⟩)

theorem inRange_runMarkLost {s : State} (h : s.InRange) (st : StandIx) : (runMarkLost st s).InRange :=
  inRange_streak (inRange_diameterChanged (inRange_dropRunningDiameter (inRange_raise h st _ _) st) st) st

theorem inRange_gaugeWebCount {s : State} (h : s.InRange) (st : StandIx) (d : Direction) : (gaugeWebCount st d s).InRange := by
  obtain ⟨g1, g2, g3, g4⟩ := (h.stands st).gauge
  unfold gaugeWebCount
  dsimp only
  split
  · rename_i hc
    obtain ⟨c1, c2, c3, c4⟩ := hc
    refine inRange_runMarkLost ?_ st
    unfold State.modGauge
    rw [modStand_modStand]
    refine inRange_modStand h st _ (fun k => { k with gauge := ⟨g1, g2, ?_, by simp⟩ })
    simp only [State.modGauge, stand_modStand] at c4
    show ((s.stand st).gauge.webCount d (s.runningReel st).isSome).runMark ≤ 4500
    omega
  · rename_i hc
    refine inRange_modGauge h st _ (fun k => ⟨g1, g2, ?_⟩)
    have e : ((s.modGauge st (Gauge.webCount d (s.runningReel st).isSome)).stand st).gauge.runMark
        = ((s.stand st).gauge.webCount d (s.runningReel st).isSome).runMark := by simp [State.modGauge]
    rw [e] at hc
    simp only [Gauge.webCount] at hc ⊢
    by_cases hr : (s.runningReel st).isSome = true ∧ (s.stand st).gauge.tripped = false
    · have := g4 hr.2
      simp only [hr.1, hr.2, and_self, if_true, true_and] at hc ⊢
      cases d with
      | forward => simp only [true_and] at hc ⊢; refine ⟨by omega, fun _ => by omega⟩
      | reverse => simp only at hc ⊢; refine ⟨by omega, fun _ => by omega⟩
    · rw [if_neg hr]; exact ⟨g3, g4⟩

theorem inRange_carryCheck {s : State} (h : s.InRange) (st : StandIx) : (carryCheck st s).InRange := by
  unfold carryCheck
  (repeat' split) <;> first
    | exact inRange_webEnd h st _ _
    | exact h

theorem mem_mapAll {α : Type} {f : Nat → α → α} {t : List (Nat × α)} {x : Nat × α} (hx : x ∈ Table.mapAll f t) :
    ∃ y ∈ t, x = (y.1, f y.1 y.2) := by
  obtain ⟨y, hy, rfl⟩ := List.mem_map.1 hx
  exact ⟨y, hy, rfl⟩

theorem inRange_moveMarks {s : State} (h : s.InRange) (st : StandIx) (d : Direction) : (moveMarks st d s).InRange := by
  obtain ⟨h1, h2, h3, h4, h5, h6⟩ := h.splices
  refine ⟨h.stands, h.folders, h.reels, ⟨?_, fun x hx => ?_, ?_, h4, h5, fun x hx => ?_⟩, h.link⟩
  · simp only [moveMarks, keys_mapAll]; exact h1
  · have hx' := hx
    unfold moveMarks at hx'; dsimp only at hx'
    obtain ⟨y, hy, rfl⟩ := mem_mapAll hx'; exact h2 y hy
  · simpa [moveMarks, Table.mapAll] using h3
  · have hx' := hx
    unfold moveMarks at hx'; dsimp only at hx'
    obtain ⟨y, hy, rfl⟩ := mem_mapAll hx'
    have := h6 y hy
    dsimp only
    split <;> exact this

theorem inRange_ejectPast {s : State} (h : s.InRange) (f : FolderIx) (test : SpliceRef → Bool) : (ejectPast f test s).InRange := by
  unfold ejectPast
  exact inRange_foldl _ (fun s r k => inRange_eject k f _) _ h

theorem inRange_trackWebCount {s : State} (h : s.InRange) (st : StandIx) (d : Direction) : (trackWebCount st d s).InRange := by
  unfold trackWebCount
  refine inRange_foldl _ (fun s f k => ?_) _ (inRange_moveMarks h st d)
  unfold crossed
  dsimp only
  split
  · exact inRange_foldl _ (fun s r k => inRange_grantOccasion k f) _ (inRange_ejectPast k f _)
  · exact inRange_ejectPast k f _

theorem inRange_restartQuiet {s : State} (h : s.InRange) (st : StandIx) : (restartQuiet st s).InRange := by
  unfold restartQuiet
  split
  · exact inRange_modWork_same h st _ (fun _ => ⟨rfl, rfl, rfl⟩)
  · exact h

theorem inRange_enterMatched {s : State} (h : s.InRange) (st : StandIx) (n : Nat) (sp : Splice) (g : Int) :
    (enterMatched st n sp g s).InRange := by
  unfold enterMatched
  exact inRange_judgeWaiting (inRange_modReel (inRange_modWork (inRange_setSpliceState h n _) st
    (fun w => { w with goodCount := 3, accelTimer := none }) (fun w k => ⟨k.1, by simp⟩)) _ _) st

theorem inRange_setMatched {s : State} (h : s.InRange) (st : StandIx) (sp : Splice) (x : Bool) : (setMatched st sp x s).InRange := by
  have h1 := inRange_modWork_same h st (fun w => { w with matched := x }) (fun _ => ⟨rfl, rfl, rfl⟩)
  unfold setMatched
  dsimp only
  split
  · exact inRange_modFolder h1 _ _ (fun k => k)
  · exact h1

theorem inRange_rematch {s : State} (h : s.InRange) (st : StandIx) (sp : Splice) (g : Int) : (rematch st sp g s).InRange := by
  have h1 := inRange_modReel (inRange_setMatched (inRange_modWork h st (fun w => { w with goodCount := 3 }) (fun w k => ⟨k.1, by simp⟩))
    st sp true) sp.incoming (fun r => { r with girth := some g.toNat, diameter := some (diameterOf g).toNat })
  unfold rematch
  dsimp only
  split
  · exact inRange_grantOccasion h1 _
  · exact h1

theorem inRange_afterRevolution {s : State} (h : s.InRange) (st : StandIx) (n : Nat) (sp : Splice) (good : Bool) (g : Int) :
    (afterRevolution st n sp good g s).InRange := by
  have clear := inRange_modWork h st (fun w => { w with goodCount := 0 }) (fun w k => ⟨k.1, by simp⟩)
  have add : (s.work st).goodCount < 2 → (s.modWork st (fun w => { w with goodCount := w.goodCount + 1 })).InRange := by
    intro hlt
    exact inRange_modWork_at h st _ ⟨(h.stands st).demand, by show (s.work st).goodCount + 1 ≤ 3; omega⟩
  unfold afterRevolution
  dsimp only
  split
  · split
    · split
      · exact inRange_enterMatched h st n sp g
      · rename_i k; exact add (by omega)
    · exact clear
  · split
    · exact h
    · exact inRange_modWork_same (inRange_setSpliceState clear n _) st _ (fun _ => ⟨rfl, rfl, rfl⟩)
  · split
    · split
      · exact h
      · exact inRange_setMatched clear st sp false
    · split
      · split
        · exact inRange_rematch h st sp g
        · rename_i k; exact add (by omega)
      · exact clear
  all_goals exact h

theorem inRange_firePulse {s : State} (h : s.InRange) (st : StandIx) (n : Nat) (sp : Splice) (g : Int) : (firePulse st n sp g s).InRange := by
  have k : ∀ p : FirePoints, (s.modWork st (fun w => { w with points := some p, fireCount := some 0 })).InRange := by
    intro p
    refine inRange_modWork_same h st _ ?_
    intro _; exact ⟨rfl, rfl, rfl⟩
  unfold firePulse
  dsimp only
  refine inRange_judgePoints ?_ st
  split
  · exact inRange_noteSplice (k _) n _
  · exact k _

theorem inRange_formRevolution {s : State} (h : s.InRange) (st : StandIx) (n : Nat) (sp : Splice) (r : Revolution) :
    (formRevolution st n sp r s).InRange := by
  have h1 := inRange_modWork_same h st (fun w => { w with revolution := some { tach := 0, web := 0 }, keptGirth := some r.tach })
    (fun _ => ⟨rfl, rfl, rfl⟩)
  unfold formRevolution
  dsimp only
  split
  · split
    · exact inRange_firePulse h1 st n sp _
    · exact h1
  · exact inRange_afterRevolution (inRange_modWork_same h1 st (fun w => { w with prevGirth := some r.tach }) (fun _ => ⟨rfl, rfl, rfl⟩)) st n sp _ _

theorem inRange_gaugeRevPulse {s : State} (h : s.InRange) (st : StandIx) (a : Arm) : (gaugeRevPulse st a s).InRange := by
  obtain ⟨g1, g2, g3, g4⟩ := (h.stands st).gauge
  unfold gaugeRevPulse
  split
  · split
    · dsimp only
      split
      · exact inRange_modGauge h st _ (fun k => ⟨g1, g2, by simp [Gauge.setReference], by simp [Gauge.setReference]⟩)
      · have h1 : (s.modGauge st (fun g => { g with revCount := 0, runMark := 0 })).InRange :=
          inRange_modGauge h st _ (fun k => ⟨g1, g2, by simp, by simp⟩)
        split
        · exact h1
        · unfold judgeCandidate
          split
          · exact inRange_diameterChanged (inRange_streak (inRange_modReel h1 _ _) st) st
          · split
            · exact inRange_diameterChanged (inRange_streak (inRange_dropRunningDiameter (inRange_raise h1 st _ _) st) st) st
            · rename_i hne
              refine inRange_modGauge h1 st _ (fun k => ⟨?_, k.2⟩)
              have := k.1
              show _ + 1 ≤ 2
              omega
    · exact h
  · exact h

theorem inRange_seqRevPulse {s : State} (h : s.InRange) (st : StandIx) (a : Arm) : (seqRevPulse st a s).InRange := by
  unfold seqRevPulse
  split
  · exact inRange_modWork_same h st _ (fun _ => ⟨rfl, rfl, rfl⟩)
  · exact h

theorem speedOf_le (w : Int) : speedOf w ≤ 65535 := by unfold speedOf; omega

theorem inRange_sample {s : State} (h : s.InRange) (st : StandIx) : (s.modGauge st Gauge.sample).InRange :=
  inRange_modGauge h st _ (fun k => ⟨k.1, speedOf_le _, k.2.2⟩)

theorem inRange_followWeb {s : State} (h : s.InRange) (st : StandIx) : (followWeb st s).InRange := by
  unfold followWeb
  split
  · split
    · rename_i c
      refine inRange_modWork_at h st _ ⟨⟨demandFor_le _ _, fun e => ?_⟩, (h.stands st).goodCount⟩
      have e' : (s.work st).driveEn = false := e
      rw [c.1] at e'; exact absurd e' (by simp)
    · exact h
  · exact h

/-! ### Inputs, the star, the reels, the web -/

theorem input_setInput (x : Field) (i j : Input) (d : Debounce) :
    (x.setInput i d).input j = if inputIx j = inputIx i then d else x.input j := by
  simp only [Field.input, Field.setInput, Vector.get_eq_getElem]
  by_cases e : inputIx j = inputIx i
  · rw [if_pos e, e]; simp
  · rw [if_neg e, Vector.getElem_set_ne]
    exact fun k => e (Fin.ext k.symm)

theorem Field.inRange_setInput {x : Field} (h : x.InRange) (i : Input) {d : Debounce}
    (hd : d.run ≤ 2 ∧ (d.run = 0 ↔ d.candidate = none) ∧ (d.candidate ≠ none → d.candidate ≠ d.accepted)) : (x.setInput i d).InRange := by
  refine ⟨fun j => ?_, h.changes, h.outputs⟩
  rw [input_setInput]
  split
  · exact hd
  · exact h.inputs j

theorem Field.inRange_enter {x : Field} (h : x.InRange) (i : Input) (l : Fin 4) : (x.enter i l).InRange := by
  obtain ⟨h1, h2, h3⟩ := h.changes
  have hadv : (x.advance.changes.map ChangeEntry.input).Nodup ∧ x.advance.snapshot ≤ 4294967295
      ∧ ∀ e ∈ x.advance.changes, 1 ≤ e.changes ∧ e.changes ≤ 255 := by
    unfold Field.advance
    split
    · refine ⟨by simpa [Function.comp_def] using h1, by simp, fun e he => ?_⟩
      obtain ⟨y, hy, rfl⟩ := List.mem_map.1 he
      exact h3 y hy
    · exact ⟨h1, by show x.snapshot + 1 ≤ _; omega, h3⟩
  have hin : x.advance.inputs = x.inputs := by unfold Field.advance; split <;> rfl
  have hpa : x.advance.paster = x.paster ∧ x.advance.knife = x.knife ∧ x.advance.brake = x.brake := by
    unfold Field.advance; split <;> exact ⟨rfl, rfl, rfl⟩
  obtain ⟨k1, k2, k3⟩ := hadv
  refine ⟨fun j => ?_, ⟨?_, k2, fun e he => ?_⟩, ?_⟩
  · have : (x.enter i l).input j = x.input j := by simp [Field.enter, Field.input, hin]
    rw [this]; exact h.inputs j
  · simp only [Field.enter, List.map_append, List.map_cons, List.map_nil]
    refine List.Nodup.append (k1.sublist (List.Sublist.map _ List.filter_sublist)) (by simp) ?_
    simp only [List.disjoint_singleton, nextEntry]
    intro hm
    obtain ⟨y, hy, e⟩ := List.mem_map.1 hm
    have := (List.mem_filter.1 hy).2
    simp [e] at this
  · simp only [Field.enter, List.mem_append, List.mem_singleton] at he
    rcases he with he | rfl
    · exact k3 e (List.mem_filter.1 he).1
    · simp only [nextEntry]
      split <;> omega
  · show ∀ a ∈ [x.advance.paster, x.advance.knife, x.advance.brake], _
    rw [hpa.1, hpa.2.1, hpa.2.2]; exact h.outputs

theorem inRange_acceptInput {s : State} (h : s.InRange) (st : StandIx) (i : Input) (l : Fin 4) : (acceptInput st i l s).InRange := by
  unfold acceptInput
  refine inRange_modField h st _ (fun k => ?_)
  have h1 := Field.inRange_setInput k i (d := { accepted := some l, candidate := none, run := 0 }) (by simp)
  dsimp only
  split
  · exact Field.inRange_enter h1 i l
  · exact h1

theorem inRange_settleIndex {s : State} (h : s.InRange) (st : StandIx) (i : Input) : (settleIndex st i s).InRange := by
  unfold settleIndex
  split
  · exact inRange_updateIndexReq h st
  · exact h

theorem Debounce.inRange_take {d : Debounce} (h : d.run ≤ 2 ∧ (d.run = 0 ↔ d.candidate = none) ∧ (d.candidate ≠ none → d.candidate ≠ d.accepted))
    (l : Fin 4) : (d.take l).1.run ≤ 2 ∧ ((d.take l).1.run = 0 ↔ (d.take l).1.candidate = none)
      ∧ ((d.take l).1.candidate ≠ none → (d.take l).1.candidate ≠ (d.take l).1.accepted) := by
  obtain ⟨h1, h2, h3⟩ := h
  unfold Debounce.take
  split
  · simp
  · rename_i ha
    split
    · rename_i hc
      split
      · simp
      · refine ⟨by show d.run + 1 ≤ 2; omega, by simp [hc], h3⟩
    · refine ⟨by simp, by simp, fun _ e => ha ?_⟩
      exact e.symm

theorem inRange_sampleInput {s : State} (h : s.InRange) (st : StandIx) (i : Input) (l : Fin 4) : (sampleInput st i l s).InRange := by
  unfold sampleInput
  dsimp only
  split
  · split
    · exact inRange_handed (inRange_acceptInput h st i l) st _
    · exact inRange_settleIndex (inRange_acceptInput h st i l) st i
  · exact inRange_modField h st _ (fun k => Field.inRange_setInput k i (Debounce.inRange_take (k.inputs i) l))

theorem inRange_takeChange {s : State} (h : s.InRange) (st : StandIx) (i : Input) (l : Fin 4) {f : State → State}
    (hf : ∀ s : State, s.InRange → (f s).InRange) : (takeChange st i l f s).InRange := by
  unfold takeChange
  dsimp only
  split
  · split
    · exact hf _ (inRange_handed h st _)
    · exact h
  · split
    · exact h
    · split
      · exact hf _ (inRange_acceptInput h st i l)
      · exact inRange_settleIndex (inRange_acceptInput h st i l) st i

theorem inRange_departure {s : State} (h : s.InRange) (st : StandIx) : (departure st s).InRange := by
  unfold departure
  (repeat' split) <;> first
    | exact inRange_giveUp (inRange_raise h st _ _) st _ _ _
    | exact inRange_raise h st _ _
    | exact h

theorem inRange_settling {s : State} (h : s.InRange) (st : StandIx) (j : Arm) : (settling st j s).InRange := by
  have h1 := fun n => inRange_standEnd h st n .indexed
  have h2 := fun n => inRange_standEnd (inRange_raise h st .starMoved (none, none)) st n .starSettledElsewhere
  unfold settling
  split
  · exact h
  · split
    · split
      · exact h1 _
      · exact h2 _
    · exact h

theorem inRange_starTaken {s : State} (h : s.InRange) (st : StandIx) (code : Fin 4) : (starTaken st code s).InRange := by
  have h1 : (setStar st (starOf code) s).InRange := by
    unfold setStar
    refine inRange_modStand_same h st _ ?_
    intro _; exact ⟨rfl, rfl, rfl, rfl, rfl, rfl, rfl⟩
  unfold starTaken
  dsimp only
  split
  · exact inRange_handOn (inRange_settling (inRange_departure h1 st) st _) st _
  · exact inRange_handOn (inRange_departure h1 st) st _
  · exact inRange_handOn (inRange_settling h1 st _) st _
  · exact inRange_handOn (inRange_settling h1 st _) st _
  all_goals exact h1

theorem inRange_loseReserved {s : State} (h : s.InRange) (st : StandIx) (k : Nat) : (loseReserved st k s).InRange := by
  have h1 := inRange_raise h st .reelLost (none, none)
  unfold loseReserved
  dsimp only
  (repeat' split) <;> first
    | exact h1
    | exact inRange_handOn (inRange_modReel (inRange_giveUp h1 st _ _ _) _ _) st _

theorem inRange_reelLost {s : State} (h : s.InRange) (st : StandIx) (a : Arm) : (reelLost st a s).InRange := by
  unfold reelLost
  (repeat' split) <;> first
    | exact h
    | exact inRange_loseReserved h st _
    | exact inRange_raise h st _ _
    | exact inRange_handOn (inRange_modReel h _ _) st _

theorem inRange_webLost {s : State} (h : s.InRange) (st : StandIx) : (webLost st s).InRange := by
  have h1 : (purgeStand st ((raise st .webBreak s).modSeq st (fun q => { q with webBroken := true }))).InRange :=
    inRange_purge (inRange_modSeq (inRange_raise h st _ _) st _ rfl) _
  have h2 : (webBreak st s).InRange := by
    unfold webBreak
    dsimp only
    (repeat' split) <;> first
      | exact h1
      | exact inRange_handOn (inRange_giveUp h1 st _ _ _) st _
      | exact inRange_failPaste (inRange_setCause h1 _ _) st _ _
  unfold webLost
  (repeat' split) <;> first
    | exact inRange_notCarried h st _ _
    | exact h2

/-! ### Arming, the grant, acknowledgement, RESET STAND -/

theorem inRange_chainBlocked {s : State} (h : s.InRange) (st : StandIx) : (chainBlocked st s).InRange := by
  unfold chainBlocked
  split
  · exact h
  · exact inRange_modSeq (inRange_raise h st _ _) st _ rfl

theorem inRange_grant {s : State} (h : s.InRange) (f : FolderIx) (e : WaitEntry) : (grant f e s).InRange := by
  have h1 := inRange_modFolder h f (fun F => { F with slot := some { splice := e.splice, stand := e.stand } }) (fun k => k)
  unfold grant
  dsimp only
  refine inRange_modWork (inRange_setSpliceState (inRange_leaveWaits h1 f _) _ _) _ _ ?_
  intro w k
  exact ⟨k.1, Nat.zero_le _⟩

theorem inRange_evaluateGrant {s : State} (h : s.InRange) (f : FolderIx) : (evaluateGrant f s).InRange := by
  unfold evaluateGrant
  split
  · exact h
  · split
    · exact inRange_grant h f _
    · exact h

end Sys2Proof.Machine
end

