-- ==== Sys2Proof/Laws/Receiver.lean ====
section
/-! SUPPORT. The receiver over the bytes of one frame (R162 to R164). -/

namespace Sys2Proof.Machine

/-- The judgement of a frame does not read the receiver. -/
theorem judgeFrame_receiver (frame : List Byte) (l : Link) (r : Receiver) :
    judgeFrame frame { l with receiver := r } = { judgeFrame frame l with receiver := r } := by
  match frame with
  | [] => rfl
  | [_] => rfl
  | [_, _] => rfl
  | [_, _, _] => rfl
  | len :: cl :: tag :: code :: rest =>
    simp only [judgeFrame]
    by_cases h : rest.drop len.toNat = checkBytes (len :: cl :: tag :: code :: rest.take len.toNat)
    · simp only [if_pos h]
      cases clientOf cl with
      | none => rfl
      | some c => dsimp only [joinList]; by_cases k : l.list.length < 16 <;> simp [k]
    · simp only [if_neg h]

/-- A character without a framing error, taken by the running device. -/
theorem exec_characterReceived (b : Byte) {s : State} (h : s.runs) (hp : s.link.resetPending = false) :
    exec (.characterReceived b false) s = .next (s.modLink (Link.receive b false)) := by
  simp only [exec, execCharacterReceived]
  rw [onDevice_of_runs _ h]
  simp [hp]

/-- The rest of a frame, once its length byte is held: the whole frame is judged at its last byte, and the receiver is in
HUNT again. -/
theorem execAll_restOfFrame (bs : List Byte) (x len : Byte) (held : List Byte) (s : State) (h : s.runs)
    (hp : s.link.resetPending = false) (hr : s.link.receiver = .receiving (x :: len :: held))
    (hl : held.length + 2 + bs.length = 7 + len.toNat) (hb : bs ≠ []) :
    execAll (arriving bs) s =
      .next { s with link := { judgeFrame (len :: held ++ bs) s.link with receiver := .hunt } } := by
  induction bs generalizing held s with
  | nil => exact absurd rfl hb
  | cons b bs ih =>
    simp only [arriving, List.map_cons, execAll, exec_characterReceived b h hp]
    by_cases hn : bs = []
    · subst hn
      have e : held.length + 3 = 7 + len.toNat := by simpa using hl
      simp [execAll, State.modLink, Link.receive, hr, receiveByte, frameSize, e]
    · have e : ¬ held.length + 3 = 7 + len.toNat := by
        intro e
        have := List.length_pos_iff.2 hn
        simp only [List.length_cons] at hl
        omega
      have e2 : s.modLink (Link.receive b false) =
          { s with link := { s.link with receiver := .receiving (x :: len :: (held ++ [b])) } } := by
        simp [State.modLink, Link.receive, hr, receiveByte, frameSize, e]
      have := ih (held ++ [b]) { s with link := { s.link with receiver := .receiving (x :: len :: (held ++ [b])) } } h hp rfl
        (by simp only [List.length_append, List.length_cons, List.length_nil] at hl ⊢; omega) hn
      rw [arriving] at this
      rw [e2, this]
      simp [judgeFrame_receiver]

end Sys2Proof.Machine
end

