-- ==== Sys2Proof/Laws/Reels.lean ====
section
/-! SUPPORT. The order of the reel records (`State.ReelsInOrder`) seen through a view of the state: of each record what the order
says of it; of each stand its active splice; of each active splice its two reels and its stage. Operations that leave the view leave
the order; each kind of transition has a lemma. -/

namespace Sys2Proof.Machine

/-- What the order says of one reel record. -/
structure ReelView where
  code : List Nat
  good : Bool
  loc : Option (StandIx × Arm)
  state : ReelState
  reservedBy : Option Nat
  unready : Bool
deriving DecidableEq, Repr

def Reel.view (r : Reel) : ReelView := ⟨r.code, paperOk r.paper, r.loc, r.state, r.reservedBy, decide (r.reasons ≠ [])⟩

/-- The view of a reel record by its handle. -/
def State.reelView (s : State) (h : Nat) : Option ReelView := (s.reel? h).map Reel.view

def ReelView.on (st : StandIx) (v : ReelView) : Bool :=
  match v.loc with
  | some (t, _) => decide (t = st)
  | none => false

/-- How far a splice is with its two reels (R30, R31). -/
inductive Stage where
  | armed | driving | past
deriving DecidableEq, Repr

def stageOf : SpliceState → Stage
  | .armed => .armed
  | .accel | .matched | .waiting | .firing | .pasting | .cutting => .driving
  | .braking | .indexing | .spindown | .completed | .aborted | .failed => .past

/-- The state of a reel reserved at a stage. -/
def Stage.reelState : Stage → ReelState
  | .armed => .ready
  | .driving => .committed
  | .past => .committed

/-- The reels of a splice and its stage. -/
structure SpliceHold where
  incoming : Nat
  outgoing : Nat
  stage : Stage
deriving DecidableEq, Repr

def Splice.hold (sp : Splice) : SpliceHold := ⟨sp.incoming, sp.outgoing, stageOf sp.state⟩

/-- The reels and the stage of a splice by its number. -/
def State.hold (s : State) (n : Nat) : Option SpliceHold := (s.splice? n).map Splice.hold

/-- A record that is right by itself. -/
structure ReelView.Right (v : ReelView) : Prop where
  paper : v.good = true
  code : codeFault v.code = none
  floor : v.state = .floor → v.loc = none
  located : v.state = .mounted ∨ v.state = .ready ∨ v.state = .committed ∨ v.state = .running → v.loc ≠ none
  reasons : v.unready = true ↔ v.state = .mounted
  committed : v.state = .committed → v.reservedBy ≠ none

/-- The order of the reel records in terms of the view. -/
structure ReelsOrdered (s : State) : Prop where
  right : ∀ h v, s.reelView h = some v → v.Right
  codes : ∀ h k v w, s.reelView h = some v → s.reelView k = some w → v.code = w.code → h = k
  arms : ∀ h k v w l, s.reelView h = some v → s.reelView k = some w → v.loc = some l → w.loc = some l → h = k
  running : ∀ st h k v w, s.reelView h = some v → s.reelView k = some w → v.state = .running → w.state = .running →
    v.on st = true → w.on st = true → h = k
  reserved : ∀ h v n, s.reelView h = some v → v.reservedBy = some n →
    ∃ st x, (s.work st).active = some n ∧ s.hold n = some x ∧ x.incoming = h ∧ v.on st = true ∧ x.stage ≠ .past
      ∧ v.state = x.stage.reelState
  incoming : ∀ st n x, (s.work st).active = some n → s.hold n = some x → x.stage ≠ .past →
    ∃ v, s.reelView x.incoming = some v ∧ v.reservedBy = some n
  outgoing : ∀ st n x, (s.work st).active = some n → s.hold n = some x → x.stage ≠ .past →
    ∃ v, s.reelView x.outgoing = some v ∧ v.state = .running ∧ v.on st = true

theorem reelView_eq_some {s : State} {h : Nat} {v : ReelView} : s.reelView h = some v ↔ ∃ r, s.reel? h = some r ∧ r.view = v := by
  simp [State.reelView]

theorem reelView_of_reel? {s : State} {h : Nat} {r : Reel} (e : s.reel? h = some r) : s.reelView h = some r.view := by
  simp [State.reelView, e]

theorem hold_eq_some {s : State} {n : Nat} {x : SpliceHold} : s.hold n = some x ↔ ∃ sp, s.splice? n = some sp ∧ sp.hold = x := by
  simp [State.hold]

theorem hold_of_splice? {s : State} {n : Nat} {sp : Splice} (e : s.splice? n = some sp) : s.hold n = some sp.hold := by
  simp [State.hold, e]

theorem on_view (st : StandIx) (r : Reel) : r.view.on st = onStand st r := rfl

theorem holdsReels_iff (x : SpliceState) : holdsReels x = true ↔ stageOf x ≠ .past := by cases x <;> decide

theorem reelState_stageOf {x : SpliceState} (h : holdsReels x = true) :
    (stageOf x).reelState = if x = .armed then .ready else .committed := by
  revert h; cases x <;> decide

/-- The two forms of the order say the same. -/
theorem reelsInOrder_iff_ordered (s : State) : s.ReelsInOrder ↔ ReelsOrdered s := by
  constructor
  · intro h
    refine ⟨fun k v e => ?_, fun k j v w e f => ?_, fun k j v w l e f => ?_, fun st k j v w e f => ?_, fun k v n e hn => ?_,
      fun st n x ha hx hs => ?_, fun st n x ha hx hs => ?_⟩
    · obtain ⟨r, e', rfl⟩ := reelView_eq_some.1 e
      exact ⟨h.paper k r e', h.codes.1 k r e', (h.located k r e').1, (h.located k r e').2,
        by simpa [Reel.view] using h.reasons k r e', h.committed k r e'⟩
    · obtain ⟨r, e', rfl⟩ := reelView_eq_some.1 e
      obtain ⟨q, f', rfl⟩ := reelView_eq_some.1 f
      exact h.codes.2 k j r q e' f'
    · obtain ⟨r, e', rfl⟩ := reelView_eq_some.1 e
      obtain ⟨q, f', rfl⟩ := reelView_eq_some.1 f
      exact h.arms k j r q l e' f'
    · obtain ⟨r, e', rfl⟩ := reelView_eq_some.1 e
      obtain ⟨q, f', rfl⟩ := reelView_eq_some.1 f
      exact h.running st k j r q e' f'
    · obtain ⟨r, e', rfl⟩ := reelView_eq_some.1 e
      obtain ⟨st, sp, h1, h2, h3, h4, h5, h6⟩ := h.reserved k r n e' hn
      exact ⟨st, sp.hold, h1, hold_of_splice? h2, h3, h4, (holdsReels_iff _).1 h5, h6.trans (reelState_stageOf h5).symm⟩
    · obtain ⟨sp, e, rfl⟩ := hold_eq_some.1 hx
      obtain ⟨⟨r, h1, h2⟩, _⟩ := h.held st n sp ha e ((holdsReels_iff _).2 hs)
      exact ⟨_, reelView_of_reel? h1, h2⟩
    · obtain ⟨sp, e, rfl⟩ := hold_eq_some.1 hx
      obtain ⟨_, r, h1, h2, h3⟩ := h.held st n sp ha e ((holdsReels_iff _).2 hs)
      exact ⟨_, reelView_of_reel? h1, h2, h3⟩
  · intro h
    refine ⟨fun k r e => (h.right k _ (reelView_of_reel? e)).paper, ⟨fun k r e => (h.right k _ (reelView_of_reel? e)).code,
      fun k j r q e f => h.codes k j _ _ (reelView_of_reel? e) (reelView_of_reel? f)⟩,
      fun k j r q l e f => h.arms k j _ _ l (reelView_of_reel? e) (reelView_of_reel? f),
      fun k r e => ⟨(h.right k _ (reelView_of_reel? e)).floor, (h.right k _ (reelView_of_reel? e)).located⟩,
      fun k r e => by simpa [Reel.view] using (h.right k _ (reelView_of_reel? e)).reasons,
      fun st k j r q e f => h.running st k j _ _ (reelView_of_reel? e) (reelView_of_reel? f), fun k r n e hn => ?_,
      fun k r e => (h.right k _ (reelView_of_reel? e)).committed, fun st n sp ha e hs => ⟨?_, ?_⟩⟩
    · obtain ⟨st, x, h1, h2, h3, h4, h5, h6⟩ := h.reserved k _ n (reelView_of_reel? e) hn
      obtain ⟨sp, h2', rfl⟩ := hold_eq_some.1 h2
      have hh := (holdsReels_iff _).2 h5
      exact ⟨st, sp, h1, h2', h3, h4, hh, h6.trans (reelState_stageOf hh)⟩
    · obtain ⟨v, h1, h2⟩ := h.incoming st n _ ha (hold_of_splice? e) ((holdsReels_iff _).1 hs)
      obtain ⟨r, h1', rfl⟩ := reelView_eq_some.1 h1
      exact ⟨r, h1', h2⟩
    · obtain ⟨v, h1, h2, h3⟩ := h.outgoing st n _ ha (hold_of_splice? e) ((holdsReels_iff _).1 hs)
      obtain ⟨r, h1', rfl⟩ := reelView_eq_some.1 h1
      exact ⟨r, h1', h2, h3⟩

/-! ### Operations that leave the view -/

/-- The view of the reels is as before. -/
structure SameReels (s t : State) : Prop where
  reels : ∀ h, t.reelView h = s.reelView h
  active : ∀ st, (t.work st).active = (s.work st).active
  hold : ∀ st n, (s.work st).active = some n → t.hold n = s.hold n

theorem SameReels.refl (s : State) : SameReels s s := ⟨fun _ => rfl, fun _ => rfl, fun _ _ _ => rfl⟩

theorem SameReels.trans {s t u : State} (h : SameReels s t) (k : SameReels t u) : SameReels s u :=
  ⟨fun i => (k.reels i).trans (h.reels i), fun i => (k.active i).trans (h.active i),
   fun i n e => (k.hold i n ((h.active i).trans e)).trans (h.hold i n e)⟩

theorem ReelsOrdered.of_same {s t : State} (h : ReelsOrdered s) (k : SameReels s t) : ReelsOrdered t := by
  refine ⟨fun i v => ?_, fun i j v w => ?_, fun i j v w l => ?_, fun st i j v w => ?_, fun i v n e hn => ?_,
    fun st n x ha hx hs => ?_, fun st n x ha hx hs => ?_⟩
  · rw [k.reels]; exact h.right i v
  · rw [k.reels, k.reels]; exact h.codes i j v w
  · rw [k.reels, k.reels]; exact h.arms i j v w l
  · rw [k.reels, k.reels]; exact h.running st i j v w
  · rw [k.reels] at e
    obtain ⟨st, x, h1, h2, h3⟩ := h.reserved i v n e hn
    exact ⟨st, x, (k.active st).trans h1, (k.hold st n h1).trans h2, h3⟩
  · rw [k.active] at ha; rw [k.hold st n ha] at hx; rw [k.reels]; exact h.incoming st n x ha hx hs
  · rw [k.active] at ha; rw [k.hold st n ha] at hx; rw [k.reels]; exact h.outgoing st n x ha hx hs

theorem SameReels.inOrder {s t : State} (k : SameReels s t) (h : s.ReelsInOrder) : t.ReelsInOrder :=
  (reelsInOrder_iff_ordered t).2 (((reelsInOrder_iff_ordered s).1 h).of_same k)

/-- The same tables and active splices give the same view. -/
theorem sameReels_of_eq {s t : State} (h1 : t.reels = s.reels) (h2 : t.splices = s.splices)
    (h3 : ∀ st, (t.work st).active = (s.work st).active) : SameReels s t :=
  ⟨fun h => by simp [State.reelView, State.reel?, h1], h3, fun _ n _ => by simp [State.hold, State.splice?, h2]⟩

/-! ### Changes of the view -/

/-- Unreserved records that are not RUNNING change, each by itself; a new location is a free arm. -/
theorem ReelsOrdered.revise {s t : State} (h : ReelsOrdered s)
    (hr : ∀ i, t.reelView i = s.reelView i ∨ ∃ v w, s.reelView i = some v ∧ t.reelView i = some w ∧ w.Right ∧ w.code = v.code
      ∧ v.reservedBy = none ∧ w.reservedBy = none ∧ v.state ≠ .running ∧ w.state ≠ .running)
    (harms : ∀ i j v w l, t.reelView i = some v → t.reelView j = some w → v.loc = some l → w.loc = some l → i = j)
    (ha : ∀ st, (t.work st).active = (s.work st).active) (hh : ∀ st n, (s.work st).active = some n → t.hold n = s.hold n) :
    ReelsOrdered t := by
  have back : ∀ i w, t.reelView i = some w → ∃ v, s.reelView i = some v ∧ w.Right ∧ w.code = v.code ∧ (w = v ∨
      v.reservedBy = none ∧ w.reservedBy = none ∧ v.state ≠ .running ∧ w.state ≠ .running) := by
    intro i w e
    rcases hr i with k | ⟨v, w', h1, h2, h3, h4, h5⟩
    · rw [k] at e; exact ⟨w, e, h.right i w e, rfl, Or.inl rfl⟩
    · rw [h2] at e; cases e; exact ⟨v, h1, h3, h4, Or.inr h5⟩
  have keep : ∀ i v, s.reelView i = some v → v.reservedBy ≠ none ∨ v.state = .running → t.reelView i = some v := by
    intro i v e hv
    rcases hr i with k | ⟨v', w', h1, h2, h3, h4, h5, h6, h7, h8⟩
    · rw [k]; exact e
    · rw [e] at h1; cases h1
      rcases hv with hv | hv
      · exact absurd h5 hv
      · exact absurd hv h7
  refine ⟨fun i w e => ?_, fun i j v w e f hc => ?_, harms, fun st i j v w e f hv hw ov ow => ?_, fun i w n e hn => ?_,
    fun st n x a hx hs => ?_, fun st n x a hx hs => ?_⟩
  · exact (back i w e).choose_spec.2.1
  · obtain ⟨v', e', _, c1, _⟩ := back i v e
    obtain ⟨w', f', _, c2, _⟩ := back j w f
    exact h.codes i j v' w' e' f' (c1 ▸ c2 ▸ hc)
  · obtain ⟨v', e', _, _, c1⟩ := back i v e
    obtain ⟨w', f', _, _, c2⟩ := back j w f
    rcases c1 with rfl | c1
    · rcases c2 with rfl | c2
      · exact h.running st i j _ _ e' f' hv hw ov ow
      · exact absurd hw c2.2.2.2
    · exact absurd hv c1.2.2.2
  · obtain ⟨v, e', _, _, c⟩ := back i w e
    rcases c with rfl | c
    · obtain ⟨st, x, h1, h2, h3⟩ := h.reserved i _ n e' hn
      exact ⟨st, x, (ha st).trans h1, (hh st n h1).trans h2, h3⟩
    · rw [c.2.1] at hn; cases hn
  · rw [ha] at a; rw [hh st n a] at hx
    obtain ⟨v, h1, h2⟩ := h.incoming st n x a hx hs
    exact ⟨v, keep _ v h1 (Or.inl (by rw [h2]; simp)), h2⟩
  · rw [ha] at a; rw [hh st n a] at hx
    obtain ⟨v, h1, h2, h3⟩ := h.outgoing st n x a hx hs
    exact ⟨v, keep _ v h1 (Or.inr h2), h2, h3⟩

/-- No record on a new arm: the arms stay single. -/
theorem ReelsOrdered.arms_of_sub {s t : State} (h : ReelsOrdered s)
    (hl : ∀ i w l, t.reelView i = some w → w.loc = some l → ∃ v, s.reelView i = some v ∧ v.loc = some l) :
    ∀ i j v w l, t.reelView i = some v → t.reelView j = some w → v.loc = some l → w.loc = some l → i = j := by
  intro i j v w l e f hv hw
  obtain ⟨v', e', hv'⟩ := hl i v l e hv
  obtain ⟨w', f', hw'⟩ := hl j w l f hw
  exact h.arms i j v' w' l e' f' hv' hw'

theorem ReelsOrdered.unreserved_running {s : State} (h : ReelsOrdered s) {i : Nat} {v : ReelView} (e : s.reelView i = some v)
    (hv : v.state = .running) : v.reservedBy = none := by
  cases k : v.reservedBy with
  | none => rfl
  | some n =>
    obtain ⟨_, x, _, _, _, _, _, h6⟩ := h.reserved i v n e k
    rw [hv] at h6
    revert h6; cases x.stage <;> simp [Stage.reelState]

/-- The active splice of a stand lets go of its reels. -/
theorem ReelsOrdered.letGo {s t : State} (h : ReelsOrdered s) {st : StandIx} {n : Nat} {x : SpliceHold} {v w u u' : ReelView}
    (hact : (s.work st).active = some n) (hx : s.hold n = some x) (hs : x.stage ≠ .past)
    (honly : ∀ i, (s.work i).active = some n → i = st)
    (hv : s.reelView x.incoming = some v) (hw : t.reelView x.incoming = some w) (hu : s.reelView x.outgoing = some u)
    (hu' : t.reelView x.outgoing = some u') (hrest : ∀ i, i ≠ x.incoming → i ≠ x.outgoing → t.reelView i = s.reelView i)
    (hwr : w.Right) (hwc : w.code = v.code) (hwl : w.loc = v.loc ∨ w.loc = none) (hwn : w.reservedBy = none)
    (hur : u'.Right) (huc : u'.code = u.code) (hul : u'.loc = u.loc) (hun : u'.reservedBy = none)
    (hrun : w.state = .running → u'.state ≠ .running)
    (ha : ∀ i, (t.work i).active = (s.work i).active ∨ i = st ∧ (t.work i).active = none)
    (hh : ∀ i m, (s.work i).active = some m → m ≠ n → t.hold m = s.hold m)
    (hp : (t.work st).active = some n → ∀ y, t.hold n = some y → y.stage = .past) : ReelsOrdered t := by
  obtain ⟨v0, hv0, hvn⟩ := h.incoming st n x hact hx hs
  rw [hv] at hv0; cases hv0
  obtain ⟨u0, hu0, hurun, huon⟩ := h.outgoing st n x hact hx hs
  rw [hu] at hu0; cases hu0
  obtain ⟨st', x', r1, r2, _, r4, _, r6⟩ := h.reserved _ v n hv hvn
  rw [honly st' r1] at r4
  rw [hx] at r2; cases r2
  have hvnr : v.state ≠ .running := by rw [r6]; cases x.stage <;> simp [Stage.reelState]
  have hne : x.incoming ≠ x.outgoing := by
    intro e; rw [e, hu] at hv; cases hv; exact hvnr hurun
  have back : ∀ i z, t.reelView i = some z → ∃ z0, s.reelView i = some z0 ∧ z.Right ∧ z.code = z0.code
      ∧ (z.loc = z0.loc ∨ z.loc = none) ∧ (z = z0 ∨ z.reservedBy = none) := by
    intro i z e
    by_cases ei : i = x.incoming
    · subst ei; rw [hw] at e; cases e; exact ⟨v, hv, hwr, hwc, hwl, Or.inr hwn⟩
    · by_cases eo : i = x.outgoing
      · subst eo; rw [hu'] at e; cases e; exact ⟨u, hu, hur, huc, Or.inl hul, Or.inr hun⟩
      · rw [hrest i ei eo] at e; exact ⟨z, e, h.right i z e, rfl, Or.inl rfl, Or.inl rfl⟩
  have tact : ∀ i m, (t.work i).active = some m → (s.work i).active = some m := by
    intro i m e
    rcases ha i with k | ⟨_, k⟩
    · rw [← k]; exact e
    · rw [k] at e; cases e
  refine ⟨fun i z e => (back i z e).choose_spec.2.1, fun i j z y e f hc => ?_, fun i j z y l e f hz hy => ?_,
    fun sd i j z y e f hz hy oz oy => ?_, fun i z m e hn => ?_, fun sd m y a hy hsy => ?_, fun sd m y a hy hsy => ?_⟩
  · obtain ⟨z0, e0, _, c1, _⟩ := back i z e
    obtain ⟨y0, f0, _, c2, _⟩ := back j y f
    exact h.codes i j z0 y0 e0 f0 (c1 ▸ c2 ▸ hc)
  · obtain ⟨z0, e0, _, _, c1, _⟩ := back i z e
    obtain ⟨y0, f0, _, _, c2, _⟩ := back j y f
    refine h.arms i j z0 y0 l e0 f0 ?_ ?_
    · rcases c1 with c | c <;> rw [c] at hz
      · exact hz
      · cases hz
    · rcases c2 with c | c <;> rw [c] at hy
      · exact hy
      · cases hy
  · -- the running reel of stand sd
    have wst : t.reelView x.incoming = some w → w.on sd = true → sd = st := by
      intro _ o
      have : w.loc = v.loc := by
        rcases hwl with k | k
        · exact k
        · simp [ReelView.on, k] at o
      simp only [ReelView.on] at o r4
      rw [this] at o
      cases hl : v.loc with
      | none => rw [hl] at o; cases o
      | some p => rw [hl] at o r4; simp only [decide_eq_true_eq] at o r4; exact o.symm.trans r4
    have run : ∀ i z, t.reelView i = some z → z.state = .running → z.on sd = true → i ≠ x.incoming →
        ∃ z0, s.reelView i = some z0 ∧ z0.state = .running ∧ z0.on sd = true := by
      intro i z e hz oz ei
      by_cases eo : i = x.outgoing
      · subst eo; rw [hu'] at e; cases e
        exact ⟨u, hu, hurun, by simpa [ReelView.on, hul] using oz⟩
      · rw [hrest i ei eo] at e; exact ⟨z, e, hz, oz⟩
    by_cases ei : i = x.incoming
    · by_cases ej : j = x.incoming
      · rw [ei, ej]
      · exfalso
        subst ei; rw [hw] at e; cases e
        have hsd := wst hw oz; subst hsd
        obtain ⟨y0, f0, g1, g2⟩ := run j y f hy oy ej
        have := h.running _ j x.outgoing y0 u f0 hu g1 hurun g2 huon
        subst this
        rw [hu'] at f; cases f
        exact hrun hz hy
    · by_cases ej : j = x.incoming
      · exfalso
        subst ej; rw [hw] at f; cases f
        have hsd := wst hw oy; subst hsd
        obtain ⟨z0, e0, g1, g2⟩ := run i z e hz oz ei
        have := h.running _ i x.outgoing z0 u e0 hu g1 hurun g2 huon
        subst this
        rw [hu'] at e; cases e
        exact hrun hy hz
      · obtain ⟨z0, e0, g1, g2⟩ := run i z e hz oz ei
        obtain ⟨y0, f0, g3, g4⟩ := run j y f hy oy ej
        exact h.running sd i j z0 y0 e0 f0 g1 g3 g2 g4
  · obtain ⟨z0, e0, _, _, _, c⟩ := back i z e
    rcases c with rfl | c
    · obtain ⟨sd, y, h1, h2, h3, h4, h5, h6⟩ := h.reserved i _ m e0 hn
      have hmn : m ≠ n := by
        rintro rfl
        rw [hx] at h2; cases h2
        subst h3; rw [hw] at e; cases e
        rw [hwn] at hn; cases hn
      have hsd : sd ≠ st := by rintro rfl; rw [hact] at h1; exact hmn (Option.some.inj h1).symm
      refine ⟨sd, y, ?_, (hh sd m h1 hmn).trans h2, h3, h4, h5, h6⟩
      rcases ha sd with k | ⟨k, _⟩
      · exact k.trans h1
      · exact absurd k hsd
    · rw [c] at hn; cases hn
  · have a0 := tact sd m a
    have hmn : m ≠ n := by
      rintro rfl
      have := honly sd a0; subst this
      exact hsy (hp a y hy)
    rw [hh sd m a0 hmn] at hy
    obtain ⟨z, h1, h2⟩ := h.incoming sd m y a0 hy hsy
    refine ⟨z, ?_, h2⟩
    rw [hrest _ ?_ ?_, h1]
    · intro e; rw [e, hv] at h1; cases h1; rw [hvn] at h2; exact hmn (Option.some.inj h2).symm
    · intro e; rw [e, hu] at h1; cases h1; rw [h.unreserved_running hu hurun] at h2; cases h2
  · have a0 := tact sd m a
    have hmn : m ≠ n := by
      rintro rfl
      have := honly sd a0; subst this
      exact hsy (hp a y hy)
    rw [hh sd m a0 hmn] at hy
    obtain ⟨z, h1, h2, h3⟩ := h.outgoing sd m y a0 hy hsy
    refine ⟨z, ?_, h2, h3⟩
    rw [hrest _ ?_ ?_, h1]
    · intro e; rw [e, hv] at h1; cases h1; exact hvnr h2
    · intro e
      rw [e, hu] at h1; cases h1
      simp only [ReelView.on] at h3 huon
      cases hl : u.loc with
      | none => rw [hl] at h3; cases h3
      | some p =>
        rw [hl] at h3 huon
        simp only [decide_eq_true_eq] at h3 huon
        have : sd = st := h3.symm.trans huon
        subst this
        rw [hact] at a0; exact hmn (Option.some.inj a0).symm

/-- An active splice past its reels ends. -/
theorem ReelsOrdered.ended {s t : State} (h : ReelsOrdered s) {st : StandIx} {n : Nat} {x : SpliceHold}
    (hact : (s.work st).active = some n) (hx : s.hold n = some x) (hs : x.stage = .past)
    (hr : ∀ i, t.reelView i = s.reelView i)
    (ha : ∀ i, (t.work i).active = if i = st then none else (s.work i).active)
    (hh : ∀ i m, i ≠ st → (s.work i).active = some m → t.hold m = s.hold m) : ReelsOrdered t := by
  have tact : ∀ i m, (t.work i).active = some m → i ≠ st ∧ (s.work i).active = some m := by
    intro i m e
    rw [ha] at e
    by_cases k : i = st
    · rw [if_pos k] at e; cases e
    · rw [if_neg k] at e; exact ⟨k, e⟩
  refine ⟨fun i v => by rw [hr]; exact h.right i v, fun i j v w => by rw [hr, hr]; exact h.codes i j v w,
    fun i j v w l => by rw [hr, hr]; exact h.arms i j v w l, fun sd i j v w => by rw [hr, hr]; exact h.running sd i j v w,
    fun i v m e hn => ?_, fun sd m y a hy hsy => ?_, fun sd m y a hy hsy => ?_⟩
  · rw [hr] at e
    obtain ⟨sd, y, h1, h2, h3, h4, h5, h6⟩ := h.reserved i v m e hn
    have hsd : sd ≠ st := by
      rintro rfl
      rw [hact] at h1; cases h1
      rw [hx] at h2; cases h2
      exact h5 hs
    exact ⟨sd, y, by rw [ha, if_neg hsd]; exact h1, (hh sd m hsd h1).trans h2, h3, h4, h5, h6⟩
  · obtain ⟨hsd, a0⟩ := tact sd m a
    rw [hh sd m hsd a0] at hy; rw [hr]; exact h.incoming sd m y a0 hy hsy
  · obtain ⟨hsd, a0⟩ := tact sd m a
    rw [hh sd m hsd a0] at hy; rw [hr]; exact h.outgoing sd m y a0 hy hsy

/-- A splice is armed: the reel at SPLICE is reserved, the splice new and active. -/
theorem ReelsOrdered.armed {s t : State} (h : ReelsOrdered s) {st : StandIx} {n : Nat} {x : SpliceHold} {v u : ReelView}
    (hidle : (s.work st).active = none) (hx : t.hold n = some x)
    (hs : x.stage = .armed) (hv : s.reelView x.incoming = some v) (hvr : v.state = .ready) (hvn : v.reservedBy = none)
    (hvo : v.on st = true) (hu : s.reelView x.outgoing = some u) (hur : u.state = .running) (huo : u.on st = true)
    (hr : ∀ i, t.reelView i = if i = x.incoming then some { v with reservedBy := some n } else s.reelView i)
    (ha : ∀ i, (t.work i).active = if i = st then some n else (s.work i).active)
    (hh : ∀ i m, (s.work i).active = some m → t.hold m = s.hold m) : ReelsOrdered t := by
  have hne : x.outgoing ≠ x.incoming := by
    intro e; rw [e, hv] at hu; cases hu; rw [hvr] at hur; cases hur
  have back : ∀ i z, t.reelView i = some z → ∃ z0, s.reelView i = some z0 ∧ z.Right ∧ z.code = z0.code ∧ z.loc = z0.loc
      ∧ z.state = z0.state ∧ (i = x.incoming ∧ z.reservedBy = some n ∧ z = { v with reservedBy := some n } ∨ z = z0) := by
    intro i z e
    rw [hr] at e
    by_cases k : i = x.incoming
    · rw [if_pos k] at e; cases e
      have hv' := h.right _ v hv
      exact ⟨v, by rw [k]; exact hv, ⟨hv'.paper, hv'.code, hv'.floor, hv'.located, hv'.reasons, fun _ => by simp⟩, rfl, rfl, rfl,
        Or.inl ⟨k, rfl, rfl⟩⟩
    · rw [if_neg k] at e; exact ⟨z, e, h.right i z e, rfl, rfl, rfl, Or.inr rfl⟩
  have on_congr : ∀ (sd : StandIx) (z y : ReelView), z.loc = y.loc → z.on sd = y.on sd := by
    intro sd z y e; simp only [ReelView.on, e]
  refine ⟨fun i z e => (back i z e).choose_spec.2.1, fun i j z y e f hc => ?_, fun i j z y l e f hz hy => ?_,
    fun sd i j z y e f hz hy oz oy => ?_, fun i z m e hn => ?_, fun sd m y a hy hsy => ?_, fun sd m y a hy hsy => ?_⟩
  · obtain ⟨z0, e0, _, c1, _⟩ := back i z e
    obtain ⟨y0, f0, _, c2, _⟩ := back j y f
    exact h.codes i j z0 y0 e0 f0 (c1 ▸ c2 ▸ hc)
  · obtain ⟨z0, e0, _, _, c1, _⟩ := back i z e
    obtain ⟨y0, f0, _, _, c2, _⟩ := back j y f
    exact h.arms i j z0 y0 l e0 f0 (c1 ▸ hz) (c2 ▸ hy)
  · obtain ⟨z0, e0, _, _, c1, d1, _⟩ := back i z e
    obtain ⟨y0, f0, _, _, c2, d2, _⟩ := back j y f
    exact h.running sd i j z0 y0 e0 f0 (d1 ▸ hz) (d2 ▸ hy) (on_congr sd _ _ c1 ▸ oz) (on_congr sd _ _ c2 ▸ oy)
  · obtain ⟨z0, e0, _, _, _, _, c⟩ := back i z e
    rcases c with ⟨k, c, d⟩ | rfl
    · rw [hn] at c; cases c
      refine ⟨st, x, by rw [ha, if_pos rfl], hx, k.symm, ?_, by rw [hs]; decide, ?_⟩
      · rw [d]; exact hvo
      · rw [d, hs]; exact hvr
    · obtain ⟨sd, y, h1, h2, h3⟩ := h.reserved i z m e0 hn
      have hsd : sd ≠ st := by rintro rfl; rw [hidle] at h1; cases h1
      exact ⟨sd, y, by rw [ha, if_neg hsd]; exact h1, (hh sd m h1).trans h2, h3⟩
  all_goals
    rw [ha] at a
    by_cases k : sd = st
  · rw [if_pos k] at a; cases a
    rw [hx] at hy; cases hy
    exact ⟨_, by rw [hr, if_pos rfl], rfl⟩
  · rw [if_neg k] at a
    rw [hh sd m a] at hy
    obtain ⟨z, h1, h2⟩ := h.incoming sd m y a hy hsy
    refine ⟨z, ?_, h2⟩
    rw [hr, if_neg, h1]
    intro e; rw [e, hv] at h1; cases h1; rw [hvn] at h2; cases h2
  · rw [if_pos k] at a; cases a
    rw [hx] at hy; cases hy
    subst k
    exact ⟨u, by rw [hr, if_neg hne]; exact hu, hur, huo⟩
  · rw [if_neg k] at a
    rw [hh sd m a] at hy
    obtain ⟨z, h1, h2, h3⟩ := h.outgoing sd m y a hy hsy
    refine ⟨z, ?_, h2, h3⟩
    rw [hr, if_neg, h1]
    intro e; rw [e, hv] at h1; cases h1; rw [hvr] at h2; cases h2

/-- An armed splice is committed with its reel. -/
theorem ReelsOrdered.commits {s t : State} (h : ReelsOrdered s) {st : StandIx} {n : Nat} {x : SpliceHold} {v : ReelView}
    (hact : (s.work st).active = some n) (honly : ∀ i, (s.work i).active = some n → i = st) (hx : s.hold n = some x)
    (hs : x.stage = .armed) (hv : s.reelView x.incoming = some v) (hx' : t.hold n = some { x with stage := .driving })
    (hr : ∀ i, t.reelView i = if i = x.incoming then some { v with state := .committed } else s.reelView i)
    (ha : ∀ i, (t.work i).active = (s.work i).active)
    (hh : ∀ i m, (s.work i).active = some m → m ≠ n → t.hold m = s.hold m) : ReelsOrdered t := by
  obtain ⟨v0, hv0, hvn⟩ := h.incoming st n x hact hx (by rw [hs]; decide)
  rw [hv] at hv0; cases hv0
  obtain ⟨st', x', r1, r2, _, r4, _, r6⟩ := h.reserved _ v n hv hvn
  rw [honly st' r1] at r4
  rw [hx] at r2; cases r2
  have hvr : v.state = .ready := by rw [r6, hs]; rfl
  have back : ∀ i z, t.reelView i = some z → ∃ z0, s.reelView i = some z0 ∧ z.Right ∧ z.code = z0.code ∧ z.loc = z0.loc
      ∧ (i = x.incoming ∧ z = { v with state := .committed } ∧ z0 = v ∨ z = z0) := by
    intro i z e
    rw [hr] at e
    by_cases k : i = x.incoming
    · rw [if_pos k] at e; cases e
      have hv' := h.right _ v hv
      refine ⟨v, by rw [k]; exact hv, ⟨hv'.paper, hv'.code, fun c => (by cases c), fun _ => hv'.located (by simp [hvr]), ?_,
        fun _ => by simp [hvn]⟩, rfl, rfl, Or.inl ⟨k, rfl, rfl⟩⟩
      have := hv'.reasons
      rw [hvr] at this
      simpa using this
    · rw [if_neg k] at e; exact ⟨z, e, h.right i z e, rfl, rfl, Or.inr rfl⟩
  refine ⟨fun i z e => (back i z e).choose_spec.2.1, fun i j z y e f hc => ?_, fun i j z y l e f hz hy => ?_,
    fun sd i j z y e f hz hy oz oy => ?_, fun i z m e hn => ?_, fun sd m y a hy hsy => ?_, fun sd m y a hy hsy => ?_⟩
  · obtain ⟨z0, e0, _, c1, _⟩ := back i z e
    obtain ⟨y0, f0, _, c2, _⟩ := back j y f
    exact h.codes i j z0 y0 e0 f0 (c1 ▸ c2 ▸ hc)
  · obtain ⟨z0, e0, _, _, c1, _⟩ := back i z e
    obtain ⟨y0, f0, _, _, c2, _⟩ := back j y f
    exact h.arms i j z0 y0 l e0 f0 (c1 ▸ hz) (c2 ▸ hy)
  · obtain ⟨z0, e0, _, _, _, c1⟩ := back i z e
    obtain ⟨y0, f0, _, _, _, c2⟩ := back j y f
    rcases c1 with ⟨_, rfl, _⟩ | rfl
    · cases hz
    · rcases c2 with ⟨_, rfl, _⟩ | rfl
      · cases hy
      · exact h.running sd i j _ _ e0 f0 hz hy oz oy
  · obtain ⟨z0, e0, _, _, _, c⟩ := back i z e
    rcases c with ⟨k, rfl, _⟩ | rfl
    · have : m = n := Option.some.inj (hn.symm.trans hvn)
      subst this
      exact ⟨st, _, (ha st).trans hact, hx', k.symm, r4, by simp, rfl⟩
    · obtain ⟨sd, y, h1, h2, h3, h4⟩ := h.reserved i z m e0 hn
      have hmn : m ≠ n := by
        rintro rfl
        rw [hx] at h2; cases h2
        rw [hr, if_pos h3.symm] at e; cases e
        have := h4.2.2
        rw [hs] at this; cases this
      exact ⟨sd, y, (ha sd).trans h1, (hh sd m h1 hmn).trans h2, h3, h4⟩
  all_goals
    rw [ha] at a
    by_cases k : m = n
  · subst k
    rw [hx'] at hy; cases hy
    refine ⟨{ v with state := .committed }, ?_, hvn⟩
    show t.reelView x.incoming = _
    rw [hr, if_pos rfl]
  · rw [hh sd m a k] at hy
    obtain ⟨z, h1, h2⟩ := h.incoming sd m y a hy hsy
    refine ⟨z, ?_, h2⟩
    rw [hr, if_neg, h1]
    intro e; rw [e, hv] at h1; cases h1; rw [hvn] at h2; exact k (Option.some.inj h2).symm
  · subst k
    rw [hx'] at hy; cases hy
    obtain ⟨z, h1, h2, h3⟩ := h.outgoing sd m x a hx (by rw [hs]; decide)
    refine ⟨z, ?_, h2, h3⟩
    show t.reelView x.outgoing = some z
    rw [hr, if_neg, h1]
    intro e; rw [e, hv] at h1; cases h1; rw [hvr] at h2; cases h2
  · rw [hh sd m a k] at hy
    obtain ⟨z, h1, h2, h3⟩ := h.outgoing sd m y a hy hsy
    refine ⟨z, ?_, h2, h3⟩
    rw [hr, if_neg, h1]
    intro e; rw [e, hv] at h1; cases h1; rw [hvr] at h2; cases h2

/-- A reel becomes the running reel of a stand without a splice; another RUNNING one becomes BUTT. -/
theorem ReelsOrdered.threaded {s t : State} (h : ReelsOrdered s) {st : StandIx} {k : Nat} {v w : ReelView}
    (hidle : (s.work st).active = none) (hv : s.reelView k = some v) (hw : t.reelView k = some w) (hvn : v.on st = true)
    (hwr : w.Right) (hwc : w.code = v.code) (hwl : w.loc = v.loc) (hwn : w.reservedBy = none)
    (hrest : ∀ i, i ≠ k → t.reelView i = s.reelView i ∧ (∀ z, s.reelView i = some z → ¬ (z.state = .running ∧ z.on st = true))
      ∨ ∃ z z', s.reelView i = some z ∧ t.reelView i = some z' ∧ z.state = .running ∧ z.on st = true ∧ z'.Right
        ∧ z'.code = z.code ∧ z'.loc = z.loc ∧ z'.reservedBy = none ∧ z'.state ≠ .running)
    (ha : ∀ i, (t.work i).active = (s.work i).active) (hh : ∀ i m, (s.work i).active = some m → t.hold m = s.hold m) :
    ReelsOrdered t := by
  have on_congr : ∀ (sd : StandIx) (z y : ReelView), z.loc = y.loc → z.on sd = y.on sd := by
    intro sd z y e; simp only [ReelView.on, e]
  have on_eq : ∀ (sd : StandIx) (z : ReelView), z.on sd = true → z.on st = true → sd = st := by
    intro sd z h1 h2
    simp only [ReelView.on] at h1 h2
    cases hl : z.loc with
    | none => rw [hl] at h1; cases h1
    | some p => rw [hl] at h1 h2; simp only [decide_eq_true_eq] at h1 h2; exact h1.symm.trans h2
  have vres : v.reservedBy = none := by
    cases c : v.reservedBy with
    | none => rfl
    | some n =>
      obtain ⟨sd, x, h1, _, _, h4, _⟩ := h.reserved k v n hv c
      rw [on_eq sd v h4 hvn, hidle] at h1; cases h1
  have back : ∀ i z, t.reelView i = some z → ∃ z0, s.reelView i = some z0 ∧ z.Right ∧ z.code = z0.code ∧ z.loc = z0.loc
      ∧ (i = k ∧ z.reservedBy = none ∨ i ≠ k ∧ z = z0 ∧ ¬ (z.state = .running ∧ z.on st = true)
        ∨ i ≠ k ∧ z.reservedBy = none ∧ z.state ≠ .running) := by
    intro i z e
    by_cases c : i = k
    · subst c; rw [hw] at e; cases e; exact ⟨v, hv, hwr, hwc, hwl, Or.inl ⟨rfl, hwn⟩⟩
    · rcases hrest i c with ⟨k1, k2⟩ | ⟨y, y', k1, k2, k3, k4, k5, k6, k7, k8, k9⟩
      · rw [k1] at e; exact ⟨z, e, h.right i z e, rfl, rfl, Or.inr (Or.inl ⟨c, rfl, k2 z e⟩)⟩
      · rw [k2] at e; cases e; exact ⟨y, k1, k5, k6, k7, Or.inr (Or.inr ⟨c, k8, k9⟩)⟩
  have keep : ∀ i z, s.reelView i = some z → z.reservedBy ≠ none ∨ z.state = .running ∧ z.on st = false →
      t.reelView i = some z := by
    intro i z e hz
    by_cases c : i = k
    · subst c; rw [hv] at e; cases e
      rcases hz with hz | hz
      · exact absurd vres hz
      · rw [hvn] at hz; cases hz.2
    · rcases hrest i c with ⟨k1, _⟩ | ⟨y, y', k1, k2, k3, k4, k5⟩
      · rw [k1]; exact e
      · rw [e] at k1; cases k1
        rcases hz with hz | hz
        · exact absurd (h.unreserved_running e k3) hz
        · rw [k4] at hz; cases hz.2
  refine ⟨fun i z e => (back i z e).choose_spec.2.1, fun i j z y e f hc => ?_, fun i j z y l e f hz hy => ?_,
    fun sd i j z y e f hz hy oz oy => ?_, fun i z m e hn => ?_, fun sd m y a hy hsy => ?_, fun sd m y a hy hsy => ?_⟩
  · obtain ⟨z0, e0, _, c1, _⟩ := back i z e
    obtain ⟨y0, f0, _, c2, _⟩ := back j y f
    exact h.codes i j z0 y0 e0 f0 (c1 ▸ c2 ▸ hc)
  · obtain ⟨z0, e0, _, _, c1, _⟩ := back i z e
    obtain ⟨y0, f0, _, _, c2, _⟩ := back j y f
    exact h.arms i j z0 y0 l e0 f0 (c1 ▸ hz) (c2 ▸ hy)
  · obtain ⟨z0, e0, _, _, l1, c1⟩ := back i z e
    obtain ⟨y0, f0, _, _, l2, c2⟩ := back j y f
    rcases c1 with ⟨rfl, _⟩ | ⟨_, rfl, c1⟩ | ⟨_, _, c1⟩
    · rcases c2 with ⟨rfl, _⟩ | ⟨_, rfl, c2⟩ | ⟨_, _, c2⟩
      · rfl
      · rw [hv] at e0; cases e0
        rw [on_congr sd _ _ l1] at oz
        rw [on_eq sd v oz hvn] at oy
        exact absurd ⟨hy, oy⟩ c2
      · exact absurd hy c2
    · rcases c2 with ⟨rfl, _⟩ | ⟨_, rfl, c2⟩ | ⟨_, _, c2⟩
      · rw [hv] at f0; cases f0
        rw [on_congr sd _ _ l2] at oy
        rw [on_eq sd v oy hvn] at oz
        exact absurd ⟨hz, oz⟩ c1
      · exact h.running sd i j _ _ e0 f0 hz hy oz oy
      · exact absurd hy c2
    · exact absurd hz c1
  · obtain ⟨z0, e0, _, _, _, c⟩ := back i z e
    rcases c with ⟨_, c⟩ | ⟨_, rfl, _⟩ | ⟨_, c, _⟩
    · rw [c] at hn; cases hn
    · obtain ⟨sd, y, h1, h2, h3⟩ := h.reserved i z m e0 hn
      exact ⟨sd, y, (ha sd).trans h1, (hh sd m h1).trans h2, h3⟩
    · rw [c] at hn; cases hn
  · rw [ha] at a; rw [hh sd m a] at hy
    obtain ⟨z, h1, h2⟩ := h.incoming sd m y a hy hsy
    exact ⟨z, keep _ z h1 (Or.inl (by rw [h2]; simp)), h2⟩
  · rw [ha] at a; rw [hh sd m a] at hy
    obtain ⟨z, h1, h2, h3⟩ := h.outgoing sd m y a hy hsy
    refine ⟨z, keep _ z h1 (Or.inr ⟨h2, ?_⟩), h2, h3⟩
    cases c : z.on st with
    | false => rfl
    | true => rw [on_eq sd z h3 c, hidle] at a; cases a

/-- A new record on the floor, with a code that no other holds. -/
theorem ReelsOrdered.announced {s t : State} (h : ReelsOrdered s) {k : Nat} {w : ReelView} (hfree : s.reelView k = none)
    (hr : ∀ i, t.reelView i = if i = k then some w else s.reelView i) (hwr : w.Right) (hwl : w.loc = none)
    (hwn : w.reservedBy = none) (hws : w.state ≠ .running) (hwc : ∀ i z, s.reelView i = some z → z.code ≠ w.code)
    (ha : ∀ i, (t.work i).active = (s.work i).active) (hh : ∀ i m, (s.work i).active = some m → t.hold m = s.hold m) :
    ReelsOrdered t := by
  have back : ∀ i z, t.reelView i = some z → i = k ∧ z = w ∨ i ≠ k ∧ s.reelView i = some z := by
    intro i z e
    rw [hr] at e
    by_cases c : i = k
    · rw [if_pos c] at e; cases e; exact Or.inl ⟨c, rfl⟩
    · rw [if_neg c] at e; exact Or.inr ⟨c, e⟩
  have keep : ∀ i z, s.reelView i = some z → t.reelView i = some z := by
    intro i z e
    rw [hr, if_neg, e]
    rintro rfl; rw [hfree] at e; cases e
  refine ⟨fun i z e => ?_, fun i j z y e f hc => ?_, fun i j z y l e f hz hy => ?_, fun sd i j z y e f hz hy oz oy => ?_,
    fun i z m e hn => ?_, fun sd m y a hy hsy => ?_, fun sd m y a hy hsy => ?_⟩
  · rcases back i z e with ⟨_, rfl⟩ | ⟨_, e0⟩
    · exact hwr
    · exact h.right i z e0
  · rcases back i z e with ⟨rfl, rfl⟩ | ⟨_, e0⟩ <;> rcases back j y f with ⟨rfl, rfl⟩ | ⟨_, f0⟩
    · rfl
    · exact absurd hc.symm (hwc j y f0)
    · exact absurd hc (hwc i z e0)
    · exact h.codes i j z y e0 f0 hc
  · rcases back i z e with ⟨rfl, rfl⟩ | ⟨_, e0⟩
    · rw [hwl] at hz; cases hz
    · rcases back j y f with ⟨rfl, rfl⟩ | ⟨_, f0⟩
      · rw [hwl] at hy; cases hy
      · exact h.arms i j z y l e0 f0 hz hy
  · rcases back i z e with ⟨rfl, rfl⟩ | ⟨_, e0⟩
    · exact absurd hz hws
    · rcases back j y f with ⟨rfl, rfl⟩ | ⟨_, f0⟩
      · exact absurd hy hws
      · exact h.running sd i j z y e0 f0 hz hy oz oy
  · rcases back i z e with ⟨rfl, rfl⟩ | ⟨_, e0⟩
    · rw [hwn] at hn; cases hn
    · obtain ⟨sd, y, h1, h2, h3⟩ := h.reserved i z m e0 hn
      exact ⟨sd, y, (ha sd).trans h1, (hh sd m h1).trans h2, h3⟩
  · rw [ha] at a; rw [hh sd m a] at hy
    obtain ⟨z, h1, h2⟩ := h.incoming sd m y a hy hsy
    exact ⟨z, keep _ z h1, h2⟩
  · rw [ha] at a; rw [hh sd m a] at hy
    obtain ⟨z, h1, h2⟩ := h.outgoing sd m y a hy hsy
    exact ⟨z, keep _ z h1, h2⟩

/-- An unreserved record that is not RUNNING is removed. -/
theorem ReelsOrdered.erased {s t : State} (h : ReelsOrdered s) {k : Nat} {v : ReelView} (hv : s.reelView k = some v)
    (hvn : v.reservedBy = none) (hvs : v.state ≠ .running)
    (hr : ∀ i, t.reelView i = if i = k then none else s.reelView i)
    (ha : ∀ i, (t.work i).active = (s.work i).active) (hh : ∀ i m, (s.work i).active = some m → t.hold m = s.hold m) :
    ReelsOrdered t := by
  have back : ∀ i z, t.reelView i = some z → s.reelView i = some z := by
    intro i z e
    rw [hr] at e
    by_cases c : i = k
    · rw [if_pos c] at e; cases e
    · rwa [if_neg c] at e
  have keep : ∀ i z, s.reelView i = some z → z.reservedBy ≠ none ∨ z.state = .running → t.reelView i = some z := by
    intro i z e hz
    rw [hr, if_neg, e]
    rintro rfl; rw [hv] at e; cases e
    rcases hz with hz | hz
    · exact hz hvn
    · exact hvs hz
  refine ⟨fun i z e => h.right i z (back i z e), fun i j z y e f => h.codes i j z y (back i z e) (back j y f),
    fun i j z y l e f => h.arms i j z y l (back i z e) (back j y f),
    fun sd i j z y e f => h.running sd i j z y (back i z e) (back j y f), fun i z m e hn => ?_, fun sd m y a hy hsy => ?_,
    fun sd m y a hy hsy => ?_⟩
  · obtain ⟨sd, y, h1, h2, h3⟩ := h.reserved i z m (back i z e) hn
    exact ⟨sd, y, (ha sd).trans h1, (hh sd m h1).trans h2, h3⟩
  · rw [ha] at a; rw [hh sd m a] at hy
    obtain ⟨z, h1, h2⟩ := h.incoming sd m y a hy hsy
    exact ⟨z, keep _ z h1 (Or.inl (by rw [h2]; simp)), h2⟩
  · rw [ha] at a; rw [hh sd m a] at hy
    obtain ⟨z, h1, h2, h3⟩ := h.outgoing sd m y a hy hsy
    exact ⟨z, keep _ z h1 (Or.inr h2), h2, h3⟩

end Sys2Proof.Machine
end

