-- ==== Sys2Proof/Tests/Slice0.lean ====
section
/-! SUPPORT. Tests: an ill-formed command for each check of WellFormed; the worked values of the manual; a concrete state and
operands for the hypotheses of each obligation, at the boundaries of its clauses; each command on a small state. -/

namespace Sys2Proof.Machine

-- one theorem after another: many at once exhaust the thread stacks
set_option Elab.async false

/-! ### Small states -/

/-- The state after a command. -/
def after (c : Instr) (s : State) : State :=
  match exec c s with
  | .next t => t
  | .fault _ => s
  | .refused _ => s

/-- The code of the last answer. -/
def lastCode (s : State) : Option AnswerCode := s.lastAnswer.map Answer.code

def acceptedAs (i : Input) (level : Fin 4) (x : Field) : Field :=
  x.setInput i { accepted := some level, candidate := none, run := 0 }

/-- A reel with the paper of the tests. -/
def testReel (code : List Nat) (x : ReelState) (loc : Option (StandIx × Arm)) (d : Option Nat) : Reel where
  code := code
  paper := { grade := 10, width := .full, caliper := 60, core := 100, full := 1200, paste := true }
  diameter := d
  girth := none
  loc := loc
  state := x
  reservedBy := none
  reasons := []
  notes := []
  announced := 0
  mounted := 0
  runningSince := none
  residualDiameter := none
  residualLength := none

/-- Stand 1 in plan with its star at 0: reel 1 RUNNING on arm A with diameter 300, reel 2 READY on arm B, reel 3 on the
floor. -/
def demo : State :=
  let s := State.reset.modStand 0 (fun x =>
    { x with
      plan := { inPlan := true, folder := 0, path := 30000, grade := 0, width := .full }
      star := .settled 0
      lastSettled := some 0
      field := acceptedAs .star 0 (acceptedAs (.reelPresent 0) 1 (acceptedAs (.reelPresent 1) 1
        (acceptedAs .webPresent 1 (acceptedAs .safetyGate 1 (acceptedAs .knifeHome 1 (acceptedAs .pasterHome 1
          (acceptedAs .pasterEngaged 0 x.field))))))) })
  { s with reels := [(1, testReel [5, 0, 1, 2, 3, 4, 5, 6, 7, 8, 7] .running (some (0, 0)) (some 300)),
                     (2, testReel [1, 0, 0, 0, 0, 0, 0, 0, 0, 0, 7] .ready (some (0, 1)) none),
                     (3, testReel [2, 0, 0, 0, 0, 0, 0, 0, 0, 0, 4] .floor none none)] }

/-- Splice 7 of stand 1 in a state. -/
def testSplice (x : SpliceState) : Splice :=
  { newSplice 0 .console .manual 1 2 noParams false 0 with
    state := x
    folder := if x = .armed then none else some 0
    params := if x = .armed then noParams else defaultProfile.params.map some }

/-- The demo state with splice 7 active on stand 1 in a state, its folder's slot or wait list as the state demands. -/
def demoIn (x : SpliceState) : State :=
  let s := { demo with splices := [(7, testSplice x)], nextSplice := 8 }
  let s := s.modReel 2 (fun r =>
    { r with reservedBy := some 7, state := if x = .armed then .ready else .committed, diameter := some 1200 })
  let s := s.modWork 0 (fun w =>
    { w with active := some 7, driveEn := decide (x ≠ .armed), matched := decide (x = .waiting) })
  s.modFolder 0 (fun F =>
    { F with
      slot := if holdsSlot x then some { splice := 7, stand := 0 } else none
      waits := if x = .waiting then [{ stand := 0, splice := 7, matched := true, margin := some 170 }] else []
      grantOccasions := if x = .waiting then 1 else 0 })

/-- The demo state in PASTING with the mark of splice 7 on the track at a remaining distance. -/
def demoMarked (x : SpliceState) (remaining : Int) : State :=
  let s := (demoIn x).modSplice 7 (fun sp =>
    { sp with mark := { state := .onTrack, path := some 30000, remaining := some remaining, waste := 65535 } })
  (s.modWork 0 (fun w => { w with markPlaced := true })).modFolder 0 (fun F =>
    { F with track := [{ splice := 7, stand := 0 }] })

/-- A status entry with one condition. -/
def testEntry (serial : Nat) (rev : BitVec 8) (splice : Option Nat) (c : Condition) : StatusEntry where
  serial := serial
  revision := rev
  splice := splice
  destination := .console
  localAtOrigin := false
  conditions := [c]
  residualDiameter := none
  residualLength := none
  created := 0

/-- An entry of the answer order list. -/
def testLinkEntry (c : Client) (code : Byte) (payload : List Byte) (x : EntryState) : LinkEntry :=
  { client := c, tag := 9, code := code, payload := payload, state := x }

/-- The reset state with a list of requests. -/
def listing (l : List LinkEntry) : State := State.reset.modLink (fun k => { k with list := l })

/-! ### WellFormed refuses each operand that does not fit -/

theorem test_wf_code_length : Instr.wf (.findReel .console [1, 2, 3]) = false := by decide
theorem test_wf_code_digit : Instr.wf (.findReel .console [256, 0, 0, 0, 0, 0, 0, 0, 0, 0, 0]) = false := by decide
theorem test_wf_paper :
    Instr.wf (.announceReel .console [0, 0, 0, 0, 0, 0, 0, 0, 0, 0, 0] ⟨256, .full, 0, 0, 0, true⟩) = false
    ∧ Instr.wf (.announceReel .console [0, 0, 0, 0, 0, 0, 0, 0, 0, 0, 0] ⟨0, .full, 256, 0, 0, true⟩) = false
    ∧ Instr.wf (.announceReel .console [0, 0, 0, 0, 0, 0, 0, 0, 0, 0, 0] ⟨0, .full, 0, 65536, 0, true⟩) = false
    ∧ Instr.wf (.announceReel .console [0, 0, 0, 0, 0, 0, 0, 0, 0, 0, 0] ⟨0, .full, 0, 0, 65536, true⟩) = false := by decide
theorem test_wf_amend_reel :
    Instr.wf (.amendReel .console 65536 ⟨none, none, none, none, none, none⟩) = false
    ∧ Instr.wf (.amendReel .console 1 ⟨some 256, none, none, none, none, none⟩) = false
    ∧ Instr.wf (.amendReel .console 1 ⟨none, none, some 256, none, none, none⟩) = false
    ∧ Instr.wf (.amendReel .console 1 ⟨none, none, none, some 65536, none, none⟩) = false
    ∧ Instr.wf (.amendReel .console 1 ⟨none, none, none, none, some 65536, none⟩) = false := by decide
theorem test_wf_handle :
    Instr.wf (.mountReel .console 65536 1 0) = false ∧ Instr.wf (.mountReel .console 1 256 0) = false
    ∧ Instr.wf (.unmountReel .console 65536) = false ∧ Instr.wf (.retireReel .console 65536) = false
    ∧ Instr.wf (.readReel .console 65536) = false ∧ Instr.wf (.threadReel .console 256 1) = false
    ∧ Instr.wf (.threadReel .console 1 65536) = false := by decide
theorem test_wf_stand :
    Instr.wf (.listStand .console 256) = false ∧ Instr.wf (.readSettings .console 256) = false
    ∧ Instr.wf (.writeRouting .console 256 0 .console) = false ∧ Instr.wf (.setChain .console 256 true) = false
    ∧ Instr.wf (.startAccel .console 256) = false ∧ Instr.wf (.fireSplice .console 256) = false
    ∧ Instr.wf (.abortSplice .console 256) = false ∧ Instr.wf (.readStatus .console 256) = false
    ∧ Instr.wf (.readInputs .console 256) = false ∧ Instr.wf (.takeCall .console 256 .reelCall) = false
    ∧ Instr.wf (.resetStand .console 256) = false := by decide
theorem test_wf_plan :
    Instr.wf (.writePlanEntry .console 256 ⟨true, 1, 2000, 0, .full⟩) = false
    ∧ Instr.wf (.writePlanEntry .console 1 ⟨true, 256, 2000, 0, .full⟩) = false
    ∧ Instr.wf (.writePlanEntry .console 1 ⟨true, 1, 4294967296, 0, .full⟩) = false
    ∧ Instr.wf (.writePlanEntry .console 1 ⟨true, 1, 2000, 256, .full⟩) = false := by decide
theorem test_wf_folder :
    Instr.wf (.writeFolder .console 256 0 0 0 0) = false ∧ Instr.wf (.writeFolder .console 1 65536 0 0 0) = false
    ∧ Instr.wf (.writeFolder .console 1 0 256 0 0) = false ∧ Instr.wf (.writeFolder .console 1 0 0 256 0) = false
    ∧ Instr.wf (.writeFolder .console 1 0 0 0 65536) = false ∧ Instr.wf (.readTrack .console 256) = false
    ∧ Instr.wf (.forceGate .console 256 .auto) = false := by decide
theorem test_wf_profile :
    Instr.wf (.writeProfile .console 1 { defaultProfile with params := { defaultProfile.params with accelStart := -1 } }) = false
    ∧ Instr.wf (.writeProfile .console 1
        { defaultProfile with params := { defaultProfile.params with matchOffset := 128 } }) = false
    ∧ Instr.wf (.writeProfile .console 1
        { defaultProfile with settings := { defaultProfile.settings with pasterLead := 256 } }) = false := by decide
theorem test_wf_values :
    Instr.wf (.writeOneShot .console 1 { noParams with matchTolerance := some 256 }) = false
    ∧ Instr.wf (.armSplice .console 1 .auto { noParams with knifeDistance := some 65536 }) = false
    ∧ Instr.wf (.amendSplice .console 1
        ⟨.value 65536, .notCarried, .default, .notCarried, .notCarried, .notCarried, .notCarried, .notCarried⟩) = false := by
  decide
theorem test_wf_numbers :
    Instr.wf (.readSplice .console 65536) = false ∧ Instr.wf (.acknowledgeStatus .console 1 65536 0) = false
    ∧ Instr.wf (.acknowledgeStatus .console 1 0 256) = false ∧ Instr.wf (.clearChanges .console 1 4294967296) = false := by
  decide
theorem test_wf_accepts :
    Instr.wf (.writeProfile .console 255 defaultProfile) = true ∧ Instr.wf (.clearChanges .console 0 4294967295) = true
    ∧ Instr.wf (.grantEvaluation 3) = true := by decide

/-! ### The manual's worked values -/

theorem test_crc_check_value :
    crc16 [0x31, 0x32, 0x33, 0x34, 0x35, 0x36, 0x37, 0x38, 0x39] = 0x29B1 := by decide +kernel
theorem test_check_digit : codeFault [5, 0, 1, 2, 3, 4, 5, 6, 7, 8, 7] = none
    ∧ codeFault [5, 0, 1, 2, 3, 4, 5, 6, 7, 8, 0] = some (.badRequest true) := by decide
theorem test_free_number_wraps :
    freeNumber [(1, testSplice .armed), (65535, testSplice .armed)] 33 65535 = 2 ∧ freeNumber [] 33 65535 = 65535 := by
  decide

/-! ### The queue, resets and time -/

theorem test_step_front : step { State.reset with pending := [.timeCounterTick, .powerOn] }
    = exec .timeCounterTick { State.reset with pending := [.powerOn] } := rfl
theorem test_step_idle : State.reset.pending = [] ∧ (State.afterReset .pin).pending = [] := by decide
theorem test_event_stand : eventStand (.webCount 11 .reverse) = some 11 ∧ eventStand (.autoArmAttempt 0) = some 0
    ∧ eventStand .powerOn = none := by decide
theorem test_powerOn : demo.link.resetPin = false ∧ (after .powerOn demo).reels = []
    ∧ (after .powerOn demo).link.cause = .power := by decide
theorem test_resetPinAsserted : (after .resetPinAsserted (demoIn .accel)).link.resetPin = true
    ∧ ((after .resetPinAsserted (demoIn .accel)).work 0).driveEn = false := by decide
theorem test_resetPin_held : (after .timeCounterTick (after .resetPinAsserted demo)).link.time = 0
    ∧ (after .powerOn (after .resetPinAsserted demo)).link.powerUnderPin = true := by decide
theorem test_resetPinReleased :
    (after .resetPinReleased (after .resetPinAsserted demo)).link.cause = .pin
    ∧ (after .resetPinReleased (after .powerOn (after .resetPinAsserted demo))).link.cause = .power := by decide
theorem test_timeCounterTick :
    (after .timeCounterTick (demo.modLink (fun l => { l with time := 4294967295 }))).link.time = 0
    ∧ (after .timeCounterTick demo).link.time = 1 := by decide
theorem test_readDevice : demo.takes (.readDevice .logistics)
    ∧ (after (.readDevice .logistics) demo).reels = demo.reels
    ∧ lastCode (after (.readDevice .logistics) demo) = some .done := by decide

/-! ### The link -/

/-- A state whose receiver holds bytes. -/
def hearing (bytes : List Byte) : State := State.reset.modLink (fun l => { l with receiver := .receiving bytes })

theorem test_characterReceived_start : State.reset.runs ∧ State.reset.link.receiver = .hunt
    ∧ (after (.characterReceived 0xA5 false) State.reset).link.receiver = .receiving [0xA5]
    ∧ (after (.characterReceived 0xA5 true) State.reset).link.receiver = .hunt
    ∧ (after (.characterReceived 0xA4 false) State.reset).link.receiver = .hunt := by decide
theorem test_characterReceived_length :
    (after (.characterReceived 240 false) (hearing [0xA5])).link.receiver = .receiving [0xA5, 240]
    ∧ (after (.characterReceived 241 false) (hearing [0xA5])).link.receiver = .hunt
    ∧ (after (.characterReceived 0xA5 false) (hearing [0xA5, 0, 0, 1, 0x62])).link.receiver
        = .receiving [0xA5, 0, 0, 1, 0x62, 0xA5]
    ∧ [0, 1, 0x62].length + 3 < 7 + (0 : Byte).toNat := by decide
theorem test_characterReceived_pending :
    (State.reset.modLink (fun l => { l with resetPending := true })).runs := by decide
theorem test_interCharacterTimerExpiry : (after .interCharacterTimerExpiry (hearing [0xA5, 1])).link.receiver = .hunt := by
  decide
theorem test_frame_joins :
    (match execAll (arriving (frameOf (clientByte .logistics) 5 0x62 [])) State.reset with
      | .next s => s.link.list
      | .fault _ => []
      | .refused _ => [])
      = [{ client := .logistics, tag := 5, code := 0x62, payload := [], state := .withOwner }] := by decide +kernel
theorem test_frame_joins_bounds :
    (listing (List.replicate 15 (testLinkEntry .console 0x62 [] .withOwner))).link.list.length = 15
    ∧ (listing (List.replicate 16 (testLinkEntry .console 0x62 [] .withOwner))).link.list.length = 16
    ∧ (List.replicate 240 (0 : Byte)).length ≤ 240
    ∧ requestOf .console 0x63 [] = none
    ∧ (testLinkEntry .console 0x61 [] .held).untaken = true := by decide +kernel
theorem test_frame_broken :
    [(0 : Byte), 0] ≠ checkBytes (byteOf 0 :: clientByte .console :: 1 :: 0x62 :: []) ∧ clientOf 0x0F = none := by decide +kernel
theorem test_request_bytes :
    requestBytes (.armSplice (.panel 3) 4 .manual { noParams with matchOffset := some (-10) })
      = some (0x30, [4, 1, 0x10, 0, 0, 0, 0, 0, 0, 0, 0xF6, 0, 0, 0, 0, 0, 0])
    ∧ Instr.WellFormed (.armSplice (.panel 3) 4 .manual { noParams with matchOffset := some (-10) })
    ∧ requestClient (.armSplice (.panel 3) 4 .manual { noParams with matchOffset := some (-10) }) = some (.panel 3) := by
  decide
/-- The hypotheses of OwnersTakeRequestsInOrder: a request behind another of its owner, one that is HELD, one behind a request of
another owner, one that is not listed. -/
theorem test_owner_order :
    let read : LinkEntry := testLinkEntry .console 0x15 [0, 2] .withOwner
    let behind := listing [testLinkEntry .console 0x15 [0, 1] .withOwner, read]
    let held := listing [testLinkEntry .console 0x61 [] .withOwner, testLinkEntry .console 0x62 [] .held]
    let past := listing [testLinkEntry .console 0x62 [] .withOwner, read]
    behind.mayTake (.readReel .console 2) = false ∧ (testLinkEntry .console 0x15 [0, 1] .withOwner).waitsFor (.readReel .console 2) = false
    ∧ (testLinkEntry .console 0x15 [0, 1] .withOwner).request.bind (ownerOf behind) = ownerOf behind (.readReel .console 2)
    ∧ held.mayTake (.readDevice .console) = false
    ∧ past.mayTake (.readReel .console 2) = true ∧ read.waitsFor (.readReel .console 2) = true
    ∧ (testLinkEntry .console 0x62 [] .withOwner).request.bind (ownerOf past) ≠ ownerOf past (.readReel .console 2)
    ∧ past.mayTake (.readReel .console 3) = true := by decide
theorem test_transmitAnswer :
    (after .transmitAnswer (listing [testLinkEntry .console 0x60 [1] (.answered (plain .done))])).link.line
      = some (frameOf (clientByte .console) 9 (AnswerCode.byte .done) []) := by decide +kernel
theorem test_transmitAnswer_waits :
    (after .transmitAnswer (listing [testLinkEntry .console 0x60 [1] .withOwner])).link.line = none
    ∧ (after .transmitAnswer (listing [])).link.line = none := by decide
/-- The hypotheses of AnswerBytesAreLaidOut at their bounds: a code of 11 digits, every list of an image full. -/
theorem test_image_bounds :
    (demo.reelImage 1 (testReel [5, 0, 1, 2, 3, 4, 5, 6, 7, 8, 7] .running none none)).reel.code.length = 11
    ∧ (demo.inputsImage 0).levels.length = 10 ∧ (demo.inputsImage 0).changes.length ≤ 10
    ∧ (List.replicate 4 (testEntry 1 0 none .webBreak)).length ≤ 4
    ∧ (List.replicate 12 (⟨0, 7, true, none⟩ : WaitEntry)).length ≤ 12
    ∧ (List.replicate 8 ((demoMarked .pasting 5).markImage 0 ⟨7, 0⟩)).length ≤ 8 := by decide +kernel
/-- A status entry byte by byte: serial 258, revision 3, no splice, CONSOLE, WEB_BREAK (bit 15), no residuals, created at 0. -/
theorem test_entry_bytes : (testEntry 258 3 none .webBreak).bytes
    = [1, 2, 3, 0, 0, 0, 0, 0, 0x80, 0, 0, 0, 0xFF, 0xFF, 0xFF, 0xFF, 0, 0, 0, 0] := by decide +kernel
theorem test_answerLastByteSent :
    (after .answerLastByteSent ((listing [testLinkEntry .console 0x60 [1] (.answered (plain .done))]).modLink
      (fun l => { l with line := some [1] }))).link.list = []
    ∧ (after .answerLastByteSent ((listing [testLinkEntry .console 0x61 [] (.answered (plain .done))]).modLink
      (fun l => { l with line := some [1], resetPending := true }))).link.cause = .request := by decide
theorem test_resetDevice :
    (after (.resetDevice .console) demo).link.resetPending = true
    ∧ lastCode (after (.resetDevice .console) (demoIn .firing)) = some .busy
    ∧ lastCode (after (.resetDevice .logistics) demo) = some .notPermitted
    ∧ (testLinkEntry .console 0x61 [] .withOwner).request = some (.resetDevice .console) := by decide
theorem test_resetDevice_held :
    (after (.resetDevice .logistics) (listing [testLinkEntry .logistics 0x61 [] .withOwner,
      testLinkEntry .console 0x62 [] .held])).link.list.map LinkEntry.state
      = [.answered (plain .notPermitted), .withOwner] := by decide

/-- A refused RESET DEVICE passes the HELD requests on up to and including the next RESET DEVICE; without one, all of them. -/
theorem test_releaseHeld :
    (releaseHeld [testLinkEntry .console 0x62 [] .held, testLinkEntry .console 0x61 [] .held,
      testLinkEntry .console 0x62 [] .held]).map LinkEntry.state = [.withOwner, .withOwner, .held]
    ∧ (releaseHeld [testLinkEntry .console 0x62 [] .held, testLinkEntry .console 0x62 [] .held]).map LinkEntry.state
      = [.withOwner, .withOwner] := by decide

/-! ### Reels -/

/-- The paper that ANNOUNCE REEL carries in the tests. -/
def testPaper : PaperData := { grade := 63, width := .half, caliper := 150, core := 70, full := 600, paste := false }

/-- A full Reel Table. -/
def crowded : State := { State.reset with reels := (List.range' 1 48).map (fun h => (h, testReel [h] .floor none none)) }

theorem test_announceReel :
    demo.takes (.announceReel .logistics [0, 0, 0, 0, 0, 0, 0, 0, 0, 0, 0] testPaper)
    ∧ ((after (.announceReel .logistics [0, 0, 0, 0, 0, 0, 0, 0, 0, 0, 0] testPaper) demo).reel? 4).map Reel.state
      = some .floor := by decide +kernel
theorem test_announceReel_refusals :
    lastCode (after (.announceReel (.panel 0) [0, 0, 0, 0, 0, 0, 0, 0, 0, 0, 0] testPaper) demo) = some .notPermitted
    ∧ lastCode (after (.announceReel .console [0, 0, 0, 0, 0, 0, 0, 0, 0, 0, 0] { testPaper with grade := 64 }) demo)
      = some (.badRequest false)
    ∧ lastCode (after (.announceReel .console [10, 0, 0, 0, 0, 0, 0, 0, 0, 0, 0] testPaper) demo) = some (.badRequest false)
    ∧ lastCode (after (.announceReel .console [0, 0, 0, 0, 0, 0, 0, 0, 0, 0, 1] testPaper) demo) = some (.badRequest true)
    ∧ lastCode (after (.announceReel .console [5, 0, 1, 2, 3, 4, 5, 6, 7, 8, 7] testPaper) demo) = some .duplicate
    ∧ lastCode (after (.announceReel .console [5, 0, 1, 2, 3, 4, 5, 6, 7, 8, 7] testPaper) crowded) = some .full := by
  decide +kernel
theorem test_amendReel :
    demo.takes (.amendReel .console 2 ⟨none, none, none, none, none, some false⟩)
    ∧ (demo.reels.map Prod.fst).Nodup ∧ (demo.reel? 2).map Reel.loc = some (some (0, 1))
    ∧ ((after (.amendReel .console 2 ⟨none, none, none, none, none, some false⟩) demo).reel? 2).map Reel.state
      = some .mounted
    ∧ ((after (.amendReel .console 3 ⟨some 63, none, some 40, some 160, some 1300, none⟩) demo).reel? 3).map
      (fun r => (r.state, r.paper.grade)) = some (.floor, 63) := by decide +kernel
theorem test_amendReel_refusals :
    lastCode (after (.amendReel .console 49 ⟨none, none, none, none, none, none⟩) demo) = some (.badRequest false)
    ∧ lastCode (after (.amendReel .console 48 ⟨none, none, none, none, none, none⟩) demo) = some .notFound
    ∧ lastCode (after (.amendReel (.panel 0) 3 ⟨none, none, none, none, none, none⟩) demo) = some .notPermitted
    ∧ lastCode (after (.amendReel .console 1 ⟨none, none, none, none, none, none⟩) demo) = some .locked
    ∧ ((after (.amendReel .console 1 ⟨none, none, none, none, none, none⟩) demo).reel? 1).map Reel.notes
      = some [.amendLocked]
    ∧ lastCode (after (.amendReel .console 3 ⟨some 0, none, none, none, none, none⟩) demo) = some (.badRequest false)
    ∧ lastCode (after (.amendReel .console 1 ⟨none, none, none, none, none, none⟩) (demo.modReel 1 toButt))
      = some (.refused .wrongState) := by decide +kernel
theorem test_verification_boundaries :
    (verify demo.stands[0].plan defaultProfile (testReel [] .mounted none (some 420))).reasons = []
    ∧ (verify demo.stands[0].plan defaultProfile (testReel [] .mounted none (some 419))).reasons = [.tooSmall] := by
  decide +kernel
theorem test_mountReel :
    (demo.modField 0 (acceptedAs (.reelPresent 2) 1)).takes (.mountReel (.panel 0) 3 1 2)
    ∧ ((after (.mountReel (.panel 0) 3 1 2) (demo.modField 0 (acceptedAs (.reelPresent 2) 1))).reel? 3).map
      (fun r => (r.state, r.loc)) = some (.ready, some (0, 2)) := by decide +kernel
theorem test_mountReel_refusals :
    lastCode (after (.mountReel .console 0 1 2) demo) = some (.badRequest false)
    ∧ lastCode (after (.mountReel .console 3 13 2) demo) = some (.badRequest false)
    ∧ lastCode (after (.mountReel (.panel 1) 3 1 2) demo) = some .notPermitted
    ∧ lastCode (after (.mountReel .console 2 1 2) demo) = some (.refused .wrongState)
    ∧ lastCode (after (.mountReel .console 3 1 1) demo) = some (.refused .armOccupied)
    ∧ lastCode (after (.mountReel .console 3 1 2) demo) = some (.refused .noReelPresent) := by decide +kernel
theorem test_unmountReel : demo.takes (.unmountReel .console 2)
    ∧ ((after (.unmountReel .console 2) demo).reel? 2).map Reel.state = some .floor := by decide +kernel
theorem test_unmountReel_refusals :
    lastCode (after (.unmountReel (.panel 0) 3) demo) = some .notPermitted
    ∧ lastCode (after (.unmountReel .console 1) demo) = some (.refused .wrongState)
    ∧ lastCode (after (.unmountReel .console 2) (demoIn .armed)) = some .busy
    ∧ ((after (.unmountReel .console 1) (demo.modReel 1 toButt)).reel? 1).map Reel.loc = some none := by decide +kernel
theorem test_retireReel : demo.takes (.retireReel .logistics 3) ∧ (after (.retireReel .logistics 3) demo).reel? 3 = none
    ∧ (after (.retireReel .logistics 1) (demo.modReel 1 toButt)).reel? 1 = none
    ∧ lastCode (after (.retireReel .logistics 1) demo) = some (.refused .wrongState) := by decide +kernel
theorem test_readReel : demo.takes (.readReel (.panel 4) 1) ∧ lastCode (after (.readReel (.panel 4) 1) demo) = some .done
    ∧ lastCode (after (.readReel (.panel 4) 47) demo) = some .notFound := by decide +kernel
theorem test_reelImage :
    (demo.reelImage 1 (testReel [] .running (some (0, 0)) (some 300))).position = some .run
    ∧ (demo.reelImage 1 (testReel [] .running (some (0, 0)) (some 100))).remaining = some 0
    ∧ (demo.reelImage 1 (testReel [] .running (some (0, 1)) (some 300))).remaining = some 1047200 := by decide +kernel
theorem test_findReel : demo.takes (.findReel .console [5, 0, 1, 2, 3, 4, 5, 6, 7, 8, 7])
    ∧ lastCode (after (.findReel .console [5, 0, 1, 2, 3, 4, 5, 6, 7, 8, 7]) demo) = some .done
    ∧ lastCode (after (.findReel .console [0, 0, 0, 0, 0, 0, 0, 0, 0, 0, 0]) demo) = some .notFound := by decide +kernel
theorem test_listStand : demo.takes (.listStand .console 12)
    ∧ (demo.standList 0).onA = some 1 ∧ (demo.standList 0).onB = some 2 ∧ (demo.standList 0).onC = none
    ∧ lastCode (after (.listStand .console 13) demo) = some (.badRequest false) := by decide +kernel
theorem test_threadReel : demo.takes (.threadReel .console 1 1)
    ∧ ((after (.threadReel .console 1 1) demo).reel? 1).map (fun r => (r.state, r.diameter)) = some (.running, none) := by
  decide +kernel
theorem test_threadReel_refusals :
    lastCode (after (.threadReel .console 1 2) demo) = some (.refused .notAtRun)
    ∧ lastCode (after (.threadReel (.panel 0) 1 1) demo) = some .notPermitted
    ∧ lastCode (after (.threadReel .console 2 1) demo) = some (.refused .notInPlan)
    ∧ lastCode (after (.threadReel .console 1 1) (demoIn .accel)) = some .busy
    ∧ lastCode (after (.threadReel .console 1 1) (demo.modReel 1 toButt)) = some (.refused .wrongState) := by
  decide +kernel

/-! ### Standing data -/

theorem test_writePlanEntry : demo.takes (.writePlanEntry .console 1 ⟨false, 4, 200000, 63, .half⟩)
    ∧ ((after (.writePlanEntry .console 1 ⟨false, 4, 200000, 63, .half⟩) demo).reel? 2).map (fun r => r.reasons)
      = some [.notInPlan, .grade, .width] := by decide +kernel
theorem test_writePlanEntry_refusals :
    lastCode (after (.writePlanEntry .console 1 ⟨true, 5, 2000, 0, .full⟩) demo) = some (.badRequest false)
    ∧ lastCode (after (.writePlanEntry .console 1 ⟨true, 4, 1999, 0, .full⟩) demo) = some (.badRequest false)
    ∧ lastCode (after (.writePlanEntry .logistics 1 ⟨true, 4, 2000, 0, .full⟩) demo) = some .notPermitted
    ∧ lastCode (after (.writePlanEntry .console 1 ⟨true, 4, 2000, 0, .full⟩) (demoIn .armed)) = some .busy := by
  decide +kernel
theorem test_readSettings : demo.takes (.readSettings .logistics 1)
    ∧ lastCode (after (.readSettings .logistics 1) demo) = some .done := by decide +kernel
theorem test_writeFolder : demo.takes (.writeFolder .console 1 400 0 0 50000)
    ∧ lastCode (after (.writeFolder .console 4 700 5 10 0) demo) = some .done
    ∧ lastCode (after (.writeFolder .console 4 701 5 10 0) demo) = some .doneClamped
    ∧ lastCode (after (.writeFolder .console 5 700 5 10 0) demo) = some (.badRequest false) := by decide +kernel
theorem test_writeFolder_ejects :
    (((after (.writeFolder .console 1 560 1 1 0) (demoMarked .braking (-561))).splice? 7).map (fun sp => sp.mark.state))
      = some .ejected
    ∧ ((after (.writeFolder .console 1 560 1 1 0) (demoMarked .braking (-560))).folder 0).track.length = 1 := by
  decide +kernel
theorem test_writeProfile : demo.takes (.writeProfile .console 1 defaultProfile)
    ∧ lastCode (after (.writeProfile .console 1 defaultProfile) demo) = some .done
    ∧ lastCode (after (.writeProfile .console 1
        { defaultProfile with params := { defaultProfile.params with lastChance := 171 } }) demo)
      = some (.refused .paramConflict) := by decide +kernel
theorem test_writeOneShot : demo.takes (.writeOneShot .console 1 { noParams with pasteTarget := some 601 })
    ∧ ((after (.writeOneShot .console 1 { noParams with pasteTarget := some 601 }) demo).stand 0).oneShot
      = { values := { noParams with pasteTarget := some 600 }, clamped := { noMarkers with pasteTarget := true } } := by
  decide +kernel
theorem test_writeRouting : demo.takes (.writeRouting .console 1 8191 .localMode)
    ∧ ((after (.writeRouting .console 1 8191 .localMode) demo).stand 0).queue.mode = .localMode
    ∧ lastCode (after (.writeRouting .console 1 8192 .localMode) demo) = some (.badRequest false) := by decide +kernel

/-! ### Splices -/

theorem test_armSplice : demo.takes (.armSplice .console 1 .manual noParams)
    ∧ ((after (.armSplice .console 1 .manual noParams) demo).splice? 1).map Splice.state = some .armed
    ∧ ((after (.armSplice .console 1 .auto noParams) demo).splice? 1).map Splice.state = some .accel := by decide +kernel
theorem test_armSplice_refusals :
    lastCode (after (.armSplice .console 1 .manual noParams) (demoIn .armed)) = some .busy
    ∧ lastCode (after (.armSplice .console 2 .manual noParams) demo) = some (.refused .notInPlan)
    ∧ lastCode (after (.armSplice .console 1 .manual noParams) (raise 0 .runOutRisk demo)) = some .statusPending
    ∧ lastCode (after (.armSplice .console 1 .manual { noParams with lastChance := some 119 }) demo)
      = some (.refused .paramConflict) := by decide +kernel
theorem test_amendSplice : (demoIn .armed).takes (.amendSplice .console 7
      ⟨.value 701, .notCarried, .default, .notCarried, .notCarried, .notCarried, .notCarried, .notCarried⟩)
    ∧ ((after (.amendSplice .console 7
      ⟨.value 701, .notCarried, .default, .notCarried, .notCarried, .notCarried, .notCarried, .notCarried⟩)
        (demoIn .armed)).splice? 7).map (fun sp => (sp.explicit.accelStart, sp.notes)) = some (some 700, [.clamped])
    ∧ lastCode (after (.amendSplice .console 7
      ⟨.default, .notCarried, .default, .notCarried, .notCarried, .notCarried, .notCarried, .notCarried⟩)
        (demoIn .accel)) = some .locked := by decide +kernel
theorem test_setChain : demo.takes (.setChain .console 1 true)
    ∧ ((after (.setChain .console 1 true) demo).stand 0).seq.chainOccasions = 1
    ∧ ((after (.setChain .console 1 false) demo).stand 0).seq.chainOccasions = 0 := by decide +kernel
theorem test_autoArmAttempt :
    ((after (.autoArmAttempt 0) (after (.setChain .console 1 true) demo)).splice? 1).map
      (fun sp => (sp.origin, sp.state)) = some (.chain, .accel)
    ∧ (after (.autoArmAttempt 0) demo).splices = [] := by decide +kernel
/-- The hypotheses of the arming clause of AutoArmTakesAnOccasion, for an origin of each kind. -/
theorem test_arm : (demo.runningReel 0).map Prod.fst = some 1 ∧ (demo.readyAtSplice 0).map Prod.fst = some 2
    ∧ [Origin.console, .panel, .chain].map (fun o =>
        ((arm 0 o .manual noParams false demo).splice? 1).map (fun sp => (sp.origin, sp.state, sp.incoming)))
      = [some (.console, .armed, 2), some (.panel, .armed, 2), some (.chain, .armed, 2)] := by decide +kernel
theorem test_readSplice : (demoIn .accel).takes (.readSplice .logistics 7)
    ∧ lastCode (after (.readSplice .logistics 7) (demoIn .accel)) = some .done
    ∧ lastCode (after (.readSplice .logistics 65535) (demoIn .accel)) = some .notFound
    ∧ lastCode (after (.readSplice .logistics 0) (demoIn .accel)) = some (.badRequest false) := by decide +kernel
theorem test_startAccel : (demoIn .armed).takes (.startAccel .console 1)
    ∧ ((after (.startAccel .console 1) (demoIn .armed)).splice? 7).map Splice.state = some .accel
    ∧ ((after (.startAccel .console 1) ((demoIn .armed).modField 0 (acceptedAs .driverHot 1))).work 0).startPending = true
    ∧ ((after (.startAccel .console 1) ((demoIn .armed).modReel 2 (fun r => { r with diameter := some 419 }))).splice? 7).map
      Splice.state = some .aborted := by decide +kernel
theorem test_commit : (demoIn .armed).activeSplice 0 = some (7, testSplice .armed) ∧ (testSplice .armed).stand = 0
    ∧ (demoIn .armed).commitConsistent (testSplice .armed) = true
    ∧ ((demoIn .armed).modReel 2 (fun r => { r with diameter := some 419 })).commitConsistent (testSplice .armed) = false := by
  decide +kernel
theorem test_fireSplice : (demoIn .matched).takes (.fireSplice .console 1)
    ∧ ((after (.fireSplice .console 1) (demoIn .matched)).splice? 7).map Splice.state = some .waiting
    ∧ lastCode (after (.fireSplice .console 1) (demoIn .accel)) = some (.refused .notMatched)
    ∧ lastCode (after (.fireSplice .console 1) (demoIn .waiting)) = some .busy := by decide +kernel
theorem test_abortSplice : (demoIn .firing).takes (.abortSplice (.panel 0) 1)
    ∧ ((after (.abortSplice (.panel 0) 1) (demoIn .firing)).splice? 7).map Splice.state = some .spindown
    ∧ ((after (.abortSplice .console 1) (demoIn .armed)).splice? 7).map Splice.state = some .aborted
    ∧ lastCode (after (.abortSplice .console 1) (demoIn .pasting)) = some .tooLate
    ∧ lastCode (after (.abortSplice .console 1) (demoIn .spindown)) = some .done := by decide +kernel
theorem test_giving_up : (demoIn .waiting).activeSplice 0 = some (7, testSplice .waiting)
    ∧ ((giveUp 0 7 (testSplice .waiting) .abortRequest (demoIn .waiting)).folder 0).waits = []
    ∧ ((giveUp 0 7 (testSplice .firing) .abortRequest (demoIn .firing)).folder 0).slot = none := by decide +kernel

theorem test_commit_conflict :
    let s := (demoIn .armed).modReel 2 (fun r => { r with diameter := some 419 })
    ((commit 0 7 (testSplice .armed) s).stand 0).queue.entries.map StatusEntry.conditions = [[.paramConflict, .spliceVoid]]
    ∧ ((commit 0 7 (testSplice .armed) s).reel? 2).map (fun r => (r.reservedBy, r.state, r.reasons))
      = some (none, .mounted, [.tooSmall]) := by decide +kernel
/-- An AUTO splice judged at, and one above, its threshold; in MATCHED, the entry to WAITING. -/
theorem test_triggers :
    (let s := ((demoIn .armed).modSplice 7 (fun sp => { sp with trigger := .auto })).modReel 1 (fun r =>
        { r with diameter := some 320 });
      (judgeStart false 0 s).spliceState 0 = some .accel
      ∧ (judgeStart false 0 (s.modReel 1 (fun r => { r with diameter := some 321 }))).spliceState 0 = some .armed)
    ∧ (let s := ((demoIn .matched).modSplice 7 (fun sp => { sp with trigger := .auto })).modReel 1 (fun r =>
        { r with diameter := some 190 });
      (judgeWaiting 0 s).spliceState 0 = some .waiting
      ∧ ((judgeWaiting 0 s).folder 0).waits = [{ stand := 0, splice := 7, matched := true, margin := some 60 }]
      ∧ (judgeWaiting 0 (s.modReel 1 (fun r => { r with diameter := some 191 }))).spliceState 0 = some .matched) := by
  decide +kernel
theorem test_refreshMargin :
    let s := (demoIn .waiting).modReel 1 (fun r => { r with diameter := some 299 })
    ((refreshMargin 0 s).folder 0).waits.map WaitEntry.margin = [some 169]
    ∧ ((refreshMargin 0 s).folder 0).grantOccasions = 2
    ∧ (demoIn .waiting).marginOf 0 (testSplice .waiting) = some 170
    ∧ refreshMargin 0 (demoIn .waiting) = demoIn .waiting := by decide +kernel
/-- By margin, absent margins last, then by stand. -/
theorem test_insertWait :
    let e : StandIx → Option Int → WaitEntry := fun st m => { stand := st, splice := 7, matched := true, margin := m }
    insertWait (e 3 (some 5)) [e 2 (some 5), e 4 (some 5), e 1 none] = [e 2 (some 5), e 3 (some 5), e 4 (some 5), e 1 none]
    ∧ insertWait (e 0 none) [e 2 (some 5), e 1 none] = [e 2 (some 5), e 0 none, e 1 none] := by decide

/-! ### Conditions, calls, acknowledgement -/

theorem test_raise_joins : ((raise 0 .runOutRisk (raise 0 .webBreak demo)).stand 0).queue.entries.map
      (fun e => (e.serial, e.revision, e.conditions)) = [(1, 1, [.webBreak, .runOutRisk])]
    ∧ ((raise 0 .runOutRisk (raise 0 .webBreak (demoIn .accel))).stand 0).queue.entries.map StatusEntry.splice
      = [some 7] := by decide +kernel
theorem test_raise_bounds :
    ((raise 0 .standEnd (demo.modQueue 0 (fun q => { q with nextSerial := 65535 }))).stand 0).queue.nextSerial = 1
    ∧ ((raise 0 .webEnd ((demoIn .accel).modQueue 0 (fun q =>
        { q with entries := List.replicate 3 (testEntry 1 0 none .webBreak) }))).stand 0).queue.entries.length = 4
    ∧ ((raise 0 .webEnd ((demoIn .accel).modQueue 0 (fun q =>
        { q with entries := List.replicate 4 (testEntry 1 0 none .webBreak) }))).stand 0).queue.entries.length = 4 := by
  decide +kernel
theorem test_risk_boundary :
    ((evalRisk 0 (demo.modReel 1 (fun r => { r with diameter := some 130 }))).stand 0).gauge.inRisk = true
    ∧ ((evalRisk 0 (demo.modReel 1 (fun r => { r with diameter := some 131 }))).stand 0).gauge.inRisk = false
    ∧ demo.runs := by decide +kernel
/-- Whose last-chance diameter run-out risk is tested against: the profile's before the commit, the splice's after it. -/
theorem test_lastChance :
    let wide : State → State := fun s => s.modStand 0 (fun x =>
      { x with profile := { x.profile with params := { x.profile.params with lastChance := 90 } } })
    (wide demo).lastChance 0 = 90 ∧ (wide (demoIn .armed)).lastChance 0 = 90 ∧ (wide (demoIn .accel)).lastChance 0 = 130
    ∧ (testSplice .accel).params.lastChance = some 130 := by decide +kernel
/-- The attention lines by the destination of an entry, and of a change set by the mask bit and the mode. -/
theorem test_attention_lines :
    let withInputs : Mode → State := fun m =>
      (demo.modField 0 (fun x => x.enter .webPresent 0)).modQueue 0 (fun q => { q with mask := 4096, mode := m })
    let entry : Destination → State := fun d =>
      demo.modQueue 0 (fun q => { q with entries := [{ testEntry 1 0 none .webBreak with destination := d }] })
    (demo.attnCon, demo.panelLamp 0, demo.attnLog) = (false, false, false)
    ∧ ((withInputs .console).attnCon, (withInputs .console).panelLamp 0) = (true, false)
    ∧ ((withInputs .localMode).attnCon, (withInputs .localMode).panelLamp 0) = (false, true)
    ∧ ((entry .console).attnCon, (entry .console).panelLamp 0) = (true, false)
    ∧ ((entry .panel).attnCon, (entry .panel).panelLamp 0, (entry .panel).panelLamp 1) = (false, true, false)
    ∧ (demo.modQueue 11 (fun q => { q with buttOut := true })).attnLog = true := by decide +kernel
theorem test_acknowledgeStatus :
    (raise 0 .webBreak demo).takes (.acknowledgeStatus .console 1 1 0)
    ∧ ((after (.acknowledgeStatus .console 1 1 0) (raise 0 .webBreak demo)).stand 0).queue.entries = []
    ∧ ((after (.acknowledgeStatus .console 1 1 0) (raise 0 .webBreak demo)).stand 0).seq.chainOccasions = 1 := by
  decide +kernel
theorem test_acknowledgeStatus_refusals :
    lastCode (after (.acknowledgeStatus .console 1 0 0) demo) = some (.badRequest false)
    ∧ lastCode (after (.acknowledgeStatus .console 1 65535 255) demo) = some .notFound
    ∧ lastCode (after (.acknowledgeStatus (.panel 0) 1 1 0) (raise 0 .webBreak demo)) = some .notPermitted
    ∧ lastCode (after (.acknowledgeStatus .console 1 1 1) (raise 0 .webBreak demo)) = some .stale
    ∧ ((after (.acknowledgeStatus .console 1 1 0) (raise 0 .driverHot (demo.modField 0 (acceptedAs .driverHot 1)))).stand
        0).queue.entries.map StatusEntry.revision = [1] := by decide +kernel
theorem test_readStatus : demo.takes (.readStatus (.panel 11) 1)
    ∧ lastCode (after (.readStatus (.panel 11) 1) demo) = some .done := by decide +kernel
theorem test_readInputs : demo.takes (.readInputs .logistics 1)
    ∧ lastCode (after (.readInputs .logistics 1) demo) = some .done := by decide +kernel

/-- The demo state with two changes in the change set. -/
def changed : State := demo.modField 0 (fun x => (x.enter .webPresent 0).enter (.reelPresent 0) 0)

theorem test_clearChanges : changed.takes (.clearChanges (.panel 0) 1 1)
    ∧ ((after (.clearChanges (.panel 0) 1 1) changed).stand 0).field.changes.map ChangeEntry.input = [.reelPresent 0]
    ∧ lastCode (after (.clearChanges .console 1 3) changed) = some (.badRequest false)
    ∧ lastCode (after (.clearChanges .logistics 1 2) changed) = some .notPermitted := by decide +kernel
theorem test_takeCall :
    (demo.modQueue 0 (fun q => { q with reelCall := true, buttOut := true })).takes (.takeCall .logistics 1 .reelCall)
    ∧ (fun q : Queue => (q.reelCall, q.buttOut)) ((after (.takeCall .logistics 1 .reelCall)
        (demo.modQueue 0 (fun q => { q with reelCall := true, buttOut := true }))).stand 0).queue = (false, true)
    ∧ lastCode (after (.takeCall .console 1 .reelCall) demo) = some .notPermitted := by decide +kernel

/-! ### Folders -/

theorem test_readTrack : demo.takes (.readTrack .console 4) ∧ lastCode (after (.readTrack .console 4) demo) = some .done
    ∧ lastCode (after (.readTrack .console 0) demo) = some (.badRequest false) := by decide +kernel
theorem test_forceGate : demo.takes (.forceGate .console 1 .heldOpen)
    ∧ (after (.forceGate .console 1 .heldOpen) demo).gateOpen 0 = true := by decide +kernel
theorem test_window_boundaries :
    (demoMarked .braking 560).gateOpen 0 = true ∧ (demoMarked .braking 561).gateOpen 0 = false
    ∧ (demoMarked .braking (-1120)).gateOpen 0 = true ∧ (demoMarked .braking (-1121)).gateOpen 0 = false := by
  decide +kernel
theorem test_folderCutPulse : (demoMarked .braking 0).runs
    ∧ (((demoMarked .braking 0).folder 0).track.map SpliceRef.splice).Nodup
    ∧ ((after (.folderCutPulse 0) (demoMarked .braking 0)).folder 0).wasteCount = 1
    ∧ ((after (.folderCutPulse 0) (demoMarked .braking 0)).splice? 7).map (fun sp => sp.mark.waste) = some 65535
    ∧ ((after (.folderCutPulse 0) (demoMarked .braking 561)).folder 0).wasteCount = 0 := by decide +kernel

/-- A waiter fast enough for the grant. -/
def waiting : State := (demoIn .waiting).modGauge 0 (fun g => { g with webSpeed := 1500 })

theorem test_grantEvaluation : (waiting.folder 0).grantOccasions ≠ 0 ∧ (waiting.folder 0).slot = none
    ∧ ((after (.grantEvaluation 0) waiting).folder 0).slot = some { splice := 7, stand := 0 }
    ∧ ((after (.grantEvaluation 0) waiting).splice? 7).map Splice.state = some .firing
    ∧ ((after (.grantEvaluation 0) waiting).work 0).startIndex = some 0 := by decide +kernel
theorem test_grant_refused :
    ((after (.grantEvaluation 0) (waiting.modGauge 0 (fun g => { g with webSpeed := 1499 }))).folder 0).slot = none
    ∧ (after (.grantEvaluation 0) demo).folder 0 = demo.folder 0
    ∧ (after (.grantEvaluation 0) (waiting.modFolder 0 (fun F => { F with grantOccasions := 0 }))).splice? 7
      = waiting.splice? 7 := by decide +kernel

theorem test_grant_blocked :
    ((after (.grantEvaluation 0) (waiting.modLink (fun l => { l with resetPending := true }))).folder 0).slot = none
    ∧ ((after (.grantEvaluation 0) (waiting.modFolder 0 (fun F =>
      { F with track := List.replicate 8 { splice := 7, stand := 0 } }))).folder 0).slot = none := by decide +kernel
/-- An ejected mark leaves its track, and its record too once the end is acknowledged. -/
theorem test_marks_leave :
    let s := demoMarked .braking (-1121)
    let ended := (demoMarked .completed 0).modSplice 7 (fun sp => { sp with endAck := true })
    ((eject 0 7 s).splice? 7).map (fun sp => sp.mark.state) = some .ejected ∧ ((eject 0 7 s).folder 0).track = []
    ∧ (eject 0 7 ended).splice? 7 = none ∧ retire 7 ended = ended
    ∧ ((purgeStand 0 s).splice? 7).map (fun sp => sp.mark.state) = some .purged
    ∧ ((purgeStand 0 s).folder 0).track = [] ∧ ((purgeStand 0 s).folder 0).grantOccasions = 1
    ∧ (purgeStand 0 ended).splices = [] ∧ purgeStand 1 s = s ∧ (s.splices.map Prod.fst).Nodup := by decide +kernel
/-- By remaining distance, equal ones in the order of their placement. -/
theorem test_trackOrder :
    let m : Int → Splice := fun d =>
      { testSplice .braking with mark := { state := .onTrack, path := some 30000, remaining := some d, waste := 0 } }
    let s := { demo with splices := [(7, m 9), (8, m 4), (9, m 9), (10, m (-3))] }
    ((s.modFolder 0 (fun F => { F with track := [⟨7, 0⟩, ⟨8, 0⟩, ⟨9, 0⟩, ⟨10, 0⟩] })).trackOrder 0).map SpliceRef.splice
      = [10, 8, 7, 9] := by decide +kernel

/-! ### RESET STAND -/

theorem test_resetStand : (demoIn .braking).takes (.resetStand .console 1)
    ∧ ((after (.resetStand .console 1) (demoIn .braking)).splice? 7).map Splice.state = some .completed
    ∧ ((after (.resetStand .console 1) (demoIn .accel)).splice? 7).map Splice.state = some .aborted
    ∧ ((after (.resetStand .console 1) (demoIn .accel)).stand 0).star = .unknown
    ∧ ((after (.resetStand .console 1) (demoIn .accel)).stand 0).queue.callCondition = false := by decide +kernel
theorem test_resetStand_refusals :
    lastCode (after (.resetStand .console 1) (demoIn .firing)) = some .busy
    ∧ lastCode (after (.resetStand (.panel 0) 1) demo) = some .notPermitted
    ∧ (demoIn .braking).activeSplice 0 = some (7, testSplice .braking) := by decide +kernel

/-- A WEB-PRESENT change handed on before the reset stays for its block; a STAR code does not. -/
theorem test_resetStand_handed :
    ((after (.resetStand .console 1) (demo.modField 0 (fun x => { x with
      handed := [{ input := .star, level := 1 }, { input := .webPresent, level := 0 }] }))).stand 0).field.handed
      = [{ input := .webPresent, level := 0 }] := by decide +kernel
theorem test_resetStand_reels :
    ((after (.resetStand .console 1) (demoIn .accel)).reel? 2).map (fun r => (r.state, r.reservedBy, r.diameter, r.notes))
      = some (.ready, none, none, [.diameterReset])
    ∧ ((after (.resetStand .console 1) (demoIn .accel)).stand 0).queue.entries.map StatusEntry.conditions = [[.spliceVoid]]
    ∧ ((after (.resetStand .console 1) (demoMarked .braking 5)).splice? 7).map (fun sp => (sp.notes, sp.mark.remaining))
      = some ([.standReset], some 5) := by decide +kernel

/-! ### Field events -/

/-- A sample with every input at the level accepted in the demo state, but WEB-PRESENT. -/
def webless : Sample :=
  { reelPresentA := true, reelPresentB := true, reelPresentC := false, pasterHome := true, pasterEngaged := false,
    knifeHome := true, webPresent := false, safetyGate := true, driverHot := false, star0 := false, star1 := false }

theorem test_samplingTimerExpiry : demo.runs
    ∧ ((after (.samplingTimerExpiry 0 webless) (after (.samplingTimerExpiry 0 webless)
        (after (.samplingTimerExpiry 0 webless) demo))).stand 0).field.handed = [{ input := .webPresent, level := 0 }]
    ∧ ((after (.samplingTimerExpiry 0 webless) (after (.samplingTimerExpiry 0 webless) demo)).stand 0).field.changes
      = [] := by decide +kernel
theorem test_snapshot_wraps :
    ((demo.stand 0).field.enter .star 1).snapshot = 1
    ∧ (({ (demo.stand 0).field with snapshot := 4294967295 } : Field).enter .star 1).snapshot = 1 := by decide +kernel
theorem test_takeChange_forms :
    ((demo.modField 0 (fun x => { x with handed := [{ input := .star, level := 3 }] })).stand 0).field.handed.find?
      (fun h => decide (h.input = .star)) = some { input := .star, level := 3 }
    ∧ ((demo.stand 0).field.handed.find? (fun h => decide (h.input = .star))) = none
    ∧ ((demo.stand 0).field.input .star).accepted = some 0
    ∧ handsOn .star 3 false = true := by decide +kernel
theorem test_starCodeAccepted :
    ((after (.starCodeAccepted 0 3) demo).stand 0).star = .moving
    ∧ ((after (.starCodeAccepted 0 3) (demoIn .accel)).splice? 7).map Splice.state = some .spindown
    ∧ (demo.stand 0).star = .settled 0 := by decide +kernel
/-- Code 3 from UNKNOWN and from MOVING sets the star and does nothing else. -/
theorem test_star_moving :
    (starTaken 0 3 State.reset) = State.reset.modStand 0 (fun x => { x with star := .moving })
    ∧ (State.reset.stand 0).star = .unknown
    ∧ ((starTaken 0 3 (starTaken 0 3 demo)).stand 0).lastSettled = some 0 := by decide +kernel
theorem test_star_settles :
    (((starTaken 0 1 (((demoIn .indexing).modStand 0 (fun x => { x with star := .moving })).modWork 0 (fun w =>
      { w with startIndex := some 0 }))).splice? 7).map (fun sp => (sp.state, sp.cause)))
      = some (.completed, some .indexed)
    ∧ (((starTaken 0 2 (((demoIn .indexing).modStand 0 (fun x => { x with star := .moving })).modWork 0 (fun w =>
      { w with startIndex := some 0 }))).splice? 7).map (fun sp => sp.cause)) = some (some .starSettledElsewhere) := by
  decide +kernel
theorem test_reelPresentLoss : demo.runs
    ∧ ((after (.reelPresentLoss 0 1) demo).reel? 2).map (fun r => (r.state, r.notes))
      = some (.floor, [.removedUnannounced])
    ∧ ((after (.reelPresentLoss 0 1) (demoIn .firing)).splice? 7).map Splice.state = some .spindown
    ∧ ((after (.reelPresentLoss 0 0) (demo.modReel 1 toButt)).reel? 1).map Reel.loc = some none := by decide +kernel
theorem test_reelPresentLoss_raises :
    ((after (.reelPresentLoss 0 0) demo).stand 0).queue.entries.map StatusEntry.conditions = [[.reelLost]]
    ∧ ((after (.reelPresentLoss 0 1) (demoIn .pasting)).stand 0).queue.entries.map StatusEntry.conditions
      = [[.reelLost]] := by decide +kernel
theorem test_webPresentLoss :
    ((after (.webPresentLoss 0) (demoIn .armed)).splice? 7).map Splice.state = some .aborted
    ∧ ((after (.webPresentLoss 0) (demoIn .waiting)).splice? 7).map Splice.state = some .spindown
    ∧ ((after (.webPresentLoss 0) (demoMarked .pasting 5)).splice? 7).map (fun sp => (sp.state, sp.mark.state))
      = some (.spindown, .purged)
    ∧ ((after (.webPresentLoss 0) (demoMarked .braking 5)).splice? 7).map (fun sp => (sp.state, sp.mark.state))
      = some (.braking, .purged)
    ∧ ((after (.webPresentLoss 0) demo).stand 0).seq.webBroken = true := by decide +kernel
theorem test_notCarried :
    ((after (.webPresentLoss 0) (demoMarked .cutting 5)).splice? 7).map (fun sp => (sp.state, sp.cause))
      = some (.spindown, some .spliceNotCarried)
    ∧ ((after (.webPresentLoss 0) (demoMarked .cutting 5)).reel? 1).map Reel.state = some .butt
    ∧ (demoMarked .cutting 5).activeSplice 0 = some (7, { testSplice .cutting with
        mark := { state := .onTrack, path := some 30000, remaining := some 5, waste := 65535 } })
    ∧ (testSplice .cutting).outgoing ≠ (testSplice .cutting).incoming
    ∧ ((demoMarked .cutting 5).splices.map Prod.fst).Nodup
    ∧ (∀ p ∈ (demoMarked .cutting 5).reels, p.2.state = .running → onStand 0 p.2 = true → p.1 = 1) := by decide +kernel
theorem test_notCarried_effects :
    let t := after (.webPresentLoss 0) ((demoMarked .cutting 5).modField 0 (fun x =>
      { acceptedAs .knifeHome 0 x with knifePulse := some 80, knife := { drive := .hold, pullInTimer := none } }))
    (t.splice? 7).map (fun sp => (sp.notes, sp.mark.state, sp.residualDiameter)) = some ([.pasteUsed], .purged, some 300)
    ∧ (t.reel? 2).map (fun r => (r.state, r.reasons, r.notes, r.reservedBy)) = some (.mounted, [.notPasted], [.pasteUsed], none)
    ∧ (t.stand 0).queue.entries.map StatusEntry.conditions = [[.spliceNotCarried]]
    ∧ (t.stand 0).field.knife.drive = .off ∧ (t.work 0).knifeHomeTimer = some 500 := by decide +kernel
theorem test_pasterEngagedActive :
    ((after (.pasterEngagedActive 0) (demoIn .pasting)).work 0).confirmed = true
    ∧ ((after (.pasterEngagedActive 0) (demoIn .firing)).work 0).confirmed = false := by decide +kernel
theorem test_pasterHomeActive :
    ((after (.pasterHomeActive 0) ((demoIn .braking).modField 0 (acceptedAs .pasterHome 0))).splice? 7).map Splice.state
      = some .completed := by decide +kernel
theorem test_knifeHomeActive :
    ((after (.knifeHomeActive 0) (((demoIn .cutting).modField 0 (acceptedAs .knifeHome 0)).modWork 0
      (fun w => { w with knifeHomeTimer := some 500 }))).work 0).knifeHomeTimer = none
    ∧ ((after (.knifeHomeActive 0) ((demoIn .indexing).modField 0 (acceptedAs .knifeHome 0))).work 0).indexReq = true := by
  decide +kernel
theorem test_safetyGateChange :
    ((after (.safetyGateChange 0 false) (demoIn .indexing)).stand 0).queue.entries.map StatusEntry.conditions
      = [[.safetyGateOpen]]
    ∧ ((after (.safetyGateChange 0 false) demo).stand 0).queue.entries = []
    ∧ (demoIn .indexing).spliceState 0 = some .indexing := by decide +kernel
theorem test_driverHot :
    ((after (.driverHotActive 0) (demo.modField 0 (acceptedAs .driverHot 0))).stand 0).queue.entries.map
      StatusEntry.conditions = [[.driverHot]]
    ∧ ((after (.driverHotInactive 0) (((demoIn .armed).modField 0 (acceptedAs .driverHot 1)).modWork 0
      (fun w => { w with startPending := true }))).splice? 7).map Splice.state = some .accel := by decide +kernel

/-- R135: the two lines of STAR read together, STAR-1 the more significant. -/
theorem test_star_lines :
    sampleLevel { webless with star0 := true } .star = 1 ∧ sampleLevel { webless with star1 := true } .star = 2
    ∧ sampleLevel { webless with star0 := true, star1 := true } .star = 3 := by decide
/-- A first acceptance: DRIVER-HOT active has its effect, PASTER-ENGAGED only its acceptance. -/
theorem test_takeChange_first :
    ((State.reset.stand 0).field.input .driverHot).accepted = none ∧ handsOn .driverHot 1 true = true
    ∧ ((after (.driverHotActive 0) State.reset).stand 0).queue.entries.map StatusEntry.conditions = [[.driverHot]]
    ∧ handsOn .webPresent 0 true = false
    ∧ ((after (.webPresentLoss 0) State.reset).stand 0).queue.entries = []
    ∧ ((after (.webPresentLoss 0) State.reset).stand 0).field.changes = []
    ∧ (after (.webPresentLoss 0) State.reset).accepted 0 .webPresent = some 0 := by decide +kernel
/-- A sample that completes KNIFE-HOME in INDEXING as a first acceptance, which no block takes, sets INDEX-REQ. -/
theorem test_sample_index :
    let s := (demoIn .indexing).modField 0 (fun x =>
      x.setInput .knifeHome { accepted := none, candidate := some 1, run := 2 })
    handsOn .knifeHome 1 true = false
    ∧ ((after (.samplingTimerExpiry 0 { webless with webPresent := true }) s).work 0).indexReq = true
    ∧ ((after (.samplingTimerExpiry 0 { webless with webPresent := true }) s).work 0).indexTimer = some 30000 := by
  decide +kernel
/-- A direct change of the star between two settled codes: in ACCEL the splice is given up. -/
theorem test_star_direct :
    ((starTaken 0 1 (demoIn .accel)).splice? 7).map Splice.state = some .spindown
    ∧ ((starTaken 0 1 (demoIn .accel)).stand 0).lastSettled = some 1
    ∧ ((demoIn .accel).stand 0).star = .settled 0 := by decide +kernel
/-- The entry to INDEXING with the star at k, at k + 1, elsewhere, between positions and with no start index. -/
theorem test_enterIndexing :
    let at_ : StarIndex → Option Arm → Option (SpliceState × Option EndCause) := fun star k =>
      ((enterIndexing 0 7 (((demoIn .braking).modStand 0 (fun x => { x with star := star })).modWork 0 (fun w =>
        { w with startIndex := k }))).splice? 7).map (fun sp => (sp.state, sp.cause))
    at_ (.settled 0) (some 0) = some (.indexing, none) ∧ at_ .moving (some 0) = some (.indexing, none)
    ∧ at_ .unknown none = some (.indexing, none) ∧ at_ (.settled 0) (some 2) = some (.completed, some .indexed)
    ∧ at_ (.settled 2) (some 0) = some (.completed, some .starSettledElsewhere)
    ∧ at_ (.settled 1) none = some (.completed, some .starSettledElsewhere) := by decide +kernel

/-! ### Counts and pulses -/

theorem test_webCount : demo.runs ∧ ((after (.webCount 0 .reverse) demo).stand 0).gauge.window = -1
    ∧ ((after (.webCount 0 .forward) demo).stand 0).gauge.runMark = 1
    ∧ (((demoMarked .braking 5).folder 0).track.map SpliceRef.splice).Nodup
    ∧ ((after (.webCount 0 .forward) (demoMarked .braking (-1120))).splice? 7).map (fun sp => sp.mark.state)
      = some .ejected
    ∧ ((after (.webCount 0 .reverse) (demoMarked .braking 30000)).splice? 7).map (fun sp => sp.mark.remaining)
      = some (some 30000) := by decide +kernel
theorem test_webCount_run_mark :
    ((after (.webCount 0 .forward) (demo.modGauge 0 (fun g => { g with runMark := 4499 }))).stand 0).gauge.tripped = true
    ∧ ((after (.webCount 0 .forward) (demo.modGauge 0 (fun g => { g with runMark := 4498 }))).stand 0).gauge.tripped
      = false := by decide +kernel

/-- The demo state in CUTTING one web count before its carry distance. -/
def carrying : State :=
  (demoMarked .cutting 5).modWork 0 (fun w => { w with carryDistance := some 3000, carryCount := 2999 })

theorem test_web_end :
    ((after (.webCount 0 .forward) carrying).splice? 7).map (fun sp => (sp.state, sp.residualDiameter))
      = some (.braking, some 300)
    ∧ ((after (.webCount 0 .forward) carrying).reel? 2).map (fun r => (r.state, r.reservedBy)) = some (.running, none)
    ∧ ((after (.webCount 0 .reverse) carrying).splice? 7).map Splice.state = some .cutting
    ∧ (carrying.stand 0).queue.entries.getLast? = none
    ∧ ((after (.webCount 0 .forward) carrying).stand 0).queue.entries.map (fun e => (e.conditions, e.residualDiameter))
      = [([.webEnd], some 300)] := by decide +kernel

/-- The demo state at a fire count, with the points of the manual's example. -/
def firingAt (x : SpliceState) (c : Int) : State :=
  (demoIn x).modWork 0 (fun w =>
    { w with fireCount := some c, points := some { fire := 3057, front := 3927, knife := 4027 } })

theorem test_tachCount :
    ((after (.tachCount 0 .forward) (firingAt .firing 3056)).splice? 7).map Splice.state = some .pasting
    ∧ ((after (.tachCount 0 .forward) (firingAt .firing 3055)).splice? 7).map Splice.state = some .firing
    ∧ ((after (.tachCount 0 .forward) (firingAt .pasting 3926)).splice? 7).map (fun sp => sp.mark.state) = some .onTrack
    ∧ ((after (.tachCount 0 .reverse) (firingAt .pasting 3926)).splice? 7).map (fun sp => sp.mark.state)
      = some .none := by decide +kernel
theorem test_tachCount_knife :
    ((after (.tachCount 0 .forward) ((firingAt .pasting 4026).modWork 0 (fun w => { w with confirmed := true }))).splice?
      7).map Splice.state = some .cutting
    ∧ ((after (.tachCount 0 .forward) (firingAt .pasting 4026)).splice? 7).map Splice.state = some .spindown
    ∧ (firingAt .pasting 4026).activeSplice 0 = some (7, testSplice .pasting) := by decide +kernel
theorem test_pasteMarkPulse :
    ((after (.pasteMarkPulse 0) (demoIn .accel)).work 0).revolution = some { tach := 0, web := 0 }
    ∧ ((after (.pasteMarkPulse 0) ((demoIn .accel).modWork 0 (fun w =>
        { w with revolution := some { tach := 299, web := 299 } }))).work 0).keptGirth = none
    ∧ ((after (.pasteMarkPulse 0) ((demoIn .accel).modWork 0 (fun w =>
        { w with revolution := some { tach := 3770, web := 3770 }, prevGirth := some 3770, goodCount := 2 }))).splice?
        7).map Splice.state = some .matched := by decide +kernel
theorem test_pasteMarkPulse_bad :
    ((after (.pasteMarkPulse 0) ((demoIn .matched).modWork 0 (fun w =>
        { w with revolution := some { tach := 3770, web := 3750 }, prevGirth := some 3770 }))).splice? 7).map Splice.state
      = some .accel
    ∧ ((after (.pasteMarkPulse 0) ((demoIn .waiting).modWork 0 (fun w =>
        { w with revolution := some { tach := 3770, web := 3750 }, prevGirth := some 3770 }))).folder 0).waits.map
        WaitEntry.matched = [false]
    ∧ ((after (.pasteMarkPulse 0) ((demoIn .firing).modWork 0 (fun w =>
        { w with revolution := some { tach := 3770, web := 3770 } }))).work 0).fireCount = some 0 := by decide +kernel
theorem test_revPulse : ((after (.revPulse 0 0) demo).stand 0).gauge.ref = true
    ∧ ((after (.revPulse 0 0) (demo.modGauge 0 (fun g => { g with ref := true, revCount := 942 }))).reel? 1).map
      Reel.diameter = some (some 300)
    ∧ ((after (.revPulse 0 0) (demo.modGauge 0 (fun g => { g with ref := true, revCount := 960, streak := 2 }))).reel?
      1).map Reel.diameter = some none
    ∧ ((after (.revPulse 0 0) (demo.modGauge 0 (fun g => { g with ref := true, revCount := 960 }))).stand 0).gauge.streak
      = 1 := by decide +kernel
theorem test_revPulse_butt :
    ((after (.revPulse 0 0) ((demoIn .braking).modWork 0 (fun w => { w with buttArm := some 0 }))).work 0).revQuietTimer
      = some 3000
    ∧ ((after (.revPulse 0 1) ((demoIn .braking).modWork 0 (fun w => { w with buttArm := some 0 }))).work 0).revQuietTimer
      = none := by decide +kernel

theorem test_webCount_runMarkLost :
    ((runMarkLost 0 demo).stand 0).queue.entries.map StatusEntry.conditions = [[.runMarkLost]]
    ∧ ((runMarkLost 0 demo).reel? 1).map Reel.diameter = some none := by decide +kernel
/-- At the knife point without the web the splice is cut and at once not carried, its knife released with the paster. -/
theorem test_knife_point_webless :
    let s := ((firingAt .pasting 4027).modField 0 (acceptedAs .webPresent 0)).modWork 0 (fun w => { w with confirmed := true })
    ((judgeKnifePoint 0 s).splice? 7).map (fun sp => (sp.state, sp.cause)) = some (.spindown, some .spliceNotCarried)
    ∧ ((judgeKnifePoint 0 s).stand 0).field.knife.drive = .off
    ∧ ((judgeKnifePoint 0 s).reel? 1).map Reel.state = some .butt ∧ s.accepted 0 .webPresent ≠ some 1 := by decide +kernel
/-- The loss that the knife point finds raises SPLICE_NOT_CARRIED and no WEB_BREAK when its own command comes. -/
theorem test_knife_point_takes_the_loss :
    let s := ((firingAt .pasting 4027).modField 0 (fun x => { acceptedAs .webPresent 0 x with
        handed := [{ input := .webPresent, level := 0 }, { input := .safetyGate, level := 0 }] })).modWork 0 (fun w =>
          { w with confirmed := true })
    ((judgeKnifePoint 0 s).stand 0).field.handed = [{ input := .safetyGate, level := 0 }]
    ∧ ((after (.webPresentLoss 0) (judgeKnifePoint 0 s)).stand 0).queue.entries.map StatusEntry.conditions
      = [[.spliceNotCarried]] := by decide +kernel
/-- A count that ejects a mark as its travel reaches the spacing hands on the ejection's occasion only (log 32). -/
theorem test_eject_at_spacing :
    let s := fun spacing : Nat => (demoMarked .braking (-1120)).modFolder 0 (fun F => { F with spacing := spacing })
    ((after (.webCount 0 .forward) (s 31121)).folder 0).grantOccasions = 1
    ∧ ((after (.webCount 0 .forward) (s 31122)).folder 0).grantOccasions = 1
    ∧ ((after (.webCount 0 .forward) ((demoMarked .braking 5).modFolder 0 (fun F => { F with spacing := 29996 }))).folder
        0).grantOccasions = 1 := by decide +kernel
/-- The hypotheses of PasteFailureSpinsDown, with a mark placed and without one. -/
theorem test_failPaste :
    ((demoMarked .pasting 5).splices.map Prod.fst).Nodup
    ∧ ((demoMarked .pasting 5).activeSplice 0).map (fun x => (x.1, x.2.stand, x.2.state)) = some (7, 0, .pasting)
    ∧ ((failPaste 0 7 (testSplice .pasting) (demoMarked .pasting 5)).splice? 7).map (fun sp => (sp.state, sp.mark.state))
      = some (.spindown, .purged)
    ∧ ((failPaste 0 7 (testSplice .pasting) (demoMarked .pasting 5)).folder 0).grantOccasions = 2
    ∧ ((failPaste 0 7 (testSplice .pasting) (demoIn .pasting)).folder 0).grantOccasions = 1
    ∧ ((pasteNotConfirmed 0 7 (testSplice .pasting) (demoIn .pasting)).reel? 2).map (fun r => (r.state, r.reasons))
      = some (.mounted, [.notPasted]) := by decide +kernel
/-- A waiter whose matched flag is clear: good revolutions are counted, and the third sets the flag. -/
theorem test_pasteMarkPulse_rematch :
    let s := fun k => ((demoIn .waiting).modWork 0 (fun w => { w with
        revolution := some { tach := 3770, web := 3770 }, prevGirth := some 3770, goodCount := k, matched := false
        })).modFolder 0 (fun F => { F with waits := F.waits.map (fun e => { e with matched := false }) })
    ((after (.pasteMarkPulse 0) (s 1)).work 0).goodCount = 2
    ∧ ((after (.pasteMarkPulse 0) (s 1)).folder 0).waits.map WaitEntry.matched = [false]
    ∧ ((after (.pasteMarkPulse 0) (s 2)).folder 0).waits.map WaitEntry.matched = [true]
    ∧ ((after (.pasteMarkPulse 0) (s 2)).folder 0).grantOccasions = 2
    ∧ ((after (.pasteMarkPulse 0) (s 2)).reel? 2).map Reel.girth = some (some 3770) := by decide +kernel
/-- A revolution in FIRING after the fire pulse restarts the counts and leaves the fire count. -/
theorem test_pasteMarkPulse_fired :
    let s := (firingAt .firing 100).modWork 0 (fun w => { w with revolution := some { tach := 3770, web := 3770 } })
    ((after (.pasteMarkPulse 0) s).work 0).fireCount = some 100
    ∧ ((after (.pasteMarkPulse 0) s).work 0).revolution = some { tach := 0, web := 0 }
    ∧ ((after (.pasteMarkPulse 0) s).work 0).keptGirth = some 3770 := by decide +kernel

/-! ### Timers -/

theorem test_webSpeedTimerExpiry :
    ((after (.webSpeedTimerExpiry 0) (waiting.modGauge 0 (fun g => { g with window := 100 }))).stand 0).gauge.webSpeed
      = 2000
    ∧ ((after (.webSpeedTimerExpiry 0) (waiting.modGauge 0 (fun g => { g with window := 100 }))).work 0).demand = 2000
    ∧ ((after (.webSpeedTimerExpiry 0) waiting).folder 0).grantOccasions = 2 := by decide +kernel
theorem test_accelTimerExpiry :
    ((after (.accelTimerExpiry 0) ((demoIn .accel).modWork 0 (fun w => { w with accelTimer := some 90000 }))).splice?
      7).map Splice.state = some .spindown
    ∧ (after (.accelTimerExpiry 0) demo).splices = [] := by decide +kernel
theorem test_quietTimerExpiry :
    ((after (.quietTimerExpiry 0) ((demoIn .spindown).modWork 0 (fun w =>
      { w with quietTimer := some 2000, outcome := some .failed }))).splice? 7).map Splice.state = some .failed
    ∧ demo.activeSplice 0 = none := by decide +kernel
theorem test_stopTimerExpiry :
    ((after (.stopTimerExpiry 0) ((demoIn .spindown).modWork 0 (fun w => { w with stopTimer := some 40000 }))).splice?
      7).map Splice.state = some .aborted
    ∧ ((after (.stopTimerExpiry 0) ((demoIn .braking).modWork 0 (fun w => { w with stopTimer := some 40000 }))).work
      0).brakeKept = true := by decide +kernel
theorem test_confirmTimerExpiry :
    ((after (.confirmTimerExpiry 0) ((demoIn .pasting).modWork 0 (fun w => { w with confirmTimer := some 140 }))).splice?
      7).map (fun sp => (sp.state, sp.cause)) = some (.spindown, some .pasteNotConfirmed) := by decide +kernel
theorem test_knifePulseTimerExpiry :
    ((after (.knifePulseTimerExpiry 0) ((demoIn .cutting).modField 0 (fun x =>
      { acceptedAs .knifeHome 0 x with knifePulse := some 80 }))).work 0).knifeHomeTimer = some 500 := by decide +kernel
theorem test_knifeHomeTimerExpiry :
    ((after (.knifeHomeTimerExpiry 0) (demo.modWork 0 (fun w => { w with knifeHomeTimer := some 500 }))).stand
      0).queue.entries.map StatusEntry.conditions = [[.knifeNotHome]] := by decide +kernel
theorem test_revQuietTimerExpiry :
    ((after (.revQuietTimerExpiry 0) ((demoIn .braking).modWork 0 (fun w =>
      { w with revQuietTimer := some 3000, startIndex := some 0 }))).splice? 7).map Splice.state = some .indexing
    ∧ ((after (.revQuietTimerExpiry 0) (demo.modWork 0 (fun w =>
      { w with revQuietTimer := some 3000, brakeKept := true }))).work 0).brakeKept = false := by decide +kernel
theorem test_indexTimerExpiry :
    ((after (.indexTimerExpiry 0) ((demoIn .indexing).modWork 0 (fun w =>
      { w with indexReq := true, indexTimer := some 30000 }))).splice? 7).map (fun sp => (sp.state, sp.cause))
      = some (.completed, some .indexTimeout) := by decide +kernel
theorem test_pullInTimerExpiry :
    ((after (.pullInTimerExpiry 0 .brake) (demo.modField 0 (fun x =>
      { x with brake := { drive := .pullIn, pullInTimer := some 40 } }))).stand 0).field.brake
      = { drive := .hold, pullInTimer := none } := by decide +kernel

/-! ### The invariants -/

/-- The demo state in FIRING with two status entries, the newest of the active splice, and a command waiting. -/
def firingDemo : State :=
  { (demoIn .firing).modQueue 0 (fun q =>
      { q with entries := [testEntry 65535 0 none .driverHot, testEntry 1 0 (some 7) .reelLost], nextSerial := 2 })
    with pending := [.timeCounterTick] }

theorem test_firing_input (st : StandIx) (i : Input) :
    ((firingDemo.stand st).field.input i).run ≤ 2
    ∧ (((firingDemo.stand st).field.input i).run = 0 ↔ ((firingDemo.stand st).field.input i).candidate = none)
    ∧ (((firingDemo.stand st).field.input i).candidate ≠ none →
        ((firingDemo.stand st).field.input i).candidate ≠ ((firingDemo.stand st).field.input i).accepted) := by
  revert st
  cases i with
  | reelPresent a => revert a; decide +kernel
  | _ => decide +kernel

theorem test_firing_standInRange (st : StandIx) : (firingDemo.stand st).InRange := by
  constructor
  case inputs => exact test_firing_input st
  all_goals revert st; decide +kernel

/-- A state of the hypothesis of EveryStepKeepsTheRanges from which a command is taken. -/
theorem test_inRange : firingDemo.InRange ∧ ∃ t, step firingDemo = .next t :=
  ⟨⟨test_firing_standInRange, by decide +kernel, by decide +kernel, by decide +kernel,
    ⟨by decide +kernel, by decide +kernel, trivial⟩⟩, _, rfl⟩

theorem test_firing_splice (n : Nat) (sp : Splice) (h : firingDemo.splice? n = some sp) :
    n = 7 ∧ sp = testSplice .firing := by
  by_cases e : n = 7
  · subst e
    have k : firingDemo.splice? 7 = some (testSplice .firing) := by decide +kernel
    rw [k] at h
    exact ⟨rfl, (Option.some.inj h).symm⟩
  · have e' : ¬ 7 = n := fun k => e k.symm
    have k : firingDemo.splice? n = Table.find n [(7, testSplice .firing)] := rfl
    simp [k, Table.find, e'] at h

theorem test_firing_active : (firingDemo.work 0).active = some 7 ∧ (∀ st, st ≠ 0 → (firingDemo.work st).active = none) := by
  decide +kernel

theorem test_firing_folders : (firingDemo.folder 0).slot = some { splice := 7, stand := 0 }
    ∧ (∀ f, f ≠ 0 → (firingDemo.folder f).slot = none)
    ∧ ∀ f, (firingDemo.folder f).waits = [] ∧ (firingDemo.folder f).track = [] := by decide +kernel

/-- A state of the hypotheses of EveryStepKeepsOneSplicePerSlot, with a splice that holds its folder's slot. -/
theorem test_disciplined : firingDemo.Disciplined ∧ (∃ t, step firingDemo = .next t)
    ∧ firingDemo.splice? 7 = some (testSplice .firing) ∧ holdsSlot (testSplice .firing).state = true
    ∧ (testSplice .firing).folder = some 0 := by
  have k : firingDemo.splice? 7 = some (testSplice .firing) := by decide +kernel
  obtain ⟨a1, a2⟩ := test_firing_active
  obtain ⟨f1, f2, f3⟩ := test_firing_folders
  have marks : ∀ st, (firingDemo.work st).markPlaced = false := by decide +kernel
  refine ⟨?_, ⟨_, rfl⟩, k, rfl, rfl⟩
  constructor
  · decide +kernel
  · intro st n h
    by_cases e : st = 0
    · subst e
      rw [a1] at h
      obtain rfl := Option.some.inj h
      exact ⟨_, k, rfl, rfl⟩
    · rw [a2 st e] at h; cases h
  · intro n sp h _
    obtain ⟨rfl, rfl⟩ := test_firing_splice n sp h
    exact ⟨0, rfl, f1⟩
  · intro f r h
    by_cases e : f = 0
    · subst e
      rw [f1] at h
      obtain rfl := Option.some.inj h
      exact ⟨_, k, rfl, rfl, rfl⟩
    · rw [f2 f e] at h; cases h
  · intro f; rw [(f3 f).1]; exact ⟨fun e he => (by cases he), List.nodup_nil⟩
  · intro f; rw [(f3 f).2]; exact ⟨fun e he => (by cases he), List.nodup_nil⟩
  · intro n sp h _
    obtain ⟨rfl, rfl⟩ := test_firing_splice n sp h
    rfl
  · intro st
    refine ⟨fun _ => ?_, fun n sp _ _ => ⟨fun _ => ?_, fun _ _ => ?_⟩⟩
    · exact marks st
    · exact marks st
    · rename_i h _ _
      obtain ⟨rfl, rfl⟩ := test_firing_splice n sp h
      rfl
  · intro f; rw [(f3 f).2]; exact ⟨by simp, fun _ _ _ _ _ => by simp⟩

/-- Reel 2 in FIRING: COMMITTED, and reserved by splice 7. -/
def heldReel : Reel :=
  { testReel [1, 0, 0, 0, 0, 0, 0, 0, 0, 0, 7] .committed (some (0, 1)) (some 1200) with reservedBy := some 7 }

theorem test_firing_reels : firingDemo.reels = [(1, testReel [5, 0, 1, 2, 3, 4, 5, 6, 7, 8, 7] .running (some (0, 0)) (some 300)),
    (2, heldReel),
    (3, testReel [2, 0, 0, 0, 0, 0, 0, 0, 0, 0, 4] .floor none none)] := by decide +kernel

theorem test_firing_reel (h : Nat) (r : Reel) (e : firingDemo.reel? h = some r) :
    (h = 1 ∧ r = testReel [5, 0, 1, 2, 3, 4, 5, 6, 7, 8, 7] .running (some (0, 0)) (some 300))
    ∨ (h = 2 ∧ r = heldReel)
    ∨ (h = 3 ∧ r = testReel [2, 0, 0, 0, 0, 0, 0, 0, 0, 0, 4] .floor none none) := by
  simp only [State.reel?, test_firing_reels, Table.find] at e
  split at e
  · rename_i k; exact .inl ⟨k.symm, (Option.some.inj e).symm⟩
  split at e
  · rename_i k; exact .inr (.inl ⟨k.symm, (Option.some.inj e).symm⟩)
  split at e
  · rename_i k; exact .inr (.inr ⟨k.symm, (Option.some.inj e).symm⟩)
  · cases e

/-- A state of the hypotheses of EveryStepKeepsTheReelRecords, with a RUNNING and a reserved reel. -/
theorem test_reelsInOrder : firingDemo.ReelsInOrder := by
  have all := test_firing_reel
  obtain ⟨a1, a2⟩ := test_firing_active
  have k : firingDemo.splice? 7 = some (testSplice .firing) := by decide +kernel
  constructor
  · intro h r e; rcases all h r e with ⟨_, rfl⟩ | ⟨_, rfl⟩ | ⟨_, rfl⟩ <;> decide
  · refine ⟨fun h r e => ?_, fun h k r q e e' c => ?_⟩
    · rcases all h r e with ⟨_, rfl⟩ | ⟨_, rfl⟩ | ⟨_, rfl⟩ <;> decide
    · rcases all h r e with ⟨rfl, rfl⟩ | ⟨rfl, rfl⟩ | ⟨rfl, rfl⟩ <;>
        rcases all k q e' with ⟨rfl, rfl⟩ | ⟨rfl, rfl⟩ | ⟨rfl, rfl⟩ <;> first | rfl | (revert c; decide)
  · intro h k r q l e e' c d
    rcases all h r e with ⟨rfl, rfl⟩ | ⟨rfl, rfl⟩ | ⟨rfl, rfl⟩ <;>
      rcases all k q e' with ⟨rfl, rfl⟩ | ⟨rfl, rfl⟩ | ⟨rfl, rfl⟩ <;>
      first | rfl | (have := c.trans d.symm; revert this; decide)
  · intro h r e; rcases all h r e with ⟨_, rfl⟩ | ⟨_, rfl⟩ | ⟨_, rfl⟩ <;> decide
  · intro h r e; rcases all h r e with ⟨_, rfl⟩ | ⟨_, rfl⟩ | ⟨_, rfl⟩ <;> decide
  · intro st h k r q e e' x y _ _
    rcases all h r e with ⟨rfl, rfl⟩ | ⟨rfl, rfl⟩ | ⟨rfl, rfl⟩ <;>
      rcases all k q e' with ⟨rfl, rfl⟩ | ⟨rfl, rfl⟩ | ⟨rfl, rfl⟩ <;>
      first | rfl | (cases x; done) | cases y
  · intro h r n e b
    rcases all h r e with ⟨rfl, rfl⟩ | ⟨rfl, rfl⟩ | ⟨rfl, rfl⟩
    · cases b
    · obtain rfl := Option.some.inj b
      exact ⟨0, _, a1, k, rfl, rfl, rfl, rfl⟩
    · cases b
  · intro h r e; rcases all h r e with ⟨_, rfl⟩ | ⟨_, rfl⟩ | ⟨_, rfl⟩ <;> decide
  · intro st n sp a e _
    obtain ⟨rfl, rfl⟩ := test_firing_splice n sp e
    by_cases z : st = 0
    · subst z
      have r1 : firingDemo.reel? 1 = some (testReel [5, 0, 1, 2, 3, 4, 5, 6, 7, 8, 7] .running (some (0, 0)) (some 300)) := by
        decide +kernel
      have r2 : firingDemo.reel? 2 = some heldReel := by decide +kernel
      exact ⟨⟨_, r2, rfl⟩, _, r1, rfl, rfl⟩
    · rw [a2 st z] at a; cases a

/-- A state of the hypotheses of EveryStepKeepsQueuesAndWaitLists, with an entry of the active splice. -/
theorem test_queuesInOrder : firingDemo.QueuesInOrder := by
  have k : firingDemo.splice? 7 = some (testSplice .firing) := by decide +kernel
  have q0 : (firingDemo.stand 0).queue.entries = [testEntry 65535 0 none .driverHot, testEntry 1 0 (some 7) .reelLost] := by
    decide +kernel
  have q1 : ∀ st, st ≠ 0 → (firingDemo.stand st).queue.entries = [] := by decide +kernel
  have a0 : ∀ st n, (firingDemo.work st).active = some n → st = 0 ∧ n = 7 := by
    intro st n a
    obtain ⟨h0, h1⟩ := test_firing_active
    by_cases z : st = 0
    · subst z; rw [h0] at a; exact ⟨rfl, (Option.some.inj a).symm⟩
    · rw [h1 st z] at a; cases a
  constructor
  · decide +kernel
  · decide +kernel
  · decide +kernel
  · intro st e he n hn
    by_cases z : st = 0
    · subst z
      rw [q0] at he
      rcases List.mem_pair.mp he with rfl | rfl
      · cases hn
      · obtain rfl := Option.some.inj hn
        exact ⟨_, k, rfl, rfl⟩
    · rw [q1 st z] at he; cases he
  · intro st n a
    obtain ⟨rfl, rfl⟩ := a0 st n a
    refine ⟨fun e he hn => ?_, fun sp e => ?_⟩
    · rw [q0] at he ⊢
      rcases List.mem_pair.mp he with rfl | rfl
      · cases hn
      · exact ⟨rfl, by decide, by decide⟩
    · obtain ⟨_, rfl⟩ := test_firing_splice 7 sp e; rfl
  · intro n sp e; obtain ⟨_, rfl⟩ := test_firing_splice n sp e; decide +kernel
  · intro n sp e; obtain ⟨_, rfl⟩ := test_firing_splice n sp e; decide

/-- The four invariants hold together in a state from which a command is taken. -/
theorem test_invariants : firingDemo.InRange ∧ firingDemo.Disciplined ∧ firingDemo.ReelsInOrder ∧ firingDemo.QueuesInOrder
    ∧ ∃ t, step firingDemo = .next t :=
  ⟨test_inRange.1, test_disciplined.1, test_reelsInOrder, test_queuesInOrder, test_inRange.2⟩

end Sys2Proof.Machine
end

section
/-! How commands are taken: a step and the command at the queue's front, and the requests that only read. -/

namespace Sys2Proof.Machine

/-! ### A step (log 1) -/

theorem step_nil {s : State} (h : s.pending = []) : step s = .next s := by
  unfold step
  rw [h]

theorem step_cons {s : State} {c : Instr} {rest : List Instr} (h : s.pending = c :: rest) :
    step s = exec c { s with pending := rest } := by
  unfold step
  rw [h]

/-- Settles O1: a step unfolded on a queue with a front, and on the empty one. -/
theorem stepRunsTheFrontCommand : Obligations.StepRunsTheFrontCommand :=
  ⟨fun _ _ => step_cons rfl, fun _ => step_nil⟩

/-! ### Requests that only read -/

/-- The requests that read and change nothing. -/
def readsOnly : Instr → Bool
  | .readReel _ _ | .findReel _ _ | .listStand _ _ | .readSettings _ _ | .readSplice _ _ | .readStatus _ _ | .readInputs _ _
  | .readTrack _ _ | .readDevice _ => true
  | _ => false

theorem serve_readsOnly {r : Instr} {own : State → Answer × State} (hown : ∀ s, (own s).2 = s) (s : State) :
    serve r own s = .next s ∨ ∃ a, serve r own s = answered r a s := by
  rcases serve_completes r own s with e | e
  · exact Or.inl e
  · exact Or.inr ⟨(own s).1, by rw [e, hown]⟩

/-- A request that only reads has no effect but its answer. -/
theorem exec_readsOnly {c : Instr} (h : readsOnly c = true) (s : State) :
    exec c s = .next s ∨ ∃ a, exec c s = answered c a s := by
  cases c with
  | readReel c k => simp only [exec, execReadReel]; exact serve_readsOnly (fun s => by (repeat' split) <;> rfl) s
  | findReel c code => simp only [exec, execFindReel]; exact serve_readsOnly (fun s => by (repeat' split) <;> rfl) s
  | listStand c stand => simp only [exec, execListStand]; exact serve_readsOnly (fun s => by split <;> rfl) s
  | readSettings c stand => simp only [exec, execReadSettings]; exact serve_readsOnly (fun s => by split <;> rfl) s
  | readSplice c n => simp only [exec, execReadSplice]; exact serve_readsOnly (fun s => by (repeat' split) <;> rfl) s
  | readStatus c stand => simp only [exec, execReadStatus]; exact serve_readsOnly (fun s => by split <;> rfl) s
  | readInputs c stand => simp only [exec, execReadInputs]; exact serve_readsOnly (fun s => by split <;> rfl) s
  | readTrack c f => simp only [exec, execReadTrack]; exact serve_readsOnly (fun s => by split <;> rfl) s
  | readDevice c => exact serve_readsOnly (fun _ => rfl) s
  | _ => cases h

end Sys2Proof.Machine
end

section
/-! The ranges of the device's values (`State.InRange`) under the commands: what Laws/Range.lean says of each shared operation,
carried to each command's effect, and from there to a step. -/

namespace Sys2Proof.Machine

/-! ### Clamped values (R58) -/

/-- A value clamped to a range lies between its bounds (R58). -/
theorem clampInt_eq_max_min {lo hi : Int} (h : lo ≤ hi) (v : Int) : clampInt (lo, hi) v = max lo (min hi v) := by
  unfold clampInt
  dsimp only
  split_ifs <;> omega

theorem clampNat_eq_max_min {lo hi : Nat} (h : lo ≤ hi) (v : Nat) : clampNat lo hi v = max lo (min hi v) := by
  unfold clampNat
  split_ifs <;> omega

theorem clampInt_clampInt {range : Int × Int} (h : range.1 ≤ range.2) (v : Int) :
    clampInt range (clampInt range v) = clampInt range v := by
  obtain ⟨lo, hi⟩ := range
  simp only [clampInt_eq_max_min h]
  omega

theorem clampNat_clampNat {lo hi : Nat} (h : lo ≤ hi) (v : Nat) : clampNat lo hi (clampNat lo hi v) = clampNat lo hi v := by
  simp only [clampNat_eq_max_min h]
  omega

theorem clampParams_clampParams (p : Params Int) : clampParams (clampParams p) = clampParams p := by
  simp [clampParams, Params.map2, paramRanges, clampInt_clampInt]

theorem clampSettings_clampSettings (x : Settings) : clampSettings (clampSettings x) = clampSettings x := by
  simp [clampSettings, clampNat_clampNat]

theorem clampProfile_clampProfile (p : Profile) : clampProfile (clampProfile p) = clampProfile p := by
  simp [clampProfile, clampParams_clampParams, clampSettings_clampSettings]

theorem map_clampInt_clampInt {range : Int × Int} (h : range.1 ≤ range.2) (v : Option Int) :
    (v.map (clampInt range)).map (clampInt range) = v.map (clampInt range) := by
  cases v with
  | none => rfl
  | some v => simp [clampInt_clampInt h]

theorem clampOptional_clampOptional (p : Params (Option Int)) : clampOptional (clampOptional p) = clampOptional p := by
  simp only [clampOptional, Params.map2, paramRanges]
  congr 1 <;> exact map_clampInt_clampInt (by decide) _

/-! ### Tables in ascending order of their keys (R13, R53) -/

theorem mem_insert {α : Type} {k : Nat} {a : α} {t : List (Nat × α)} {x : Nat × α} (h : x ∈ Table.insert k a t) :
    x = (k, a) ∨ x ∈ t := by
  induction t with
  | nil => exact Or.inl (List.mem_singleton.1 h)
  | cons y t ih =>
    simp only [Table.insert] at h
    split at h
    · exact List.mem_cons.1 h
    · rcases List.mem_cons.1 h with rfl | h
      · exact Or.inr List.mem_cons_self
      · exact (ih h).imp_right (List.mem_cons_of_mem _)

theorem length_insert {α : Type} (k : Nat) (a : α) (t : List (Nat × α)) : (Table.insert k a t).length = t.length + 1 := by
  simpa using (keys_insert k a t).length_eq

/-- A record inserted under a new key keeps the keys ascending. -/
theorem ascending_insert {α : Type} {k : Nat} (a : α) {t : List (Nat × α)} (h : (t.map Prod.fst).Pairwise (· < ·))
    (hk : Table.find k t = none) : ((Table.insert k a t).map Prod.fst).Pairwise (· < ·) := by
  induction t with
  | nil => exact List.pairwise_singleton _ _
  | cons y t ih =>
    obtain ⟨j, b⟩ := y
    have hkj : k ≠ j := fun e => not_mem_keys_of_find hk (by simp [e])
    have hkt : Table.find k t = none := by simpa [Table.find, hkj.symm] using hk
    obtain ⟨hj, ht⟩ := List.pairwise_cons.1 h
    simp only [Table.insert]
    split
    · rename_i hlt
      refine List.pairwise_cons.2 ⟨fun i hi => ?_, h⟩
      rcases List.mem_cons.1 hi with rfl | hi
      · exact hlt
      · exact hlt.trans (hj i hi)
    · rename_i hge
      refine List.pairwise_cons.2 ⟨fun i hi => ?_, ih ht hkt⟩
      rcases List.mem_cons.1 ((keys_insert k a t).mem_iff.1 hi) with rfl | hi
      · show j < i
        omega
      · exact hj i hi

/-- A table with ascending keys holds one record under a key. -/
theorem eq_of_ascending {α : Type} {t : List (Nat × α)} (h : (t.map Prod.fst).Pairwise (· < ·)) {x y : Nat × α}
    (hx : x ∈ t) (hy : y ∈ t) (e : x.1 = y.1) : x = y :=
  List.inj_on_of_nodup_map (h.imp Nat.ne_of_lt) hx hy e

/-- A record removed from the Reel Table. -/
theorem inRange_eraseReel {s : State} (h : s.InRange) (k : Nat) :
    ({ s with reels := Table.erase k s.reels } : State).InRange := by
  have sub : (Table.erase k s.reels).Sublist s.reels := List.filter_sublist
  exact ⟨h.stands, h.folders, ⟨h.reels.1.sublist (sub.map _), fun x hx => h.reels.2 x (sub.subset hx)⟩, h.splices, h.link⟩

/-- A record that enters the Reel Table under a free handle. -/
theorem inRange_insertReel {s : State} (h : s.InRange) {k : Nat} (hk : s.freeHandle = some k) (r : Reel) :
    ({ s with reels := Table.insert k r s.reels } : State).InRange := by
  obtain ⟨hasc, hkeys⟩ := h.reels
  have hmem := List.mem_of_find?_eq_some hk
  have hfree := List.find?_some hk
  refine ⟨h.stands, h.folders, ⟨ascending_insert r hasc (by simpa [State.reel?] using hfree), fun x hx => ?_⟩, h.splices, h.link⟩
  rcases mem_insert hx with rfl | hx
  · simp only [List.mem_map, List.mem_range] at hmem
    obtain ⟨i, hi, rfl⟩ := hmem
    exact ⟨by simp, hi⟩
  · exact hkeys x hx

/-! ### Arming (R53, R64) -/

theorem freeNumber_inRange {t : List (Nat × Splice)} (k : Nat) {n : Nat} (h : 1 ≤ n ∧ n ≤ 65535) :
    1 ≤ freeNumber t k n ∧ freeNumber t k n ≤ 65535 := by
  induction k generalizing n with
  | zero => exact h
  | succ k ih =>
    unfold freeNumber
    split
    · exact ih (nextNumber_inRange h)
    · exact h

theorem mem_of_runningReel {s : State} {st : StandIx} {x : Nat × Reel} (h : s.runningReel st = some x) :
    x ∈ s.reels ∧ x.2.state = .running := by
  have hp := List.find?_some h
  simp only [Bool.and_eq_true, decide_eq_true_eq] at hp
  exact ⟨List.mem_of_find?_eq_some h, hp.1⟩

theorem mem_of_reelOn {s : State} {st : StandIx} {a : Arm} {x : Nat × Reel} (h : s.reelOn st a = some x) : x ∈ s.reels :=
  List.mem_of_find?_eq_some h

theorem mem_of_reelAt {s : State} {st : StandIx} {p : Position} {x : Nat × Reel} (h : s.reelAt st p = some x) : x ∈ s.reels := by
  unfold State.reelAt at h
  split at h
  · exact mem_of_reelOn h
  · cases h

theorem mem_of_readyAtSplice {s : State} {st : StandIx} {x : Nat × Reel} (h : s.readyAtSplice st = some x) :
    x ∈ s.reels ∧ x.2.state = .ready := by
  unfold State.readyAtSplice at h
  split at h
  · rename_i k r hat
    split at h
    · rename_i hr
      obtain rfl := Option.some.inj h
      exact ⟨mem_of_reelAt hat, hr.1⟩
    · cases h
  · cases h

/-- A stand's running reel and the READY reel at SPLICE are two reels (R54). -/
theorem runningReel_ne_readyAtSplice {s : State} (h : s.InRange) {st : StandIx} {x y : Nat × Reel}
    (hx : s.runningReel st = some x) (hy : s.readyAtSplice st = some y) : x.1 ≠ y.1 := by
  obtain ⟨mx, sx⟩ := mem_of_runningReel hx
  obtain ⟨my, sy⟩ := mem_of_readyAtSplice hy
  intro e
  rw [eq_of_ascending h.reels.1 mx my e, sy] at sx
  cases sx

/-- A record that enters the Splice Table under a free number, the next number advanced (R53). -/
theorem inRange_insertSplice {s : State} (h : s.InRange) (hroom : s.splices.length < 32) {sp : Splice}
    (hsp : sp.outgoing ≠ sp.incoming) :
    ({ s with splices := Table.insert (freeNumber s.splices 33 s.nextSplice) sp s.splices
              nextSplice := nextNumber (freeNumber s.splices 33 s.nextSplice) } : State).InRange := by
  obtain ⟨hasc, hkeys, _, h4, h5, h6⟩ := h.splices
  have hfree := find_freeNumber (t := s.splices) (by omega) s.nextSplice
  have hn := freeNumber_inRange (t := s.splices) 33 ⟨h4, h5⟩
  have hnext := nextNumber_inRange hn
  refine ⟨h.stands, h.folders, h.reels, ⟨ascending_insert sp hasc hfree, fun x hx => ?_, ?_, hnext.1, hnext.2, fun x hx => ?_⟩, h.link⟩
  · rcases mem_insert hx with rfl | hx
    · exact hn
    · exact hkeys x hx
  · show (Table.insert _ sp s.splices).length ≤ 32
    rw [length_insert]
    omega
  · rcases mem_insert hx with rfl | hx
    · exact hsp
    · exact h6 x hx

theorem inRange_allocate {s : State} (h : s.InRange) (hroom : s.splices.length < 32) (st : StandIx) (o : Origin) (g : Trigger)
    (e : Params (Option Int)) (c : Bool) : (allocate st o g e c s).InRange := by
  unfold allocate
  split
  · rename_i out _ inc _ hout hinc
    have hne : out ≠ inc := runningReel_ne_readyAtSplice h hout hinc
    exact inRange_modWork_same (inRange_modReel (inRange_insertSplice h hroom (sp := newSplice st o g out inc e c s.now) hne) _ _)
      st _ (fun _ => ⟨rfl, rfl, rfl⟩)
  · exact h

theorem inRange_arm {s : State} (h : s.InRange) (hroom : s.splices.length < 32) (st : StandIx) (o : Origin) (g : Trigger)
    (e : Params (Option Int)) (c : Bool) : (arm st o g e c s).InRange :=
  inRange_judgeStart (inRange_handOn (inRange_allocate h hroom st o g e c) st s) false st

theorem inRange_autoArm {s : State} (h : s.InRange) (st : StandIx) : (autoArm st s).InRange := by
  unfold autoArm
  split
  · rename_i hf
    exact inRange_arm (inRange_modSeq h st (fun q => { q with chainBlocked := false }) rfl) (armFault_none hf).2 st _ _ _ _
  · exact inRange_chainBlocked h st
  · exact inRange_chainBlocked h st
  all_goals exact h

theorem inRange_takeChainOccasion {s : State} (h : s.InRange) (st : StandIx) : (takeChainOccasion st s).InRange := by
  have h1 := inRange_modSeq h st (fun q => { q with chainOccasions := q.chainOccasions - 1 }) rfl
  unfold takeChainOccasion
  dsimp only
  split
  · exact inRange_autoArm h1 st
  · exact h1

/-! ### Standing data (R7, R58, R60) -/

theorem planEntryOf_inRange {e : PlanFields} {p : PlanEntry} (h : planEntryOf e = some p) :
    2000 ≤ p.path ∧ p.path ≤ 200000 ∧ p.grade ≤ 63 := by
  unfold planEntryOf at h
  split at h
  · split at h
    · rename_i hr
      obtain rfl := Option.some.inj h
      exact hr
    · cases h
  · cases h

theorem inRange_writePlan {s : State} (h : s.InRange) (st : StandIx) {p : PlanEntry}
    (hp : 2000 ≤ p.path ∧ p.path ≤ 200000 ∧ p.grade ≤ 63) : (writePlan st p s).InRange :=
  inRange_handOn (inRange_verifyStand (inRange_modStand h st _ (fun k => { k with plan := hp })) st) st s

theorem profileConsistent_iff (p : Params Int) : profileConsistent p = true ↔
    p.lastChance + 20 ≤ p.spliceDiameter ∧ p.spliceDiameter + 40 ≤ p.accelStart := by
  simp [profileConsistent]

theorem inRange_writeProfile {s : State} (h : s.InRange) (st : StandIx) (p : Profile)
    (hp : profileConsistent (clampProfile p).params = true) : (writeProfile st (clampProfile p) s).InRange := by
  have h1 : (s.modStand st (fun x => { x with profile := clampProfile p })).InRange :=
    inRange_modStand h st _ (fun k =>
      { k with profile := clampProfile_clampProfile p, relations := (profileConsistent_iff _).1 hp })
  exact inRange_judgeStart (inRange_evalRisk (inRange_evalReelCall (inRange_handOn (inRange_verifyStand h1 st) st s) st) st) false st

theorem inRange_writeOneShot {s : State} (h : s.InRange) (st : StandIx) (v : Params (Option Int)) :
    (s.modStand st (fun x => { x with oneShot := { values := clampOptional v, clamped := clampMarkers v } })).InRange :=
  inRange_modStand h st _ (fun k => { k with oneShot := clampOptional_clampOptional v })

theorem clampNat_inRange {lo hi : Nat} (h : lo ≤ hi) (v : Nat) : lo ≤ clampNat lo hi v ∧ clampNat lo hi v ≤ hi := by
  rw [clampNat_eq_max_min h]
  omega

/-- The folder settings, each clamped (R113, R114). -/
theorem inRange_folderSettings {s : State} (h : s.InRange) (f : FolderIx) (cutoff lead trail spacing : Nat) :
    (s.modFolder f (fun F =>
      { F with cutoff := clampNat 400 700 cutoff, lead := clampNat 0 5 lead, trail := clampNat 0 10 trail,
               spacing := clampNat 0 50000 spacing })).InRange :=
  inRange_modFolder h f _ (fun _ =>
    have hcut := clampNat_inRange (lo := 400) (hi := 700) (by decide) cutoff
    ⟨hcut.1, hcut.2, (clampNat_inRange (Nat.zero_le 5) lead).2, (clampNat_inRange (Nat.zero_le 10) trail).2,
      (clampNat_inRange (Nat.zero_le 50000) spacing).2⟩)

/-! ### Reels (R29, R35) -/

theorem inRange_handOnAt {s : State} (h : s.InRange) (r : Reel) (b : State) : (handOnAt r b s).InRange := by
  unfold handOnAt
  split
  · exact inRange_handOn h _ b
  · exact h

theorem inRange_verifyReel {s : State} (h : s.InRange) (st : StandIx) (k : Nat) (b : State) : (verifyReel st k b s).InRange :=
  inRange_handOn (inRange_modReel h k _) st b

theorem inRange_thread {s : State} (h : s.InRange) (st : StandIx) (k : Nat) (r : Reel) : (thread st k r s).InRange :=
  inRange_diameterChanged (inRange_handOn (inRange_gaugeAfresh (inRange_modSeq (inRange_modReel
    (inRange_reels h (keys_mapAll _ _)) k _) st _ rfl) st (fun g => g.riskRaised && decide (r.state = .running))) st s) st

/-! ### Acknowledgement, RESET STAND (R111, R145, R153) -/

theorem inRange_collect {s : State} (h : s.InRange) (e : StatusEntry) : (collect e s).InRange := by
  unfold collect
  split
  · split
    · exact inRange_retire (inRange_modSplice h _ (fun sp => { sp with endAck := true }) (fun _ => ⟨rfl, rfl⟩)) _
    · exact h
  · exact h

@[simp] theorem stand_retire (n : Nat) (s : State) (i : StandIx) : (retire n s).stand i = s.stand i := by
  unfold retire
  (repeat' split) <;> rfl

@[simp] theorem stand_collect (e : StatusEntry) (s : State) (i : StandIx) : (collect e s).stand i = s.stand i := by
  unfold collect
  (repeat' split) <;> simp

theorem StatusEntry.conditions_persisted (e : StatusEntry) : e.persisted.conditions = [.driverHot] := rfl
theorem StatusEntry.serial_persisted (e : StatusEntry) : e.persisted.serial = e.serial := rfl

/-- The entries an acknowledgement leaves: the rest of the queue, behind what DRIVER_HOT keeps of the oldest one. -/
theorem Queue.inRange_acknowledged {q : Queue} (h : q.InRange) {e : StatusEntry} {rest kept : List StatusEntry}
    (he : q.entries = e :: rest) (hk : kept = e.persisted :: rest ∨ kept = rest) :
    ({ q with entries := kept } : Queue).InRange := by
  obtain ⟨h1, h2, h3, h4⟩ := h
  rw [he] at h1 h4
  obtain ⟨k, hrest⟩ := List.forall_mem_cons.1 h4
  rcases hk with rfl | rfl
  · refine ⟨h1, h2, h3, List.forall_mem_cons.2 ⟨?_, hrest⟩⟩
    rw [e.conditions_persisted, e.serial_persisted]
    exact ⟨by simp, by simp, k.2.2⟩
  · exact ⟨(Nat.le_succ _).trans h1, h2, h3, hrest⟩

theorem inRange_acknowledge {s : State} (h : s.InRange) (st : StandIx) {e : StatusEntry} {rest : List StatusEntry}
    (he : (s.stand st).queue.entries = e :: rest) : (acknowledge st e rest s).InRange := by
  unfold acknowledge
  extract_lets kept t
  have hkept : kept = e.persisted :: rest ∨ kept = rest := ite_eq_or_eq ..
  have ht : t.InRange :=
    inRange_modQueue (inRange_collect h e) st _ (fun k => Queue.inRange_acknowledged k (by rw [stand_collect]; exact he) hkept)
  split
  · exact inRange_chainOccasion ht st
  · exact ht

theorem inRange_clearDiameters {s : State} (h : s.InRange) (st : StandIx) : (clearDiameters st s).InRange :=
  inRange_reels h (keys_mapAll _ _)

theorem inRange_giveBackReserved {s : State} (h : s.InRange) (st : StandIx) (n : Nat) (sp : Splice) :
    (giveBackReserved st n sp s).InRange := by
  unfold giveBackReserved
  (repeat' split) <;> first
    | exact inRange_giveBack h st _ _
    | exact h

theorem inRange_endAtReset {s : State} (h : s.InRange) (st : StandIx) : (endAtReset st s).InRange := by
  unfold endAtReset
  split
  · exact h
  · rename_i n sp _
    have ht : (noteSplice n .standReset (setCause n .standReset s)).InRange := inRange_noteSplice (inRange_setCause h n _) n _
    dsimp only
    split
    · exact inRange_chainOccasion (inRange_retire (inRange_endSplice ht st n _ _) n) st
    · exact inRange_giveBackReserved (inRange_retire (inRange_endSplice ht st n _ _) n) st n sp

theorem Field.inRange_reset : Field.reset.InRange := by
  refine ⟨fun i => ?_, by decide, by decide⟩
  simp [Field.input, Field.reset, Debounce.reset]

theorem Gauge.inRange_reset : Gauge.reset.InRange := by decide

theorem inRange_resetStand {s : State} (h : s.InRange) (st : StandIx) : (resetStand st s).InRange := by
  have h1 : ((allFolders.foldl (fun t f => leaveWaits f st t) (endAtReset st (clearDiameters st s))).modWork st
      (fun _ => Working.reset)).InRange :=
    inRange_modWork (inRange_foldl _ (fun t f k => inRange_leaveWaits k f st) _ (inRange_endAtReset (inRange_clearDiameters h st) st))
      st _ (fun _ _ => inRange_workingReset)
  unfold resetStand
  dsimp only
  refine inRange_evalReelCall (inRange_evalRisk (inRange_modStand h1 st _ (fun k => ?_)) st) st
  exact { k with
    gauge := Gauge.inRange_reset, inputs := Field.inRange_reset.inputs, changes := Field.inRange_reset.changes
    outputs := Field.inRange_reset.outputs }

/-! ### The held device and the full reset (R170) -/

theorem Actuator.inRange_reset : Actuator.reset.InRange := by decide

theorem inRange_dropOutputs {s : State} (h : s.InRange) (st : StandIx) : (dropOutputs st s).InRange := by
  have h1 : (s.modField st (fun x =>
      { x with paster := Actuator.reset, knife := Actuator.reset, brake := Actuator.reset, knifePulse := none })).InRange :=
    inRange_actuators h st _ (fun _ => ⟨rfl, rfl, rfl⟩) (fun _ _ _ _ =>
      ⟨Actuator.inRange_reset, Actuator.inRange_reset, Actuator.inRange_reset⟩)
  exact inRange_modWork h1 st (fun w => { w with driveEn := false, demand := 0, indexReq := false, indexTimer := none })
    (fun _ k => ⟨by simp, k.2⟩)

theorem Stand.inRange_reset : Stand.reset.InRange :=
  { Field.inRange_reset with
    plan := by decide, profile := by decide, relations := by decide, oneShot := by decide, demand := by decide
    goodCount := by decide, gauge := Gauge.inRange_reset, queue := by decide }

theorem stand_afterReset (cause : ResetCause) (i : StandIx) : (State.afterReset cause).stand i = Stand.reset := by
  simp [State.stand, State.afterReset, Vector.get_eq_getElem]

theorem folder_afterReset (cause : ResetCause) (f : FolderIx) : (State.afterReset cause).folder f = Folder.reset := by
  simp [State.folder, State.afterReset, Vector.get_eq_getElem]

theorem inRange_afterReset (cause : ResetCause) : (State.afterReset cause).InRange := by
  refine ⟨fun st => ?_, fun f => ?_, ?_, ?_, ?_⟩
  · rw [stand_afterReset]; exact Stand.inRange_reset
  · rw [folder_afterReset]; decide
  · simp [State.afterReset]
  · simp [State.afterReset]
  · simp [State.afterReset, Link.reset, Receiver.InRange]

/-- The queue of waiting commands has no range. -/
theorem inRange_pending {s : State} (h : s.InRange) (p : List Instr) : ({ s with pending := p } : State).InRange :=
  ⟨h.stands, h.folders, h.reels, h.splices, h.link⟩

theorem inRange_fullReset (cause : ResetCause) (s : State) : (fullReset cause s).InRange :=
  inRange_pending (inRange_afterReset cause) _

/-! ### The request link (R162 to R169) -/

/-- What a link must satisfy. -/
abbrev Link.InRange (l : Link) : Prop := l.list.length ≤ 16 ∧ l.overrun ≤ 65535 ∧ l.receiver.InRange

theorem Link.inRange_hunt {l : Link} (h : l.InRange) : ({ l with receiver := .hunt } : Link).InRange := ⟨h.1, h.2.1, trivial⟩

/-- The judgement of a frame adds at most one entry to a list of fewer than 16, or raises the overrun count. -/
theorem Link.inRange_judgeFrame {l : Link} (h : l.InRange) (frame : List Byte) : (judgeFrame frame l).InRange := by
  obtain ⟨h1, h2, h3⟩ := h
  unfold judgeFrame
  split
  · dsimp only
    split
    · split
      · split
        · rename_i hroom
          exact ⟨by simpa [joinList] using hroom, h2, h3⟩
        · exact ⟨h1, Nat.min_le_left _ _, h3⟩
      · exact ⟨h1, h2, h3⟩
    · exact ⟨h1, h2, h3⟩
  · exact ⟨h1, h2, h3⟩

/-- A byte that does not complete the frame under way leaves the receiver holding less than a whole frame. -/
theorem Receiver.inRange_append {x len : Byte} {held : List Byte} {b : Byte} (h : (Receiver.receiving (x :: len :: held)).InRange)
    (hsize : (x :: len :: held ++ [b]).length ≠ frameSize (x :: len :: held ++ [b])) :
    (Receiver.receiving (x :: len :: held ++ [b])).InRange := by
  obtain ⟨hx, hlen⟩ := h
  obtain ⟨hl, hlt⟩ := hlen len rfl
  refine ⟨hx, fun len' e => ?_⟩
  obtain rfl : len = len' := Option.some.inj e
  simp only [List.length_cons, List.length_append, List.cons_append, frameSize] at hlt hsize ⊢
  exact ⟨hl, by simp at hsize ⊢; omega⟩

theorem Link.inRange_receiveByte {l : Link} (h : l.InRange) {held : List Byte} (hr : (Receiver.receiving held).InRange) (b : Byte)
    (e : Bool) : (receiveByte held b e l).InRange := by
  unfold receiveByte
  dsimp only
  split
  · exact Link.inRange_hunt h
  · match held, hr with
    | [], hr => exact absurd hr.1 (by simp)
    | [x], hr =>
      rw [if_pos (by rfl)]
      refine ⟨h.1, h.2.1, ?_⟩
      dsimp only
      split
      · rename_i hb
        refine ⟨hr.1, fun len e => ?_⟩
        obtain rfl : b = len := Option.some.inj e
        exact ⟨hb, by simp; omega⟩
      · trivial
    | x :: len :: held, hr =>
      rw [if_neg (by simp)]
      split
      · exact Link.inRange_hunt (Link.inRange_judgeFrame h _)
      · rename_i hsize
        exact ⟨h.1, h.2.1, Receiver.inRange_append hr hsize⟩

theorem Link.inRange_receive {l : Link} (h : l.InRange) (b : Byte) (e : Bool) : (Link.receive b e l).InRange := by
  unfold Link.receive
  split
  · split
    · rename_i hb
      refine ⟨h.1, h.2.1, ?_⟩
      simp [Receiver.InRange, hb.1, startCode]
    · exact h
  · rename_i held hheld
    exact Link.inRange_receiveByte h (hheld ▸ h.2.2) b e

theorem length_releaseHeld (l : List LinkEntry) : (releaseHeld l).length = l.length := by
  induction l with
  | nil => rfl
  | cons e t ih =>
    unfold releaseHeld
    split
    · split <;> simp [ih]
    · simp [ih]

theorem inRange_deliver {s : State} (h : s.InRange) (r : Instr) (a : Answer) : (deliver r a s).InRange := by
  obtain ⟨h1, h2, h3⟩ := h.link
  have hlen : (deliver r a s).link.list.length = s.link.list.length := length_answerEntry r a s.link.list
  exact ⟨h.stands, h.folders, h.reels, h.splices, hlen.trans_le h1, h2, h3⟩

end Sys2Proof.Machine
end

section
/-! The ranges under each command, and under a step (EveryStepKeepsTheRanges). -/

namespace Sys2Proof.Machine

/-- A command whose outcome, if it completes, is in range. -/
abbrev RangesAfter (r : Res) : Prop := ∀ t, r = .next t → t.InRange

theorem rangesAfter_next {t : State} (h : t.InRange) : RangesAfter (.next t) := by
  intro u e
  cases e
  exact h

/-- An event of the running device. -/
theorem rangesAfter_onDevice {f : State → State} (hf : ∀ s : State, s.InRange → (f s).InRange) {s : State} (h : s.InRange) :
    RangesAfter (onDevice f s) := by
  rcases onDevice_completes f s with e | e <;> rw [e]
  · exact rangesAfter_next h
  · exact rangesAfter_next (hf s h)

/-- A request. -/
theorem rangesAfter_serve {r : Instr} {own : State → Answer × State} (hown : ∀ s : State, s.InRange → (own s).2.InRange) {s : State}
    (h : s.InRange) : RangesAfter (serve r own s) := by
  rcases serve_completes r own s with e | e <;> rw [e]
  · exact rangesAfter_next h
  · exact rangesAfter_next (inRange_deliver (hown s h) r _)

variable {s : State}

/-! ### Resets, time and the link -/

theorem ranges_powerOn (s : State) : RangesAfter (execPowerOn s) := by
  have hreset := inRange_fullReset .power s
  unfold execPowerOn
  split
  · exact rangesAfter_next (inRange_modLink hreset _ hreset.link)
  · exact rangesAfter_next hreset

theorem ranges_resetPinAsserted (h : s.InRange) : RangesAfter (execResetPinAsserted s) := by
  have hdrop := inRange_foldl (fun s st => dropOutputs st s) (fun _ st k => inRange_dropOutputs k st) allStands h
  exact rangesAfter_next (inRange_modLink hdrop _ hdrop.link)

theorem ranges_resetPinReleased (h : s.InRange) : RangesAfter (execResetPinReleased s) := by
  unfold execResetPinReleased
  split
  · exact rangesAfter_next (inRange_fullReset _ s)
  · exact rangesAfter_next h

theorem ranges_timeCounterTick (h : s.InRange) : RangesAfter (execTimeCounterTick s) :=
  rangesAfter_onDevice (fun _ k => inRange_modLink k _ k.link) h

theorem ranges_characterReceived (h : s.InRange) (b : Byte) (e : Bool) : RangesAfter (execCharacterReceived b e s) := by
  refine rangesAfter_onDevice (fun s k => ?_) h
  split
  · exact k
  · exact inRange_modLink k _ (Link.inRange_receive k.link b e)

theorem ranges_interCharacterTimerExpiry (h : s.InRange) : RangesAfter (execInterCharacterTimerExpiry s) :=
  rangesAfter_onDevice (fun _ k => inRange_modLink k _ (Link.inRange_hunt k.link)) h

theorem ranges_transmitAnswer (h : s.InRange) : RangesAfter (execTransmitAnswer s) := by
  refine rangesAfter_onDevice (fun s k => inRange_modLink k _ ?_) h
  have hl := k.link
  (repeat' split) <;> exact hl

theorem ranges_answerLastByteSent (h : s.InRange) : RangesAfter (execAnswerLastByteSent s) := by
  refine rangesAfter_onDevice (fun s k => ?_) h
  obtain ⟨hlen, hover, hrec⟩ := k.link
  have hpop : (s.modLink (fun l => { l with list := l.list.tail, line := none })).InRange :=
    inRange_modLink k _ ⟨by rw [List.length_tail]; exact (Nat.sub_le _ _).trans hlen, hover, hrec⟩
  split
  · split
    · exact inRange_fullReset _ s
    · exact hpop
  · split
    · exact inRange_fullReset _ s
    · exact k

theorem ranges_resetDevice (h : s.InRange) (c : Client) : RangesAfter (execResetDevice c s) := by
  refine rangesAfter_onDevice (fun s k => ?_) h
  dsimp only
  have ht := inRange_deliver k (.resetDevice c) (plain (s.resetAnswer c))
  split
  · split
    · exact inRange_modLink ht _ ht.link
    · exact inRange_modLink ht _ ⟨by rw [length_releaseHeld]; exact ht.link.1, ht.link.2⟩
  · exact k

/-! ### Reels -/

theorem ranges_announceReel (h : s.InRange) (c : Client) (code : List Nat) (p : PaperData) : RangesAfter (execAnnounceReel c code p s) := by
  refine rangesAfter_serve (fun s k => ?_) h
  split
  · exact k
  · split
    · exact k
    · rename_i hfree
      exact inRange_insertReel k hfree _

theorem ranges_amendReel (h : s.InRange) (c : Client) (handle : Nat) (d : PaperAmend) : RangesAfter (execAmendReel c handle d s) := by
  refine rangesAfter_serve (fun s k => ?_) h
  dsimp only
  split
  · exact k
  · split
    · exact k
    · split
      · exact k
      · split
        · exact inRange_modReel k _ _
        · exact k
        · split
          · exact inRange_verifyReel (inRange_modReel k _ _) _ _ _
          · exact inRange_modReel k _ _

theorem ranges_mountReel (h : s.InRange) (c : Client) (handle stand : Nat) (a : Arm) : RangesAfter (execMountReel c handle stand a s) := by
  refine rangesAfter_serve (fun s k => ?_) h
  dsimp only
  (repeat' split) <;> first
    | exact k
    | exact inRange_handOn (inRange_modReel k _ _) _ _

theorem ranges_unmountReel (h : s.InRange) (c : Client) (handle : Nat) : RangesAfter (execUnmountReel c handle s) := by
  refine rangesAfter_serve (fun s k => ?_) h
  (repeat' split) <;> first
    | exact k
    | exact inRange_handOnAt (inRange_modReel k _ _) _ _

theorem ranges_retireReel (h : s.InRange) (c : Client) (handle : Nat) : RangesAfter (execRetireReel c handle s) := by
  refine rangesAfter_serve (fun s k => ?_) h
  (repeat' split) <;> first
    | exact k
    | exact inRange_handOnAt (inRange_eraseReel k _) _ _

theorem ranges_threadReel (h : s.InRange) (c : Client) (stand handle : Nat) : RangesAfter (execThreadReel c stand handle s) := by
  refine rangesAfter_serve (fun s k => ?_) h
  (repeat' split) <;> first
    | exact k
    | exact inRange_thread k _ _ _

/-! ### Standing data -/

theorem ranges_writePlanEntry (h : s.InRange) (c : Client) (stand : Nat) (e : PlanFields) : RangesAfter (execWritePlanEntry c stand e s) := by
  refine rangesAfter_serve (fun s k => ?_) h
  split
  · exact k
  · split
    · exact k
    · split
      · exact k
      · rename_i hplan
        split
        · exact k
        · exact inRange_writePlan k _ (planEntryOf_inRange hplan)

theorem ranges_writeFolder (h : s.InRange) (c : Client) (folder cutoff lead trail spacing : Nat) :
    RangesAfter (execWriteFolder c folder cutoff lead trail spacing s) := by
  refine rangesAfter_serve (fun s k => ?_) h
  dsimp only
  split
  · exact k
  · split
    · exact k
    · exact inRange_grantOccasion (inRange_ejectPast (inRange_folderSettings k _ cutoff lead trail spacing) _ _) _

theorem ranges_writeProfile (h : s.InRange) (c : Client) (stand : Nat) (p : Profile) : RangesAfter (execWriteProfile c stand p s) := by
  refine rangesAfter_serve (fun s k => ?_) h
  split
  · exact k
  · split
    · exact k
    · split
      · exact k
      · rename_i hcons
        exact inRange_writeProfile k _ p (by simpa using hcons)

theorem ranges_writeOneShot (h : s.InRange) (c : Client) (stand : Nat) (v : Params (Option Int)) : RangesAfter (execWriteOneShot c stand v s) := by
  refine rangesAfter_serve (fun s k => ?_) h
  dsimp only
  split
  · exact k
  · split
    · exact k
    · exact inRange_judgeStart (inRange_writeOneShot k _ v) false _

theorem ranges_writeRouting (h : s.InRange) (c : Client) (stand : Nat) (mask : BitVec 16) (mode : Mode) :
    RangesAfter (execWriteRouting c stand mask mode s) := by
  refine rangesAfter_serve (fun s k => ?_) h
  split
  · exact k
  · split
    · exact k
    · split
      · exact k
      · dsimp only
        exact inRange_modQueue k _ _ (fun q => q)

/-! ### Splices -/

theorem ranges_armSplice (h : s.InRange) (c : Client) (stand : Nat) (g : Trigger) (v : Params (Option Int)) :
    RangesAfter (execArmSplice c stand g v s) := by
  refine rangesAfter_serve (fun s k => ?_) h
  dsimp only
  split
  · exact k
  · split
    · exact k
    · split
      · exact k
      · rename_i hfault
        exact inRange_arm k (armFault_none hfault).2 _ _ _ _ _

theorem ranges_amendSplice (h : s.InRange) (c : Client) (n : Nat) (v : Params AmendParam) : RangesAfter (execAmendSplice c n v s) := by
  refine rangesAfter_serve (fun s k => ?_) h
  have ht : (s.modSplice n (fun x => { x with explicit := amendExplicit x.explicit v })).InRange :=
    inRange_modSplice k n _ (fun _ => ⟨rfl, rfl⟩)
  dsimp only
  split
  · exact k
  · split
    · exact k
    · split
      · exact k
      · split
        · exact k
        · split
          · exact k
          · refine inRange_judgeStart ?_ false _
            split
            · exact inRange_noteSplice ht n _
            · exact ht

theorem ranges_setChain (h : s.InRange) (c : Client) (stand : Nat) (on : Bool) : RangesAfter (execSetChain c stand on s) := by
  refine rangesAfter_serve (fun s k => ?_) h
  dsimp only
  split
  · exact k
  · rename_i st _
    split
    · exact k
    · have ht := inRange_modSeq k st (fun q => { q with chain := on }) rfl
      split
      · exact inRange_chainOccasion ht st
      · exact ht

theorem inRange_startArmed (h : s.InRange) (st : StandIx) (n : Nat) (sp : Splice) : (startArmed st n sp s).2.InRange := by
  unfold startArmed
  split
  · exact h
  · split
    · exact inRange_modWork_same h st (fun w => { w with startPending := true }) (fun _ => ⟨rfl, rfl, rfl⟩)
    · split
      · exact inRange_commit h st n sp
      · exact inRange_commit h st n sp

theorem ranges_startAccel (h : s.InRange) (c : Client) (stand : Nat) : RangesAfter (execStartAccel c stand s) := by
  refine rangesAfter_serve (fun s k => ?_) h
  (repeat' split) <;> first
    | exact k
    | exact inRange_startArmed k _ _ _

theorem ranges_fireSplice (h : s.InRange) (c : Client) (stand : Nat) : RangesAfter (execFireSplice c stand s) := by
  refine rangesAfter_serve (fun s k => ?_) h
  (repeat' split) <;> first
    | exact k
    | exact inRange_enterWaiting k _ _ _

theorem ranges_abortSplice (h : s.InRange) (c : Client) (stand : Nat) : RangesAfter (execAbortSplice c stand s) := by
  refine rangesAfter_serve (fun s k => ?_) h
  (repeat' split) <;> first
    | exact k
    | exact inRange_handOn (inRange_giveUp k _ _ _ _) _ _

/-! ### Status, inputs and tracks -/

theorem ranges_acknowledgeStatus (h : s.InRange) (c : Client) (stand serial revision : Nat) :
    RangesAfter (execAcknowledgeStatus c stand serial revision s) := by
  refine rangesAfter_serve (fun s k => ?_) h
  split
  · exact k
  · split
    · exact k
    · split
      · exact k
      · split
        · exact k
        · rename_i hentries
          unfold acknowledgeOldest
          split
          · exact k
          · split
            · exact k
            · exact inRange_acknowledge k _ hentries

/-- Entries that leave the change set leave the others in range (R137, R139). -/
theorem Field.inRange_sublist {x : Field} (hx : x.InRange) {l : List ChangeEntry} (hl : l.Sublist x.changes) :
    ({ x with changes := l } : Field).InRange := by
  obtain ⟨hnodup, hsnap, hcount⟩ := hx.changes
  exact ⟨hx.inputs, ⟨hnodup.sublist (hl.map _), hsnap, fun e he => hcount e (hl.subset he)⟩, hx.outputs⟩

theorem ranges_clearChanges (h : s.InRange) (c : Client) (stand snapshot : Nat) : RangesAfter (execClearChanges c stand snapshot s) := by
  refine rangesAfter_serve (fun s k => ?_) h
  dsimp only
  split
  · exact k
  · split
    · exact k
    · split
      · exact k
      · rename_i st _ _ _
        exact inRange_modField k st (fun x =>
          { x with changes := (s.stand st).field.changes.filter (fun e => decide (snapshot < e.last)) })
          (fun hx => Field.inRange_sublist hx List.filter_sublist)

theorem ranges_takeCall (h : s.InRange) (c : Client) (stand : Nat) (flag : CallFlag) : RangesAfter (execTakeCall c stand flag s) := by
  refine rangesAfter_serve (fun s k => ?_) h
  dsimp only
  split
  · exact k
  · split
    · exact k
    · rename_i st _ _
      refine inRange_modQueue k st (fun _ => (s.stand st).queue.takeCall flag) (fun hq => ?_)
      cases flag <;> exact hq

theorem ranges_forceGate (h : s.InRange) (c : Client) (folder : Nat) (x : GateForce) : RangesAfter (execForceGate c folder x s) := by
  refine rangesAfter_serve (fun s k => ?_) h
  split
  · exact k
  · split
    · exact k
    · dsimp only
      exact inRange_modFolder k _ _ (fun hF => hF)

theorem ranges_resetStand (h : s.InRange) (c : Client) (stand : Nat) : RangesAfter (execResetStand c stand s) := by
  refine rangesAfter_serve (fun s k => ?_) h
  (repeat' split) <;> first
    | exact k
    | exact inRange_resetStand k _

/-! ### Field events -/

theorem inRange_samplingTimer (h : s.InRange) (st : StandIx) (x : Timer) :
    (s.modField st (fun y => { y with samplingTimer := x })).InRange :=
  inRange_modField h st _ (fun hy => ⟨hy.inputs, hy.changes, hy.outputs⟩)

theorem ranges_samplingTimerExpiry (h : s.InRange) (st : StandIx) (x : Sample) : RangesAfter (execSamplingTimerExpiry st x s) := by
  refine rangesAfter_onDevice (fun s k => inRange_samplingTimer ?_ st (some 2)) h
  exact inRange_foldl _ (fun t i ht => inRange_sampleInput ht st i (sampleLevel x i)) allInputs k

/-- An accepted change taken by its block. -/
theorem rangesAfter_takeChange (h : s.InRange) (st : StandIx) (i : Input) (l : Fin 4) {f : State → State}
    (hf : ∀ s : State, s.InRange → (f s).InRange) : RangesAfter (onDevice (takeChange st i l f) s) :=
  rangesAfter_onDevice (fun _ k => inRange_takeChange k st i l hf) h

theorem ranges_pasterEngagedActive (h : s.InRange) (st : StandIx) : RangesAfter (execPasterEngagedActive st s) := by
  refine rangesAfter_takeChange h st _ _ (fun s k => ?_)
  split
  · exact inRange_modWork_same k st _ (fun _ => ⟨rfl, rfl, rfl⟩)
  · exact k

theorem ranges_pasterHomeActive (h : s.InRange) (st : StandIx) : RangesAfter (execPasterHomeActive st s) := by
  refine rangesAfter_takeChange h st _ _ (fun s k => ?_)
  split
  · split
    · exact inRange_endBraking k st _
    · exact k
  · exact k

theorem ranges_knifeHomeActive (h : s.InRange) (st : StandIx) : RangesAfter (execKnifeHomeActive st s) :=
  rangesAfter_takeChange h st _ _ (fun _ k =>
    inRange_updateIndexReq (inRange_modWork_same k st (fun w => { w with knifeHomeTimer := none }) (fun _ => ⟨rfl, rfl, rfl⟩)) st)

theorem ranges_safetyGateChange (h : s.InRange) (st : StandIx) (closed : Bool) : RangesAfter (execSafetyGateChange st closed s) := by
  refine rangesAfter_takeChange h st _ _ (fun s k => ?_)
  split
  · refine inRange_updateIndexReq ?_ st
    split
    · exact k
    · exact inRange_gateFoundOpen k st
  · exact k

theorem ranges_driverHotActive (h : s.InRange) (st : StandIx) : RangesAfter (execDriverHotActive st s) :=
  rangesAfter_takeChange h st _ _ (fun _ k => inRange_raise (inRange_actuators k st
    (fun x => { x with paster := x.paster.hot, knife := x.knife.hot, brake := x.brake.hot }) (fun _ => ⟨rfl, rfl, rfl⟩)
    (fun _ hp hk hb => ⟨Actuator.inRange_pulledIn hp, Actuator.inRange_pulledIn hk, Actuator.inRange_pulledIn hb⟩)) st _ _)

/-! ### Counts and pulses -/

theorem ranges_webCount (h : s.InRange) (st : StandIx) (d : Direction) : RangesAfter (execWebCount st d s) :=
  rangesAfter_onDevice (fun _ k => inRange_trackWebCount (inRange_carryCheck
    (inRange_modWork_same (inRange_gaugeWebCount k st d) st (Working.webCount d) (fun _ => ⟨rfl, rfl, rfl⟩)) st) st d) h

theorem ranges_tachCount (h : s.InRange) (st : StandIx) (d : Direction) : RangesAfter (execTachCount st d s) :=
  rangesAfter_onDevice (fun _ k => inRange_judgePoints (inRange_restartQuiet
    (inRange_modWork_same k st (Working.tachCount d) (fun _ => ⟨rfl, rfl, rfl⟩)) st) st) h

theorem ranges_pasteMarkPulse (h : s.InRange) (st : StandIx) : RangesAfter (execPasteMarkPulse st s) := by
  refine rangesAfter_onDevice (fun s k => ?_) h
  split
  · exact k
  · split
    · split
      · exact inRange_modWork_same k st _ (fun _ => ⟨rfl, rfl, rfl⟩)
      · split
        · exact k
        · exact inRange_formRevolution k st _ _ _
    · exact k

theorem ranges_revPulse (h : s.InRange) (st : StandIx) (a : Arm) : RangesAfter (execRevPulse st a s) :=
  rangesAfter_onDevice (fun _ k => inRange_seqRevPulse (inRange_gaugeRevPulse k st a) st a) h

theorem ranges_folderCutPulse (h : s.InRange) (f : FolderIx) : RangesAfter (execFolderCutPulse f s) := by
  refine rangesAfter_onDevice (fun s k => ?_) h
  split
  · refine inRange_modFolder (inRange_foldl _ (fun t r ht => ?_) _ k) f _ (fun hF => hF)
    exact inRange_modSplice ht r.splice _ (fun _ => ⟨rfl, rfl⟩)
  · exact k

/-! ### Timers and hand-overs -/

theorem ranges_webSpeedTimerExpiry (h : s.InRange) (st : StandIx) : RangesAfter (execWebSpeedTimerExpiry st s) := by
  refine rangesAfter_onDevice (fun s k => ?_) h
  split
  · refine inRange_foldl _ (fun t f ht => ?_) _ (inRange_followWeb (inRange_sample k st) st)
    unfold sampleOccasion
    split
    · exact inRange_grantOccasion ht f
    · exact ht
  · exact k

theorem ranges_accelTimerExpiry (h : s.InRange) (st : StandIx) : RangesAfter (execAccelTimerExpiry st s) := by
  refine rangesAfter_onDevice (fun s k => ?_) h
  split
  · split
    · exact inRange_handOn (inRange_giveUp (inRange_raise k st _ _) st _ _ _) st _
    · exact k
  · exact k

theorem inRange_endUncarried (h : s.InRange) (st : StandIx) (n : Nat) : (endUncarried st n s).InRange :=
  inRange_endSpindown (inRange_modWork_same (inRange_releaseBrake h st) st (fun w => { w with revQuietTimer := none })
    (fun _ => ⟨rfl, rfl, rfl⟩)) st n

theorem ranges_quietTimerExpiry (h : s.InRange) (st : StandIx) : RangesAfter (execQuietTimerExpiry st s) := by
  refine rangesAfter_onDevice (fun s k => ?_) h
  split
  · split
    · split
      · split
        · exact inRange_endUncarried k st _
        · exact inRange_modWork_same k st _ (fun _ => ⟨rfl, rfl, rfl⟩)
      · exact inRange_endSpindown k st _
    · exact k
  · exact k

theorem inRange_keepBrake (h : s.InRange) (st : StandIx) : (keepBrake st s).InRange :=
  inRange_modWork_same (inRange_actuators h st (fun x => { x with brake := x.brake.pulledIn }) (fun _ => ⟨rfl, rfl, rfl⟩)
    (fun _ hp hk hb => ⟨hp, hk, Actuator.inRange_pulledIn hb⟩)) st _ (fun _ => ⟨rfl, rfl, rfl⟩)

theorem ranges_stopTimerExpiry (h : s.InRange) (st : StandIx) : RangesAfter (execStopTimerExpiry st s) := by
  refine rangesAfter_onDevice (fun s k => ?_) h
  have hraise := inRange_raise k st .stopTimeout (none, none)
  split
  · split
    · split
      case h_1 =>
        refine inRange_endSpindown ?_ st _
        split
        · exact inRange_keepBrake hraise st
        · exact hraise
      case h_2 =>
        exact inRange_standEnd (inRange_modWork_same (inRange_keepBrake hraise st) st (fun w => { w with stopTimer := none })
          (fun _ => ⟨rfl, rfl, rfl⟩)) st _ _
      all_goals exact k
    · exact k
  · exact k

theorem ranges_confirmTimerExpiry (h : s.InRange) (st : StandIx) : RangesAfter (execConfirmTimerExpiry st s) := by
  refine rangesAfter_onDevice (fun s k => ?_) h
  split
  · split
    · exact inRange_pasteNotConfirmed k st _ _
    · exact k
  · exact k

theorem ranges_knifePulseTimerExpiry (h : s.InRange) (st : StandIx) : RangesAfter (execKnifePulseTimerExpiry st s) := by
  refine rangesAfter_onDevice (fun s k => ?_) h
  split
  · exact inRange_endKnifePulse k st
  · exact k

theorem ranges_knifeHomeTimerExpiry (h : s.InRange) (st : StandIx) : RangesAfter (execKnifeHomeTimerExpiry st s) := by
  refine rangesAfter_onDevice (fun s k => ?_) h
  split
  · exact inRange_raise (inRange_modWork_same k st (fun w => { w with knifeHomeTimer := none }) (fun _ => ⟨rfl, rfl, rfl⟩)) st _ _
  · exact k

theorem inRange_buttQuiet (h : s.InRange) (st : StandIx) : (buttQuiet st s).InRange := by
  unfold buttQuiet
  split
  · exact inRange_modWork_same (inRange_releaseBrake h st) st (fun w => { w with brakeKept := false, buttArm := none })
      (fun _ => ⟨rfl, rfl, rfl⟩)
  · split
    · split
      · exact inRange_endBraking h st _
      · split
        · exact inRange_endUncarried h st _
        · exact h
    · exact h

theorem ranges_revQuietTimerExpiry (h : s.InRange) (st : StandIx) : RangesAfter (execRevQuietTimerExpiry st s) := by
  refine rangesAfter_onDevice (fun s k => ?_) h
  split
  · exact inRange_buttQuiet (inRange_modWork_same k st (fun w => { w with revQuietTimer := none }) (fun _ => ⟨rfl, rfl, rfl⟩)) st
  · exact k

theorem ranges_indexTimerExpiry (h : s.InRange) (st : StandIx) : RangesAfter (execIndexTimerExpiry st s) := by
  refine rangesAfter_onDevice (fun s k => ?_) h
  split
  · split
    · exact inRange_standEnd (inRange_raise k st _ _) st _ _
    · exact k
  · exact k

theorem ranges_pullInTimerExpiry (h : s.InRange) (st : StandIx) (o : Output) : RangesAfter (execPullInTimerExpiry st o s) := by
  refine rangesAfter_onDevice (fun s k => ?_) h
  cases o with
  | paster =>
    exact inRange_actuators k st _ (fun _ => ⟨rfl, rfl, rfl⟩) (fun _ hp hk hb => ⟨Actuator.inRange_pulledIn hp, hk, hb⟩)
  | knife =>
    exact inRange_actuators k st _ (fun _ => ⟨rfl, rfl, rfl⟩) (fun _ hp hk hb => ⟨hp, Actuator.inRange_pulledIn hk, hb⟩)
  | brake =>
    exact inRange_actuators k st _ (fun _ => ⟨rfl, rfl, rfl⟩) (fun _ hp hk hb => ⟨hp, hk, Actuator.inRange_pulledIn hb⟩)

theorem ranges_autoArmAttempt (h : s.InRange) (st : StandIx) : RangesAfter (execAutoArmAttempt st s) := by
  refine rangesAfter_onDevice (fun s k => ?_) h
  split
  · exact k
  · exact inRange_takeChainOccasion k st

theorem ranges_grantEvaluation (h : s.InRange) (f : FolderIx) : RangesAfter (execGrantEvaluation f s) := by
  refine rangesAfter_onDevice (fun s k => ?_) h
  split
  · exact k
  · exact inRange_evaluateGrant (inRange_modFolder k f _ (fun hF => hF)) f

theorem rangesAfter_readsOnly {c : Instr} (h : s.InRange) (hc : readsOnly c = true) : RangesAfter (exec c s) := by
  rcases exec_readsOnly hc s with e | ⟨a, e⟩ <;> rw [e]
  · exact rangesAfter_next h
  · exact rangesAfter_next (inRange_deliver h c a)

/-! ### A step -/

/-- Every command keeps the ranges. -/
theorem ranges_exec (h : s.InRange) (c : Instr) : RangesAfter (exec c s) := by
  cases c with
  | powerOn => exact ranges_powerOn s
  | resetPinAsserted => exact ranges_resetPinAsserted h
  | resetPinReleased => exact ranges_resetPinReleased h
  | timeCounterTick => exact ranges_timeCounterTick h
  | characterReceived b e => exact ranges_characterReceived h b e
  | interCharacterTimerExpiry => exact ranges_interCharacterTimerExpiry h
  | transmitAnswer => exact ranges_transmitAnswer h
  | answerLastByteSent => exact ranges_answerLastByteSent h
  | announceReel c code p => exact ranges_announceReel h c code p
  | amendReel c k d => exact ranges_amendReel h c k d
  | mountReel c k stand a => exact ranges_mountReel h c k stand a
  | unmountReel c k => exact ranges_unmountReel h c k
  | retireReel c k => exact ranges_retireReel h c k
  | readReel c k => exact rangesAfter_readsOnly h rfl
  | findReel c code => exact rangesAfter_readsOnly h rfl
  | listStand c stand => exact rangesAfter_readsOnly h rfl
  | threadReel c stand k => exact ranges_threadReel h c stand k
  | writePlanEntry c stand e => exact ranges_writePlanEntry h c stand e
  | readSettings c stand => exact rangesAfter_readsOnly h rfl
  | writeFolder c f cutoff lead trail spacing => exact ranges_writeFolder h c f cutoff lead trail spacing
  | writeProfile c stand p => exact ranges_writeProfile h c stand p
  | writeOneShot c stand v => exact ranges_writeOneShot h c stand v
  | writeRouting c stand mask mode => exact ranges_writeRouting h c stand mask mode
  | armSplice c stand g v => exact ranges_armSplice h c stand g v
  | amendSplice c n v => exact ranges_amendSplice h c n v
  | setChain c stand on => exact ranges_setChain h c stand on
  | readSplice c n => exact rangesAfter_readsOnly h rfl
  | startAccel c stand => exact ranges_startAccel h c stand
  | fireSplice c stand => exact ranges_fireSplice h c stand
  | abortSplice c stand => exact ranges_abortSplice h c stand
  | readStatus c stand => exact rangesAfter_readsOnly h rfl
  | acknowledgeStatus c stand serial revision => exact ranges_acknowledgeStatus h c stand serial revision
  | readInputs c stand => exact rangesAfter_readsOnly h rfl
  | clearChanges c stand snapshot => exact ranges_clearChanges h c stand snapshot
  | takeCall c stand flag => exact ranges_takeCall h c stand flag
  | readTrack c f => exact rangesAfter_readsOnly h rfl
  | forceGate c f x => exact ranges_forceGate h c f x
  | resetStand c stand => exact ranges_resetStand h c stand
  | resetDevice c => exact ranges_resetDevice h c
  | readDevice c => exact rangesAfter_readsOnly h rfl
  | samplingTimerExpiry st x => exact ranges_samplingTimerExpiry h st x
  | starCodeAccepted st code => exact rangesAfter_takeChange h st _ _ (fun _ k => inRange_starTaken k st code)
  | reelPresentLoss st a => exact rangesAfter_takeChange h st _ _ (fun _ k => inRange_reelLost k st a)
  | webPresentLoss st => exact rangesAfter_takeChange h st _ _ (fun _ k => inRange_webLost k st)
  | pasterEngagedActive st => exact ranges_pasterEngagedActive h st
  | pasterHomeActive st => exact ranges_pasterHomeActive h st
  | knifeHomeActive st => exact ranges_knifeHomeActive h st
  | safetyGateChange st closed => exact ranges_safetyGateChange h st closed
  | driverHotActive st => exact ranges_driverHotActive h st
  | driverHotInactive st => exact rangesAfter_takeChange h st _ _ (fun _ k => inRange_judgeStart k true st)
  | webCount st d => exact ranges_webCount h st d
  | tachCount st d => exact ranges_tachCount h st d
  | pasteMarkPulse st => exact ranges_pasteMarkPulse h st
  | revPulse st a => exact ranges_revPulse h st a
  | folderCutPulse f => exact ranges_folderCutPulse h f
  | webSpeedTimerExpiry st => exact ranges_webSpeedTimerExpiry h st
  | accelTimerExpiry st => exact ranges_accelTimerExpiry h st
  | quietTimerExpiry st => exact ranges_quietTimerExpiry h st
  | stopTimerExpiry st => exact ranges_stopTimerExpiry h st
  | confirmTimerExpiry st => exact ranges_confirmTimerExpiry h st
  | knifePulseTimerExpiry st => exact ranges_knifePulseTimerExpiry h st
  | knifeHomeTimerExpiry st => exact ranges_knifeHomeTimerExpiry h st
  | revQuietTimerExpiry st => exact ranges_revQuietTimerExpiry h st
  | indexTimerExpiry st => exact ranges_indexTimerExpiry h st
  | pullInTimerExpiry st o => exact ranges_pullInTimerExpiry h st o
  | autoArmAttempt st => exact ranges_autoArmAttempt h st
  | grantEvaluation f => exact ranges_grantEvaluation h f

/-- Settles O56: each command keeps the ranges, by the range lemma of its effect; a step is one command, or none. -/
theorem everyStepKeepsTheRanges : Obligations.EveryStepKeepsTheRanges := by
  intro s t h e
  cases hp : s.pending with
  | nil =>
    rw [step_nil hp] at e
    exact rangesAfter_next h t e
  | cons c rest =>
    rw [step_cons hp] at e
    exact ranges_exec (inRange_pending h rest) c t e

end Sys2Proof.Machine
end

section
/-! What commands leave alone: an event of a stand the link and the other stands, every command the queue of waiting commands
(CommandsCompleteAndStandEventsAreLocal). -/

namespace Sys2Proof.Machine

/-! ### Events of one stand -/

/-- The command completes, and leaves alone what an event of stand st leaves alone. -/
abbrev LocalAfter (st : StandIx) (s : State) (r : Res) : Prop := ∃ t, r = .next t ∧ Local st s t

theorem localAfter_onDevice {st : StandIx} {f : State → State} (hf : ∀ s, Local st s (f s)) (s : State) :
    LocalAfter st s (onDevice f s) := by
  rcases onDevice_completes f s with e | e
  · exact ⟨s, e, Local.refl st s⟩
  · exact ⟨f s, e, hf s⟩

theorem localAfter_takeChange {st : StandIx} {i : Input} {l : Fin 4} {f : State → State}
    (hf : ∀ s t, Local st s (f t) ↔ Local st s t) (s : State) : LocalAfter st s (onDevice (takeChange st i l f) s) :=
  localAfter_onDevice (fun s => (local_takeChange st s s i l f (hf s)).2 (Local.refl st s)) s

theorem localAfter_samplingTimerExpiry (st : StandIx) (x : Sample) (s : State) :
    LocalAfter st s (execSamplingTimerExpiry st x s) := by
  refine localAfter_onDevice (fun s => ?_) s
  rw [local_modField, local_foldl _ (fun t i => local_sampleInput st s t i _)]
  exact Local.refl st s

theorem localAfter_pasterEngagedActive (st : StandIx) (s : State) : LocalAfter st s (execPasterEngagedActive st s) := by
  refine localAfter_takeChange (fun s t => ?_) s
  split <;> simp

theorem localAfter_pasterHomeActive (st : StandIx) (s : State) : LocalAfter st s (execPasterHomeActive st s) := by
  refine localAfter_takeChange (fun s t => ?_) s
  (repeat' split) <;> simp

theorem localAfter_knifeHomeActive (st : StandIx) (s : State) : LocalAfter st s (execKnifeHomeActive st s) :=
  localAfter_takeChange (fun s t => by simp) s

theorem localAfter_safetyGateChange (st : StandIx) (closed : Bool) (s : State) :
    LocalAfter st s (execSafetyGateChange st closed s) := by
  refine localAfter_takeChange (fun s t => ?_) s
  split
  · rw [local_updateIndexReq]
    split <;> simp
  · rfl

theorem localAfter_driverHotActive (st : StandIx) (s : State) : LocalAfter st s (execDriverHotActive st s) :=
  localAfter_takeChange (fun s t => by simp) s

theorem localAfter_webCount (st : StandIx) (d : Direction) (s : State) : LocalAfter st s (execWebCount st d s) :=
  localAfter_onDevice (fun s => by simp) s

theorem localAfter_tachCount (st : StandIx) (d : Direction) (s : State) : LocalAfter st s (execTachCount st d s) :=
  localAfter_onDevice (fun s => by simp) s

theorem localAfter_pasteMarkPulse (st : StandIx) (s : State) : LocalAfter st s (execPasteMarkPulse st s) := by
  refine localAfter_onDevice (fun s => ?_) s
  (repeat' split) <;> simp

theorem localAfter_revPulse (st : StandIx) (a : Arm) (s : State) : LocalAfter st s (execRevPulse st a s) :=
  localAfter_onDevice (fun s => by simp) s

theorem localAfter_webSpeedTimerExpiry (st : StandIx) (s : State) : LocalAfter st s (execWebSpeedTimerExpiry st s) := by
  refine localAfter_onDevice (fun s => ?_) s
  split
  · rw [local_foldl _ (fun t f => local_sampleOccasion st s t st f)]
    simp
  · exact Local.refl st s

theorem localAfter_accelTimerExpiry (st : StandIx) (s : State) : LocalAfter st s (execAccelTimerExpiry st s) := by
  refine localAfter_onDevice (fun s => ?_) s
  (repeat' split) <;> simp

theorem localAfter_quietTimerExpiry (st : StandIx) (s : State) : LocalAfter st s (execQuietTimerExpiry st s) := by
  refine localAfter_onDevice (fun s => ?_) s
  (repeat' split) <;> simp

theorem localAfter_stopTimerExpiry (st : StandIx) (s : State) : LocalAfter st s (execStopTimerExpiry st s) := by
  refine localAfter_onDevice (fun s => ?_) s
  split
  · split
    · split
      case h_1 =>
        dsimp only
        rw [local_endSpindown]
        split <;> simp
      case h_2 => simp
      all_goals exact Local.refl st s
    · exact Local.refl st s
  · exact Local.refl st s

theorem localAfter_confirmTimerExpiry (st : StandIx) (s : State) : LocalAfter st s (execConfirmTimerExpiry st s) := by
  refine localAfter_onDevice (fun s => ?_) s
  (repeat' split) <;> simp

theorem localAfter_knifePulseTimerExpiry (st : StandIx) (s : State) : LocalAfter st s (execKnifePulseTimerExpiry st s) := by
  refine localAfter_onDevice (fun s => ?_) s
  split <;> simp

theorem localAfter_knifeHomeTimerExpiry (st : StandIx) (s : State) : LocalAfter st s (execKnifeHomeTimerExpiry st s) := by
  refine localAfter_onDevice (fun s => ?_) s
  split <;> simp

theorem localAfter_revQuietTimerExpiry (st : StandIx) (s : State) : LocalAfter st s (execRevQuietTimerExpiry st s) := by
  refine localAfter_onDevice (fun s => ?_) s
  split <;> simp

theorem localAfter_indexTimerExpiry (st : StandIx) (s : State) : LocalAfter st s (execIndexTimerExpiry st s) := by
  refine localAfter_onDevice (fun s => ?_) s
  (repeat' split) <;> simp

theorem localAfter_pullInTimerExpiry (st : StandIx) (o : Output) (s : State) : LocalAfter st s (execPullInTimerExpiry st o s) :=
  localAfter_onDevice (fun s => by simp) s

theorem localAfter_autoArmAttempt (st : StandIx) (s : State) : LocalAfter st s (execAutoArmAttempt st s) := by
  refine localAfter_onDevice (fun s => ?_) s
  split <;> simp

/-- Every event of a stand is local to it. -/
theorem localAfter_event {c : Instr} {st : StandIx} (h : eventStand c = some st) (s : State) : LocalAfter st s (exec c s) := by
  cases c with
  | samplingTimerExpiry _ x => cases h; exact localAfter_samplingTimerExpiry st x s
  | starCodeAccepted _ code => cases h; exact localAfter_takeChange (fun s t => local_starTaken st s t code) s
  | reelPresentLoss _ a => cases h; exact localAfter_takeChange (fun s t => local_reelLost st s t a) s
  | webPresentLoss _ => cases h; exact localAfter_takeChange (fun s t => local_webLost st s t) s
  | pasterEngagedActive _ => cases h; exact localAfter_pasterEngagedActive st s
  | pasterHomeActive _ => cases h; exact localAfter_pasterHomeActive st s
  | knifeHomeActive _ => cases h; exact localAfter_knifeHomeActive st s
  | safetyGateChange _ closed => cases h; exact localAfter_safetyGateChange st closed s
  | driverHotActive _ => cases h; exact localAfter_driverHotActive st s
  | driverHotInactive _ => cases h; exact localAfter_takeChange (fun s t => local_judgeStart st s t true) s
  | webCount _ d => cases h; exact localAfter_webCount st d s
  | tachCount _ d => cases h; exact localAfter_tachCount st d s
  | pasteMarkPulse _ => cases h; exact localAfter_pasteMarkPulse st s
  | revPulse _ a => cases h; exact localAfter_revPulse st a s
  | webSpeedTimerExpiry _ => cases h; exact localAfter_webSpeedTimerExpiry st s
  | accelTimerExpiry _ => cases h; exact localAfter_accelTimerExpiry st s
  | quietTimerExpiry _ => cases h; exact localAfter_quietTimerExpiry st s
  | stopTimerExpiry _ => cases h; exact localAfter_stopTimerExpiry st s
  | confirmTimerExpiry _ => cases h; exact localAfter_confirmTimerExpiry st s
  | knifePulseTimerExpiry _ => cases h; exact localAfter_knifePulseTimerExpiry st s
  | knifeHomeTimerExpiry _ => cases h; exact localAfter_knifeHomeTimerExpiry st s
  | revQuietTimerExpiry _ => cases h; exact localAfter_revQuietTimerExpiry st s
  | indexTimerExpiry _ => cases h; exact localAfter_indexTimerExpiry st s
  | pullInTimerExpiry _ o => cases h; exact localAfter_pullInTimerExpiry st o s
  | autoArmAttempt _ => cases h; exact localAfter_autoArmAttempt st s
  | _ => cases h

/-! ### The queue of waiting commands (log 1) -/

/-- The command completes, and leaves the queue of waiting commands. -/
abbrev KeepsPending (s : State) (r : Res) : Prop := ∃ t, r = .next t ∧ t.pending = s.pending

theorem keepsPending_onDevice {f : State → State} (hf : ∀ s, (f s).pending = s.pending) (s : State) :
    KeepsPending s (onDevice f s) := by
  rcases onDevice_completes f s with e | e
  · exact ⟨s, e, rfl⟩
  · exact ⟨f s, e, hf s⟩

theorem keepsPending_serve {r : Instr} {own : State → Answer × State} (hown : ∀ s, (own s).2.pending = s.pending) (s : State) :
    KeepsPending s (serve r own s) := by
  rcases serve_completes r own s with e | e
  · exact ⟨s, e, rfl⟩
  · exact ⟨_, e, (pending_deliver r _ _).trans (hown s)⟩

/-- What is local to a stand leaves the queue of waiting commands. -/
theorem pending_of_local {st : StandIx} {s t : State} (h : Local st s t ↔ Local st s s) : t.pending = s.pending :=
  (h.2 (Local.refl st s)).pending

@[simp] theorem pending_handOn (st : StandIx) (b s : State) : (handOn st b s).pending = s.pending :=
  pending_of_local (local_handOn st s s b)
@[simp] theorem pending_chainOccasion (st : StandIx) (s : State) : (chainOccasion st s).pending = s.pending :=
  pending_of_local (local_chainOccasion st s s)
@[simp] theorem pending_grantOccasion (f : FolderIx) (s : State) : (grantOccasion f s).pending = s.pending :=
  pending_of_local (local_grantOccasion 0 s s f)
@[simp] theorem pending_ejectPast (f : FolderIx) (p : SpliceRef → Bool) (s : State) : (ejectPast f p s).pending = s.pending :=
  pending_of_local (local_ejectPast 0 s s f p)
@[simp] theorem pending_noteSplice (n : Nat) (x : SpliceNote) (s : State) : (noteSplice n x s).pending = s.pending :=
  pending_of_local (local_noteSplice 0 s s n x)
@[simp] theorem pending_judgeStart (p : Bool) (st : StandIx) (s : State) : (judgeStart p st s).pending = s.pending :=
  pending_of_local (local_judgeStart st s s p)
@[simp] theorem pending_commit (st : StandIx) (n : Nat) (sp : Splice) (s : State) : (commit st n sp s).pending = s.pending :=
  pending_of_local (local_commit st s s n sp)
@[simp] theorem pending_giveUp (st : StandIx) (n : Nat) (sp : Splice) (c : EndCause) (s : State) :
    (giveUp st n sp c s).pending = s.pending :=
  pending_of_local (local_giveUp st s s n sp c)
@[simp] theorem pending_enterWaiting (st : StandIx) (n : Nat) (sp : Splice) (s : State) :
    (enterWaiting st n sp s).pending = s.pending :=
  pending_of_local (local_enterWaiting st s s n sp)
@[simp] theorem pending_arm (st : StandIx) (o : Origin) (g : Trigger) (e : Params (Option Int)) (c : Bool) (s : State) :
    (arm st o g e c s).pending = s.pending :=
  pending_of_local (local_arm st s s o g e c)
@[simp] theorem pending_thread (st : StandIx) (h : Nat) (r : Reel) (s : State) : (thread st h r s).pending = s.pending :=
  pending_of_local (local_thread st s s h r)
@[simp] theorem pending_writePlan (st : StandIx) (e : PlanEntry) (s : State) : (writePlan st e s).pending = s.pending :=
  pending_of_local (local_writePlan st s s e)
@[simp] theorem pending_writeProfile (st : StandIx) (p : Profile) (s : State) : (writeProfile st p s).pending = s.pending :=
  pending_of_local (local_writeProfile st s s p)
@[simp] theorem pending_acknowledge (st : StandIx) (e : StatusEntry) (l : List StatusEntry) (s : State) :
    (acknowledge st e l s).pending = s.pending :=
  pending_of_local (local_acknowledge st s s e l)
@[simp] theorem pending_resetStand (st : StandIx) (s : State) : (resetStand st s).pending = s.pending :=
  pending_of_local (local_resetStand st s s)

@[simp] theorem pending_handOnAt (r : Reel) (b s : State) : (handOnAt r b s).pending = s.pending := by
  unfold handOnAt
  split <;> simp

@[simp] theorem pending_verifyReel (st : StandIx) (h : Nat) (b s : State) : (verifyReel st h b s).pending = s.pending := by
  simp [verifyReel]

@[simp] theorem pending_startArmed (st : StandIx) (n : Nat) (sp : Splice) (s : State) :
    (startArmed st n sp s).2.pending = s.pending := by
  unfold startArmed
  (repeat' split) <;> simp

@[simp] theorem pending_acknowledgeOldest (st : StandIx) (c : Client) (serial revision : Nat) (e : StatusEntry)
    (rest : List StatusEntry) (s : State) : (acknowledgeOldest st c serial revision e rest s).2.pending = s.pending := by
  unfold acknowledgeOldest
  (repeat' split) <;> simp

theorem pending_foldl {α : Type} (g : State → α → State) (hg : ∀ s x, (g s x).pending = s.pending) (l : List α) (s : State) :
    (l.foldl g s).pending = s.pending := by
  induction l generalizing s with
  | nil => rfl
  | cons x l ih => exact (ih (g s x)).trans (hg s x)

@[simp] theorem pending_fullReset (cause : ResetCause) (s : State) : (fullReset cause s).pending = s.pending := rfl

theorem keepsPending_readsOnly {c : Instr} (h : readsOnly c = true) (s : State) : KeepsPending s (exec c s) := by
  rcases exec_readsOnly h s with e | ⟨a, e⟩
  · exact ⟨s, e, rfl⟩
  · exact ⟨_, e, pending_deliver c a s⟩

theorem keepsPending_resetDevice (c : Client) (s : State) : KeepsPending s (execResetDevice c s) := by
  refine keepsPending_onDevice (fun s => ?_) s
  (repeat' (first | split | dsimp only)) <;> simp

/-- Every request leaves the queue of waiting commands. -/
theorem keepsPending_request {c : Instr} (h : requestClient c ≠ none) (s : State) : KeepsPending s (exec c s) := by
  cases c with
  | announceReel c code p =>
    simp only [exec, execAnnounceReel]
    exact keepsPending_serve (fun s => by (repeat' split) <;> simp) s
  | amendReel c k d =>
    simp only [exec, execAmendReel]
    exact keepsPending_serve (fun s => by (repeat' split) <;> simp) s
  | mountReel c k stand a =>
    simp only [exec, execMountReel]
    exact keepsPending_serve (fun s => by (repeat' split) <;> simp) s
  | unmountReel c k =>
    simp only [exec, execUnmountReel]
    exact keepsPending_serve (fun s => by (repeat' split) <;> simp) s
  | retireReel c k =>
    simp only [exec, execRetireReel]
    exact keepsPending_serve (fun s => by (repeat' split) <;> simp) s
  | threadReel c stand k =>
    simp only [exec, execThreadReel]
    exact keepsPending_serve (fun s => by (repeat' split) <;> simp) s
  | writePlanEntry c stand e =>
    simp only [exec, execWritePlanEntry]
    exact keepsPending_serve (fun s => by (repeat' split) <;> simp) s
  | writeFolder c f cutoff lead trail spacing =>
    simp only [exec, execWriteFolder]
    exact keepsPending_serve (fun s => by (repeat' split) <;> simp) s
  | writeProfile c stand p =>
    simp only [exec, execWriteProfile]
    exact keepsPending_serve (fun s => by (repeat' split) <;> simp) s
  | writeOneShot c stand v =>
    simp only [exec, execWriteOneShot]
    exact keepsPending_serve (fun s => by (repeat' split) <;> simp) s
  | writeRouting c stand mask mode =>
    simp only [exec, execWriteRouting]
    exact keepsPending_serve (fun s => by (repeat' split) <;> simp) s
  | armSplice c stand g v =>
    simp only [exec, execArmSplice]
    exact keepsPending_serve (fun s => by (repeat' split) <;> simp) s
  | amendSplice c n v =>
    simp only [exec, execAmendSplice]
    exact keepsPending_serve (fun s => by (repeat' split) <;> simp) s
  | setChain c stand on =>
    simp only [exec, execSetChain]
    exact keepsPending_serve (fun s => by (repeat' split) <;> simp) s
  | startAccel c stand =>
    simp only [exec, execStartAccel]
    exact keepsPending_serve (fun s => by (repeat' split) <;> simp) s
  | fireSplice c stand =>
    simp only [exec, execFireSplice]
    exact keepsPending_serve (fun s => by (repeat' split) <;> simp) s
  | abortSplice c stand =>
    simp only [exec, execAbortSplice]
    exact keepsPending_serve (fun s => by (repeat' split) <;> simp) s
  | acknowledgeStatus c stand serial revision =>
    simp only [exec, execAcknowledgeStatus]
    exact keepsPending_serve (fun s => by (repeat' split) <;> simp) s
  | clearChanges c stand snapshot =>
    simp only [exec, execClearChanges]
    exact keepsPending_serve (fun s => by (repeat' split) <;> simp) s
  | takeCall c stand flag =>
    simp only [exec, execTakeCall]
    exact keepsPending_serve (fun s => by (repeat' split) <;> simp) s
  | forceGate c f x =>
    simp only [exec, execForceGate]
    exact keepsPending_serve (fun s => by (repeat' split) <;> simp) s
  | resetStand c stand =>
    simp only [exec, execResetStand]
    exact keepsPending_serve (fun s => by (repeat' split) <;> simp) s
  | readReel c k => exact keepsPending_readsOnly rfl s
  | findReel c code => exact keepsPending_readsOnly rfl s
  | listStand c stand => exact keepsPending_readsOnly rfl s
  | readSettings c stand => exact keepsPending_readsOnly rfl s
  | readSplice c n => exact keepsPending_readsOnly rfl s
  | readStatus c stand => exact keepsPending_readsOnly rfl s
  | readInputs c stand => exact keepsPending_readsOnly rfl s
  | readTrack c f => exact keepsPending_readsOnly rfl s
  | readDevice c => exact keepsPending_readsOnly rfl s
  | resetDevice c => exact keepsPending_resetDevice c s
  | _ => exact absurd rfl h

/-! ### Resets, the link and the folders -/

theorem keepsPending_powerOn (s : State) : KeepsPending s (execPowerOn s) := by
  unfold execPowerOn
  split <;> exact ⟨_, rfl, rfl⟩

theorem keepsPending_resetPinAsserted (s : State) : KeepsPending s (execResetPinAsserted s) :=
  ⟨_, rfl, (pending_modLink _ _).trans
    (pending_foldl (fun s st => dropOutputs st s) (fun s st => by simp [dropOutputs]) allStands s)⟩

theorem keepsPending_resetPinReleased (s : State) : KeepsPending s (execResetPinReleased s) := by
  unfold execResetPinReleased
  split <;> exact ⟨_, rfl, rfl⟩

theorem keepsPending_characterReceived (b : Byte) (e : Bool) (s : State) : KeepsPending s (execCharacterReceived b e s) := by
  refine keepsPending_onDevice (fun s => ?_) s
  split <;> rfl

theorem keepsPending_answerLastByteSent (s : State) : KeepsPending s (execAnswerLastByteSent s) := by
  refine keepsPending_onDevice (fun s => ?_) s
  (repeat' split) <;> rfl

theorem keepsPending_folderCutPulse (f : FolderIx) (s : State) : KeepsPending s (execFolderCutPulse f s) := by
  refine keepsPending_onDevice (fun s => ?_) s
  split
  · dsimp only
    rw [pending_modFolder]
    exact pending_foldl _ (fun _ _ => pending_modSplice _ _ _) _ s
  · rfl

theorem keepsPending_grantEvaluation (f : FolderIx) (s : State) : KeepsPending s (execGrantEvaluation f s) := by
  refine keepsPending_onDevice (fun s => ?_) s
  split
  · rfl
  · unfold evaluateGrant
    (repeat' split) <;> rfl

theorem keepsPending_timeCounterTick (s : State) : KeepsPending s (execTimeCounterTick s) :=
  keepsPending_onDevice (fun _ => pending_modLink _ _) s

theorem keepsPending_interCharacterTimerExpiry (s : State) : KeepsPending s (execInterCharacterTimerExpiry s) :=
  keepsPending_onDevice (fun _ => pending_modLink _ _) s

theorem keepsPending_transmitAnswer (s : State) : KeepsPending s (execTransmitAnswer s) :=
  keepsPending_onDevice (fun _ => pending_modLink _ _) s

/-- A command that is neither a request nor an event of a stand. -/
theorem keepsPending_rest {c : Instr} (hr : requestClient c = none) (he : eventStand c = none) (s : State) :
    KeepsPending s (exec c s) := by
  cases c with
  | powerOn => exact keepsPending_powerOn s
  | resetPinAsserted => exact keepsPending_resetPinAsserted s
  | resetPinReleased => exact keepsPending_resetPinReleased s
  | timeCounterTick => exact keepsPending_timeCounterTick s
  | characterReceived b e => exact keepsPending_characterReceived b e s
  | interCharacterTimerExpiry => exact keepsPending_interCharacterTimerExpiry s
  | transmitAnswer => exact keepsPending_transmitAnswer s
  | answerLastByteSent => exact keepsPending_answerLastByteSent s
  | folderCutPulse f => exact keepsPending_folderCutPulse f s
  | grantEvaluation f => exact keepsPending_grantEvaluation f s
  | _ => exact absurd (And.intro hr he) (by simp [requestClient, eventStand])

/-- Every command completes and leaves the queue of waiting commands. -/
theorem keepsPending_exec (c : Instr) (s : State) : KeepsPending s (exec c s) := by
  by_cases hr : requestClient c = none
  · cases he : eventStand c with
    | none => exact keepsPending_rest hr he s
    | some st =>
      obtain ⟨t, e, h⟩ := localAfter_event he s
      exact ⟨t, e, h.pending⟩
  · exact keepsPending_request hr s

/-- Settles O2: every event of a stand is local to it, every other command leaves the queue. -/
theorem commandsCompleteAndStandEventsAreLocal : Obligations.CommandsCompleteAndStandEventsAreLocal :=
  ⟨keepsPending_exec, fun _ _ s h => localAfter_event h s⟩

end Sys2Proof.Machine
end

section
/-! Full reset, operands, and the requests that read or write standing data. -/

namespace Sys2Proof.Machine

/-! ### Full reset (R170) -/

/-- Settles O3: after a full reset each stand is `Stand.reset`, each folder `Folder.reset`, whose fields are the stated
values. -/
theorem fullResetLeavesTheStatedValues : Obligations.FullResetLeavesTheStatedValues :=
  fun cause => ⟨stand_afterReset cause, folder_afterReset cause, rfl, rfl, rfl, rfl, rfl⟩

/-! ### Numbers and clients (R1, R13, R53, R113, R156) -/

theorem standIx_eq_some (n : Nat) (st : StandIx) : standIx n = some st ↔ n = st.val + 1 := by
  unfold standIx
  split
  · simp only [Option.some.injEq, Fin.ext_iff]
    omega
  · simp only [reduceCtorEq, false_iff]
    omega

theorem standIx_eq_none (n : Nat) : standIx n = none ↔ ¬ (1 ≤ n ∧ n ≤ 12) := by
  unfold standIx
  split <;> simp_all

theorem folderIx_eq_some (n : Nat) (f : FolderIx) : folderIx n = some f ↔ n = f.val + 1 := by
  unfold folderIx
  split
  · simp only [Option.some.injEq, Fin.ext_iff]
    omega
  · simp only [reduceCtorEq, false_iff]
    omega

theorem folderIx_eq_none (n : Nat) : folderIx n = none ↔ ¬ (1 ≤ n ∧ n ≤ 4) := by
  unfold folderIx
  split <;> simp_all

theorem handleOk_iff (n : Nat) : handleOk n = true ↔ 1 ≤ n ∧ n ≤ 48 := by simp [handleOk]

theorem numberOk_iff (n : Nat) : numberOk n = true ↔ 1 ≤ n ∧ n ≤ 65535 := by simp [numberOk]

theorem byMode_console (st : StandIx) (c : Client) : byMode .console st c = true ↔ c = .console := by simp [byMode]

theorem byMode_localMode (st : StandIx) (c : Client) : byMode .localMode st c = true ↔ c = .panel st := by simp [byMode]

theorem consoleOrPanel_iff (st : StandIx) (c : Client) : consoleOrPanel st c = true ↔ c = .console ∨ c = .panel st := by
  simp [consoleOrPanel]

/-! ### Parameters (R56, R58, R59, R61) -/

/-- The parameters clamped, each to its range of R56. -/
theorem clampParams_eq (p : Params Int) : clampParams p =
    { accelStart := max 150 (min 700 p.accelStart), spliceDiameter := max 110 (min 500 p.spliceDiameter)
      lastChance := max 90 (min 400 p.lastChance), matchTolerance := max 1 (min 20 p.matchTolerance)
      matchOffset := max (-10) (min 10 p.matchOffset), minSpeed := max 500 (min 5000 p.minSpeed)
      pasteTarget := max 20 (min 600 p.pasteTarget), knifeDistance := max 100 (min 2000 p.knifeDistance) } := by
  simp [clampParams, Params.map2, paramRanges, clampInt_eq_max_min]

/-- The settings clamped, each to its range of R56. -/
theorem clampSettings_eq (x : Settings) : clampSettings x =
    { reelCall := max 300 (min 1200 x.reelCall), accelTimeout := max 20 (min 300 x.accelTimeout)
      angle := min 359 x.angle, pasterLead := max 10 (min 250 x.pasterLead), knifeLead := max 5 (min 150 x.knifeLead)
      knifePulse := max 20 (min 300 x.knifePulse), pullIn := max 10 (min 200 x.pullIn)
      carry := max 1000 (min 10000 x.carry), stopTimeout := max 10 (min 120 x.stopTimeout)
      indexTimeout := max 10 (min 120 x.indexTimeout) } := by
  simp [clampSettings, clampNat_eq_max_min]

/-- The explicit value, else the one-shot value, else the profile's (R61). -/
theorem resolveOne_eq (e o : Option Int) (p : Int) : resolveOne e o p = (e.or o).getD p := by
  cases e <;> rfl

theorem consistent_iff (core incoming : Option Nat) (p : Params Int) : consistent core incoming p = true ↔
    ∃ c d : Nat, core = some c ∧ incoming = some d ∧ (c : Int) + 20 ≤ p.lastChance
      ∧ p.lastChance + 20 ≤ p.spliceDiameter ∧ p.spliceDiameter + 40 ≤ p.accelStart ∧ p.accelStart + 100 ≤ (d : Int) := by
  cases core with
  | none => simp [consistent]
  | some c =>
    cases incoming with
    | none => simp [consistent]
    | some d => simp [consistent, and_assoc]

/-- Settles O22, each clause by the lemma about its function. -/
theorem numbersClientsAndParameters : Obligations.NumbersClientsAndParameters := by
  refine ⟨fun n => ⟨standIx_eq_some n, standIx_eq_none n, folderIx_eq_some n, folderIx_eq_none n, handleOk_iff n, numberOk_iff n⟩,
    fun st c => ⟨byMode_console st c, byMode_localMode st c, consoleOrPanel_iff st c⟩, clampParams_eq, clampSettings_eq,
    fun s st e => ?_, consistent_iff⟩
  simp [State.tentative, resolve, Params.map2, resolveOne_eq]

/-! ### Reading standing data (R12, R57, R67, R138, R151) -/

theorem exec_readSettings {c : Client} {stand : Nat} {s : State} (h : s.takes (.readSettings c stand)) :
    exec (.readSettings c stand) s =
      match standIx stand with
      | none => answered (.readSettings c stand) badRequest s
      | some st => answered (.readSettings c stand) (doneWith (.settings (s.settingsImage st))) s := by
  simp only [exec, execReadSettings]
  rw [serve_of_takes _ h]
  cases standIx stand <;> rfl

theorem exec_readInputs {c : Client} {stand : Nat} {s : State} (h : s.takes (.readInputs c stand)) :
    exec (.readInputs c stand) s =
      match standIx stand with
      | none => answered (.readInputs c stand) badRequest s
      | some st => answered (.readInputs c stand) (doneWith (.inputs (s.inputsImage st))) s := by
  simp only [exec, execReadInputs]
  rw [serve_of_takes _ h]
  cases standIx stand <;> rfl

theorem exec_readStatus {c : Client} {stand : Nat} {s : State} (h : s.takes (.readStatus c stand)) :
    exec (.readStatus c stand) s =
      match standIx stand with
      | none => answered (.readStatus c stand) badRequest s
      | some st => answered (.readStatus c stand) (doneWith (.status (s.statusImage st))) s := by
  simp only [exec, execReadStatus]
  rw [serve_of_takes _ h]
  cases standIx stand <;> rfl

theorem exec_readSplice {c : Client} {n : Nat} {s : State} (h : s.takes (.readSplice c n)) :
    exec (.readSplice c n) s =
      if numberOk n = false then answered (.readSplice c n) badRequest s
      else
        match s.splice? n with
        | none => answered (.readSplice c n) (plain .notFound) s
        | some sp => answered (.readSplice c n) (doneWith (.splice (s.spliceImage n sp))) s := by
  simp only [exec, execReadSplice]
  rw [serve_of_takes _ h]
  by_cases hn : numberOk n = false
  · simp only [if_pos hn]
  · simp only [if_neg hn]
    cases s.splice? n <;> rfl

/-- Settles O26: the images of the four reads, field by field. -/
theorem readsAnswerTheirView : Obligations.ReadsAnswerTheirView :=
  ⟨fun _ _ _ h => exec_readSettings h, fun _ _ _ h => exec_readInputs h, fun _ _ _ h => exec_readSplice h,
    fun _ _ _ h => exec_readStatus h⟩

/-! ### WRITE PLAN ENTRY (R8, R9) -/

/-- The entry that plan fields give: none with a folder, path or grade out of its range (R7). -/
theorem planEntryOf_eq (e : PlanFields) : planEntryOf e =
    match folderIx e.folder with
    | none => none
    | some f =>
      if ¬ (2000 ≤ e.path ∧ e.path ≤ 200000 ∧ e.grade ≤ 63) then none
      else some { inPlan := e.inPlan, folder := f, path := e.path, grade := e.grade, width := e.width } := by
  unfold planEntryOf
  cases folderIx e.folder with
  | none => rfl
  | some f => exact (ite_not _ _ _).symm

/-- An accepted entry written: the stand's reels verified against it, the changes handed on (R9). -/
theorem writePlan_eq (st : StandIx) (e : PlanEntry) (s : State) :
    writePlan st e s = handOn st s
      { s.modStand st (fun x => { x with plan := e }) with
        reels := s.reels.map (fun x =>
          (x.1, if verifiable st x.2 then verify e (s.stand st).profile x.2 else x.2)) } := by
  unfold writePlan verifyStand Table.mapAll
  rw [stand_modStand]
  rfl

/-- Settles O23: the checks of R8 one after the other, then the entry written. -/
theorem writePlanEntryReplacesTheEntry : Obligations.WritePlanEntryReplacesTheEntry := by
  intro c stand e s h
  simp only [exec, execWritePlanEntry]
  rw [serve_of_takes _ h]
  cases standIx stand with
  | none => rfl
  | some st =>
    by_cases hc : c ≠ .console
    · simp only [if_pos hc]
      rfl
    · simp only [if_neg hc, planEntryOf_eq]
      cases folderIx e.folder with
      | none => rfl
      | some f =>
        by_cases hr : ¬ (2000 ≤ e.path ∧ e.path ≤ 200000 ∧ e.grade ≤ 63)
        · simp only [if_pos hr]
          rfl
        · simp only [if_neg hr]
          by_cases hb : (s.work st).active.isSome = true ∨ s.markOnTrack st = true
          · rw [if_pos hb]
            exact (if_pos hb).symm
          · rw [if_neg hb, writePlan_eq]
            exact (if_neg hb).symm

/-! ### Reading reels (R16, R23, R24) -/

/-- The answer to a reel code that does not pass R16. -/
theorem codeFault_eq (code : List Nat) : codeFault code =
    if ¬ (code.length = 11 ∧ ∀ d ∈ code, d ≤ 9) then some (.badRequest false)
    else if code[10]? ≠ some (checkDigit code) then some (.badRequest true)
    else none := by
  have hiff : (code.length ≠ 11 ∨ code.any (fun d => decide (9 < d)) = true) ↔ ¬ (code.length = 11 ∧ ∀ d ∈ code, d ≤ 9) := by
    simp only [List.any_eq_true, decide_eq_true_eq, not_and_or, not_forall, not_le, exists_prop]
  unfold codeFault
  simp only [hiff]

/-- The check digit of a reel code: the digits weighted 3 and 1 in turn (R16). -/
theorem checkDigit_eq (d1 d2 d3 d4 d5 d6 d7 d8 d9 d10 d11 : Nat) :
    checkDigit [d1, d2, d3, d4, d5, d6, d7, d8, d9, d10, d11] =
      (10 - (3 * (d1 + d3 + d5 + d7 + d9) + (d2 + d4 + d6 + d8 + d10)) % 10) % 10 := by
  have hsum : codeSum [d1, d2, d3, d4, d5, d6, d7, d8, d9, d10, d11] =
      3 * (d1 + d3 + d5 + d7 + d9) + (d2 + d4 + d6 + d8 + d10) := by
    simp only [codeSum, List.zipWith_cons_cons, List.zipWith_nil_left, List.sum_cons, List.sum_nil]
    omega
  rw [checkDigit, hsum]

/-- The position of an arm (R3): each arm of a settled star has one. -/
theorem positionOf_eq (star : StarIndex) (a : Arm) : positionOf star a =
    match star with
    | .settled k => some (if a = k then .run else if a = k + 1 then .splice else .load)
    | .moving => none
    | .unknown => none := by
  cases star with
  | settled k => revert k a; decide
  | moving => rfl
  | unknown => rfl

/-- A quotient of natural numbers rounded to the nearest integer (00 5.2). -/
theorem roundDiv_natCast (a b : Nat) : roundDiv a b = ((2 * a + b) / (2 * b) : Nat) := by
  simp [roundDiv]

/-- The remaining length of a reel above its core (R44), by the bounds of its rounding. -/
theorem remainingLength_bounds {d core caliper : Nat} (hd : core < d) (hc : 0 < caliper) :
    2 * remainingLength d core caliper * (10000 * caliper) ≤ 2 * (250 * 31416 * (d ^ 2 - core ^ 2)) + 10000 * caliper
    ∧ 2 * (250 * 31416 * (d ^ 2 - core ^ 2)) + 10000 * caliper < (2 * remainingLength d core caliper + 2) * (10000 * caliper) := by
  have hsq : core ^ 2 ≤ d ^ 2 := Nat.pow_le_pow_left hd.le 2
  have hcast : (250 * 31416 * ((d : Int) * d - (core : Int) * core)) = ((250 * 31416 * (d ^ 2 - core ^ 2) : Nat) : Int) := by
    push_cast [Nat.cast_sub hsq]
    ring
  have hlen : remainingLength d core caliper =
      (2 * (250 * 31416 * (d ^ 2 - core ^ 2)) + 10000 * caliper) / (2 * (10000 * caliper)) := by
    rw [remainingLength, if_neg (by omega), hcast, show (10000 * (caliper : Int)) = ((10000 * caliper : Nat) : Int) by push_cast; ring,
      roundDiv_natCast, Int.toNat_natCast]
  rw [hlen]
  generalize 2 * (250 * 31416 * (d ^ 2 - core ^ 2)) + 10000 * caliper = a
  have hb : 0 < 2 * (10000 * caliper) := by omega
  have hle := Nat.div_mul_le_self a (2 * (10000 * caliper))
  have hlt := Nat.lt_div_mul_add (a := a) hb
  constructor <;> linarith

theorem exec_readReel {c : Client} {k : Nat} {s : State} (h : s.takes (.readReel c k)) :
    exec (.readReel c k) s =
      if ¬ (1 ≤ k ∧ k ≤ 48) then answered (.readReel c k) badRequest s
      else
        match s.reel? k with
        | none => answered (.readReel c k) (plain .notFound) s
        | some r => answered (.readReel c k) (doneWith (.reel (s.reelImage k r))) s := by
  have hk : handleOk k = false ↔ ¬ (1 ≤ k ∧ k ≤ 48) := by rw [← handleOk_iff, Bool.not_eq_true]
  simp only [exec, execReadReel]
  rw [serve_of_takes _ h]
  simp only [hk]
  split
  · rfl
  · cases s.reel? k <;> rfl

theorem exec_findReel {c : Client} {code : List Nat} {s : State} (h : s.takes (.findReel c code)) :
    exec (.findReel c code) s =
      if ¬ (code.length = 11 ∧ ∀ d ∈ code, d ≤ 9) then answered (.findReel c code) badRequest s
      else if code[10]? ≠ some (checkDigit code) then answered (.findReel c code) (plain (.badRequest true)) s
      else
        match s.reelWithCode code with
        | none => answered (.findReel c code) (plain .notFound) s
        | some (k, r) => answered (.findReel c code) (doneWith (.reel (s.reelImage k r))) s := by
  simp only [exec, execFindReel]
  rw [serve_of_takes _ h, codeFault_eq]
  by_cases hdigits : ¬ (code.length = 11 ∧ ∀ d ∈ code, d ≤ 9)
  · simp only [if_pos hdigits]
    rfl
  · by_cases hcheck : code[10]? ≠ some (checkDigit code)
    · simp only [if_neg hdigits, if_pos hcheck]
    · simp only [if_neg hdigits, if_neg hcheck]
      cases s.reelWithCode code <;> rfl

theorem exec_listStand {c : Client} {stand : Nat} {s : State} (h : s.takes (.listStand c stand)) :
    exec (.listStand c stand) s =
      match standIx stand with
      | none => answered (.listStand c stand) badRequest s
      | some st => answered (.listStand c stand) (doneWith (.standList (s.standList st))) s := by
  simp only [exec, execListStand]
  rw [serve_of_takes _ h]
  cases standIx stand <;> rfl

/-- The position in a reel's image (R3, R23). -/
theorem position_reelImage (k : Nat) (r : Reel) (s : State) : (s.reelImage k r).position =
    match r.loc with
    | none => none
    | some (st, a) =>
      match (s.stand st).star with
      | .settled k => some (if a = k then .run else if a = k + 1 then .splice else .load)
      | .moving => none
      | .unknown => none := by
  unfold State.reelImage
  cases r.loc with
  | none => rfl
  | some x => exact positionOf_eq _ x.2

/-- Settles O20: the three reads, and the image's position and remaining length. -/
theorem reelReadsAnswerTheImage : Obligations.ReelReadsAnswerTheImage := by
  refine ⟨fun c k s h => exec_readReel h, fun c code s h => exec_findReel h, checkDigit_eq, fun c stand s h => ⟨fun hn => ?_,
    fun st hst => ?_⟩, fun k r s => ⟨rfl, rfl, position_reelImage k r s, fun hd => ?_, fun d hd => ⟨fun hle => ?_, fun hlt hc => ?_⟩⟩⟩
  · rw [exec_listStand h, (standIx_eq_none stand).2 hn]
    rfl
  · rw [exec_listStand h, (standIx_eq_some stand st).2 hst]
    rfl
  · simp [State.reelImage, hd]
  · simp [State.reelImage, hd, remainingLength, hle]
  · exact ⟨_, by rw [State.reelImage, hd, Option.map_some], remainingLength_bounds hlt hc⟩

end Sys2Proof.Machine
end

section
/-! The star (R2, R5, R104, R105): what each operation leaves of the star values, the departure and the settling taken by the
sequencer, and the stand end (StarChangesByState). -/

namespace Sys2Proof.Machine

/-! ### The star values under the shared operations (R2) -/

/-- The star index and the last settled index of a stand (R2). -/
def State.starValues (s : State) (i : StandIx) : StarIndex × Option Arm := ((s.stand i).star, (s.stand i).lastSettled)

theorem starValues_of_stand {s t : State} {i : StandIx} (h : t.stand i = s.stand i) : t.starValues i = s.starValues i := by
  rw [State.starValues, h, State.starValues]

theorem starValues_modStand (s : State) (st i : StandIx) (f : Stand → Stand)
    (hf : ∀ x, (f x).star = x.star ∧ (f x).lastSettled = x.lastSettled) : (s.modStand st f).starValues i = s.starValues i := by
  by_cases e : i = st
  · subst e
    rw [State.starValues, stand_modStand, (hf _).1, (hf _).2, State.starValues]
  · exact starValues_of_stand (stand_modStand_ne s f e)

@[simp] theorem starValues_modSeq (s : State) (st i : StandIx) (f : Sequencer → Sequencer) :
    (s.modSeq st f).starValues i = s.starValues i :=
  starValues_modStand s st i (fun x => { x with seq := f x.seq }) (fun _ => ⟨rfl, rfl⟩)

@[simp] theorem starValues_modWork (s : State) (st i : StandIx) (f : Working → Working) :
    (s.modWork st f).starValues i = s.starValues i := starValues_modSeq s st i _

@[simp] theorem starValues_modGauge (s : State) (st i : StandIx) (f : Gauge → Gauge) :
    (s.modGauge st f).starValues i = s.starValues i :=
  starValues_modStand s st i (fun x => { x with gauge := f x.gauge }) (fun _ => ⟨rfl, rfl⟩)

@[simp] theorem starValues_modQueue (s : State) (st i : StandIx) (f : Queue → Queue) :
    (s.modQueue st f).starValues i = s.starValues i :=
  starValues_modStand s st i (fun x => { x with queue := f x.queue }) (fun _ => ⟨rfl, rfl⟩)

@[simp] theorem starValues_modFolder (s : State) (f : FolderIx) (g : Folder → Folder) (i : StandIx) :
    (s.modFolder f g).starValues i = s.starValues i := rfl

@[simp] theorem starValues_modReel (s : State) (h : Nat) (f : Reel → Reel) (i : StandIx) :
    (s.modReel h f).starValues i = s.starValues i := rfl

@[simp] theorem starValues_modSplice (s : State) (n : Nat) (f : Splice → Splice) (i : StandIx) :
    (s.modSplice n f).starValues i = s.starValues i := rfl

@[simp] theorem starValues_raise (st : StandIx) (c : Condition) (s : State) (r : Option Nat × Option Nat) (i : StandIx) :
    (raise st c s r).starValues i = s.starValues i := by simp [raise]

@[simp] theorem starValues_evalReelCall (st : StandIx) (s : State) (i : StandIx) :
    (evalReelCall st s).starValues i = s.starValues i := by simp [evalReelCall]

@[simp] theorem starValues_evalRisk (st : StandIx) (s : State) (i : StandIx) : (evalRisk st s).starValues i = s.starValues i := by
  unfold evalRisk
  dsimp only
  split <;> simp

@[simp] theorem starValues_retire (n : Nat) (s : State) (i : StandIx) : (retire n s).starValues i = s.starValues i :=
  starValues_of_stand (stand_retire n s i)

@[simp] theorem starValues_chainOccasion (st : StandIx) (s : State) (i : StandIx) :
    (chainOccasion st s).starValues i = s.starValues i := by simp [chainOccasion]

@[simp] theorem starValues_handOn (st : StandIx) (b s : State) (i : StandIx) : (handOn st b s).starValues i = s.starValues i := by
  unfold handOn
  dsimp only
  split <;> simp

@[simp] theorem starValues_giveBack (st : StandIx) (u : Bool) (h : Nat) (s : State) (i : StandIx) :
    (giveBack st u h s).starValues i = s.starValues i := by simp [giveBack]

@[simp] theorem starValues_leaveArbiter (st : StandIx) (sp : Splice) (s : State) (i : StandIx) :
    (leaveArbiter st sp s).starValues i = s.starValues i := by
  unfold leaveArbiter
  (repeat' split) <;> simp [leaveWaits, releaseSlot, grantOccasion]

@[simp] theorem starValues_endSplice (st : StandIx) (n : Nat) (x : SpliceState) (c : Condition) (s : State) (i : StandIx) :
    (endSplice st n x c s).starValues i = s.starValues i := by simp [endSplice, endRecord]

@[simp] theorem starValues_afterEnd (st : StandIx) (n : Nat) (s : State) (i : StandIx) :
    (afterEnd st n s).starValues i = s.starValues i := by simp [afterEnd]

@[simp] theorem starValues_immediateAbort (st : StandIx) (n : Nat) (sp : Splice) (c : EndCause) (s : State) (i : StandIx) :
    (immediateAbort st n sp c s).starValues i = s.starValues i := by simp [immediateAbort, setCause]

@[simp] theorem starValues_abortToSpindown (st : StandIx) (n : Nat) (sp : Splice) (c : EndCause) (s : State) (i : StandIx) :
    (abortToSpindown st n sp c s).starValues i = s.starValues i := by
  simp [abortToSpindown, enterSpindown, setSpliceState, setCause]

@[simp] theorem starValues_standEnd (st : StandIx) (n : Nat) (c : EndCause) (s : State) (i : StandIx) :
    (standEnd st n c s).starValues i = s.starValues i := by simp [standEnd, setCause]

/-! ### Setting the star -/

theorem setStar_moving (st : StandIx) (s : State) : setStar st .moving s = s.modStand st (fun x => { x with star := .moving }) := rfl

theorem setStar_settled (st : StandIx) (j : Arm) (s : State) :
    setStar st (.settled j) s = s.modStand st (fun x => { x with star := .settled j, lastSettled := some j }) := rfl

@[simp] theorem starOf_castLE (j : Arm) : starOf (j.castLE (by omega)) = .settled j := by revert j; decide

theorem starOf_three : starOf 3 = .moving := rfl

@[simp] theorem work_setStar (st : StandIx) (x : StarIndex) (s : State) (i : StandIx) : (setStar st x s).work i = s.work i := by
  by_cases e : i = st
  · subst e
    simp [State.work, setStar]
  · simp [State.work, setStar, e]

@[simp] theorem activeSplice_setStar (st : StandIx) (x : StarIndex) (s : State) (i : StandIx) :
    (setStar st x s).activeSplice i = s.activeSplice i := by
  rw [State.activeSplice, work_setStar]
  rfl

/-- The values that an accepted code gives (R2). -/
theorem starValues_setStar (st : StandIx) (code : Fin 4) (s : State) :
    (setStar st (starOf code) s).starValues st =
      (if h : code.val < 3 then .settled ⟨code.val, h⟩ else .moving,
       if h : code.val < 3 then some ⟨code.val, h⟩ else (s.stand st).lastSettled) := by
  unfold setStar
  rw [State.starValues, stand_modStand]
  unfold starOf
  split <;> rfl

/-! ### The departure and the settling (R104, R105) -/

/-- A departure from a settled index (R105), by the state of the stand's splice. -/
theorem departure_eq (st : StandIx) (s : State) : departure st s =
    match s.activeSplice st with
    | none => s
    | some (n, sp) =>
      match sp.state with
      | .armed => immediateAbort st n sp .starMoved (raise st .starMoved s)
      | .accel | .matched | .waiting | .firing => abortToSpindown st n sp .starMoved (raise st .starMoved s)
      | .pasting | .cutting => raise st .starMoved s
      | .braking | .indexing | .spindown | .completed | .aborted | .failed => s := by
  unfold departure giveUp
  cases s.activeSplice st with
  | none => rfl
  | some x =>
    obtain ⟨n, sp⟩ := x
    dsimp only
    cases sp.state <;> rfl

/-- A settling at index j (R104): the stand end of a splice in INDEXING; an absent start index is settled elsewhere (log 24). -/
theorem settling_eq (st : StandIx) (j : Arm) (s : State) : settling st j s =
    match s.activeSplice st with
    | none => s
    | some (n, sp) =>
      if sp.state = .indexing then
        if ∃ k, (s.work st).startIndex = some k ∧ j = k + 1 then standEnd st n .indexed s
        else standEnd st n .starSettledElsewhere (raise st .starMoved s)
      else s := by
  have hstart : (s.work st).startIndex.map (· + 1) = some j ↔ ∃ k, (s.work st).startIndex = some k ∧ j = k + 1 := by
    rw [Option.map_eq_some_iff]
    exact exists_congr (fun k => and_congr_right (fun _ => eq_comm))
  unfold settling
  cases s.activeSplice st with
  | none => rfl
  | some x => simp only [hstart]

@[simp] theorem starValues_departure (st : StandIx) (s : State) (i : StandIx) : (departure st s).starValues i = s.starValues i := by
  rw [departure_eq]
  (repeat' split) <;> simp

@[simp] theorem starValues_settling (st : StandIx) (j : Arm) (s : State) (i : StandIx) :
    (settling st j s).starValues i = s.starValues i := by
  rw [settling_eq]
  (repeat' split) <;> simp

/-- An accepted code taken leaves the star values it has set. -/
theorem starValues_starTaken (st : StandIx) (code : Fin 4) (s : State) :
    (starTaken st code s).starValues st = (setStar st (starOf code) s).starValues st := by
  unfold starTaken
  dsimp only
  split <;> simp

/-! ### The splice after a departure -/

@[simp] theorem activeSplice_raise (st : StandIx) (c : Condition) (s : State) (i : StandIx) :
    (raise st c s).activeSplice i = s.activeSplice i := by simp [State.activeSplice]

@[simp] theorem active_afterEnd (w : Working) : w.afterEnd.active = none := by
  unfold Working.afterEnd
  split <;> rfl

theorem active_endSplice (st : StandIx) (n : Nat) (x : SpliceState) (c : Condition) (s : State) :
    ((endSplice st n x c s).work st).active = none := by simp [endSplice]

theorem active_immediateAbort (st : StandIx) (n : Nat) (sp : Splice) (c : EndCause) (s : State) :
    ((immediateAbort st n sp c s).work st).active = none := by simp [immediateAbort, active_endSplice]

@[simp] theorem work_leaveArbiter (st : StandIx) (sp : Splice) (s : State) (i : StandIx) :
    (leaveArbiter st sp s).work i = s.work i := by
  unfold leaveArbiter
  (repeat' split) <;> simp

@[simp] theorem splice?_leaveArbiter (st : StandIx) (sp : Splice) (s : State) (n : Nat) :
    (leaveArbiter st sp s).splice? n = s.splice? n := by
  unfold leaveArbiter
  (repeat' split) <;> simp

theorem splice?_modWork (s : State) (st : StandIx) (f : Working → Working) (n : Nat) :
    (s.modWork st f).splice? n = s.splice? n := rfl

/-- An abort to spin-down leaves the splice, still active, in SPINDOWN (R87). -/
theorem spliceState_abortToSpindown {st : StandIx} {n : Nat} {s : State} (h : (s.work st).active = some n) (sp : Splice)
    (c : EndCause) : (abortToSpindown st n sp c s).spliceState st = (s.splice? n).map (fun _ => .spindown) := by
  have hact : ((abortToSpindown st n sp c s).work st).active = some n := by simp [abortToSpindown, enterSpindown, h]
  rw [State.spliceState, State.activeSplice, hact]
  simp [abortToSpindown, enterSpindown, splice?_modWork, Function.comp_def]

theorem spliceState_of_activeSplice {st : StandIx} {n : Nat} {sp : Splice} {s : State} (h : s.activeSplice st = some (n, sp)) :
    s.spliceState st = some sp.state := by
  rw [State.spliceState, h]
  rfl

theorem spliceState_of_idle {st : StandIx} {s : State} (h : (s.work st).active = none) : s.spliceState st = none := by
  rw [State.spliceState, State.activeSplice, h]
  rfl

/-- A departure brings no splice into INDEXING. -/
theorem spliceState_departure {st : StandIx} {s : State} (h : s.spliceState st ≠ some .indexing) :
    (departure st s).spliceState st ≠ some .indexing := by
  rw [departure_eq]
  split
  · exact h
  · rename_i n sp hs
    have hraise : (raise st .starMoved s).spliceState st = s.spliceState st := by simp [State.spliceState]
    split
    · simp [spliceState_of_idle, active_immediateAbort]
    case h_6 | h_7 => exact hraise ▸ h
    case h_8 | h_9 | h_10 | h_11 | h_12 | h_13 => exact h
    all_goals
      rw [spliceState_abortToSpindown (by rw [work_raise]; exact (activeSplice_eq_some.1 hs).1)]
      simp [(activeSplice_eq_some.1 hs).2]

theorem departure_of_indexing {st : StandIx} {s : State} {n : Nat} {sp : Splice} (hs : s.activeSplice st = some (n, sp))
    (h : sp.state = .indexing) : departure st s = s := by
  rw [departure_eq, hs]
  simp only [h]

theorem settling_of_not_indexing {st : StandIx} {s : State} (h : s.spliceState st ≠ some .indexing) (j : Arm) :
    settling st j s = s := by
  rw [settling_eq]
  cases hs : s.activeSplice st with
  | none => rfl
  | some x => exact if_neg (fun e => h (by rw [spliceState_of_activeSplice hs, e]))

/-- A change between two settled indices: the departure, then the settling of the splice that was in INDEXING before it
(log 17). -/
theorem settling_departure (st : StandIx) (j : Arm) (s : State) : settling st j (departure st s) =
    match s.activeSplice st with
    | none => departure st s
    | some (n, sp) =>
      if sp.state = .indexing then
        if ∃ k, (s.work st).startIndex = some k ∧ j = k + 1 then standEnd st n .indexed (departure st s)
        else standEnd st n .starSettledElsewhere (raise st .starMoved (departure st s))
      else departure st s := by
  cases hs : s.activeSplice st with
  | none => exact settling_of_not_indexing (spliceState_departure (by simp [State.spliceState, hs])) j
  | some x =>
    obtain ⟨n, sp⟩ := x
    by_cases h : sp.state = .indexing
    · rw [departure_of_indexing hs h, settling_eq, hs]
    · refine (settling_of_not_indexing (spliceState_departure ?_) j).trans (if_neg h).symm
      rw [spliceState_of_activeSplice hs]
      exact fun e => h (Option.some.inj e)

/-! ### What an accepted code does (R5) -/

theorem starTaken_departs {st : StandIx} {k : Arm} {s : State} (h : (s.stand st).star = .settled k) :
    starTaken st 3 s = handOn st s (departure st (setStar st .moving s)) := by
  unfold starTaken
  rw [h, starOf_three]

theorem starTaken_three_of_unsettled {st : StandIx} {s : State} (h : (s.stand st).star = .moving ∨ (s.stand st).star = .unknown) :
    starTaken st 3 s = setStar st .moving s := by
  unfold starTaken
  rcases h with h | h <;> rw [h, starOf_three]

theorem starTaken_settles {st : StandIx} {s : State} (h : (s.stand st).star = .moving ∨ (s.stand st).star = .unknown) (j : Arm) :
    starTaken st (j.castLE (by omega)) s = handOn st s (settling st j (setStar st (.settled j) s)) := by
  unfold starTaken
  rcases h with h | h <;> rw [h, starOf_castLE]

theorem starTaken_changes {st : StandIx} {k : Arm} {s : State} (h : (s.stand st).star = .settled k) (j : Arm) :
    starTaken st (j.castLE (by omega)) s =
      handOn st (setStar st .moving s) (settling st j (departure st (setStar st (.settled j) s))) := by
  unfold starTaken
  rw [h, starOf_castLE]

/-! ### Conditions held in a queue (R148, R159) -/

/-- An entry of the queue holds the condition. -/
abbrev Queue.Holds (c : Condition) (q : Queue) : Prop := ∃ e ∈ q.entries, c ∈ e.conditions

theorem mem_onLast_or {f : StatusEntry → StatusEntry} {l : List StatusEntry} {e : StatusEntry} (h : e ∈ l) :
    e ∈ onLast f l ∨ f e ∈ onLast f l := by
  induction l with
  | nil => cases h
  | cons y t ih =>
    cases t with
    | nil =>
      obtain rfl := List.mem_singleton.1 h
      exact Or.inr (List.mem_singleton.2 rfl)
    | cons x t =>
      rcases List.mem_cons.1 h with rfl | h
      · exact Or.inl List.mem_cons_self
      · exact (ih h).imp (List.mem_cons_of_mem _) (List.mem_cons_of_mem _)

theorem exists_mem_onLast (f : StatusEntry → StatusEntry) {l : List StatusEntry} (h : l ≠ []) : ∃ e, f e ∈ onLast f l := by
  induction l with
  | nil => exact absurd rfl h
  | cons y t ih =>
    cases t with
    | nil => exact ⟨y, List.mem_singleton.2 rfl⟩
    | cons x t =>
      obtain ⟨e, he⟩ := ih (List.cons_ne_nil x t)
      exact ⟨e, List.mem_cons_of_mem _ he⟩

/-- A condition raised is held. -/
theorem Queue.holds_place (q : Queue) (c : Condition) (a : Option Nat) (now : Stamp) (r : Option Nat × Option Nat) :
    (q.place c a now r).Holds c := by
  unfold Queue.place
  dsimp only
  split
  · rename_i e he
    split
    · obtain ⟨x, hx⟩ := exists_mem_onLast (fun e => e.join c (Queue.routing { q with buttOut := q.buttOut || decide (c = .standEnd) } c) r)
        (l := q.entries) (fun hn => by simp [hn] at he)
      exact ⟨_, hx, mem_addTo.2 (Or.inl rfl)⟩
    · exact ⟨_, List.mem_append_right _ (List.mem_singleton.2 rfl), List.mem_singleton.2 rfl⟩
  · exact ⟨_, List.mem_singleton.2 rfl, List.mem_singleton.2 rfl⟩

/-- A condition held stays held when another is raised. -/
theorem Queue.Holds.place {q : Queue} {d : Condition} (h : q.Holds d) (c : Condition) (a : Option Nat) (now : Stamp)
    (r : Option Nat × Option Nat) : (q.place c a now r).Holds d := by
  obtain ⟨e, he, hd⟩ := h
  unfold Queue.place
  dsimp only
  split
  · split
    · rcases mem_onLast_or he with hx | hx
      · exact ⟨e, hx, hd⟩
      · exact ⟨_, hx, mem_addTo.2 (Or.inr hd)⟩
    · exact ⟨e, List.mem_append_left _ he, hd⟩
  · rename_i hn
    rw [List.getLast?_eq_none_iff] at hn
    exact absurd he (by simp [hn])

theorem Queue.buttOut_place (q : Queue) (c : Condition) (a : Option Nat) (now : Stamp) (r : Option Nat × Option Nat) :
    (q.place c a now r).buttOut = (q.buttOut || decide (c = .standEnd)) := by
  unfold Queue.place
  dsimp only
  (repeat' split) <;> rfl

/-! ### The stand end (R104) -/

theorem queue_evalReelCall (st : StandIx) (s : State) :
    ((evalReelCall st s).stand st).queue.buttOut = (s.stand st).queue.buttOut
    ∧ ((evalReelCall st s).stand st).queue.entries = (s.stand st).queue.entries := by simp [evalReelCall]

/-- The evaluation of run-out risk leaves the queue, or raises RUN_OUT_RISK. -/
theorem queue_evalRisk (st : StandIx) (s : State) : ((evalRisk st s).stand st).queue = (s.stand st).queue
    ∨ ((evalRisk st s).stand st).queue = (s.stand st).queue.place .runOutRisk (s.work st).active s.now (none, none) := by
  unfold evalRisk
  dsimp only
  split
  · exact Or.inr (by simp [raise, State.now])
  · exact Or.inl (by simp)

theorem seq_evalRisk (st : StandIx) (s : State) : ((evalRisk st s).stand st).seq = (s.stand st).seq := by
  unfold evalRisk
  dsimp only
  split <;> simp [raise]

/-- What follows the end of a splice leaves BUTT OUT and the conditions held. -/
theorem queue_afterEnd (st : StandIx) (n : Nat) {s : State} {c : Condition} (hb : (s.stand st).queue.buttOut = true)
    (hc : (s.stand st).queue.Holds c) :
    ((afterEnd st n s).stand st).queue.buttOut = true ∧ ((afterEnd st n s).stand st).queue.Holds c := by
  obtain ⟨hbutt, hentries⟩ := queue_evalReelCall st (evalRisk st (retire n s))
  unfold afterEnd Queue.Holds
  rw [hbutt, hentries]
  rcases queue_evalRisk st (retire n s) with e | e <;> rw [e, stand_retire]
  · exact ⟨hb, hc⟩
  · exact ⟨by rw [Queue.buttOut_place, hb]; rfl, hc.place _ _ _ _⟩

theorem chainOccasions_afterEnd (st : StandIx) (n : Nat) (s : State) :
    ((afterEnd st n s).stand st).seq.chainOccasions = (s.stand st).seq.chainOccasions := by
  have hcall : ((evalReelCall st (evalRisk st (retire n s))).stand st).seq = ((evalRisk st (retire n s)).stand st).seq := by
    simp [evalReelCall]
  rw [afterEnd, hcall, seq_evalRisk, stand_retire]

theorem work_afterEnd (st : StandIx) (n : Nat) (s : State) (i : StandIx) : (afterEnd st n s).work i = s.work i := by
  simp [afterEnd]

theorem indexing_afterEnd (w : Working) : w.afterEnd.indexReq = false ∧ w.afterEnd.indexTimer = none := by
  unfold Working.afterEnd
  split <;> exact ⟨rfl, rfl⟩

/-- The record of a splice that ends: in its ended state, with the time of its end. -/
theorem splice?_endSplice (st : StandIx) (n : Nat) (x : SpliceState) (c : Condition) (s : State) :
    (endSplice st n x c s).splice? n = (s.splice? n).map (fun sp => { sp with state := x, ended := some s.now }) := by
  rw [endSplice, splice?_modWork, splice?_endRecord, splice?_raise]
  simp [State.now]

theorem queue_endSplice (st : StandIx) (n : Nat) (x : SpliceState) (c : Condition) (s : State) :
    ((endSplice st n x c s).stand st).queue = (s.stand st).queue.place c (s.work st).active s.now (none, none) := by
  simp [endSplice, endRecord, raise]

theorem chainOccasions_endSplice (st : StandIx) (n : Nat) (x : SpliceState) (c : Condition) (s : State) :
    ((endSplice st n x c s).stand st).seq.chainOccasions = (s.stand st).seq.chainOccasions := by
  simp [endSplice, endRecord, raise]

theorem work_endSplice (st : StandIx) (n : Nat) (x : SpliceState) (c : Condition) (s : State) :
    (endSplice st n x c s).work st = (s.work st).afterEnd := by simp [endSplice]

/-- What a stand end leaves (R104). -/
theorem standEnd_spec (st : StandIx) (n : Nat) (cause : EndCause) (s : State) :
    ((standEnd st n cause s).work st).active = none
    ∧ ((standEnd st n cause s).work st).indexReq = false ∧ ((standEnd st n cause s).work st).indexTimer = none
    ∧ ((standEnd st n cause s).stand st).queue.buttOut = true ∧ ((standEnd st n cause s).stand st).queue.Holds .standEnd
    ∧ ((standEnd st n cause s).stand st).seq.chainOccasions = (s.stand st).seq.chainOccasions + 1
    ∧ ∀ x, (standEnd st n cause s).splice? n = some x → x.state = .completed ∧ x.ended = some s.link.time := by
  unfold standEnd
  extract_lets t u
  have hwork : (afterEnd st n (chainOccasion st u)).work st = (t.work st).afterEnd := by
    rw [work_afterEnd, work_chainOccasion, work_endSplice]
  have hqueue : ((chainOccasion st u).stand st).queue = (t.stand st).queue.place .standEnd (t.work st).active t.now (none, none) := by
    rw [← queue_endSplice st n .completed]
    simp [chainOccasion, u]
  have hbutt : ((chainOccasion st u).stand st).queue.buttOut = true := by
    rw [hqueue, Queue.buttOut_place]
    exact Bool.or_true _
  have hend : ((chainOccasion st u).stand st).queue.Holds .standEnd := by
    rw [hqueue]
    exact Queue.holds_place _ _ _ _ _
  have hchain : ((chainOccasion st u).stand st).seq.chainOccasions = (s.stand st).seq.chainOccasions + 1 := by
    have hu : (u.stand st).seq.chainOccasions = (t.stand st).seq.chainOccasions := chainOccasions_endSplice st n _ _ t
    simp [chainOccasion, hu, t, setCause]
  obtain ⟨hout, hheld⟩ := queue_afterEnd st n hbutt hend
  refine ⟨by rw [hwork, active_afterEnd], by rw [hwork, (indexing_afterEnd _).1], by rw [hwork, (indexing_afterEnd _).2], hout, hheld,
    by rw [chainOccasions_afterEnd, hchain], fun x hx => ?_⟩
  have hfound : (retire n (chainOccasion st u)).splice? n = some x := by simpa [afterEnd] using hx
  have hu : u.splice? n = some x := by simpa using splice?_of_retire hfound
  rw [splice?_endSplice, Option.map_eq_some_iff] at hu
  obtain ⟨sp, _, rfl⟩ := hu
  exact ⟨rfl, by simp [State.now, t]⟩

/-- Settles O44: the star by the prior star and the accepted code, the sequencer's part by `departure_eq`, `settling_eq` and
`settling_departure`, the stand end by `standEnd_spec`. -/
theorem starChangesByState : Obligations.StarChangesByState := by
  refine ⟨fun st code s h => onDevice_of_runs _ h, fun st code s => ?_, fun st k s h => ?_, fun st s h => starTaken_three_of_unsettled h,
    fun st j s h => ?_, fun st k j s h => ?_, fun st n sp cause s _ => standEnd_spec st n cause s⟩
  · have h := (starValues_starTaken st code s).trans (starValues_setStar st code s)
    exact ⟨congrArg Prod.fst h, congrArg Prod.snd h⟩
  · rw [starTaken_departs h, departure_eq, activeSplice_setStar]
    rfl
  · rw [starTaken_settles h, settling_eq, activeSplice_setStar, work_setStar]
    rfl
  · rw [starTaken_changes h, settling_departure, activeSplice_setStar, work_setStar, departure_eq, activeSplice_setStar]
    rfl

end Sys2Proof.Machine
end

section
/-! The order of the reel records (`ReelsOrdered`, Laws/Reels.lean) under the shared operations: those that leave the view of the
reels, and those that take a step of Laws/Reels.lean. -/

namespace Sys2Proof.Machine

/-! ### Updates that leave the view of the reels -/

theorem sameReels_modReel (s : State) (k : Nat) (f : Reel → Reel) (hf : ∀ r, s.reel? k = some r → (f r).view = r.view) :
    SameReels s (s.modReel k f) := by
  refine ⟨fun i => ?_, fun _ => rfl, fun _ _ _ => rfl⟩
  by_cases e : i = k
  · subst e
    cases hr : s.reel? i with
    | none => simp [State.reelView, hr]
    | some r => simp [State.reelView, hr, hf r hr]
  · simp [State.reelView, reel?_modReel_ne s f e]

theorem sameReels_mapAll (s : State) (f : Nat → Reel → Reel) (hf : ∀ k r, (f k r).view = r.view) :
    SameReels s { s with reels := Table.mapAll f s.reels } := by
  refine ⟨fun i => ?_, fun _ => rfl, fun _ _ _ => rfl⟩
  show ((Table.find i (Table.mapAll f s.reels)).map Reel.view) = (Table.find i s.reels).map Reel.view
  rw [find_mapAll, Option.map_map]
  exact Option.map_congr (fun r _ => hf i r)

theorem hold_modSplice (s : State) (n m : Nat) (f : Splice → Splice) :
    (s.modSplice n f).hold m = if m = n then (s.splice? n).map (fun sp => (f sp).hold) else s.hold m := by
  simp only [State.hold, splice?_modSplice_eq]
  split
  · next e => rw [e, Option.map_map]; rfl
  · rfl

theorem sameReels_modSplice (s : State) (n : Nat) (f : Splice → Splice)
    (hf : ∀ sp, s.splice? n = some sp → (f sp).hold = sp.hold) : SameReels s (s.modSplice n f) := by
  refine ⟨fun _ => rfl, fun _ => rfl, fun _ m _ => ?_⟩
  rw [hold_modSplice]
  split
  · next e =>
    subst e
    exact Option.map_congr (fun sp h => hf sp h)
  · rfl

theorem sameReels_modStand (s : State) (i : StandIx) (f : Stand → Stand)
    (hf : (f (s.stand i)).seq.work.active = (s.stand i).seq.work.active) : SameReels s (s.modStand i f) := by
  refine sameReels_of_eq rfl rfl (fun j => ?_)
  by_cases e : j = i
  · subst e; simpa [State.work] using hf
  · simp [State.work, e]

theorem sameReels_modWork (s : State) (i : StandIx) (f : Working → Working) (hf : (f (s.work i)).active = (s.work i).active) :
    SameReels s (s.modWork i f) :=
  sameReels_modStand s i (fun x => { x with seq := { x.seq with work := f x.seq.work } }) hf

theorem sameReels_setSpliceState (n : Nat) (x : SpliceState) (s : State)
    (hx : ∀ sp, s.splice? n = some sp → stageOf sp.state = stageOf x) : SameReels s (setSpliceState n x s) :=
  sameReels_modSplice s n _ (fun sp h => by simp [Splice.hold, hx sp h])

/-! ### A state in which the folders are disciplined and the reel records in order -/

/-- The folder discipline and the order of the reel records, which the splice sequence keeps together. -/
structure State.Sound (s : State) : Prop where
  disciplined : s.Disciplined
  ordered : ReelsOrdered s

theorem State.Sound.of_same {s t : State} (h : s.Sound) (hd : t.Disciplined) (k : SameReels s t) : t.Sound :=
  ⟨hd, h.ordered.of_same k⟩

/-- Neither the folder discipline nor the order of the reel records sees the change. -/
structure Still (s t : State) : Prop where
  quiet : Quiet s t
  same : SameReels s t

theorem Still.refl (s : State) : Still s s := ⟨Quiet.refl s, SameReels.refl s⟩

theorem Still.trans {s t u : State} (h : Still s t) (k : Still t u) : Still s u :=
  ⟨h.quiet.trans k.quiet, h.same.trans k.same⟩

theorem Still.sound {s t : State} (k : Still s t) (h : s.Sound) : t.Sound :=
  h.of_same (k.quiet.disciplined h.disciplined) k.same

theorem still_of_eq {s t : State} (h1 : t.reels = s.reels) (h2 : t.splices = s.splices) (h3 : ∀ st, t.work st = s.work st)
    (h4 : ∀ f, t.folder f = s.folder f) : Still s t :=
  ⟨quiet_of_eq h2 h3 h4, sameReels_of_eq h1 h2 (fun st => by rw [h3])⟩

theorem still_modReel (s : State) (k : Nat) (f : Reel → Reel) (hf : ∀ r, s.reel? k = some r → (f r).view = r.view) :
    Still s (s.modReel k f) := ⟨quiet_modReel s k f, sameReels_modReel s k f hf⟩

theorem still_modLink (s : State) (f : Link → Link) : Still s (s.modLink f) :=
  still_of_eq rfl rfl (fun _ => rfl) (fun _ => rfl)

theorem still_modGauge (s : State) (i : StandIx) (f : Gauge → Gauge) : Still s (s.modGauge i f) :=
  still_of_eq rfl rfl (fun _ => by simp) (fun _ => rfl)

theorem still_modField (s : State) (i : StandIx) (f : Field → Field) : Still s (s.modField i f) :=
  still_of_eq rfl rfl (fun _ => by simp) (fun _ => rfl)

theorem still_modQueue (s : State) (i : StandIx) (f : Queue → Queue) : Still s (s.modQueue i f) :=
  still_of_eq rfl rfl (fun _ => by simp) (fun _ => rfl)

theorem still_modStand (s : State) (i : StandIx) (f : Stand → Stand)
    (h : (f (s.stand i)).seq.work = (s.stand i).seq.work) : Still s (s.modStand i f) :=
  ⟨quiet_modStand s i f h, sameReels_modStand s i f (by rw [h])⟩

theorem still_modSeq (s : State) (i : StandIx) (f : Sequencer → Sequencer)
    (h : (f (s.stand i).seq).work = (s.stand i).seq.work) : Still s (s.modSeq i f) := still_modStand s i _ h

theorem still_modWork (s : State) (i : StandIx) (f : Working → Working)
    (h1 : (f (s.work i)).active = (s.work i).active) (h2 : (f (s.work i)).markPlaced = (s.work i).markPlaced) :
    Still s (s.modWork i f) := ⟨quiet_modWork s i f h1 h2, sameReels_modWork s i f h1⟩

/-- A splice record changes in what neither of the two sees. -/
theorem still_modSplice (s : State) (n : Nat) (f : Splice → Splice) (h1 : ∀ sp, (f sp).view = sp.view)
    (h2 : ∀ sp, (f sp).hold = sp.hold) : Still s (s.modSplice n f) :=
  ⟨quiet_modSplice s n f h1, sameReels_modSplice s n f (fun sp _ => h2 sp)⟩

/-- A change of a folder alone leaves the view of the reels. -/
theorem sameReels_modFolder (s : State) (f : FolderIx) (g : Folder → Folder) : SameReels s (s.modFolder f g) :=
  sameReels_of_eq rfl rfl (fun _ => rfl)

/-! ### Operations that neither of the two sees -/

theorem still_raise (st : StandIx) (c : Condition) (s : State) (r : Option Nat × Option Nat) : Still s (raise st c s r) :=
  still_modQueue s st _

theorem still_evalReelCall (st : StandIx) (s : State) : Still s (evalReelCall st s) := by
  unfold evalReelCall; exact still_modQueue s st _

theorem still_evalRisk (st : StandIx) (s : State) : Still s (evalRisk st s) :=
  still_of_eq (by simp) (by simp) (fun _ => by simp) (fun _ => by simp)

theorem still_chainOccasion (st : StandIx) (s : State) : Still s (chainOccasion st s) := still_modSeq s st _ rfl

theorem still_handOn (st : StandIx) (b s : State) : Still s (handOn st b s) :=
  still_of_eq (by simp) (by simp) (fun _ => by simp) (fun _ => by simp)

theorem still_grantOccasion (f : FolderIx) (s : State) : Still s (grantOccasion f s) :=
  ⟨quiet_grantOccasion f s, sameReels_modFolder s f _⟩

theorem still_setCause (n : Nat) (c : EndCause) (s : State) : Still s (setCause n c s) :=
  still_modSplice s n _ (fun _ => rfl) (fun _ => rfl)

theorem still_noteSplice (n : Nat) (x : SpliceNote) (s : State) : Still s (noteSplice n x s) :=
  still_modSplice s n _ (fun _ => rfl) (fun _ => rfl)

theorem still_copyResiduals (n out : Nat) (s : State) : Still s (copyResiduals n out s) := by
  unfold copyResiduals
  split
  · exact still_modSplice s n _ (fun _ => rfl) (fun _ => rfl)
  · exact Still.refl s

theorem still_energisePaster (st : StandIx) (s : State) : Still s (energisePaster st s) := by
  unfold energisePaster; exact still_modField s st _

theorem still_energiseBrake (st : StandIx) (s : State) : Still s (energiseBrake st s) := by
  unfold energiseBrake; exact still_modField s st _

theorem still_energiseKnife (st : StandIx) (s : State) : Still s (energiseKnife st s) := by
  unfold energiseKnife; exact still_modField s st _

theorem still_releasePaster (st : StandIx) (s : State) : Still s (releasePaster st s) := still_modField s st _

theorem still_releaseBrake (st : StandIx) (s : State) : Still s (releaseBrake st s) := still_modField s st _

theorem still_endKnifePulse (st : StandIx) (s : State) : Still s (endKnifePulse st s) := by
  have k := still_modField s st (fun x => { x with knife := x.knife.release, knifePulse := none })
  unfold endKnifePulse
  dsimp only
  split
  · exact k
  · exact k.trans (still_modWork _ st _ rfl rfl)

theorem still_releaseKnife (st : StandIx) (s : State) : Still s (releaseKnife st s) := by
  unfold releaseKnife
  split
  · exact still_endKnifePulse st s
  · exact Still.refl s

theorem still_startBraking (st : StandIx) (a : Option Arm) (s : State) : Still s (startBraking st a s) :=
  (still_energiseBrake st s).trans (still_modWork _ st _ rfl rfl)

theorem still_keepBrake (st : StandIx) (s : State) : Still s (keepBrake st s) :=
  (still_modField s st _).trans (still_modWork _ st _ rfl rfl)

theorem still_gateFoundOpen (st : StandIx) (s : State) : Still s (gateFoundOpen st s) := by
  unfold gateFoundOpen
  split
  · exact Still.refl s
  · exact (still_raise st _ s _).trans (still_modWork _ st _ rfl rfl)

theorem still_updateIndexReq (st : StandIx) (s : State) : Still s (updateIndexReq st s) := by
  unfold updateIndexReq
  dsimp only
  split
  · split
    · exact Still.refl s
    · exact still_modWork s st _ rfl rfl
  · exact Still.refl s

theorem still_resolveSplice (st : StandIx) (n : Nat) (sp : Splice) (s : State) : Still s (resolveSplice st n sp s) := by
  have k := still_modSplice s n (fun x => { x with params := (s.resolved sp).map some }) (fun _ => rfl) (fun _ => rfl)
  unfold resolveSplice
  dsimp only
  refine Still.trans ?_ (still_modStand _ st _ rfl)
  (repeat' split)
  · exact (k.trans (still_noteSplice _ _ _)).trans (still_noteSplice _ _ _)
  · exact k.trans (still_noteSplice _ _ _)
  · exact k.trans (still_noteSplice _ _ _)
  · exact k

theorem still_setMatched (st : StandIx) (sp : Splice) (x : Bool) (s : State) : Still s (setMatched st sp x s) := by
  refine ⟨quiet_setMatched st sp x s, ?_⟩
  have k := sameReels_modWork s st (fun w => { w with matched := x }) rfl
  unfold setMatched
  dsimp only
  split
  · exact k.trans (sameReels_modFolder _ _ _)
  · exact k

theorem still_setGirth (k : Nat) (g : Int) (s : State) : Still s (setGirth k g s) :=
  still_modReel s k _ (fun _ _ => rfl)

theorem still_rematch (st : StandIx) (sp : Splice) (g : Int) (s : State) : Still s (rematch st sp g s) := by
  have k := ((still_modWork s st (fun w => { w with goodCount := 3 }) rfl rfl).trans (still_setMatched st sp true _)).trans
    (still_setGirth sp.incoming g _)
  unfold rematch
  dsimp only
  split
  · exact k.trans (still_grantOccasion _ _)
  · exact k

theorem still_dropRunningDiameter (st : StandIx) (s : State) : Still s (dropRunningDiameter st s) := by
  unfold dropRunningDiameter
  split
  · exact still_modReel s _ _ (fun _ _ => rfl)
  · exact Still.refl s

theorem sameReels_refreshMargin (st : StandIx) (s : State) : SameReels s (refreshMargin st s) := by
  unfold refreshMargin
  split
  · split
    · split
      · dsimp only
        split
        · exact SameReels.refl s
        · exact (sameReels_modFolder s _ _).trans (still_grantOccasion _ _).same
      · exact SameReels.refl s
    · exact SameReels.refl s
  · exact SameReels.refl s

theorem still_deliver (r : Instr) (a : Answer) (s : State) : Still s (deliver r a s) :=
  still_of_eq rfl rfl (fun _ => rfl) (fun _ => rfl)

theorem still_chainBlocked (st : StandIx) (s : State) : Still s (chainBlocked st s) := by
  unfold chainBlocked
  split
  · exact Still.refl s
  · exact (still_raise st _ s _).trans (still_modSeq _ st _ rfl)

theorem still_seqRevPulse (st : StandIx) (a : Arm) (s : State) : Still s (seqRevPulse st a s) := by
  unfold seqRevPulse
  split
  · exact still_modWork s st _ rfl rfl
  · exact Still.refl s

theorem sameReels_leaveWaits (f : FolderIx) (st : StandIx) (s : State) : SameReels s (leaveWaits f st s) :=
  sameReels_modFolder s f _

theorem sameReels_releaseSlot (f : FolderIx) (s : State) : SameReels s (releaseSlot f s) :=
  (sameReels_modFolder s f _).trans (still_grantOccasion f _).same

theorem sameReels_leaveArbiter (st : StandIx) (sp : Splice) (s : State) : SameReels s (leaveArbiter st sp s) := by
  unfold leaveArbiter
  (repeat' split)
  · exact sameReels_leaveWaits _ st s
  · exact sameReels_releaseSlot _ s
  all_goals exact SameReels.refl s

/-! ### Operations on the marks and the retirement test: the splices that have not ended keep their reels -/

/-- The reels and the active splices are as before, and a splice that has not ended keeps its reels and its state. -/
structure KeepsHolds (s t : State) : Prop where
  reels : t.reels = s.reels
  active : ∀ st, (t.work st).active = (s.work st).active
  live : ∀ n sp, s.splice? n = some sp → isEnded sp.state = false →
    ∃ sp', t.splice? n = some sp' ∧ sp'.hold = sp.hold ∧ sp'.state = sp.state

theorem KeepsHolds.refl (s : State) : KeepsHolds s s := ⟨rfl, fun _ => rfl, fun _ sp h _ => ⟨sp, h, rfl, rfl⟩⟩

theorem KeepsHolds.trans {s t u : State} (h : KeepsHolds s t) (k : KeepsHolds t u) : KeepsHolds s u := by
  refine ⟨k.reels.trans h.reels, fun st => (k.active st).trans (h.active st), fun n sp e he => ?_⟩
  obtain ⟨sp1, e1, h1, s1⟩ := h.live n sp e he
  obtain ⟨sp2, e2, h2, s2⟩ := k.live n sp1 e1 (by rw [s1]; exact he)
  exact ⟨sp2, e2, h2.trans h1, s2.trans s1⟩

/-- Active splices have not ended. -/
theorem KeepsHolds.same {s t : State} (k : KeepsHolds s t) (h : s.Disciplined) : SameReels s t := by
  refine ⟨fun i => by simp [State.reelView, State.reel?, k.reels], k.active, fun st n ha => ?_⟩
  obtain ⟨sp, e, _, he⟩ := h.active st n ha
  obtain ⟨sp', e', hh, _⟩ := k.live n sp e he
  rw [hold_of_splice? e, hold_of_splice? e', hh]

theorem keepsHolds_foldl {α : Type} (g : State → α → State) (hg : ∀ s a, KeepsHolds s (g s a)) (l : List α) :
    ∀ s : State, KeepsHolds s (l.foldl g s) := by
  induction l with
  | nil => exact KeepsHolds.refl
  | cons a l ih => exact fun s => (hg s a).trans (ih _)

theorem keepsHolds_modSplice (s : State) (n : Nat) (f : Splice → Splice)
    (hf : ∀ sp, (f sp).hold = sp.hold ∧ (f sp).state = sp.state) : KeepsHolds s (s.modSplice n f) := by
  refine ⟨rfl, fun _ => rfl, fun m sp e _ => ?_⟩
  rw [splice?_modSplice_eq, e]
  split
  · exact ⟨_, rfl, hf sp⟩
  · exact ⟨sp, rfl, rfl, rfl⟩

theorem keepsHolds_modFolder (s : State) (f : FolderIx) (g : Folder → Folder) : KeepsHolds s (s.modFolder f g) :=
  ⟨rfl, fun _ => rfl, fun _ sp h _ => ⟨sp, h, rfl, rfl⟩⟩

theorem keepsHolds_retire (n : Nat) (s : State) : KeepsHolds s (retire n s) := by
  refine ⟨by unfold retire; (repeat' split) <;> rfl, fun st => by unfold retire; (repeat' split) <;> rfl, fun m sp e he => ?_⟩
  rcases splice?_retire n m s with e' | ⟨rfl, _, x, hx, hend, _⟩
  · exact ⟨sp, e'.trans e, rfl, rfl⟩
  · rw [e] at hx; cases hx
    rw [he] at hend; cases hend

theorem keepsHolds_markLeaves (final : MarkState) (n : Nat) (s : State) : KeepsHolds s (markLeaves final n s) := by
  unfold markLeaves
  split
  · have k := keepsHolds_modSplice s n (fun sp => { sp with mark := { sp.mark with state := final } }) (fun _ => ⟨rfl, rfl⟩)
    unfold unlist
    split
    · exact k.trans (keepsHolds_modFolder _ _ _)
    · exact k
  · exact KeepsHolds.refl s

theorem keepsHolds_eject (f : FolderIx) (n : Nat) (s : State) : KeepsHolds s (eject f n s) :=
  ((keepsHolds_markLeaves .ejected n s).trans (keepsHolds_retire n _)).trans
    (keepsHolds_modFolder _ f (fun F => { F with grantOccasions := F.grantOccasions + 1 }))

theorem keepsHolds_purge (test : Nat → Splice → Bool) (s : State) : KeepsHolds s (purge test s) :=
  ((keepsHolds_foldl _ (fun s (p : Nat × Splice) => keepsHolds_markLeaves .purged p.1 s) _ s).trans
    (keepsHolds_foldl _ (fun s (p : Nat × Splice) => keepsHolds_retire p.1 s) _ _)).trans
    (keepsHolds_foldl _ (fun s f => keepsHolds_modFolder s f _) _ _)

theorem keepsHolds_ejectPast (f : FolderIx) (test : SpliceRef → Bool) (s : State) : KeepsHolds s (ejectPast f test s) :=
  keepsHolds_foldl _ (fun t (r : SpliceRef) => keepsHolds_eject f r.splice t) _ s

theorem keepsHolds_moveMarks (st : StandIx) (d : Direction) (s : State) : KeepsHolds s (moveMarks st d s) := by
  refine ⟨rfl, fun _ => rfl, fun n sp e _ => ?_⟩
  have e' : (moveMarks st d s).splice? n = some (if sp.stand = st ∧ sp.mark.state = .onTrack then
      { sp with mark := sp.mark.move d } else sp) := by
    simp only [State.splice?, moveMarks, find_mapAll]
    rw [show Table.find n s.splices = some sp from e]; rfl
  refine ⟨_, e', ?_, ?_⟩ <;> split <;> rfl

theorem keepsHolds_trackWebCount (st : StandIx) (d : Direction) (s : State) : KeepsHolds s (trackWebCount st d s) := by
  refine (keepsHolds_moveMarks st d s).trans (keepsHolds_foldl _ (fun t f => ?_) _ _)
  have k := keepsHolds_ejectPast f (fun r => decide (r.stand = st)) t
  cases d with
  | forward => exact k.trans (keepsHolds_foldl _ (fun t _ => keepsHolds_modFolder t f _) _ _)
  | reverse => exact k

theorem State.Sound.of_keepsHolds {s t : State} (h : s.Sound) (hd : t.Disciplined) (k : KeepsHolds s t) : t.Sound :=
  h.of_same hd (k.same h.disciplined)

theorem sound_retire {s : State} (h : s.Sound) (n : Nat) : (retire n s).Sound :=
  h.of_keepsHolds (disciplined_retire h.disciplined n) (keepsHolds_retire n s)

theorem sound_afterEnd {s : State} (h : s.Sound) (st : StandIx) (n : Nat) : (afterEnd st n s).Sound :=
  ((still_evalRisk st _).trans (still_evalReelCall st _)).sound (sound_retire h n)

theorem sound_purge {s : State} (h : s.Sound) (test : Nat → Splice → Bool) : (purge test s).Sound :=
  h.of_keepsHolds (disciplined_purge h.disciplined test) (keepsHolds_purge test s)

end Sys2Proof.Machine
end

section
/-! The order of the reel records under the operations that change it: verification, arming, commit, the ends of a splice and of its
hold on its reels. -/

namespace Sys2Proof.Machine

/-! ### Records that are right by themselves -/

theorem right_verify {plan : PlanEntry} {p : Profile} {r : Reel} (h1 : paperOk r.paper = true) (h2 : codeFault r.code = none)
    (h3 : r.loc ≠ none) : (verify plan p r).view.Right := by
  unfold verify
  dsimp only
  split
  · next h => exact ⟨h1, h2, nofun, fun _ => h3, by simp [Reel.view, h], nofun⟩
  · next h => exact ⟨h1, h2, nofun, fun _ => h3, by simp [Reel.view, h], nofun⟩

theorem state_verify (plan : PlanEntry) (p : Profile) (r : Reel) :
    (verify plan p r).state = .ready ∨ (verify plan p r).state = .mounted := by
  unfold verify
  dsimp only
  split
  · exact Or.inl rfl
  · exact Or.inr rfl

theorem verify_not_running (plan : PlanEntry) (p : Profile) (r : Reel) : (verify plan p r).state ≠ .running := by
  rcases state_verify plan p r with h | h <;> rw [h] <;> decide

theorem right_toButt {r : Reel} (h : r.view.Right) : (toButt r).view.Right :=
  ⟨h.paper, h.code, nofun, by simp [toButt, Reel.view], by simp [toButt, Reel.view], nofun⟩

theorem right_toFloor {r : Reel} (h : r.view.Right) : (toFloor r).view.Right :=
  ⟨h.paper, h.code, fun _ => rfl, by simp [toFloor, Reel.view], by simp [toFloor, Reel.view], nofun⟩

/-- What `giveBack` makes of the record (R30, R31). -/
def givenBack (plan : PlanEntry) (p : Profile) (used : Bool) (r : Reel) : Reel :=
  let r := { r with reservedBy := none, state := .ready, reasons := [] }
  let r := if used then { r with paper := { r.paper with paste := false }, notes := addTo .pasteUsed r.notes } else r
  verify plan p r

theorem giveBack_eq (st : StandIx) (used : Bool) (h : Nat) (s : State) :
    giveBack st used h s = s.modReel h (givenBack (s.stand st).plan (s.stand st).profile used) := rfl

/-- A change of a record that leaves it right, with its code and its arm, and unreserved. -/
structure Frees (f : Reel → Reel) (r : Reel) : Prop where
  right : (f r).view.Right
  code : (f r).code = r.code
  loc : (f r).loc = r.loc
  free : (f r).reservedBy = none

theorem frees_givenBack (plan : PlanEntry) (p : Profile) (used : Bool) {r : Reel} (h : r.view.Right) (hl : r.loc ≠ none) :
    Frees (givenBack plan p used) r := by
  cases used with
  | false => exact ⟨right_verify h.paper h.code hl, rfl, rfl, rfl⟩
  | true => exact ⟨right_verify h.paper h.code hl, rfl, rfl, rfl⟩

theorem givenBack_not_running (plan : PlanEntry) (p : Profile) (used : Bool) (r : Reel) :
    (givenBack plan p used r).state ≠ .running := verify_not_running _ _ _

/-! ### The active splice and its reels -/

/-- Splice n is active on stand st, and sp has its state, its folder and its reels. -/
structure State.Follows (s : State) (st : StandIx) (n : Nat) (sp : Splice) : Prop where
  active : (s.work st).active = some n
  view : ∃ v, s.viewOf n = some v ∧ v.state = sp.state ∧ v.folder = sp.folder
  hold : s.hold n = some sp.hold

theorem State.Follows.of_active {s : State} {st : StandIx} {n : Nat} {sp : Splice} (h : s.activeSplice st = some (n, sp)) :
    s.Follows st n sp := by
  obtain ⟨ha, e⟩ := activeSplice_eq_some.1 h
  exact ⟨ha, ⟨_, viewOf_of_splice? e, rfl, rfl⟩, hold_of_splice? e⟩

theorem State.Follows.holds {s : State} {st : StandIx} {n : Nat} {sp : Splice} (h : s.Follows st n sp) :
    ∃ v, s.Holds st n v ∧ v.state = sp.state ∧ v.folder = sp.folder := by
  obtain ⟨v, hv, h1, h2⟩ := h.view
  exact ⟨v, ⟨h.active, hv⟩, h1, h2⟩

theorem State.Follows.still {s t : State} {st : StandIx} {n : Nat} {sp : Splice} (h : s.Follows st n sp) (k : Still s t) :
    t.Follows st n sp := by
  obtain ⟨v, hv, h1, h2⟩ := h.view
  exact ⟨(k.same.active st).trans h.active, ⟨v, (k.quiet.viewOf n).trans hv, h1, h2⟩, (k.same.hold st n h.active).trans h.hold⟩

/-- A splice that has not ended is followed through the purge of marks. -/
theorem State.Follows.purge {s : State} {st : StandIx} {n : Nat} {sp : Splice} (h : s.Follows st n sp) (hd : s.Disciplined)
    (he : isEnded sp.state = false) (test : Nat → Splice → Bool) : (purge test s).Follows st n sp := by
  obtain ⟨v, hv, h1, h2⟩ := h.view
  have k := kept_purge test s
  obtain ⟨m, hm⟩ := k.view n v hv (by rw [h1]; exact he)
  exact ⟨by rw [k.work]; exact h.active, ⟨_, hm, h1, h2⟩,
    (((keepsHolds_purge test s).same hd).hold st n h.active).trans h.hold⟩

/-- A stand has its active splice for itself. -/
theorem State.Disciplined.active_unique {s : State} (h : s.Disciplined) {i j : StandIx} {n : Nat}
    (hi : (s.work i).active = some n) (hj : (s.work j).active = some n) : i = j := by
  obtain ⟨x, hx, h1, _⟩ := h.active i n hi
  obtain ⟨y, hy, h2, _⟩ := h.active j n hj
  rw [hx] at hy; cases hy
  exact h1.symm.trans h2

/-- The reel that a splice reserves. -/
theorem State.Sound.incoming {s : State} (h : s.Sound) {st : StandIx} {n : Nat} {sp : Splice} (hf : s.Follows st n sp)
    (hs : stageOf sp.state ≠ .past) : ∃ r, s.reel? sp.incoming = some r ∧ r.view.Right ∧ r.reservedBy = some n
      ∧ onStand st r = true ∧ r.state = (stageOf sp.state).reelState := by
  obtain ⟨v, hv, hn⟩ := h.ordered.incoming st n _ hf.active hf.hold hs
  obtain ⟨st', x, a', x', _, on, _, e⟩ := h.ordered.reserved _ v n hv hn
  obtain rfl := h.disciplined.active_unique hf.active a'
  rw [hf.hold] at x'; cases x'
  obtain ⟨r, hr, rfl⟩ := reelView_eq_some.1 hv
  exact ⟨r, hr, h.ordered.right _ _ hv, hn, on, e⟩

/-- The running reel that a splice is to follow. -/
theorem State.Sound.outgoing {s : State} (h : s.Sound) {st : StandIx} {n : Nat} {sp : Splice} (hf : s.Follows st n sp)
    (hs : stageOf sp.state ≠ .past) : ∃ r, s.reel? sp.outgoing = some r ∧ r.view.Right ∧ r.reservedBy = none
      ∧ onStand st r = true ∧ r.state = .running := by
  obtain ⟨v, hv, hrun, on⟩ := h.ordered.outgoing st n _ hf.active hf.hold hs
  obtain ⟨r, hr, rfl⟩ := reelView_eq_some.1 hv
  exact ⟨r, hr, h.ordered.right _ _ hv, h.ordered.unreserved_running hv hrun, on, hrun⟩

theorem onStand_iff (st : StandIx) (r : Reel) : onStand st r = true ↔ ∃ a, r.loc = some (st, a) := by
  unfold onStand
  split
  · next t a h => simp [h]
  · next h => simp [h]

theorem loc_of_onStand {st : StandIx} {r : Reel} (h : onStand st r = true) : ∃ a, r.loc = some (st, a) := (onStand_iff st r).1 h

/-! ### Letting go of the reels (R30, R31) -/

theorem update_id {α : Type} (k : Nat) (t : List (Nat × α)) : Table.update k id t = t := by
  induction t with
  | nil => rfl
  | cons p t ih => simp [Table.update, ih]

/-- The active splice lets go of its reels: f and g are what becomes of the incoming and the outgoing one. -/
theorem State.Sound.lets_go {s t : State} (h : s.Sound) {st : StandIx} {n : Nat} {sp : Splice} (hf : s.Follows st n sp)
    (hs : stageOf sp.state ≠ .past) {f g : Reel → Reel}
    (hr : t.reels = Table.update sp.incoming f (Table.update sp.outgoing g s.reels))
    (hin : ∀ r, s.reel? sp.incoming = some r → r.view.Right → r.loc ≠ none → Frees f r)
    (hout : ∀ r, s.reel? sp.outgoing = some r → r.view.Right → r.reservedBy = none → r.loc ≠ none → Frees g r)
    (hrun : (∀ r, (f r).state ≠ .running) ∨ ∀ r, (g r).state ≠ .running)
    (ha : ∀ i, (t.work i).active = (s.work i).active ∨ i = st ∧ (t.work i).active = none)
    (hh : ∀ i m, (s.work i).active = some m → m ≠ n → t.hold m = s.hold m)
    (hp : (t.work st).active = some n → ∀ y, t.hold n = some y → y.stage = .past) : ReelsOrdered t := by
  obtain ⟨r, er, rr, rn, ron, rs⟩ := h.incoming hf hs
  obtain ⟨q, eq, qr, qn, qon, qs⟩ := h.outgoing hf hs
  obtain ⟨a, rl⟩ := loc_of_onStand ron
  obtain ⟨b, ql⟩ := loc_of_onStand qon
  have hne : sp.incoming ≠ sp.outgoing := by
    intro e
    rw [e, eq] at er; cases er
    rw [qn] at rn; cases rn
  have hfr := hin r er rr (by rw [rl]; nofun)
  have hgq := hout q eq qr qn (by rw [ql]; nofun)
  have tin : t.reel? sp.incoming = some (f r) := by
    rw [State.reel?, hr, find_update_self, find_update_ne g s.reels hne]
    exact congrArg (Option.map f) er
  have tout : t.reel? sp.outgoing = some (g q) := by
    rw [State.reel?, hr, find_update_ne f _ hne.symm, find_update_self]
    exact congrArg (Option.map g) eq
  refine h.ordered.letGo hf.active hf.hold hs (fun i hi => h.disciplined.active_unique hi hf.active) (reelView_of_reel? er)
    (reelView_of_reel? tin) (reelView_of_reel? eq) (reelView_of_reel? tout) (fun i h1 h2 => ?_) hfr.right hfr.code
    (Or.inl hfr.loc) hfr.free hgq.right hgq.code hgq.loc hgq.free ?_ ha hh hp
  · rw [State.reelView, State.reel?, hr, find_update_ne f _ (show i ≠ sp.incoming from h1),
      find_update_ne g _ (show i ≠ sp.outgoing from h2)]; rfl
  · intro e
    rcases hrun with k | k
    · exact absurd e (k r)
    · exact k q

theorem hold_setSpliceState (n m : Nat) (y : SpliceState) (s : State) : (setSpliceState n y s).hold m =
    if m = n then (s.hold m).map (fun x => { x with stage := stageOf y }) else s.hold m := by
  rw [setSpliceState, hold_modSplice]
  split
  · next e => rw [e, State.hold, Option.map_map]; rfl
  · rfl

theorem SameReels.setSpliceState {s t : State} (h : SameReels s t) (n : Nat) (y : SpliceState) :
    SameReels (setSpliceState n y s) (setSpliceState n y t) :=
  ⟨h.reels, h.active, fun st m ha => by rw [hold_setSpliceState, hold_setSpliceState, h.hold st m ha]⟩

/-- The splice stays active, past its hold: what comes between leaves the view of the reels. -/
theorem State.Sound.passes {s b t : State} (h : s.Sound) {st : StandIx} {n : Nat} {sp : Splice} (hf : s.Follows st n sp)
    (hs : stageOf sp.state ≠ .past) {f g : Reel → Reel} {y : SpliceState} (hy : stageOf y = .past)
    (hb : SameReels ((s.modReel sp.outgoing g).modReel sp.incoming f) b) (ht : SameReels (setSpliceState n y b) t)
    (hin : ∀ r, s.reel? sp.incoming = some r → r.view.Right → r.loc ≠ none → Frees f r)
    (hout : ∀ r, s.reel? sp.outgoing = some r → r.view.Right → r.reservedBy = none → r.loc ≠ none → Frees g r)
    (hrun : (∀ r, (f r).state ≠ .running) ∨ ∀ r, (g r).state ≠ .running) : ReelsOrdered t := by
  refine ReelsOrdered.of_same ?_ ((hb.setSpliceState n y).trans ht)
  refine h.lets_go hf hs rfl hin hout hrun (fun _ => Or.inl rfl) (fun _ m _ hm => ?_) (fun _ x hx => ?_)
  · exact (hold_setSpliceState n m y _).trans (if_neg hm)
  · rw [hold_setSpliceState, if_pos rfl] at hx
    obtain ⟨_, _, rfl⟩ := Option.map_eq_some_iff.1 hx
    exact hy

/-- The splice stays active, past its hold, its reel given back. -/
theorem State.Sound.passes_back {s b t : State} (h : s.Sound) {st : StandIx} {n : Nat} {sp : Splice} (hf : s.Follows st n sp)
    (hs : stageOf sp.state ≠ .past) {used : Bool} {y : SpliceState} (hy : stageOf y = .past) {g : Reel → Reel}
    (hb : SameReels (giveBack st used sp.incoming (s.modReel sp.outgoing g)) b) (ht : SameReels (setSpliceState n y b) t)
    (hout : ∀ r, s.reel? sp.outgoing = some r → r.view.Right → r.reservedBy = none → r.loc ≠ none → Frees g r) :
    ReelsOrdered t :=
  h.passes hf hs hy hb ht (fun _ _ k l => frees_givenBack _ _ used k l) hout (Or.inl (givenBack_not_running _ _ used))

theorem modReel_id (s : State) (k : Nat) : s.modReel k id = s := by simp [State.modReel, update_id]

theorem frees_id {r : Reel} (h : r.view.Right) (hn : r.reservedBy = none) : Frees id r := ⟨h, rfl, rfl, hn⟩

/-- The splice ends. -/
theorem State.Sound.ends {s t : State} (h : s.Sound) {st : StandIx} {n : Nat} {sp : Splice} (hf : s.Follows st n sp)
    (hs : stageOf sp.state ≠ .past) {plan : PlanEntry} {p : Profile} {used : Bool}
    (hr : t.reels = Table.update sp.incoming (givenBack plan p used) s.reels)
    (ha : ∀ i, (t.work i).active = if i = st then none else (s.work i).active)
    (hh : ∀ m, m ≠ n → t.hold m = s.hold m) : ReelsOrdered t := by
  refine h.lets_go hf hs (f := givenBack plan p used) (g := id) (by rw [hr, update_id])
    (fun r _ k l => frees_givenBack plan p used k l) (fun r _ k l _ => frees_id k l)
    (Or.inl (givenBack_not_running plan p used)) (fun i => ?_) (fun _ m _ hm => hh m hm) (fun k => ?_)
  · rw [ha]
    split
    · next e => exact Or.inr ⟨e, rfl⟩
    · exact Or.inl rfl
  · rw [ha, if_pos rfl] at k; cases k

theorem hold_endSplice_ne (st : StandIx) {n m : Nat} (x : SpliceState) (c : Condition) (s : State) (h : m ≠ n) :
    (endSplice st n x c s).hold m = s.hold m :=
  (hold_modSplice (raise st c s) n m _).trans (if_neg h)

theorem reels_endSplice (st : StandIx) (n : Nat) (x : SpliceState) (c : Condition) (s : State) :
    (endSplice st n x c s).reels = s.reels := by simp [endSplice]

theorem active_endSplice_eq (st i : StandIx) (n : Nat) (x : SpliceState) (c : Condition) (s : State) :
    ((endSplice st n x c s).work i).active = if i = st then none else (s.work i).active := by
  split
  · next e => subst e; exact active_endSplice i n x c s
  · next e => simp [endSplice, e]

/-- The active splice ends, its reel given back: the order that `immediateAbort` and `failCommit` leave. -/
theorem ordered_giveBack_endSplice {s : State} (h : s.Sound) {st : StandIx} {n : Nat} {sp : Splice} (hf : s.Follows st n sp)
    (hs : stageOf sp.state ≠ .past) (used : Bool) (x : SpliceState) (c : Condition) :
    ReelsOrdered (giveBack st used sp.incoming (endSplice st n x c s)) := by
  rw [giveBack_eq]
  exact h.ends hf hs (by rw [State.modReel, reels_endSplice]) (fun i => active_endSplice_eq st i n x c s)
    (fun m hm => hold_endSplice_ne st x c s hm)

/-- A splice past its hold ends. -/
theorem sound_endSplice {s : State} (h : s.Sound) {st : StandIx} {n : Nat} {sp : Splice} (hf : s.Follows st n sp)
    (hs : stageOf sp.state = .past) (x : SpliceState) (hx : isEnded x = true) (c : Condition) : (endSplice st n x c s).Sound := by
  obtain ⟨v, hv, h1, _⟩ := hf.holds
  refine ⟨disciplined_endSplice h.disciplined hv ?_ ?_ x hx c, h.ordered.ended hf.active hf.hold hs
    (fun i => by rw [State.reelView, State.reel?, reels_endSplice]; rfl) (fun i => active_endSplice_eq st i n x c s)
    (fun i m hi hm => hold_endSplice_ne st x c s ?_)⟩
  · rw [h1]; revert hs; cases sp.state <;> decide
  · rw [h1]; revert hs; cases sp.state <;> decide
  · rintro rfl
    exact hi (h.disciplined.active_unique hm hf.active)

/-! ### Giving up and spin-down (R85, R87) -/

theorem sameReels_enterSpindown (st : StandIx) (n : Nat) (o : SpinOutcome) (s : State) :
    SameReels (setSpliceState n .spindown s) (enterSpindown st n o s) := sameReels_modWork _ st _ rfl

theorem sound_immediateAbort {s : State} (h : s.Sound) {st : StandIx} {n : Nat} {sp : Splice} (hf : s.Follows st n sp)
    (ha : sp.state = .armed) (cause : EndCause) : (immediateAbort st n sp cause s).Sound := by
  obtain ⟨v, hv, h1, _⟩ := hf.holds
  have k := still_setCause n cause s
  have ho := ordered_giveBack_endSplice (k.sound h) (hf.still k) (by rw [ha]; decide) false .aborted .spliceVoid
  have hd := disciplined_endSplice (k.quiet.disciplined h.disciplined) (hv.quiet k.quiet) (by rw [h1, ha]; rfl)
    (by rw [h1, ha]; decide) .aborted rfl .spliceVoid
  exact (still_evalRisk st _).sound (sound_retire ⟨(quiet_giveBack st false sp.incoming _).disciplined hd, ho⟩ n)

theorem sound_abortToSpindown {s : State} (h : s.Sound) {st : StandIx} {n : Nat} {sp : Splice} (hf : s.Follows st n sp)
    (hs : stageOf sp.state ≠ .past) (cause : EndCause) : (abortToSpindown st n sp cause s).Sound := by
  obtain ⟨v, hv, h1, h2⟩ := hf.holds
  have k := still_setCause n cause s
  refine ⟨disciplined_abortToSpindown h.disciplined hv h1 h2 cause, ?_⟩
  exact (k.sound h).passes_back (hf.still k) hs rfl (by rw [modReel_id]; exact sameReels_leaveArbiter st sp _)
    (sameReels_enterSpindown st n _ _) (fun _ _ k l _ => frees_id k l)

theorem sound_giveUp {s : State} (h : s.Sound) {st : StandIx} {n : Nat} {sp : Splice} (hf : s.Follows st n sp)
    (cause : EndCause) : (giveUp st n sp cause s).Sound := by
  unfold giveUp
  split
  · next e => exact sound_immediateAbort h hf e cause
  all_goals first
    | exact h
    | next e => exact sound_abortToSpindown h hf (by rw [e]; decide) cause

theorem sound_endSpindown {s : State} (h : s.Sound) {st : StandIx} {n : Nat} {sp : Splice} (hf : s.Follows st n sp)
    (hs : sp.state = .spindown) : (endSpindown st n s).Sound := by
  have k := still_modWork s st (fun w => { w with driveEn := false, demand := 0, quietTimer := none, stopTimer := none }) rfl rfl
  exact sound_afterEnd (sound_endSplice (k.sound h) (hf.still k) (by rw [hs]; rfl) _
    (by cases (s.work st).outcome.getD .aborted <;> rfl) .spliceVoid) st n

end Sys2Proof.Machine
end

section
/-! The order of the reel records through the splice sequence: commit, triggers, arming, paste, web end, indexing and the counts. -/

namespace Sys2Proof.Machine

theorem reelView_modReel (s : State) (k i : Nat) (f : Reel → Reel) : (s.modReel k f).reelView i =
    if i = k then (s.reel? k).map (fun r => (f r).view) else s.reelView i := by
  split
  · next e => subst e; simp [State.reelView, Function.comp_def]
  · next e => simp [State.reelView, reel?_modReel_ne s f e]

/-! ### Commit and triggers (R66, R75, R78, R83) -/

theorem sound_failCommit {s : State} (h : s.Sound) {st : StandIx} {n : Nat} {sp : Splice} (hf : s.Follows st n sp)
    (ha : sp.state = .armed) : (failCommit st n sp s).Sound := by
  have k := (still_setCause n .paramConflict s).trans (still_raise st .paramConflict _ (none, none))
  obtain ⟨v, hv, h1, _⟩ := (hf.still k).holds
  have hd := disciplined_endSplice (k.sound h).disciplined hv (by rw [h1, ha]; rfl) (by rw [h1, ha]; decide) .aborted rfl .spliceVoid
  have ho := ordered_giveBack_endSplice (k.sound h) (hf.still k) (by rw [ha]; decide) false .aborted .spliceVoid
  exact sound_afterEnd ((still_handOn st s _).sound ⟨(quiet_giveBack st false sp.incoming _).disciplined hd, ho⟩) st n

theorem sound_succeedCommit {s : State} (h : s.Sound) {st : StandIx} {n : Nat} {sp : Splice} (hf : s.Follows st n sp)
    (ha : sp.state = .armed) (off : Int) : (succeedCommit st n sp off s).Sound := by
  obtain ⟨w, hw, h1, _⟩ := hf.holds
  refine ⟨disciplined_succeedCommit h.disciplined hw (h1.trans ha) off, ?_⟩
  obtain ⟨r, hr, _, _, _, _⟩ := h.incoming hf (by rw [ha]; decide)
  unfold succeedCommit
  dsimp only
  refine ReelsOrdered.of_same ?_ ((sameReels_modWork _ st _ rfl).trans ((still_handOn st s _).same.trans (still_evalRisk st _).same))
  refine h.ordered.commits hf.active (fun i hi => h.disciplined.active_unique hi hf.active) hf.hold
    (by rw [Splice.hold, ha]; rfl) (reelView_of_reel? hr) ?_ (fun i => ?_) (fun _ => rfl) (fun i m _ hm => ?_)
  · obtain ⟨x, hx, e⟩ := hold_eq_some.1 hf.hold
    rw [hold_modSplice, if_pos rfl, show (s.modReel sp.incoming _).splice? n = some x from hx, ← e]
    rfl
  · refine (reelView_modReel s sp.incoming i _).trans ?_
    rw [hr]; rfl
  · exact (hold_modSplice _ n m _).trans (if_neg hm)

theorem sound_commit {s : State} (h : s.Sound) {st : StandIx} {n : Nat} {sp : Splice} (hf : s.Follows st n sp)
    (ha : sp.state = .armed) : (commit st n sp s).Sound := by
  have k := still_resolveSplice st n sp s
  unfold commit
  dsimp only
  split
  · exact sound_succeedCommit (k.sound h) (hf.still k) ha _
  · exact sound_failCommit (k.sound h) (hf.still k) ha

theorem sound_judgeStart {s : State} (h : s.Sound) (p : Bool) (st : StandIx) : (judgeStart p st s).Sound := by
  unfold judgeStart
  split
  · next n sp hs =>
    split
    · next hc => exact sound_commit h (.of_active hs) hc.1
    · exact h
  · exact h

/-- A change of state within one stage. -/
theorem State.Follows.sameReels_setSpliceState {s : State} {st : StandIx} {n : Nat} {sp : Splice} (hf : s.Follows st n sp)
    {x : SpliceState} (hx : stageOf x = stageOf sp.state) : SameReels s (setSpliceState n x s) := by
  refine Sys2Proof.Machine.sameReels_setSpliceState n x s (fun sp' e => ?_)
  have := hold_of_splice? e
  rw [hf.hold] at this
  rw [hx]
  exact (congrArg SpliceHold.stage (Option.some.inj this)).symm

theorem sound_enterWaiting {s : State} (h : s.Sound) {st : StandIx} {n : Nat} {sp : Splice} (hf : s.Follows st n sp)
    (hs : sp.state = .matched) : (enterWaiting st n sp s).Sound := by
  obtain ⟨v, hv, h1, h2⟩ := hf.holds
  refine h.of_same (disciplined_enterWaiting h.disciplined hv (h1.trans hs) h2) ?_
  unfold enterWaiting
  split
  · exact ((hf.sameReels_setSpliceState (by rw [hs]; rfl)).trans (sameReels_modWork _ st _ rfl)).trans
      ((sameReels_modFolder _ _ _).trans (still_grantOccasion _ _).same)
  · exact SameReels.refl s

theorem sound_judgeWaiting {s : State} (h : s.Sound) (st : StandIx) : (judgeWaiting st s).Sound := by
  unfold judgeWaiting
  split
  · next n sp hs =>
    (repeat' split)
    · next hc => exact sound_enterWaiting h (.of_active hs) hc.1
    all_goals exact h
  · exact h

theorem sound_diameterChanged {s : State} (h : s.Sound) (st : StandIx) : (diameterChanged st s).Sound := by
  have k := sound_judgeWaiting (sound_judgeStart ((still_evalReelCall st s).sound h) false st) st
  exact (still_evalRisk st _).sound (Still.sound ⟨quiet_refreshMargin k.disciplined st, sameReels_refreshMargin st _⟩ k)

/-! ### Arming (R53, R63, R64) -/

/-- No handle twice in the Reel Table (R13). -/
abbrev State.HandlesOnce (s : State) : Prop := (s.reels.map Prod.fst).Nodup

theorem loc_of_reelOn {s : State} {st : StandIx} {a : Arm} {x : Nat × Reel} (h : s.reelOn st a = some x) :
    x.2.loc = some (st, a) := by simpa using List.find?_some h

theorem readyAtSplice_spec {s : State} {st : StandIx} {x : Nat × Reel} (h : s.readyAtSplice st = some x) :
    x ∈ s.reels ∧ x.2.state = .ready ∧ x.2.reservedBy = none ∧ onStand st x.2 = true := by
  unfold State.readyAtSplice at h
  split at h
  · next k r hat =>
    split at h
    · next hr =>
      obtain rfl := Option.some.inj h
      refine ⟨mem_of_reelAt hat, hr.1, hr.2, ?_⟩
      unfold State.reelAt at hat
      split at hat
      · next a _ =>
        have hl : r.loc = some (st, a) := loc_of_reelOn hat
        simp [onStand, hl]
      · cases hat
    · cases h
  · cases h

theorem runningReel_spec {s : State} {st : StandIx} {x : Nat × Reel} (h : s.runningReel st = some x) :
    x ∈ s.reels ∧ x.2.state = .running ∧ onStand st x.2 = true := by
  have hp := List.find?_some h
  simp only [Bool.and_eq_true, decide_eq_true_eq] at hp
  exact ⟨List.mem_of_find?_eq_some h, hp⟩

theorem ordered_allocate {s : State} (h : ReelsOrdered s) (hk : s.HandlesOnce) {st : StandIx} (hidle : (s.work st).active = none)
    (hroom : s.splices.length < 32) (hd : s.Disciplined) (o : Origin) (tr : Trigger) (x : Params (Option Int)) (c : Bool) :
    ReelsOrdered (allocate st o tr x c s) := by
  unfold allocate
  split
  · next out ro inc ri hrun hready =>
    obtain ⟨m1, s1, o1⟩ := runningReel_spec hrun
    obtain ⟨m2, s2, n2, o2⟩ := readyAtSplice_spec hready
    have e1 : s.reel? out = some ro := find_of_mem hk m1
    have e2 : s.reel? inc = some ri := find_of_mem hk m2
    dsimp only
    have hfree := find_freeNumber (t := s.splices) (by omega) s.nextSplice
    generalize freeNumber s.splices 33 s.nextSplice = n at hfree
    refine h.armed hidle (n := n) (x := ⟨inc, out, .armed⟩) ?_ rfl (reelView_of_reel? e2) s2 n2 o2 (reelView_of_reel? e1) s1 o1
      (fun i => ?_) (fun i => ?_) (fun i m hm => ?_)
    · show (Table.find n (Table.insert n _ s.splices)).map Splice.hold = _
      rw [find_insert _ _ _ _ hfree, if_pos rfl]; rfl
    · refine (reelView_modReel _ inc i _).trans ?_
      show (if i = inc then (s.reel? inc).map _ else s.reelView i) = _
      rw [e2]; rfl
    · split
      · next e => subst e; simp
      · next e => simp [e]; rfl
    · obtain ⟨sp, e, _⟩ := hd.active i m hm
      have hmn : m ≠ n := by
        rintro rfl
        rw [State.splice?, hfree] at e; cases e
      show (Table.find m (Table.insert n _ s.splices)).map Splice.hold = _
      rw [find_insert _ _ _ _ hfree, if_neg hmn]; rfl
  · exact h

theorem sound_arm {s : State} (h : s.Sound) (hk : s.HandlesOnce) {st : StandIx} (hidle : (s.work st).active = none)
    (hroom : s.splices.length < 32) (o : Origin) (tr : Trigger) (x : Params (Option Int)) (c : Bool) :
    (arm st o tr x c s).Sound :=
  sound_judgeStart ((still_handOn st s _).sound ⟨disciplined_allocate h.disciplined hidle hroom o tr x c,
    ordered_allocate h.ordered hk hidle hroom h.disciplined o tr x c⟩) false st

theorem sound_autoArm {s : State} (h : s.Sound) (hk : s.HandlesOnce) (st : StandIx) : (autoArm st s).Sound := by
  unfold autoArm
  split
  · next hf =>
    obtain ⟨hidle, hroom⟩ := armFault_none hf
    have k := still_modSeq s st (fun q => { q with chainBlocked := false }) rfl
    exact sound_arm (k.sound h) hk ((k.same.active st).trans hidle) hroom _ _ _ _
  · exact (still_chainBlocked st s).sound h
  · exact (still_chainBlocked st s).sound h
  all_goals exact h

/-! ### The paste and the web end (R94 to R101) -/

/-- The slot of a splice's folder, if it has one, is released. -/
def leaveSlot (sp : Splice) (s : State) : State :=
  match sp.folder with
  | some f => releaseSlot f s
  | none => s

theorem sameReels_leaveSlot (sp : Splice) (s : State) : SameReels s (leaveSlot sp s) := by
  unfold leaveSlot
  split
  · exact sameReels_releaseSlot _ s
  · exact SameReels.refl s

/-- Marks are purged, or not: the splice goes on. -/
theorem sound_purge_if {s : State} (h : s.Sound) {st : StandIx} {n : Nat} {sp : Splice} (hf : s.Follows st n sp)
    (he : isEnded sp.state = false) (b : Bool) (test : Nat → Splice → Bool) :
    (if b = true then purge test s else s).Sound ∧ (if b = true then purge test s else s).Follows st n sp := by
  split
  · exact ⟨sound_purge h test, hf.purge h.disciplined he test⟩
  · exact ⟨h, hf⟩

theorem sound_failPaste {s : State} (h : s.Sound) {st : StandIx} {n : Nat} {sp : Splice} (hf : s.Follows st n sp)
    (hs : sp.state = .pasting) : (failPaste st n sp s).Sound := by
  obtain ⟨v, hv, h1, h2⟩ := hf.holds
  refine ⟨disciplined_failPaste h.disciplined hv (h1.trans hs) h2, ?_⟩
  have k := (still_releasePaster st s).trans (still_modWork _ st (fun w => { w with confirmTimer := none }) rfl rfl)
  obtain ⟨hp, hpf⟩ := sound_purge_if (k.sound h) (hf.still k) (by rw [hs]; rfl) (s.work st).markPlaced (fun k _ => decide (k = n))
  exact hp.passes_back hpf (by rw [hs]; decide) rfl
    (by rw [modReel_id]; exact (still_noteSplice n .pasteUsed _).same.trans (sameReels_leaveSlot sp _))
    ((sameReels_enterSpindown st n _ _).trans ((still_handOn st s _).same.trans (still_evalRisk st _).same))
    (fun _ _ k l _ => frees_id k l)

theorem sound_pasteNotConfirmed {s : State} (h : s.Sound) {st : StandIx} {n : Nat} {sp : Splice} (hf : s.Follows st n sp)
    (hs : sp.state = .pasting) : (pasteNotConfirmed st n sp s).Sound := by
  have k := (still_setCause n .pasteNotConfirmed s).trans (still_raise st .pasteNotConfirmed _ (none, none))
  exact sound_failPaste (k.sound h) (hf.still k) hs

theorem frees_toButt {r : Reel} (h : r.view.Right) (hn : r.reservedBy = none) : Frees toButt r := ⟨right_toButt h, rfl, rfl, hn⟩

theorem toButt_not_running (r : Reel) : (toButt r).state ≠ .running := nofun

/-- Whether the slot is released before the reels change or not, their view is the same. -/
theorem sameReels_giveBack_leaveSlot (st : StandIx) (sp : Splice) (used : Bool) (s : State) :
    SameReels (giveBack st used sp.incoming (s.modReel sp.outgoing toButt))
      (giveBack st used sp.incoming ((leaveSlot sp s).modReel sp.outgoing toButt)) := by
  unfold leaveSlot
  split
  · exact sameReels_of_eq rfl rfl (fun _ => rfl)
  · exact SameReels.refl _

theorem sound_notCarried {s : State} (h : s.Sound) {st : StandIx} {n : Nat} {sp : Splice} (hf : s.Follows st n sp)
    (hs : sp.state = .cutting) : (notCarried st n sp s).Sound := by
  obtain ⟨v, hv, h1, h2⟩ := hf.holds
  refine ⟨disciplined_notCarried h.disciplined hv (h1.trans hs) h2, ?_⟩
  have k := ((((still_setCause n .spliceNotCarried s).trans (still_raise st .spliceNotCarried _ (none, none))).trans
    (still_releasePaster st _)).trans (still_releaseKnife st _)).trans
    (still_modSeq _ st (fun q => { q with webBroken := true }) rfl)
  have hp := sound_purge (k.sound h) (fun _ sp => decide (sp.stand = st))
  have hpf := (hf.still k).purge (k.sound h).disciplined (by rw [hs]; rfl) (fun _ sp => decide (sp.stand = st))
  refine hp.passes_back hpf (by rw [hs]; decide) (used := true) (y := .spindown) rfl ?_ ((sameReels_enterSpindown st n _ _).trans
    ((still_handOn st s _).same.trans (still_evalRisk st _).same)) (fun _ _ k l _ => frees_toButt k l)
  exact (sameReels_giveBack_leaveSlot st sp true _).trans ((((still_noteSplice n .pasteUsed _).trans
    (still_copyResiduals n sp.outgoing _)).trans (still_modGauge _ st (fun g => { g.afresh with riskRaised := false }))).trans
    (still_startBraking st _ _)).same

/-- The incoming reel runs (R100). -/
def startsRunning (now : Stamp) (r : Reel) : Reel :=
  { r with state := .running, reservedBy := none, reasons := [], runningSince := some now }

theorem frees_startsRunning (now : Stamp) {r : Reel} (h : r.view.Right) (hl : r.loc ≠ none) : Frees (startsRunning now) r :=
  ⟨⟨h.paper, h.code, nofun, fun _ => hl, by simp [startsRunning, Reel.view], nofun⟩, rfl, rfl, rfl⟩

theorem sound_webEnd {s : State} (h : s.Sound) {st : StandIx} {n : Nat} {sp : Splice} (hf : s.Follows st n sp)
    (hs : sp.state = .cutting) : (webEnd st n sp s).Sound := by
  obtain ⟨v, hv, h1, h2⟩ := hf.holds
  refine ⟨disciplined_webEnd h.disciplined hv (h1.trans hs) h2, ?_⟩
  have k := still_releaseKnife st s
  refine (k.sound h).passes (hf.still k) (by rw [hs]; decide) (y := .braking) rfl (f := startsRunning s.now) (g := toButt)
    ?_ ((still_handOn st s _).same.trans (still_evalRisk st _).same) (fun _ _ k l => frees_startsRunning _ k l)
    (fun _ _ k l _ => frees_toButt k l) (Or.inr toButt_not_running)
  refine SameReels.trans ?_ ((still_modGauge _ st (fun g => { g.afresh with riskRaised := false })).trans
    ((still_evalRisk st _).trans (still_startBraking st _ _))).same
  refine SameReels.trans ?_ (sameReels_leaveSlot sp _)
  exact ((still_copyResiduals n sp.outgoing _).trans ((still_raise st .webEnd _ _).trans ((still_releasePaster st _).trans
    (still_modWork _ st (fun w => { w with driveEn := false, demand := 0 }) rfl rfl)))).same

theorem sound_firePoint {s : State} (h : s.Sound) {st : StandIx} {n : Nat} {sp : Splice} (hf : s.Follows st n sp)
    (hs : sp.state = .firing) : (firePoint st n s).Sound := by
  obtain ⟨v, hv, h1, _⟩ := hf.holds
  refine h.of_same (disciplined_firePoint h.disciplined hv (h1.trans hs)) ?_
  have k := (still_energisePaster st s).trans (still_modWork _ st (fun w =>
    { w with
      confirmed := s.isActive st .pasterEngaged
      confirmTimer := if s.isActive st .pasterEngaged then none else some ((s.stand st).profile.settings.pasterLead + 80)
      revolution := none }) rfl rfl)
  exact (k.same.trans ((hf.still k).sameReels_setSpliceState (by rw [hs]; rfl))).trans (still_evalRisk st _).same

theorem sound_pasteFront {s : State} (h : s.Sound) {st : StandIx} {n : Nat} {sp : Splice} (hf : s.Follows st n sp)
    (hs : sp.state = .pasting) (hno : (s.work st).markPlaced = false) : (pasteFront st n sp s).Sound := by
  obtain ⟨v, hv, h1, h2⟩ := hf.holds
  refine h.of_same (disciplined_pasteFront h.disciplined hv (h1.trans hs) hno h2) ?_
  unfold pasteFront
  dsimp only
  have k := (sameReels_modSplice s n (fun x => { x with
    pasted := some s.now
    mark := { state := .onTrack, path := some (s.stand st).plan.path, remaining := some ((s.stand st).plan.path : Int),
              waste := 0 } }) (fun _ _ => rfl)).trans (sameReels_modWork _ st (fun w => { w with markPlaced := true }) rfl)
  split
  · exact k.trans ((sameReels_modFolder _ _ _).trans (still_grantOccasion _ _).same)
  · exact k

theorem sound_knifePoint {s : State} (h : s.Sound) {st : StandIx} {n : Nat} {sp : Splice} (hf : s.Follows st n sp)
    (hs : sp.state = .pasting) : (knifePoint st n sp s).Sound := by
  have k := (still_energiseKnife st s).trans (still_modWork _ st (fun w =>
    { w with carryDistance := some (s.stand st).profile.settings.carry, carryCount := 0 }) rfl rfl)
  obtain ⟨v, hv, h1, h2⟩ := (hf.still k).holds
  have e := (hf.still k).sameReels_setSpliceState (x := .cutting) (by rw [hs]; rfl)
  have hc : (setSpliceState n .cutting ((energiseKnife st s).modWork st (fun w =>
      { w with carryDistance := some (s.stand st).profile.settings.carry, carryCount := 0 }))).Sound :=
    (k.sound h).of_same (disciplined_setSpliceState (k.sound h).disciplined hv.view .cutting rfl (by rw [h1, hs]; rfl)
      (by rw [h1, hs]; decide) nofun nofun) e
  have hfc : (setSpliceState n .cutting ((energiseKnife st s).modWork st (fun w =>
      { w with carryDistance := some (s.stand st).profile.settings.carry, carryCount := 0 }))).Follows st n
      { sp with state := .cutting } := by
    refine ⟨(e.active st).trans hv.active, ⟨{ v with state := .cutting }, ?_, rfl, h2⟩, ?_⟩
    · rw [viewOf_setSpliceState, if_pos rfl, hv.view]; rfl
    · rw [e.hold st n hv.active, (hf.still k).hold]
      simp [Splice.hold, hs, stageOf]
  have kr := still_evalRisk st (setSpliceState n .cutting ((energiseKnife st s).modWork st (fun w =>
      { w with carryDistance := some (s.stand st).profile.settings.carry, carryCount := 0 })))
  unfold knifePoint
  dsimp only
  split
  · exact kr.sound hc
  · have kw := kr.trans (still_modField _ st Field.takeWebLoss)
    exact sound_notCarried (kw.sound hc) (hfc.still kw) rfl

theorem sound_judgePoints {s : State} (h : s.Sound) (st : StandIx) : (judgePoints st s).Sound := by
  have h1 : (judgeFirePoint st s).Sound := by
    unfold judgeFirePoint
    split
    · next n sp hs =>
      split
      · next hc => exact sound_firePoint h (.of_active hs) hc.1
      · exact h
    · exact h
  have h2 : (judgeFront st (judgeFirePoint st s)).Sound := by
    unfold judgeFront
    split
    · next n sp hs =>
      split
      · next hc => exact sound_pasteFront h1 (.of_active hs) hc.1 hc.2.1
      · exact h1
    · exact h1
  unfold judgePoints judgeKnifePoint
  split
  · next n sp hs =>
    split
    · next hc =>
      split
      · exact sound_knifePoint h2 (.of_active hs) hc.1
      · exact sound_pasteNotConfirmed h2 (.of_active hs) hc.1
    · exact h2
  · exact h2

/-! ### Braking, indexing and the stand end (R102 to R104) -/

theorem sound_standEnd {s : State} (h : s.Sound) {st : StandIx} {n : Nat} {sp : Splice} (hf : s.Follows st n sp)
    (hs : stageOf sp.state = .past) (cause : EndCause) : (standEnd st n cause s).Sound := by
  have k := (still_setCause n cause s).trans
    (still_modWork _ st (fun w => { w with indexReq := false, indexTimer := none }) rfl rfl)
  exact sound_afterEnd ((still_chainOccasion st _).sound (sound_endSplice (k.sound h) (hf.still k) hs .completed rfl .standEnd)) st n

theorem sound_enterIndexing {s : State} (h : s.Sound) {st : StandIx} {n : Nat} {sp : Splice} (hf : s.Follows st n sp)
    (hs : sp.state = .braking) : (enterIndexing st n s).Sound := by
  obtain ⟨v, hv, h1, h2⟩ := hf.holds
  have e := hf.sameReels_setSpliceState (x := .indexing) (by rw [hs]; rfl)
  have ht : (setSpliceState n .indexing s).Sound := h.of_same (disciplined_setSpliceState h.disciplined hv.view .indexing rfl
    (by rw [h1, hs]; rfl) (by rw [h1, hs]; decide) nofun nofun) e
  have hft : (setSpliceState n .indexing s).Follows st n { sp with state := .indexing } := by
    refine ⟨(e.active st).trans hf.active, ⟨{ v with state := .indexing }, ?_, rfl, h2⟩, ?_⟩
    · rw [viewOf_setSpliceState, if_pos rfl, hv.view]; rfl
    · rw [e.hold st n hf.active, hf.hold]
      simp [Splice.hold, hs, stageOf]
  have hwait : (updateIndexReq st (if (setSpliceState n .indexing s).isInactive st .safetyGate then
      gateFoundOpen st (setSpliceState n .indexing s) else setSpliceState n .indexing s)).Sound := by
    refine (still_updateIndexReq st _).sound ?_
    split
    · exact (still_gateFoundOpen st _).sound ht
    · exact ht
  have helse : (standEnd st n .starSettledElsewhere (raise st .starMoved (setSpliceState n .indexing s))).Sound := by
    have k := still_raise st .starMoved (setSpliceState n .indexing s) (none, none)
    exact sound_standEnd (k.sound ht) (hft.still k) rfl _
  unfold enterIndexing
  dsimp only
  generalize updateIndexReq st _ = w at hwait ⊢
  (repeat' split)
  · exact sound_standEnd ht hft rfl _
  · exact hwait
  · exact helse
  · exact helse
  · exact hwait
  · exact hwait

theorem sound_endBraking {s : State} (h : s.Sound) {st : StandIx} {n : Nat} {sp : Splice} (hf : s.Follows st n sp)
    (hs : sp.state = .braking) : (endBraking st n s).Sound := by
  have k := (still_releaseBrake st s).trans (still_modWork _ st (fun w => { w with stopTimer := none, revQuietTimer := none }) rfl rfl)
  exact sound_enterIndexing (k.sound h) (hf.still k) hs

end Sys2Proof.Machine
end

section
/-! The order of the reel records under the counts, the pulses and the accepted changes of the inputs. -/

namespace Sys2Proof.Machine

/-! ### Counts and pulses (R38 to R42, R80, R81, R92, R100, R124) -/

theorem sound_runMarkLost {s : State} (h : s.Sound) (st : StandIx) : (runMarkLost st s).Sound := by
  have k := (still_raise st .runMarkLost s (none, none)).trans (still_dropRunningDiameter st _)
  exact (still_modGauge _ st _).sound (sound_diameterChanged (k.sound h) st)

theorem sound_gaugeWebCount {s : State} (h : s.Sound) (st : StandIx) (d : Direction) : (gaugeWebCount st d s).Sound := by
  unfold gaugeWebCount
  dsimp only
  split
  · exact sound_runMarkLost (((still_modGauge s st _).trans (still_modGauge _ st _)).sound h) st
  · exact (still_modGauge s st _).sound h

theorem sound_carryCheck {s : State} (h : s.Sound) (st : StandIx) : (carryCheck st s).Sound := by
  unfold carryCheck
  split
  · next n sp hs =>
    (repeat' split)
    · next hc => exact sound_webEnd h (.of_active hs) hc.1
    all_goals exact h
  · exact h

theorem sound_trackWebCount {s : State} (h : s.Sound) (st : StandIx) (d : Direction) : (trackWebCount st d s).Sound :=
  h.of_keepsHolds (disciplined_trackWebCount h.disciplined st d) (keepsHolds_trackWebCount st d s)

theorem still_restartQuiet (st : StandIx) (s : State) : Still s (restartQuiet st s) := by
  unfold restartQuiet
  split
  · exact still_modWork s st _ rfl rfl
  · exact Still.refl s

theorem sound_enterMatched {s : State} (h : s.Sound) {st : StandIx} {n : Nat} {sp : Splice} (hf : s.Follows st n sp)
    (hs : sp.state = .accel) (g : Int) : (enterMatched st n sp g s).Sound := by
  obtain ⟨v, hv, h1, _⟩ := hf.holds
  have hm : (setSpliceState n .matched s).Sound := h.of_same (disciplined_setSpliceState h.disciplined hv.view .matched rfl
    (by rw [h1, hs]; rfl) (by rw [h1, hs]; decide) (fun _ => by rw [h1, hs]; rfl) nofun)
    (hf.sameReels_setSpliceState (by rw [hs]; rfl))
  have k := (still_modWork (setSpliceState n .matched s) st (fun w => { w with goodCount := 3, accelTimer := none }) rfl rfl).trans
    (still_setGirth sp.incoming g _)
  exact sound_judgeWaiting (k.sound hm) st

/-- A MATCHED splice falls back to ACCEL (R81). -/
theorem sound_fallsBack {s : State} (h : s.Sound) {st : StandIx} {n : Nat} {sp : Splice} (hf : s.Follows st n sp)
    (hs : sp.state = .matched) : (setSpliceState n .accel s).Sound := by
  obtain ⟨v, hv, h1, _⟩ := hf.holds
  exact h.of_same (disciplined_setSpliceState h.disciplined hv.view .accel rfl (by rw [h1, hs]; rfl) (by rw [h1, hs]; decide)
    (fun _ => by rw [h1, hs]; rfl) nofun) (hf.sameReels_setSpliceState (by rw [hs]; rfl))

theorem sound_afterRevolution {s : State} (h : s.Sound) {st : StandIx} {n : Nat} {sp : Splice} (hf : s.Follows st n sp)
    (good : Bool) (g : Int) : (afterRevolution st n sp good g s).Sound := by
  have clear := still_modWork s st (fun w => { w with goodCount := 0 }) rfl rfl
  have add := (still_modWork s st (fun w => { w with goodCount := w.goodCount + 1 }) rfl rfl).sound h
  unfold afterRevolution
  dsimp only
  split
  · next e =>
    (repeat' split)
    · exact sound_enterMatched h hf e g
    · exact add
    · exact clear.sound h
  · next e =>
    split
    · exact h
    · exact (still_modWork _ st _ rfl rfl).sound (sound_fallsBack (clear.sound h) (hf.still clear) e)
  · (repeat' split)
    · exact h
    · exact (clear.trans (still_setMatched st sp false _)).sound h
    · exact (still_rematch st sp g s).sound h
    · exact add
    · exact clear.sound h
  all_goals exact h

theorem sound_formRevolution {s : State} (h : s.Sound) {st : StandIx} {n : Nat} {sp : Splice} (hf : s.Follows st n sp)
    (r : Revolution) : (formRevolution st n sp r s).Sound := by
  have k := still_modWork s st (fun w => { w with revolution := some { tach := 0, web := 0 }, keptGirth := some r.tach }) rfl rfl
  unfold formRevolution
  dsimp only
  split
  · split
    · unfold firePulse
      dsimp only
      refine sound_judgePoints ?_ st
      split
      · exact ((k.trans (still_modWork _ st _ rfl rfl)).trans (still_noteSplice n .knifeLate _)).sound h
      · exact (k.trans (still_modWork _ st _ rfl rfl)).sound h
    · exact k.sound h
  · have k2 := k.trans (still_modWork _ st (fun w => { w with prevGirth := some r.tach }) rfl rfl)
    exact sound_afterRevolution (k2.sound h) (hf.still k2) _ _

theorem sound_judgeCandidate {s : State} (h : s.Sound) (st : StandIx) (k : Nat) (r : Reel) (d : Int) :
    (judgeCandidate st k r d s).Sound := by
  have accepted := still_modReel s k (fun r => { r with diameter := some d.toNat }) (fun _ _ => rfl)
  have dropped := (still_raise st .diameterGlitch s (none, none)).trans (still_dropRunningDiameter st _)
  unfold judgeCandidate
  split
  · exact sound_diameterChanged ((accepted.trans (still_modGauge _ st _)).sound h) st
  · split
    · exact sound_diameterChanged ((dropped.trans (still_modGauge _ st _)).sound h) st
    · exact (still_modGauge s st _).sound h

theorem sound_gaugeRevPulse {s : State} (h : s.Sound) (st : StandIx) (a : Arm) : (gaugeRevPulse st a s).Sound := by
  unfold gaugeRevPulse
  dsimp only
  split
  · split
    · split
      · exact (still_modGauge s st _).sound h
      · split
        · exact (still_modGauge s st _).sound h
        · exact sound_judgeCandidate ((still_modGauge s st _).sound h) st _ _ _
    · exact h
  · exact h

theorem still_foldl {α : Type} (g : State → α → State) (hg : ∀ s a, Still s (g s a)) (l : List α) :
    ∀ s : State, Still s (l.foldl g s) := by
  induction l with
  | nil => exact Still.refl
  | cons a l ih => exact fun s => (hg s a).trans (ih _)

/-! ### Acceptance (R133, R134; log 3) -/

theorem still_acceptInput (st : StandIx) (i : Input) (l : Fin 4) (s : State) : Still s (acceptInput st i l s) := still_modField s st _

theorem still_settleIndex (st : StandIx) (i : Input) (s : State) : Still s (settleIndex st i s) := by
  unfold settleIndex
  split
  · exact still_updateIndexReq st s
  · exact Still.refl s

theorem still_sampleInput (st : StandIx) (i : Input) (l : Fin 4) (s : State) : Still s (sampleInput st i l s) := by
  have k := still_acceptInput st i l s
  unfold sampleInput
  dsimp only
  (repeat' split)
  · exact k.trans (still_modField _ st _)
  · exact k.trans (still_settleIndex st i _)
  · exact still_modField s st _

/-- A change taken leaves the reels to its effect. -/
theorem sound_takeChange {s : State} (h : s.Sound) (st : StandIx) (i : Input) (l : Fin 4) {f : State → State}
    (hf : ∀ t : State, t.Sound → t.reels = s.reels → (f t).Sound) : (takeChange st i l f s).Sound := by
  have k := still_acceptInput st i l s
  unfold takeChange
  dsimp only
  (repeat' split)
  · exact hf _ ((still_modField s st _).sound h) rfl
  · exact h
  · exact h
  · exact hf _ (k.sound h) rfl
  · exact (k.trans (still_settleIndex st i _)).sound h

/-! ### The star (R5, R104, R105) -/

theorem still_setStar (st : StandIx) (x : StarIndex) (s : State) : Still s (setStar st x s) := still_modStand s st _ rfl

theorem sound_departure {s : State} (h : s.Sound) (st : StandIx) : (departure st s).Sound := by
  have k := still_raise st .starMoved s (none, none)
  unfold departure
  split
  · exact h
  · next n sp hs =>
    split
    case h_1 | h_2 | h_3 | h_4 | h_5 => exact sound_giveUp (k.sound h) ((State.Follows.of_active hs).still k) .starMoved
    case h_6 | h_7 => exact k.sound h
    all_goals exact h

theorem sound_settling {s : State} (h : s.Sound) (st : StandIx) (j : Arm) : (settling st j s).Sound := by
  have k := still_raise st .starMoved s (none, none)
  unfold settling
  split
  · exact h
  · next n sp hs =>
    have hf := State.Follows.of_active hs
    split
    · next e =>
      split
      · exact sound_standEnd h hf (by rw [e]; rfl) _
      · exact sound_standEnd (k.sound h) (hf.still k) (by rw [e]; rfl) _
    · exact h

theorem sound_starTaken {s : State} (h : s.Sound) (st : StandIx) (code : Fin 4) : (starTaken st code s).Sound := by
  have ht := (still_setStar st (starOf code) s).sound h
  unfold starTaken
  dsimp only
  split
  · exact (still_handOn st _ _).sound (sound_settling (sound_departure ht st) st _)
  · exact (still_handOn st _ _).sound (sound_departure ht st)
  · exact (still_handOn st _ _).sound (sound_settling ht st _)
  · exact (still_handOn st _ _).sound (sound_settling ht st _)
  all_goals exact ht

/-! ### One record changes by itself -/

/-- An unreserved record that is not RUNNING changes by itself, on its arm, on none, or on a free one. -/
theorem ReelsOrdered.revise_one {s : State} (h : ReelsOrdered s) {k : Nat} {r : Reel} {f : Reel → Reel} (hr : s.reel? k = some r)
    (hn : r.reservedBy = none) (hs : r.state ≠ .running) (h1 : (f r).view.Right) (h2 : (f r).code = r.code)
    (h3 : (f r).reservedBy = none) (h4 : (f r).state ≠ .running)
    (hl : ∀ l, (f r).loc = some l → r.loc = some l ∨ ∀ i q, s.reel? i = some q → q.loc ≠ some l) :
    ReelsOrdered (s.modReel k f) := by
  have hk : (s.modReel k f).reelView k = some (f r).view := by rw [reelView_modReel, if_pos rfl, hr]; rfl
  have hne : ∀ i, i ≠ k → (s.modReel k f).reelView i = s.reelView i := fun i e => by rw [reelView_modReel, if_neg e]
  -- what stands on the arm of the changed record is that record
  have own : ∀ j v l, j ≠ k → s.reelView j = some v → v.loc = some l → (f r).loc ≠ some l := by
    intro j v l e hv hvl hfl
    obtain ⟨q, hq, rfl⟩ := reelView_eq_some.1 hv
    rcases hl l hfl with c | c
    · exact e (h.arms j k _ _ l hv (reelView_of_reel? hr) hvl c)
    · exact c j q hq hvl
  refine h.revise (fun i => ?_) (fun i j v w l hv hw hvl hwl => ?_) (fun _ => rfl) (fun _ _ _ => rfl)
  · by_cases e : i = k
    · subst e; exact Or.inr ⟨_, _, reelView_of_reel? hr, hk, h1, h2, hn, h3, hs, h4⟩
    · exact Or.inl (hne i e)
  · by_cases ei : i = k
    · by_cases ej : j = k
      · rw [ei, ej]
      · subst ei; rw [hk] at hv; cases hv
        rw [hne j ej] at hw
        exact absurd hvl (own j w l ej hw hwl)
    · rw [hne i ei] at hv
      by_cases ej : j = k
      · subst ej; rw [hk] at hw; cases hw
        exact absurd hwl (own i v l ei hv hvl)
      · rw [hne j ej] at hw
        exact h.arms i j v w l hv hw hvl hwl

theorem sound_removeReel {s : State} (h : s.Sound) {k : Nat} {r : Reel} (hr : s.reel? k = some r) (hn : r.reservedBy = none)
    (hs : r.state ≠ .running) : (removeReel k s).Sound := by
  have hv := right_toFloor (h.ordered.right k _ (reelView_of_reel? hr))
  exact ⟨(quiet_modReel s k _).disciplined h.disciplined,
    h.ordered.revise_one hr hn hs ⟨hv.paper, hv.code, hv.floor, hv.located, hv.reasons, hv.committed⟩ rfl hn nofun nofun⟩

/-! ### A reel or the web lost (R32, R101, R106) -/

theorem reels_leaveArbiter (st : StandIx) (sp : Splice) (s : State) : (leaveArbiter st sp s).reels = s.reels := by
  unfold leaveArbiter
  (repeat' split)
  · exact reels_leaveWaits _ st s
  · exact reels_releaseSlot _ s
  all_goals rfl

/-- A splice given up before PASTING gives its reel back and changes no other. -/
theorem reels_giveUp (st : StandIx) (n : Nat) (sp : Splice) (c : EndCause) (s : State) (hb : beforePasting sp.state = true) :
    ∃ plan p, (giveUp st n sp c s).reels = Table.update sp.incoming (givenBack plan p false) s.reels := by
  have himmediate : ∃ plan p, (immediateAbort st n sp c s).reels = Table.update sp.incoming (givenBack plan p false) s.reels := by
    refine ⟨((endSplice st n .aborted .spliceVoid (setCause n c s)).stand st).plan,
      ((endSplice st n .aborted .spliceVoid (setCause n c s)).stand st).profile, ?_⟩
    simp only [immediateAbort, reels_evalRisk, reels_retire, giveBack_eq, State.modReel, reels_endSplice, reels_setCause]
  have hspin : ∃ plan p, (abortToSpindown st n sp c s).reels = Table.update sp.incoming (givenBack plan p false) s.reels := by
    refine ⟨((setCause n c s).stand st).plan, ((setCause n c s).stand st).profile, ?_⟩
    simp only [abortToSpindown, enterSpindown, reels_modWork, reels_setSpliceState, reels_leaveArbiter, giveBack_eq, State.modReel,
      reels_setCause]
  unfold giveUp
  revert hb
  cases sp.state with
  | armed => exact fun _ => himmediate
  | accel | matched | waiting | firing => exact fun _ => hspin
  | pasting | cutting | braking | indexing | spindown | completed | aborted | failed => exact nofun

theorem sound_loseReserved {s : State} (h : s.Sound) {st : StandIx} {k n : Nat} {r : Reel} (hr : s.reel? k = some r)
    (hn : r.reservedBy = some n) (hon : onStand st r = true) : (loseReserved st k s).Sound := by
  have kr := still_raise st .reelLost s (none, none)
  unfold loseReserved
  dsimp only
  split
  · exact kr.sound h
  · next m sp hs =>
    have hf := State.Follows.of_active hs
    -- the lost reel is the one that the stand's splice reserves
    have hk : sp.incoming = k := by
      obtain ⟨i, x, ha, hx, hi, on, _⟩ := h.ordered.reserved k _ n (reelView_of_reel? hr) hn
      obtain ⟨a, e⟩ := loc_of_onStand hon
      obtain ⟨b, e'⟩ := loc_of_onStand (r := r) on
      rw [e] at e'; cases e'
      rw [hf.active] at ha; cases ha
      rw [hf.hold] at hx; cases hx
      exact hi
    have hgive : beforePasting sp.state = true →
        (handOn st s (removeReel k (giveUp st m sp .reelLost (raise st .reelLost s)))).Sound := by
      intro hb
      obtain ⟨plan, p, e⟩ := reels_giveUp st m sp .reelLost (raise st .reelLost s) hb
      refine (still_handOn st s _).sound (sound_removeReel (r := givenBack plan p false r) (sound_giveUp (kr.sound h) (hf.still kr) _) ?_ rfl
        (givenBack_not_running plan p false r))
      rw [State.reel?, e, hk, find_update_self]
      exact congrArg (Option.map _) ((reel?_raise st .reelLost s (none, none) k).trans hr)
    split
    case h_1 e | h_2 e | h_3 e | h_4 e | h_5 e => exact hgive (by rw [e]; rfl)
    all_goals exact kr.sound h

theorem sound_reelLost {s : State} (h : s.Sound) (hk : s.HandlesOnce) (st : StandIx) (a : Arm) : (reelLost st a s).Sound := by
  unfold reelLost
  split
  · exact h
  · next k r hon =>
    have hr : s.reel? k = some r := find_of_mem hk (mem_of_reelOn hon)
    have hl : r.loc = some (st, a) := loc_of_reelOn hon
    have hst : onStand st r = true := by simp [onStand, hl]
    have hright := h.ordered.right k _ (reelView_of_reel? hr)
    split
    · next hres =>
      obtain ⟨n, hn⟩ := Option.isSome_iff_exists.1 hres
      exact sound_loseReserved h hr hn hst
    · next hres =>
      have hn : r.reservedBy = none := by simpa using hres
      split
      case h_1 e | h_2 e => exact (still_handOn st s _).sound (sound_removeReel h hr hn (by rw [e]; decide))
      case h_3 e =>
        refine (still_handOn st s _).sound ⟨(quiet_modReel s k _).disciplined h.disciplined,
          h.ordered.revise_one hr hn (by rw [e]; decide) ?_ rfl hn (by simp [e]) nofun⟩
        exact ⟨hright.paper, hright.code, fun _ => rfl, by simp [Reel.view, e], hright.reasons, hright.committed⟩
      case h_4 => exact (still_raise st .reelLost s _).sound h
      case h_5 e => exact absurd hn (hright.committed e)
      case h_6 => exact h

theorem sound_webLost {s : State} (h : s.Sound) (st : StandIx) : (webLost st s).Sound := by
  have k := (still_raise st .webBreak s (none, none)).trans (still_modSeq _ st (fun q => { q with webBroken := true }) rfl)
  have hbreak : (webBreak st s).Sound := by
    have ht := sound_purge (k.sound h) (fun _ sp => decide (sp.stand = st))
    unfold webBreak
    dsimp only
    split
    · exact ht
    · next n sp hs =>
      have hf := State.Follows.of_active hs
      split
      case h_1 | h_2 | h_3 | h_4 | h_5 => exact (still_handOn st s _).sound (sound_giveUp ht hf .webBreak)
      case h_6 e =>
        have kc := still_setCause n .webBreak (purgeStand st ((raise st .webBreak s).modSeq st (fun q => { q with webBroken := true })))
        exact sound_failPaste (kc.sound ht) (hf.still kc) e
      all_goals exact ht
  unfold webLost
  split
  · next n sp hs =>
    split
    · next e => exact sound_notCarried h (.of_active hs) e
    · exact hbreak
  · exact hbreak

end Sys2Proof.Machine
end

section
/-! The order of the reel records under each command, and under a step (EveryStepKeepsTheReelRecords). -/

namespace Sys2Proof.Machine

/-- A command whose outcome, if it completes, has the reel records in order. -/
abbrev OrderedAfter (r : Res) : Prop := ∀ t, r = .next t → ReelsOrdered t

theorem orderedAfter_next {t : State} (h : ReelsOrdered t) : OrderedAfter (.next t) := by
  intro u e
  cases e
  exact h

/-- An event of the running device. -/
theorem orderedAfter_onDevice {f : State → State} {s : State} (h : s.Sound) (hf : ReelsOrdered (f s)) :
    OrderedAfter (onDevice f s) := by
  rcases onDevice_completes f s with e | e <;> rw [e]
  · exact orderedAfter_next h.ordered
  · exact orderedAfter_next hf

/-- A request. -/
theorem orderedAfter_serve {r : Instr} {own : State → Answer × State} {s : State} (h : s.Sound) (hf : ReelsOrdered (own s).2) :
    OrderedAfter (serve r own s) := by
  rcases serve_completes r own s with e | e <;> rw [e]
  · exact orderedAfter_next h.ordered
  · exact orderedAfter_next (hf.of_same (still_deliver r _ _).same)

variable {s : State}

theorem orderedAfter_readsOnly (h : s.Sound) {c : Instr} (hc : readsOnly c = true) : OrderedAfter (exec c s) := by
  rcases exec_readsOnly hc s with e | ⟨a, e⟩ <;> rw [e]
  · exact orderedAfter_next h.ordered
  · exact orderedAfter_next (h.ordered.of_same (still_deliver c a s).same)

/-! ### Resets, time and the link -/

theorem ordered_afterReset (cause : ResetCause) : ReelsOrdered (State.afterReset cause) := by
  have idle : ∀ st, ((State.afterReset cause).work st).active = none := fun st => by
    rw [State.work, stand_afterReset]; rfl
  have empty : ∀ k, (State.afterReset cause).reelView k = none := fun _ => rfl
  exact ⟨by simp [empty], by simp [empty], by simp [empty], by simp [empty], by simp [empty], by simp [idle], by simp [idle]⟩

theorem ordered_fullReset (cause : ResetCause) (s : State) : ReelsOrdered (fullReset cause s) :=
  (ordered_afterReset cause).of_same (sameReels_of_eq rfl rfl (fun _ => rfl))

theorem ordered_powerOn (s : State) : OrderedAfter (execPowerOn s) := by
  unfold execPowerOn
  split
  · exact orderedAfter_next ((ordered_fullReset .power s).of_same (still_modLink _ _).same)
  · exact orderedAfter_next (ordered_fullReset .power s)

theorem still_dropOutputs (st : StandIx) (s : State) : Still s (dropOutputs st s) :=
  (still_modField s st _).trans (still_modWork _ st _ rfl rfl)

theorem ordered_resetPinAsserted (h : s.Sound) : OrderedAfter (execResetPinAsserted s) :=
  orderedAfter_next (((still_foldl _ (fun s st => still_dropOutputs st s) allStands s).trans (still_modLink _ _)).sound h).ordered

theorem ordered_resetPinReleased (h : s.Sound) : OrderedAfter (execResetPinReleased s) := by
  unfold execResetPinReleased
  split
  · exact orderedAfter_next (ordered_fullReset _ s)
  · exact orderedAfter_next h.ordered

/-- An event that changes the link alone. -/
theorem orderedAfter_modLink (h : s.Sound) (f : Link → Link) : OrderedAfter (onDevice (fun s => s.modLink f) s) :=
  orderedAfter_onDevice h ((still_modLink s f).sound h).ordered

theorem ordered_characterReceived (h : s.Sound) (b : Byte) (e : Bool) : OrderedAfter (execCharacterReceived b e s) := by
  refine orderedAfter_onDevice h ?_
  split
  · exact h.ordered
  · exact ((still_modLink s _).sound h).ordered

theorem ordered_answerLastByteSent (h : s.Sound) : OrderedAfter (execAnswerLastByteSent s) := by
  refine orderedAfter_onDevice h ?_
  (repeat' split)
  · exact ordered_fullReset _ s
  · exact ((still_modLink s _).sound h).ordered
  · exact ordered_fullReset _ s
  · exact h.ordered

theorem ordered_resetDevice (h : s.Sound) (c : Client) : OrderedAfter (execResetDevice c s) := by
  refine orderedAfter_onDevice h ?_
  dsimp only
  (repeat' split)
  · exact (((still_deliver _ _ s).trans (still_modLink _ _)).sound h).ordered
  · exact (((still_deliver _ _ s).trans (still_modLink _ _)).sound h).ordered
  · exact h.ordered

/-! ### The Reel Table (R22, R25 to R29) -/

theorem reel?_freeHandle {k : Nat} (hk : s.freeHandle = some k) : s.reel? k = none := by
  simpa using List.find?_some hk

theorem announceFault_none {c : Client} {code : List Nat} {p : PaperData} (h : s.announceFault c code p = none) :
    paperOk p = true ∧ codeFault code = none ∧ s.reelWithCode code = none := by
  unfold State.announceFault at h
  (repeat' split at h) <;> simp_all

theorem mem_of_find {α : Type} {k : Nat} {a : α} {t : List (Nat × α)} (h : Table.find k t = some a) : (k, a) ∈ t := by
  induction t with
  | nil => cases h
  | cons p t ih =>
    obtain ⟨j, b⟩ := p
    simp only [Table.find] at h
    split at h
    · next e => cases h; rw [e]; exact List.mem_cons_self
    · exact List.mem_cons_of_mem _ (ih h)

theorem ordered_announceReel (h : s.Sound) (c : Client) (code : List Nat) (p : PaperData) :
    OrderedAfter (execAnnounceReel c code p s) := by
  refine orderedAfter_serve h ?_
  split
  · exact h.ordered
  · next hf =>
    obtain ⟨hp, hc, hcode⟩ := announceFault_none hf
    split
    · exact h.ordered
    · next k hk =>
      have hfree := reel?_freeHandle hk
      refine h.ordered.announced (k := k) (w := (newReel code p s.now).view) (by simp [State.reelView, hfree]) (fun i => ?_)
        ⟨hp, hc, fun _ => rfl, by simp [newReel, Reel.view], by simp [newReel, Reel.view], nofun⟩ rfl rfl nofun
        (fun i z hz => ?_) (fun _ => rfl) (fun _ _ _ => rfl)
      · show (Table.find i (Table.insert k (newReel code p s.now) s.reels)).map Reel.view = _
        rw [find_insert _ _ _ _ hfree]
        split <;> rfl
      · obtain ⟨r, hr, rfl⟩ := reelView_eq_some.1 hz
        have hne : r.code ≠ code := by simpa using List.find?_eq_none.1 hcode _ (mem_of_find hr)
        exact hne

theorem paperOk_amendPaper {p : PaperData} {a : PaperAmend} (hp : paperOk p = true) (ha : paperAmendOk a = true) :
    paperOk (amendPaper p a) = true := by
  obtain ⟨g, w, k, c, f, q⟩ := a
  simp only [paperOk, paperAmendOk, amendPaper, Bool.and_eq_true] at *
  obtain ⟨⟨⟨hg, hk⟩, hc⟩, hf⟩ := ha
  obtain ⟨⟨⟨pg, pk⟩, pc⟩, pf⟩ := hp
  refine ⟨⟨⟨?_, ?_⟩, ?_⟩, ?_⟩
  · cases g with | none => exact pg | some g => exact hg
  · cases k with | none => exact pk | some k => exact hk
  · cases c with | none => exact pc | some c => exact hc
  · cases f with | none => exact pf | some f => exact hf

theorem amendFault_none {r : Reel} {d : PaperAmend} (h : amendFault r d = none) :
    r.reservedBy = none ∧ r.state ≠ .butt ∧ r.state ≠ .committed ∧ r.state ≠ .running ∧ paperAmendOk d = true := by
  unfold amendFault at h
  (repeat' split at h) <;> simp_all

/-- Verification of one record, where it is taken (R19, R20). -/
theorem ordered_verifyReel (h : ReelsOrdered s) {st : StandIx} {k : Nat} {r : Reel} (hr : s.reel? k = some r)
    (hn : r.reservedBy = none) (hs : r.state ≠ .running) (b : State) : ReelsOrdered (verifyReel st k b s) := by
  have hright := h.right k _ (reelView_of_reel? hr)
  refine ReelsOrdered.of_same (h.revise_one hr hn hs ?_ ?_ ?_ ?_ ?_) (still_handOn st b _).same
  · split
    · next hv =>
      obtain ⟨⟨hon, _⟩, _⟩ : (onStand st r = true ∧ _) ∧ _ := by simpa [verifiable] using hv
      obtain ⟨a, hl⟩ := loc_of_onStand hon
      exact right_verify hright.paper hright.code (by rw [hl]; nofun)
    · exact hright
  · split <;> rfl
  · split <;> exact hn
  · split
    · exact verify_not_running _ _ _
    · exact hs
  · intro l e
    refine Or.inl ?_
    split at e <;> exact e

theorem ordered_amendReel (h : s.Sound) (c : Client) (k : Nat) (d : PaperAmend) : OrderedAfter (execAmendReel c k d s) := by
  refine orderedAfter_serve h ?_
  dsimp only
  split
  · exact h.ordered
  · split
    · exact h.ordered
    · next r hr =>
      split
      · exact h.ordered
      · split
        · exact ((still_modReel s k (fun r => { r with notes := addTo .amendLocked r.notes }) (fun _ _ => rfl)).sound h).ordered
        · exact h.ordered
        · next hf =>
          obtain ⟨hn, _, _, hs, hp⟩ := amendFault_none hf
          have hright := h.ordered.right k _ (reelView_of_reel? hr)
          have hr' : (s.modReel k (fun r => { r with paper := amendPaper r.paper d })).reel? k =
              some { r with paper := amendPaper r.paper d } := by rw [reel?_modReel, hr]; rfl
          have ht : ReelsOrdered (s.modReel k (fun r => { r with paper := amendPaper r.paper d })) :=
            h.ordered.revise_one hr hn hs ⟨paperOk_amendPaper hright.paper hp, hright.code, hright.floor, hright.located,
              hright.reasons, hright.committed⟩ rfl hn hs (fun l e => Or.inl e)
          split
          · exact ordered_verifyReel ht hr' hn hs s
          · exact ht

/-- A reserved reel is READY or COMMITTED (R30). -/
theorem ReelsOrdered.unreserved (h : ReelsOrdered s) {k : Nat} {r : Reel} (hr : s.reel? k = some r) (h1 : r.state ≠ .ready)
    (h2 : r.state ≠ .committed) : r.reservedBy = none := by
  cases e : r.reservedBy with
  | none => rfl
  | some n =>
    obtain ⟨_, x, _, _, _, _, _, hx⟩ := h.reserved k _ n (reelView_of_reel? hr) e
    have hx : r.state = x.stage.reelState := hx
    cases hst : x.stage <;> rw [hst] at hx
    · exact absurd hx h1
    · exact absurd hx h2
    · exact absurd hx h2

/-- A reel is mounted on a free arm and verified (R25). -/
theorem ordered_mounted (h : ReelsOrdered s) {k : Nat} {r : Reel} (hr : s.reel? k = some r) (hs : r.state = .floor) (st : StandIx)
    (a : Arm) (hfree : s.reelOn st a = none) (plan : PlanEntry) (p : Profile) (now : Stamp) :
    ReelsOrdered (s.modReel k (fun r => verify plan p { r with loc := some (st, a), mounted := now })) := by
  have hright := h.right k _ (reelView_of_reel? hr)
  have hn := h.unreserved hr (by rw [hs]; decide) (by rw [hs]; decide)
  refine h.revise_one hr hn (by rw [hs]; decide) (right_verify hright.paper hright.code nofun) rfl hn
    (verify_not_running _ _ _) (fun l e => ?_)
  obtain rfl : (st, a) = l := Option.some.inj e
  refine Or.inr (fun i q hq hl => ?_)
  simpa [hl] using List.find?_eq_none.1 hfree _ (mem_of_find hq)

theorem ordered_mountReel (h : s.Sound) (c : Client) (k stand : Nat) (a : Arm) : OrderedAfter (execMountReel c k stand a s) := by
  refine orderedAfter_serve h ?_
  dsimp only
  split
  · next st _ _ =>
    split
    · exact h.ordered
    · next r hr =>
      split
      · exact h.ordered
      · split
        · exact h.ordered
        · next hfloor =>
          split
          · exact h.ordered
          · next hfree =>
            split
            · exact h.ordered
            · exact (ordered_mounted h.ordered hr (by simpa using hfloor) st a (by simpa using hfree) _ _ _).of_same
                (still_handOn st s _).same
  · exact h.ordered

theorem sameReels_handOnAt (r : Reel) (b s : State) : SameReels s (handOnAt r b s) := by
  unfold handOnAt
  split
  · exact (still_handOn _ b s).same
  · exact SameReels.refl s

theorem ordered_unmountReel (h : s.Sound) (c : Client) (k : Nat) : OrderedAfter (execUnmountReel c k s) := by
  refine orderedAfter_serve h ?_
  split
  · exact h.ordered
  · split
    · exact h.ordered
    · next r hr =>
      have hright := h.ordered.right k _ (reelView_of_reel? hr)
      split
      · exact h.ordered
      · split
        · exact h.ordered
        · next r' hu =>
          refine ReelsOrdered.of_same ?_ (sameReels_handOnAt r s _)
          unfold unmount at hu
          split at hu
          · cases hu
          · next hres =>
            have hn : r.reservedBy = none := by simpa using hres
            split at hu
            case h_1 e | h_2 e =>
              cases hu
              exact h.ordered.revise_one hr hn (by rw [e]; decide) (right_toFloor hright) rfl hn nofun nofun
            case h_3 e =>
              split at hu
              · cases hu
                exact h.ordered.revise_one hr hn (by rw [e]; decide) ⟨hright.paper, hright.code, fun _ => rfl,
                  by simp [Reel.view, e], hright.reasons, hright.committed⟩ rfl hn (by simp [e]) nofun
              · cases hu
            all_goals cases hu

theorem ordered_retireReel (h : s.Sound) (c : Client) (k : Nat) : OrderedAfter (execRetireReel c k s) := by
  refine orderedAfter_serve h ?_
  split
  · exact h.ordered
  · split
    · exact h.ordered
    · next r hr =>
      split
      · exact h.ordered
      · split
        · next hs =>
          refine ReelsOrdered.of_same ?_ (sameReels_handOnAt r s _)
          have hn : r.reservedBy = none :=
            h.ordered.unreserved hr (by rcases hs with hs | hs <;> rw [hs] <;> decide) (by rcases hs with hs | hs <;> rw [hs] <;> decide)
          refine h.ordered.erased (reelView_of_reel? hr) hn (by rcases hs with hs | hs <;> simp [Reel.view, hs]) (fun i => ?_)
            (fun _ => rfl) (fun _ _ _ => rfl)
          show (Table.find i (Table.erase k s.reels)).map Reel.view = _
          rw [find_erase]
          split <;> rfl
        · exact h.ordered

end Sys2Proof.Machine
end

section
/-! The order of the reel records under the requests on stands and splices, the field events and the timers, and under a step. -/

namespace Sys2Proof.Machine

variable {s : State}

/-! ### THREAD REEL, WRITE PLAN ENTRY, WRITE PROFILE (R9, R29, R60) -/

theorem threadFault_none {st : StandIx} {r : Reel} (h : s.threadFault st r = none) :
    (s.work st).active = none ∧ onStand st r = true := by
  unfold State.threadFault at h
  (repeat' split at h) <;> try cases h
  next ha hl _ =>
    refine ⟨by simpa using ha, ?_⟩
    cases hloc : r.loc with
    | none => simp [hloc] at hl
    | some l =>
      simp only [hloc] at hl
      cases hat : armAt (s.stand st).star .run with
      | none => simp [hat] at hl
      | some a =>
        obtain rfl : l = (st, a) := by simpa [hat] using hl
        simp [onStand, hloc]

theorem sound_thread (h : s.Sound) {st : StandIx} {k : Nat} {r : Reel} (hr : s.reel? k = some r) (hidle : (s.work st).active = none)
    (hon : onStand st r = true) : (thread st k r s).Sound := by
  let butts : Nat → Reel → Reel := fun j x => if x.state = ReelState.running ∧ onStand st x = true ∧ j ≠ k then toButt x else x
  let runs : Reel → Reel := fun x => { x with
    state := .running, reasons := [], diameter := none
    runningSince := if decide (r.state = .running) then x.runningSince else some s.now }
  let t : State := ({ s with reels := Table.mapAll butts s.reels } : State).modReel k runs
  have hfind : ∀ j, ({ s with reels := Table.mapAll butts s.reels } : State).reel? j = (s.reel? j).map (butts j) :=
    fun j => find_mapAll j butts s.reels
  have hbk : butts k r = r := if_neg (fun e => e.2.2 rfl)
  have hright := h.ordered.right k _ (reelView_of_reel? hr)
  obtain ⟨a, hl⟩ := loc_of_onStand hon
  have hn : r.reservedBy = none := by
    cases e : r.reservedBy with
    | none => rfl
    | some n =>
      obtain ⟨i, x, ha, _, _, on, _⟩ := h.ordered.reserved k _ n (reelView_of_reel? hr) e
      obtain ⟨b, hb⟩ := loc_of_onStand (r := r) on
      rw [hl] at hb; cases hb
      rw [hidle] at ha; cases ha
  have ht : ReelsOrdered t := by
    refine h.ordered.threaded hidle (reelView_of_reel? hr) (w := (runs r).view) ?_ hon
      ⟨hright.paper, hright.code, nofun, fun _ => by simp [runs, Reel.view, hl], by simp [runs, Reel.view], nofun⟩ rfl rfl hn
      (fun j hj => ?_) (fun _ => rfl) (fun _ _ _ => rfl)
    · rw [reelView_modReel, if_pos rfl, hfind, hr, Option.map_some, hbk]; rfl
    · have hj' : t.reelView j = (s.reel? j).map (fun x => (butts j x).view) := by
        rw [reelView_modReel, if_neg hj, State.reelView, hfind, Option.map_map]; rfl
      cases hq : s.reel? j with
      | none => exact Or.inl ⟨by rw [hj', State.reelView, hq]; rfl, fun z hz => by simp [State.reelView, hq] at hz⟩
      | some q =>
        by_cases hc : q.state = .running ∧ onStand st q = true
        · have hv := reelView_of_reel? hq
          refine Or.inr ⟨_, (toButt q).view, hv, ?_, hc.1, hc.2, right_toButt (h.ordered.right j _ hv), rfl, rfl,
            (show q.reservedBy = none from h.ordered.unreserved_running hv hc.1), nofun⟩
          rw [hj', hq]
          exact congrArg some (congrArg Reel.view (if_pos ⟨hc.1, hc.2, hj⟩))
        · refine Or.inl ⟨?_, fun z hz => ?_⟩
          · rw [hj', State.reelView, hq]
            exact congrArg some (congrArg Reel.view (if_neg (fun e => hc ⟨e.1, e.2.1⟩)))
          · obtain ⟨q', hq', rfl⟩ := reelView_eq_some.1 hz
            rw [hq] at hq'; cases hq'
            exact hc
  have hd : t.Disciplined := (quiet_of_eq (s := s) (t := t) rfl (fun _ => rfl) (fun _ => rfl)).disciplined h.disciplined
  exact sound_diameterChanged (((still_modSeq t st (fun q => { q with webBroken := false }) rfl).trans
    ((still_modGauge _ st _).trans (still_handOn st s _))).sound ⟨hd, ht⟩) st

theorem ordered_threadReel (h : s.Sound) (c : Client) (stand k : Nat) : OrderedAfter (execThreadReel c stand k s) := by
  refine orderedAfter_serve h ?_
  (repeat' split)
  case _ => exact h.ordered
  case _ => exact h.ordered
  case _ => exact h.ordered
  case _ =>
    next r hr _ _ hf =>
      obtain ⟨hidle, hon⟩ := threadFault_none hf
      exact (sound_thread h hr hidle hon).ordered
  case _ => exact h.ordered

theorem ordered_verifyStand (h : ReelsOrdered s) (st : StandIx) : ReelsOrdered (verifyStand st s) := by
  have hfind : ∀ i, (verifyStand st s).reel? i = (s.reel? i).map (fun r =>
      if verifiable st r then verify (s.stand st).plan (s.stand st).profile r else r) := fun i => find_mapAll i
      (fun _ r => if verifiable st r then verify (s.stand st).plan (s.stand st).profile r else r) s.reels
  have hloc : ∀ r : Reel, (if verifiable st r then verify (s.stand st).plan (s.stand st).profile r else r).loc = r.loc := by
    intro r; split <;> rfl
  refine h.revise (fun i => ?_) (h.arms_of_sub (fun i w l hw hl => ?_)) (fun _ => rfl) (fun _ _ _ => rfl)
  · cases hr : s.reel? i with
    | none => exact Or.inl (by rw [State.reelView, hfind, State.reelView, hr]; rfl)
    | some r =>
      have hv := reelView_of_reel? hr
      by_cases hc : verifiable st r = true
      · obtain ⟨⟨hon, hs⟩, hn⟩ : (onStand st r = true ∧ (r.state = .mounted ∨ r.state = .ready)) ∧ r.reservedBy = none := by
          simpa [verifiable] using hc
        obtain ⟨a, hl⟩ := loc_of_onStand hon
        have hright := h.right i _ hv
        refine Or.inr ⟨_, (verify (s.stand st).plan (s.stand st).profile r).view, hv, ?_,
          right_verify hright.paper hright.code (by rw [hl]; nofun), rfl, hn, hn,
          by rcases hs with hs | hs <;> simp [Reel.view, hs], verify_not_running _ _ _⟩
        rw [State.reelView, hfind, hr, Option.map_some, if_pos hc]; rfl
      · exact Or.inl (by rw [State.reelView, hfind, hr, Option.map_some, if_neg hc, hv]; rfl)
  · obtain ⟨q, hq, rfl⟩ := reelView_eq_some.1 hw
    rw [hfind] at hq
    obtain ⟨r, hr, rfl⟩ := Option.map_eq_some_iff.1 hq
    exact ⟨_, reelView_of_reel? hr, (hloc r).symm.trans hl⟩

theorem sound_verifyStand (h : s.Sound) (st : StandIx) : (verifyStand st s).Sound :=
  ⟨(quiet_verifyStand st s).disciplined h.disciplined, ordered_verifyStand h.ordered st⟩

theorem ordered_writePlanEntry (h : s.Sound) (c : Client) (stand : Nat) (e : PlanFields) :
    OrderedAfter (execWritePlanEntry c stand e s) := by
  refine orderedAfter_serve h ?_
  split
  · exact h.ordered
  · next st _ =>
    split
    · exact h.ordered
    · split
      · exact h.ordered
      · next p _ =>
        split
        · exact h.ordered
        · exact ((still_handOn st s _).sound (sound_verifyStand
            ((still_modStand s st (fun x => { x with plan := p }) rfl).sound h) st)).ordered

theorem ordered_writeProfile (h : s.Sound) (c : Client) (stand : Nat) (p : Profile) : OrderedAfter (execWriteProfile c stand p s) := by
  refine orderedAfter_serve h ?_
  (repeat' split)
  case _ => exact h.ordered
  case _ => exact h.ordered
  case _ => exact h.ordered
  case _ =>
    next st _ _ _ =>
      have k := still_modStand s st (fun x => { x with profile := clampProfile p }) rfl
      exact (sound_judgeStart (((still_handOn st s _).trans ((still_evalReelCall st _).trans (still_evalRisk st _))).sound
        (sound_verifyStand (k.sound h) st)) false st).ordered

theorem ordered_writeOneShot (h : s.Sound) (c : Client) (stand : Nat) (v : Params (Option Int)) :
    OrderedAfter (execWriteOneShot c stand v s) := by
  refine orderedAfter_serve h ?_
  (repeat' split)
  case _ => exact h.ordered
  case _ => exact h.ordered
  case _ =>
    next st _ _ => exact (sound_judgeStart ((still_modStand s st _ rfl).sound h) false st).ordered

theorem ordered_writeRouting (h : s.Sound) (c : Client) (stand : Nat) (mask : BitVec 16) (mode : Mode) :
    OrderedAfter (execWriteRouting c stand mask mode s) := by
  refine orderedAfter_serve h ?_
  (repeat' split)
  case _ => exact h.ordered
  case _ => exact h.ordered
  case _ => exact h.ordered
  case _ => dsimp only; exact ((still_modQueue s _ _).sound h).ordered

theorem ordered_writeFolder (h : s.Sound) (c : Client) (folder cutoff lead trail spacing : Nat) :
    OrderedAfter (execWriteFolder c folder cutoff lead trail spacing s) := by
  refine orderedAfter_serve h ?_
  (repeat' split)
  case _ => exact h.ordered
  case _ => exact h.ordered
  case _ => exact (h.ordered.of_same (((keepsHolds_modFolder s _ _).trans (keepsHolds_ejectPast _ _ _)).same h.disciplined)).of_same
              (still_grantOccasion _ _).same

/-! ### Splices (R63 to R68, R77, R84, R86) -/

theorem ordered_armSplice (h : s.Sound) (hk : s.HandlesOnce) (c : Client) (stand : Nat) (g : Trigger) (v : Params (Option Int)) :
    OrderedAfter (execArmSplice c stand g v s) := by
  refine orderedAfter_serve h ?_
  (repeat' split)
  case _ => exact h.ordered
  case _ => exact h.ordered
  case _ => exact h.ordered
  case _ =>
    next hf =>
      obtain ⟨hidle, hroom⟩ := armFault_none hf
      exact (sound_arm h hk hidle hroom _ _ _ _).ordered

theorem ordered_amendSplice (h : s.Sound) (c : Client) (n : Nat) (v : Params AmendParam) : OrderedAfter (execAmendSplice c n v s) := by
  have k := still_modSplice s n (fun x => { x with explicit := amendExplicit x.explicit v }) (fun _ => rfl) (fun _ => rfl)
  refine orderedAfter_serve h ?_
  dsimp only
  split
  · exact h.ordered
  · split
    · exact h.ordered
    · split
      · exact h.ordered
      · split
        · exact h.ordered
        · split
          · exact h.ordered
          · refine (sound_judgeStart ?_ false _).ordered
            split
            · exact (k.trans (still_noteSplice n .clamped _)).sound h
            · exact k.sound h

theorem ordered_setChain (h : s.Sound) (c : Client) (stand : Nat) (on : Bool) : OrderedAfter (execSetChain c stand on s) := by
  refine orderedAfter_serve h ?_
  split
  · exact h.ordered
  · next st _ =>
    have k := still_modSeq s st (fun q => { q with chain := on }) rfl
    split
    · exact h.ordered
    · dsimp only
      split
      · exact ((k.trans (still_chainOccasion st _)).sound h).ordered
      · exact (k.sound h).ordered

theorem ordered_startAccel (h : s.Sound) (c : Client) (stand : Nat) : OrderedAfter (execStartAccel c stand s) := by
  refine orderedAfter_serve h ?_
  split
  · exact h.ordered
  · next st _ =>
    split
    · exact h.ordered
    · split
      · exact h.ordered
      · next n sp hs =>
        split
        · next e =>
          have hc := (sound_commit h (.of_active hs) e).ordered
          unfold startArmed
          (repeat' split)
          · exact h.ordered
          · exact ((still_modWork s st (fun w => { w with startPending := true }) rfl rfl).sound h).ordered
          · exact hc
          · exact hc
        · exact h.ordered

theorem ordered_fireSplice (h : s.Sound) (c : Client) (stand : Nat) : OrderedAfter (execFireSplice c stand s) := by
  refine orderedAfter_serve h ?_
  split
  · exact h.ordered
  · split
    · exact h.ordered
    · split
      · exact h.ordered
      · next n sp hs =>
        split
        case h_3 e => exact (sound_enterWaiting h (.of_active hs) e).ordered
        all_goals exact h.ordered

theorem ordered_abortSplice (h : s.Sound) (c : Client) (stand : Nat) : OrderedAfter (execAbortSplice c stand s) := by
  refine orderedAfter_serve h ?_
  split
  · exact h.ordered
  · next st _ =>
    split
    · exact h.ordered
    · split
      · exact h.ordered
      · next n sp hs =>
        have hg := ((still_handOn st s _).sound (sound_giveUp h (.of_active hs) .abortRequest)).ordered
        split
        case h_1 | h_2 | h_3 | h_4 | h_5 => exact hg
        all_goals exact h.ordered

/-! ### Status, inputs and tracks (R139, R153, R159) -/

theorem ordered_acknowledgeStatus (h : s.Sound) (c : Client) (stand serial revision : Nat) :
    OrderedAfter (execAcknowledgeStatus c stand serial revision s) := by
  have hcollect : ∀ e : StatusEntry, KeepsHolds s (collect e s) := by
    intro e
    unfold collect
    split
    · split
      · exact (keepsHolds_modSplice s _ (fun sp => { sp with endAck := true }) (fun _ => ⟨rfl, rfl⟩)).trans (keepsHolds_retire _ _)
      · exact KeepsHolds.refl s
    · exact KeepsHolds.refl s
  have hack : ∀ st e rest, ReelsOrdered (acknowledge st e rest s) := by
    intro st e rest
    have ho := h.ordered.of_same ((hcollect e).same h.disciplined)
    unfold acknowledge
    generalize (if s.persists st e = true then e.persisted :: rest else rest) = kept
    have hq := still_modQueue (collect e s) st (fun q => { q with entries := kept })
    dsimp only
    split
    · exact ho.of_same (hq.trans (still_chainOccasion st _)).same
    · exact ho.of_same hq.same
  refine orderedAfter_serve h ?_
  split
  · exact h.ordered
  · split
    · exact h.ordered
    · split
      · exact h.ordered
      · split
        · exact h.ordered
        · unfold acknowledgeOldest
          split
          · exact h.ordered
          · split
            · exact h.ordered
            · exact hack _ _ _

theorem ordered_clearChanges (h : s.Sound) (c : Client) (stand snapshot : Nat) : OrderedAfter (execClearChanges c stand snapshot s) := by
  refine orderedAfter_serve h ?_
  dsimp only
  (repeat' split)
  case _ => exact h.ordered
  case _ => exact h.ordered
  case _ => exact h.ordered
  case _ => dsimp only; exact ((still_modField s _ _).sound h).ordered

theorem ordered_takeCall (h : s.Sound) (c : Client) (stand : Nat) (flag : CallFlag) : OrderedAfter (execTakeCall c stand flag s) := by
  refine orderedAfter_serve h ?_
  dsimp only
  (repeat' split)
  case _ => exact h.ordered
  case _ => exact h.ordered
  case _ => dsimp only; exact ((still_modQueue s _ _).sound h).ordered

theorem ordered_forceGate (h : s.Sound) (c : Client) (folder : Nat) (x : GateForce) : OrderedAfter (execForceGate c folder x s) := by
  refine orderedAfter_serve h ?_
  (repeat' split)
  case _ => exact h.ordered
  case _ => exact h.ordered
  case _ => dsimp only; exact h.ordered.of_same (sameReels_modFolder s _ _)

/-! ### RESET STAND (R111) -/

theorem sound_clearDiameters (h : s.Sound) (st : StandIx) : (clearDiameters st s).Sound := by
  refine Still.sound (s := s) ⟨quiet_of_eq rfl (fun _ => rfl) (fun _ => rfl), ?_⟩ h
  exact sameReels_mapAll s (fun _ r => if onStand st r then { r with
    diameter := none, girth := none, notes := addTo .diameterReset r.notes } else r) (fun _ r => by split <;> rfl)

/-- The end of the active splice at RESET STAND lets go of its reels, if it still holds them, and leaves the stand idle. -/
theorem ordered_endAtReset (h : s.Sound) {st : StandIx} (hb : ∀ x, s.spliceState st = some x → holdsSlot x = false) :
    ReelsOrdered (endAtReset st s) ∧ ((endAtReset st s).work st).active = none := by
  unfold endAtReset
  split
  · next hs =>
    refine ⟨h.ordered, ?_⟩
    cases ha : (s.work st).active with
    | none => rfl
    | some n =>
      obtain ⟨sp, e, _⟩ := h.disciplined.active st n ha
      rw [activeSplice_eq_some.2 ⟨ha, e⟩] at hs; cases hs
  · next n sp hs =>
    have hf := State.Follows.of_active hs
    have k := (still_setCause n .standReset s).trans (still_noteSplice n .standReset _)
    have hslot := hb sp.state (spliceState_of_activeSplice hs)
    dsimp only
    split
    · next e =>
      have hp : stageOf sp.state = .past := by rcases e with e | e <;> rw [e] <;> rfl
      have hend := (still_chainOccasion st _).sound (sound_retire (sound_endSplice (k.sound h) (hf.still k) hp .completed rfl .standEnd) n)
      exact ⟨hend.ordered, by simp [active_endSplice]⟩
    · have hact : ∀ i, ((retire n (endSplice st n .aborted .spliceVoid (noteSplice n .standReset (setCause n .standReset s)))).work i).active
          = if i = st then none else ((noteSplice n .standReset (setCause n .standReset s)).work i).active := by
        intro i; rw [work_retire, active_endSplice_eq]
      have hhold : ∀ m, m ≠ n → (retire n (endSplice st n .aborted .spliceVoid (noteSplice n .standReset
          (setCause n .standReset s)))).hold m = (noteSplice n .standReset (setCause n .standReset s)).hold m := by
        intro m hm
        rw [← hold_endSplice_ne st .aborted .spliceVoid (noteSplice n .standReset (setCause n .standReset s)) hm]
        rcases splice?_retire n m (endSplice st n .aborted .spliceVoid (noteSplice n .standReset (setCause n .standReset s))) with e | ⟨e, _⟩
        · rw [State.hold, e]; rfl
        · exact absurd e hm
      have hreels : (retire n (endSplice st n .aborted .spliceVoid (noteSplice n .standReset (setCause n .standReset s)))).reels
          = s.reels := by simp [reels_endSplice]
      refine ⟨?_, by rw [work_giveBackReserved, hact, if_pos rfl]⟩
      unfold giveBackReserved
      by_cases hp : stageOf sp.state = .past
      · -- past its hold the splice has no reel reserved
        have hended := (k.sound h).ordered.ended (hf.still k).active (hf.still k).hold hp
          (fun i => by rw [State.reelView, State.reel?, hreels]; rfl) hact (fun i m hi hm => hhold m (fun e => by
            subst e; exact hi ((k.sound h).disciplined.active_unique hm (hf.still k).active)))
        split
        · next r hr =>
          split
          · next hres =>
            obtain ⟨i, x, ha, hx, _, _, hpast, _⟩ := (k.sound h).ordered.reserved sp.incoming r.view n
              (by rw [State.reelView, State.reel?]; rw [State.reel?, hreels] at hr; exact congrArg (Option.map Reel.view) hr) hres
            rw [(hf.still k).hold] at hx; cases hx
            exact absurd hp hpast
          · exact hended
        · exact hended
      · obtain ⟨r, hr, _, hres, _⟩ := (k.sound h).incoming (hf.still k) hp
        have hr' : (retire n (endSplice st n .aborted .spliceVoid (noteSplice n .standReset (setCause n .standReset s)))).reel?
            sp.incoming = some r := by rw [State.reel?, hreels]; exact hr
        rw [hr']
        dsimp only
        rw [if_pos hres, giveBack_eq]
        exact (k.sound h).ends (hf.still k) hp (by rw [State.modReel, hreels]; rfl) hact hhold

theorem ordered_resetStand (h : s.Sound) {st : StandIx} (hb : ∀ x, s.spliceState st = some x → holdsSlot x = false) :
    ReelsOrdered (resetStand st s) := by
  have hc := sound_clearDiameters h st
  obtain ⟨ho, hidle⟩ := ordered_endAtReset (st := st) hc hb
  unfold resetStand
  dsimp only
  refine ReelsOrdered.of_same ?_ ((still_modStand _ st (fun x =>
    { x with star := .unknown, lastSettled := none, gauge := Gauge.reset, field := x.field.restart }) rfl).trans
    ((still_evalRisk st _).trans (still_evalReelCall st _))).same
  refine ho.of_same (sameReels_of_eq ?_ (splices_offLists st _) (fun i => ?_))
  · exact (keepsHolds_foldl (fun t f => leaveWaits f st t) (fun t f => keepsHolds_modFolder t f _) allFolders _).reels
  · refine (congrArg Working.active (work_offLists st i _)).trans ?_
    split
    · next e => subst e; exact hidle.symm
    · rfl

theorem ordered_execResetStand (h : s.Sound) (c : Client) (stand : Nat) : OrderedAfter (execResetStand c stand s) := by
  refine orderedAfter_serve h ?_
  split
  · exact h.ordered
  · next st _ =>
    split
    · exact h.ordered
    · split
      · next x hx =>
        split
        · exact h.ordered
        · next hn => exact ordered_resetStand h (fun y hy => by rw [hx] at hy; cases hy; simpa using hn)
      · next hx => exact ordered_resetStand h (fun y hy => by rw [hx] at hy; cases hy)

end Sys2Proof.Machine
end

section
/-! The order of the reel records under the field events, the timers and the hand-overs; and a step
(EveryStepKeepsTheReelRecords). -/

namespace Sys2Proof.Machine

variable {s : State}

/-! ### Field events (R32, R95, R99, R101 to R106, R133 to R135, R142) -/

/-- An accepted change taken by its block. -/
theorem orderedAfter_takeChange (h : s.Sound) (st : StandIx) (i : Input) (l : Fin 4) {f : State → State}
    (hf : ∀ t : State, t.Sound → t.reels = s.reels → (f t).Sound) : OrderedAfter (onDevice (takeChange st i l f) s) :=
  orderedAfter_onDevice h (sound_takeChange h st i l hf).ordered

theorem ordered_samplingTimerExpiry (h : s.Sound) (st : StandIx) (x : Sample) : OrderedAfter (execSamplingTimerExpiry st x s) :=
  orderedAfter_onDevice h (((still_foldl _ (fun t i => still_sampleInput st i (sampleLevel x i) t) allInputs s).trans
    (still_modField _ st _)).sound h).ordered

theorem ordered_reelPresentLoss (h : s.Sound) (hk : s.HandlesOnce) (st : StandIx) (a : Arm) :
    OrderedAfter (execReelPresentLoss st a s) :=
  orderedAfter_takeChange h st _ _ (fun t k e => sound_reelLost k (by rw [State.HandlesOnce, e]; exact hk) st a)

theorem ordered_pasterEngagedActive (h : s.Sound) (st : StandIx) : OrderedAfter (execPasterEngagedActive st s) := by
  refine orderedAfter_takeChange h st _ _ (fun t k _ => ?_)
  split
  · exact (still_modWork t st (fun w => { w with confirmed := true, confirmTimer := none }) rfl rfl).sound k
  · exact k

theorem ordered_pasterHomeActive (h : s.Sound) (st : StandIx) : OrderedAfter (execPasterHomeActive st s) := by
  refine orderedAfter_takeChange h st _ _ (fun t k _ => ?_)
  split
  · next n sp hs =>
    split
    · next e => exact sound_endBraking k (.of_active hs) e.1
    · exact k
  · exact k

theorem ordered_knifeHomeActive (h : s.Sound) (st : StandIx) : OrderedAfter (execKnifeHomeActive st s) :=
  orderedAfter_takeChange h st _ _ (fun t k _ =>
    ((still_modWork t st (fun w => { w with knifeHomeTimer := none }) rfl rfl).trans (still_updateIndexReq st _)).sound k)

theorem ordered_safetyGateChange (h : s.Sound) (st : StandIx) (closed : Bool) : OrderedAfter (execSafetyGateChange st closed s) := by
  refine orderedAfter_takeChange h st _ _ (fun t k _ => ?_)
  split
  · refine (still_updateIndexReq st _).sound ?_
    split
    · exact k
    · exact (still_gateFoundOpen st t).sound k
  · exact k

theorem ordered_driverHotActive (h : s.Sound) (st : StandIx) : OrderedAfter (execDriverHotActive st s) :=
  orderedAfter_takeChange h st _ _ (fun t k _ => ((still_modField t st _).trans (still_raise st .driverHot _ _)).sound k)

/-! ### Counts and pulses (R38, R39, R80, R128) -/

theorem ordered_webCount (h : s.Sound) (st : StandIx) (d : Direction) : OrderedAfter (execWebCount st d s) :=
  orderedAfter_onDevice h (sound_trackWebCount (sound_carryCheck
    ((still_modWork _ st (Working.webCount d) rfl rfl).sound (sound_gaugeWebCount h st d)) st) st d).ordered

theorem ordered_tachCount (h : s.Sound) (st : StandIx) (d : Direction) : OrderedAfter (execTachCount st d s) :=
  orderedAfter_onDevice h (sound_judgePoints
    (((still_modWork s st (Working.tachCount d) rfl rfl).trans (still_restartQuiet st _)).sound h) st).ordered

theorem ordered_pasteMarkPulse (h : s.Sound) (st : StandIx) : OrderedAfter (execPasteMarkPulse st s) := by
  refine orderedAfter_onDevice h (State.Sound.ordered ?_)
  split
  · exact h
  · next n sp hs =>
    split
    · split
      · exact (still_modWork s st (fun w => { w with revolution := some { tach := 0, web := 0 } }) rfl rfl).sound h
      · split
        · exact h
        · exact sound_formRevolution h (.of_active hs) _
    · exact h

theorem ordered_revPulse (h : s.Sound) (st : StandIx) (a : Arm) : OrderedAfter (execRevPulse st a s) :=
  orderedAfter_onDevice h ((still_seqRevPulse st a _).sound (sound_gaugeRevPulse h st a)).ordered

theorem ordered_folderCutPulse (h : s.Sound) (f : FolderIx) : OrderedAfter (execFolderCutPulse f s) := by
  refine orderedAfter_onDevice h ?_
  split
  · refine h.ordered.of_same (((keepsHolds_foldl _ (fun t r => ?_) _ s).trans (keepsHolds_modFolder _ f _)).same h.disciplined)
    exact keepsHolds_modSplice t r.splice (fun sp => { sp with mark := { sp.mark with waste := min 65535 (sp.mark.waste + 1) } })
      (fun _ => ⟨rfl, rfl⟩)
  · exact h.ordered

/-! ### Timers (R45, R82, R87, R98, R99, R101 to R104, R140) -/

theorem still_followWeb (st : StandIx) (s : State) : Still s (followWeb st s) := by
  unfold followWeb
  (repeat' split)
  · exact still_modWork s st _ rfl rfl
  · exact Still.refl s
  · exact Still.refl s

theorem still_sampleOccasion (st : StandIx) (s : State) (f : FolderIx) : Still s (sampleOccasion st s f) := by
  unfold sampleOccasion
  split
  · exact still_grantOccasion f s
  · exact Still.refl s

theorem ordered_webSpeedTimerExpiry (h : s.Sound) (st : StandIx) : OrderedAfter (execWebSpeedTimerExpiry st s) := by
  refine orderedAfter_onDevice h (State.Sound.ordered ?_)
  split
  · exact ((still_modGauge s st Gauge.sample).trans ((still_followWeb st _).trans
      (still_foldl _ (still_sampleOccasion st) allFolders _))).sound h
  · exact h

theorem ordered_accelTimerExpiry (h : s.Sound) (st : StandIx) : OrderedAfter (execAccelTimerExpiry st s) := by
  refine orderedAfter_onDevice h (State.Sound.ordered ?_)
  have k := still_raise st .matchTimeout s (none, none)
  split
  · next n sp hs =>
    split
    · exact (still_handOn st s _).sound (sound_giveUp (k.sound h) ((State.Follows.of_active hs).still k) .matchTimeout)
    · exact h
  · exact h

theorem sound_endUncarried (h : s.Sound) {st : StandIx} {n : Nat} {sp : Splice} (hf : s.Follows st n sp)
    (hs : sp.state = .spindown) : (endUncarried st n s).Sound := by
  have k := (still_releaseBrake st s).trans (still_modWork _ st (fun w => { w with revQuietTimer := none }) rfl rfl)
  exact sound_endSpindown (k.sound h) (hf.still k) hs

theorem spindown_of_uncarried {st : StandIx} {n : Nat} {sp : Splice} (hs : s.activeSplice st = some (n, sp))
    (hu : s.uncarried st = true) : sp.state = .spindown := by
  unfold State.uncarried at hu
  rw [hs] at hu
  simp only [Bool.and_eq_true, decide_eq_true_eq] at hu
  exact hu.1

theorem ordered_quietTimerExpiry (h : s.Sound) (st : StandIx) : OrderedAfter (execQuietTimerExpiry st s) := by
  refine orderedAfter_onDevice h (State.Sound.ordered ?_)
  split
  · next n sp hs =>
    have hf := State.Follows.of_active hs
    split
    · next e =>
      split
      · split
        · exact sound_endUncarried h hf e.1
        · exact (still_modWork s st (fun w => { w with quietTimer := none }) rfl rfl).sound h
      · exact sound_endSpindown h hf e.1
    · exact h
  · exact h

theorem ordered_stopTimerExpiry (h : s.Sound) (st : StandIx) : OrderedAfter (execStopTimerExpiry st s) := by
  refine orderedAfter_onDevice h (State.Sound.ordered ?_)
  have k := still_raise st .stopTimeout s (none, none)
  have kb := k.trans (still_keepBrake st _)
  split
  · next n sp hs =>
    have hf := State.Follows.of_active hs
    split
    · split
      case h_1 e =>
        dsimp only
        split
        · exact sound_endSpindown (kb.sound h) (hf.still kb) e
        · exact sound_endSpindown (k.sound h) (hf.still k) e
      case h_2 e =>
        have kw := kb.trans (still_modWork _ st (fun w => { w with stopTimer := none }) rfl rfl)
        exact sound_standEnd (kw.sound h) (hf.still kw) (by rw [e]; rfl) _
      all_goals exact h
    · exact h
  · exact h

theorem ordered_confirmTimerExpiry (h : s.Sound) (st : StandIx) : OrderedAfter (execConfirmTimerExpiry st s) := by
  refine orderedAfter_onDevice h (State.Sound.ordered ?_)
  split
  · next n sp hs =>
    split
    · next e => exact sound_pasteNotConfirmed h (.of_active hs) e.1
    · exact h
  · exact h

theorem ordered_knifePulseTimerExpiry (h : s.Sound) (st : StandIx) : OrderedAfter (execKnifePulseTimerExpiry st s) := by
  refine orderedAfter_onDevice h (State.Sound.ordered ?_)
  split
  · exact (still_endKnifePulse st s).sound h
  · exact h

theorem ordered_knifeHomeTimerExpiry (h : s.Sound) (st : StandIx) : OrderedAfter (execKnifeHomeTimerExpiry st s) := by
  refine orderedAfter_onDevice h (State.Sound.ordered ?_)
  split
  · exact ((still_modWork s st (fun w => { w with knifeHomeTimer := none }) rfl rfl).trans
      (still_raise st .knifeNotHome _ _)).sound h
  · exact h

theorem sound_buttQuiet (h : s.Sound) (st : StandIx) : (buttQuiet st s).Sound := by
  unfold buttQuiet
  split
  · exact ((still_releaseBrake st s).trans (still_modWork _ st (fun w => { w with brakeKept := false, buttArm := none }) rfl rfl)).sound h
  · split
    · next n sp hs =>
      have hf := State.Follows.of_active hs
      split
      · next e => exact sound_endBraking h hf e.1
      · split
        · next e => exact sound_endUncarried h hf (spindown_of_uncarried hs e.1)
        · exact h
    · exact h

theorem ordered_revQuietTimerExpiry (h : s.Sound) (st : StandIx) : OrderedAfter (execRevQuietTimerExpiry st s) := by
  refine orderedAfter_onDevice h (State.Sound.ordered ?_)
  split
  · exact sound_buttQuiet ((still_modWork s st (fun w => { w with revQuietTimer := none }) rfl rfl).sound h) st
  · exact h

theorem ordered_indexTimerExpiry (h : s.Sound) (st : StandIx) : OrderedAfter (execIndexTimerExpiry st s) := by
  refine orderedAfter_onDevice h (State.Sound.ordered ?_)
  have k := still_raise st .indexTimeout s (none, none)
  split
  · next n sp hs =>
    split
    · next e => exact sound_standEnd (k.sound h) ((State.Follows.of_active hs).still k) (by rw [e.1]; rfl) _
    · exact h
  · exact h

theorem ordered_pullInTimerExpiry (h : s.Sound) (st : StandIx) (o : Output) : OrderedAfter (execPullInTimerExpiry st o s) :=
  orderedAfter_onDevice h ((still_modField s st _).sound h).ordered

/-! ### The auto-arm and the grant (R69, R117, R119) -/

theorem ordered_autoArmAttempt (h : s.Sound) (hk : s.HandlesOnce) (st : StandIx) : OrderedAfter (execAutoArmAttempt st s) := by
  refine orderedAfter_onDevice h (State.Sound.ordered ?_)
  split
  · exact h
  · have ht := (still_modSeq s st (fun q => { q with chainOccasions := q.chainOccasions - 1 }) rfl).sound h
    unfold takeChainOccasion
    dsimp only
    split
    · exact sound_autoArm ht hk st
    · exact ht

/-- The grant takes a waiter to FIRING, where it keeps its reels as before. -/
theorem sameReels_evaluateGrant (h : s.Disciplined) (f : FolderIx) : SameReels s (evaluateGrant f s) := by
  unfold evaluateGrant
  split
  · exact SameReels.refl s
  · split
    · next e he =>
      obtain ⟨sp, hsp, _, _, hwait, _⟩ := (h.waiter f).1 e (List.mem_of_find?_eq_some he)
      unfold grant
      refine ((sameReels_modFolder s f _).trans (sameReels_leaveWaits f e.stand _)).trans
        ((sameReels_setSpliceState e.splice .firing _ (fun x hx => ?_)).trans (sameReels_modWork _ e.stand _ rfl))
      obtain rfl : sp = x := Option.some.inj (hsp.symm.trans hx)
      rw [hwait]; rfl
    · exact SameReels.refl s

theorem ordered_grantEvaluation (h : s.Sound) (f : FolderIx) : OrderedAfter (execGrantEvaluation f s) := by
  refine orderedAfter_onDevice h ?_
  split
  · exact h.ordered
  · have q := quiet_modFolder s f (fun F => { F with grantOccasions := F.grantOccasions - 1 }) rfl (List.Perm.refl _) rfl
    exact h.ordered.of_same ((sameReels_modFolder s f _).trans (sameReels_evaluateGrant (q.disciplined h.disciplined) f))

/-! ### A step -/

/-- Every command keeps the reel records in order. -/
theorem ordered_exec (h : s.Sound) (hk : s.HandlesOnce) (c : Instr) : OrderedAfter (exec c s) := by
  cases c with
  | powerOn => exact ordered_powerOn s
  | resetPinAsserted => exact ordered_resetPinAsserted h
  | resetPinReleased => exact ordered_resetPinReleased h
  | timeCounterTick => exact orderedAfter_modLink h _
  | characterReceived b e => exact ordered_characterReceived h b e
  | interCharacterTimerExpiry => exact orderedAfter_modLink h _
  | transmitAnswer => exact orderedAfter_modLink h _
  | answerLastByteSent => exact ordered_answerLastByteSent h
  | announceReel c code p => exact ordered_announceReel h c code p
  | amendReel c k d => exact ordered_amendReel h c k d
  | mountReel c k stand a => exact ordered_mountReel h c k stand a
  | unmountReel c k => exact ordered_unmountReel h c k
  | retireReel c k => exact ordered_retireReel h c k
  | readReel c k => exact orderedAfter_readsOnly h rfl
  | findReel c code => exact orderedAfter_readsOnly h rfl
  | listStand c stand => exact orderedAfter_readsOnly h rfl
  | threadReel c stand k => exact ordered_threadReel h c stand k
  | writePlanEntry c stand e => exact ordered_writePlanEntry h c stand e
  | readSettings c stand => exact orderedAfter_readsOnly h rfl
  | writeFolder c f cutoff lead trail spacing => exact ordered_writeFolder h c f cutoff lead trail spacing
  | writeProfile c stand p => exact ordered_writeProfile h c stand p
  | writeOneShot c stand v => exact ordered_writeOneShot h c stand v
  | writeRouting c stand mask mode => exact ordered_writeRouting h c stand mask mode
  | armSplice c stand g v => exact ordered_armSplice h hk c stand g v
  | amendSplice c n v => exact ordered_amendSplice h c n v
  | setChain c stand on => exact ordered_setChain h c stand on
  | readSplice c n => exact orderedAfter_readsOnly h rfl
  | startAccel c stand => exact ordered_startAccel h c stand
  | fireSplice c stand => exact ordered_fireSplice h c stand
  | abortSplice c stand => exact ordered_abortSplice h c stand
  | readStatus c stand => exact orderedAfter_readsOnly h rfl
  | acknowledgeStatus c stand serial revision => exact ordered_acknowledgeStatus h c stand serial revision
  | readInputs c stand => exact orderedAfter_readsOnly h rfl
  | clearChanges c stand snapshot => exact ordered_clearChanges h c stand snapshot
  | takeCall c stand flag => exact ordered_takeCall h c stand flag
  | readTrack c f => exact orderedAfter_readsOnly h rfl
  | forceGate c f x => exact ordered_forceGate h c f x
  | resetStand c stand => exact ordered_execResetStand h c stand
  | resetDevice c => exact ordered_resetDevice h c
  | readDevice c => exact orderedAfter_readsOnly h rfl
  | samplingTimerExpiry st x => exact ordered_samplingTimerExpiry h st x
  | starCodeAccepted st code => exact orderedAfter_takeChange h st _ _ (fun _ k _ => sound_starTaken k st code)
  | reelPresentLoss st a => exact ordered_reelPresentLoss h hk st a
  | webPresentLoss st => exact orderedAfter_takeChange h st _ _ (fun _ k _ => sound_webLost k st)
  | pasterEngagedActive st => exact ordered_pasterEngagedActive h st
  | pasterHomeActive st => exact ordered_pasterHomeActive h st
  | knifeHomeActive st => exact ordered_knifeHomeActive h st
  | safetyGateChange st closed => exact ordered_safetyGateChange h st closed
  | driverHotActive st => exact ordered_driverHotActive h st
  | driverHotInactive st => exact orderedAfter_takeChange h st _ _ (fun _ k _ => sound_judgeStart k true st)
  | webCount st d => exact ordered_webCount h st d
  | tachCount st d => exact ordered_tachCount h st d
  | pasteMarkPulse st => exact ordered_pasteMarkPulse h st
  | revPulse st a => exact ordered_revPulse h st a
  | folderCutPulse f => exact ordered_folderCutPulse h f
  | webSpeedTimerExpiry st => exact ordered_webSpeedTimerExpiry h st
  | accelTimerExpiry st => exact ordered_accelTimerExpiry h st
  | quietTimerExpiry st => exact ordered_quietTimerExpiry h st
  | stopTimerExpiry st => exact ordered_stopTimerExpiry h st
  | confirmTimerExpiry st => exact ordered_confirmTimerExpiry h st
  | knifePulseTimerExpiry st => exact ordered_knifePulseTimerExpiry h st
  | knifeHomeTimerExpiry st => exact ordered_knifeHomeTimerExpiry h st
  | revQuietTimerExpiry st => exact ordered_revQuietTimerExpiry h st
  | indexTimerExpiry st => exact ordered_indexTimerExpiry h st
  | pullInTimerExpiry st o => exact ordered_pullInTimerExpiry h st o
  | autoArmAttempt st => exact ordered_autoArmAttempt h hk st
  | grantEvaluation f => exact ordered_grantEvaluation h f

/-- Settles O58: each command keeps the order of the reel records by the lemma of its effect, with the folder discipline
at hand all along; the ascending handles of the Reel Table make the record of a handle the only one. -/
theorem everyStepKeepsTheReelRecords : Obligations.EveryStepKeepsTheReelRecords := by
  intro s t hr hd ho e
  have h : s.Sound := ⟨hd, (reelsInOrder_iff_ordered s).1 ho⟩
  have hk : s.HandlesOnce := hr.reels.1.imp (fun hlt => Nat.ne_of_lt hlt)
  refine (reelsInOrder_iff_ordered t).2 ?_
  cases hp : s.pending with
  | nil =>
    rw [step_nil hp] at e
    exact orderedAfter_next h.ordered t e
  | cons c rest =>
    rw [step_cons hp] at e
    have hpending : ({ s with pending := rest } : State).Sound :=
      (still_of_eq rfl rfl (fun _ => rfl) (fun _ => rfl) : Still s { s with pending := rest }).sound h
    exact ordered_exec hpending hk c t e

end Sys2Proof.Machine
end

section
/-! The requests of the Reel Table (R13 to R28): ANNOUNCE, AMEND, MOUNT, UNMOUNT and RETIRE REEL by their checks and their effects, and
verification by its reasons (AnnounceReelCreatesARecord, AmendReelRefusesOrReplaces, VerificationFindsEveryReason,
MountReelLocatesAndVerifies, UnmountReelByState, RetireReelRemovesTheRecord). -/

namespace Sys2Proof.Machine

/-! ### The checks (R13, R14, R16, R26) -/

theorem handleOk_eq_false (k : Nat) : handleOk k = false ↔ ¬ (1 ≤ k ∧ k ≤ 48) := by rw [← handleOk_iff, Bool.not_eq_true]

theorem reelClient_iff (c : Client) : reelClient c = true ↔ c = .console ∨ c = .logistics := by simp [reelClient]

theorem reelClient_eq_false (c : Client) : reelClient c = false ↔ ¬ (c = .console ∨ c = .logistics) := by
  rw [← reelClient_iff, Bool.not_eq_true]

theorem paperOk_eq_false (p : PaperData) : paperOk p = false ↔ ¬ ((1 ≤ p.grade ∧ p.grade ≤ 63)
    ∧ (40 ≤ p.caliper ∧ p.caliper ≤ 150) ∧ (70 ≤ p.core ∧ p.core ≤ 160) ∧ (600 ≤ p.full ∧ p.full ≤ 1300)) := by
  rw [← Bool.not_eq_true]
  simp [paperOk, gradeOk, caliperOk, coreOk, fullOk, and_assoc]

theorem optOk_iff (test : Nat → Bool) (x : Option Nat) : optOk test x = true ↔ ∀ n, x = some n → test n = true := by
  cases x <;> simp [optOk]

theorem paperAmendOk_iff (d : PaperAmend) : paperAmendOk d = true ↔
    (∀ g, d.grade = some g → 1 ≤ g ∧ g ≤ 63) ∧ (∀ k, d.caliper = some k → 40 ≤ k ∧ k ≤ 150)
    ∧ (∀ k, d.core = some k → 70 ≤ k ∧ k ≤ 160) ∧ (∀ k, d.full = some k → 600 ≤ k ∧ k ≤ 1300) := by
  simp only [paperAmendOk, Bool.and_eq_true, optOk_iff, gradeOk, caliperOk, coreOk, fullOk, decide_eq_true_eq, and_assoc]

theorem freeHandle_eq (s : State) : s.freeHandle = (List.range' 1 48).find? (fun k => (s.reel? k).isNone) := rfl

theorem isSome_reelWithCode (s : State) (code : List Nat) :
    (s.reelWithCode code).isSome = s.reels.any (fun x => decide (x.2.code = code)) := by
  rw [Bool.eq_iff_iff]
  simp [State.reelWithCode]

theorem isSome_reelOn (s : State) (st : StandIx) (a : Arm) :
    (s.reelOn st a).isSome = s.reels.any (fun x => decide (x.2.loc = some (st, a))) := by
  rw [Bool.eq_iff_iff]
  simp [State.reelOn]

/-! ### ANNOUNCE REEL (R14, R16, R22) -/

/-- The checks of ANNOUNCE REEL, one after the other. -/
theorem announceFault_eq (s : State) (c : Client) (code : List Nat) (p : PaperData) : s.announceFault c code p =
    if ¬ (c = .console ∨ c = .logistics) then some .notPermitted
    else if ¬ ((1 ≤ p.grade ∧ p.grade ≤ 63) ∧ (40 ≤ p.caliper ∧ p.caliper ≤ 150) ∧ (70 ≤ p.core ∧ p.core ≤ 160)
        ∧ (600 ≤ p.full ∧ p.full ≤ 1300)) then some (.badRequest false)
    else if ¬ (code.length = 11 ∧ ∀ d ∈ code, d ≤ 9) then some (.badRequest false)
    else if code[10]? ≠ some (checkDigit code) then some (.badRequest true)
    else if s.reels.any (fun x => decide (x.2.code = code)) then some .duplicate
    else none := by
  simp only [State.announceFault, reelClient_eq_false, paperOk_eq_false, codeFault_eq, isSome_reelWithCode]
  by_cases hd : ¬ (code.length = 11 ∧ ∀ d ∈ code, d ≤ 9)
  · simp only [if_pos hd]
  · by_cases hx : code[10]? ≠ some (checkDigit code)
    · simp only [if_neg hd, if_pos hx]
    · simp only [if_neg hd, if_neg hx]

/-- Settles O14: the checks one after the other, then the new record under the lowest free handle. -/
theorem announceReelCreatesARecord : Obligations.AnnounceReelCreatesARecord := by
  intro c code p s h
  simp only [exec, execAnnounceReel]
  rw [serve_of_takes _ h, announceFault_eq, freeHandle_eq]
  by_cases hc : ¬ (c = .console ∨ c = .logistics)
  · simp only [if_pos hc]
  by_cases hp : ¬ ((1 ≤ p.grade ∧ p.grade ≤ 63) ∧ (40 ≤ p.caliper ∧ p.caliper ≤ 150) ∧ (70 ≤ p.core ∧ p.core ≤ 160)
      ∧ (600 ≤ p.full ∧ p.full ≤ 1300))
  · simp only [if_neg hc, if_pos hp]
  by_cases hd : ¬ (code.length = 11 ∧ ∀ d ∈ code, d ≤ 9)
  · simp only [if_neg hc, if_neg hp, if_pos hd]
  by_cases hx : code[10]? ≠ some (checkDigit code)
  · rw [if_neg hc, if_neg hp, if_neg hd, if_neg hc, if_neg hp, if_neg hd, if_pos hx]
    exact (if_pos hx).symm
  rw [if_neg hc, if_neg hp, if_neg hd, if_neg hc, if_neg hp, if_neg hd, if_neg hx]
  refine Eq.trans ?_ (if_neg hx).symm
  by_cases ha : s.reels.any (fun x => decide (x.2.code = code)) = true
  · simp only [if_pos ha]
  · simp only [if_neg ha]
    cases (List.range' 1 48).find? (fun k => (s.reel? k).isNone) <;> rfl

/-! ### Verification (R19) -/

theorem mem_reasonsFor (plan : PlanEntry) (p : Profile) (r : Reel) (x : UnreadyReason) :
    x ∈ reasonsFor plan p r ↔ failsTest plan p r x = true := by
  cases x <;> simp [reasonsFor]

/-- Settles O16: a reason is found exactly when its test fails. -/
theorem verificationFindsEveryReason : Obligations.VerificationFindsEveryReason := by
  intro plan p r
  refine ⟨(mem_reasonsFor plan p r _).trans ?_, (mem_reasonsFor plan p r _).trans ?_, (mem_reasonsFor plan p r _).trans ?_,
    (mem_reasonsFor plan p r _).trans ?_, (mem_reasonsFor plan p r _).trans ?_, (mem_reasonsFor plan p r _).trans ?_, rfl, rfl⟩
  all_goals simp [failsTest]

/-! ### AMEND REEL (R14, R26) -/

/-- In a table that holds a key once, only the record of the key is updated. -/
theorem update_eq_const {α : Type} {k : Nat} {a : α} (f : α → α) : ∀ {t : List (Nat × α)}, (t.map Prod.fst).Nodup →
    Table.find k t = some a → Table.update k f t = Table.update k (fun _ => f a) t
  | [], _, _ => rfl
  | (j, b) :: t, hn, hf => by
    obtain ⟨hj, ht⟩ := List.nodup_cons.1 (show (j :: t.map Prod.fst).Nodup from hn)
    by_cases e : j = k
    · subst e
      obtain rfl : b = a := by simpa [Table.find] using hf
      have hgone : ∀ (g : α → α) (t : List (Nat × α)), j ∉ t.map Prod.fst → Table.update j g t = t := by
        intro g t
        induction t with
        | nil => exact fun _ => rfl
        | cons x t ih =>
          intro hx
          obtain ⟨h1, h2⟩ : j ≠ x.1 ∧ j ∉ t.map Prod.fst := by simpa using hx
          simp [Table.update, Ne.symm h1, ih h2]
      simp [Table.update, hgone _ t hj]
    · have hf' : Table.find k t = some a := by simpa [Table.find, e] using hf
      simp [Table.update, e, update_eq_const f ht hf']

theorem modReel_eq_const {s : State} (hk : s.HandlesOnce) {k : Nat} {r : Reel} (hr : s.reel? k = some r) (f : Reel → Reel) :
    s.modReel k f = s.modReel k (fun _ => f r) := by
  unfold State.modReel
  rw [update_eq_const f hk hr]

theorem reel?_modReel_of_some {s : State} {k : Nat} {r : Reel} (hr : s.reel? k = some r) (f : Reel → Reel) :
    (s.modReel k f).reel? k = some (f r) := by
  rw [reel?_modReel, hr]
  rfl

theorem verdict_of_reel? {s : State} {k : Nat} {r : Reel} (hr : s.reel? k = some r) : s.verdict k = .verdict r.state r.reasons := by
  rw [State.verdict, hr]

/-- The answer and the effect of AMEND REEL on a record, once the checks of R14 have passed (R26). -/
def amendRecord (k : Nat) (d : PaperAmend) (r : Reel) (s : State) : Answer × State :=
  match amendFault r d with
  | some .locked => (plain .locked, s.modReel k (fun r => { r with notes := addTo .amendLocked r.notes }))
  | some e => (plain e, s)
  | none =>
    let t := s.modReel k (fun r => { r with paper := amendPaper r.paper d })
    let t := match r.loc with
      | some (st, _) => verifyReel st k s t
      | none => t
    (doneWith (t.verdict k), t)

/-- The checks of R14 on AMEND REEL, one after the other. -/
theorem exec_amendReel {c : Client} {k : Nat} {d : PaperAmend} {s : State} (h : s.takes (.amendReel c k d)) :
    exec (.amendReel c k d) s =
      if ¬ (1 ≤ k ∧ k ≤ 48) then answered (.amendReel c k d) badRequest s
      else
        match s.reel? k with
        | none => answered (.amendReel c k d) (plain .notFound) s
        | some r =>
          if ¬ (c = .console ∨ c = .logistics) then answered (.amendReel c k d) notPermitted s
          else .next (deliver (.amendReel c k d) (amendRecord k d r s).1 (amendRecord k d r s).2) := by
  simp only [exec, execAmendReel]
  rw [serve_of_takes _ h]
  simp only [handleOk_eq_false, reelClient_eq_false]
  split
  · rfl
  · cases s.reel? k with
    | none => rfl
    | some r =>
      dsimp only
      split <;> rfl

/-- AMEND REEL on a record that the client may amend. -/
theorem exec_amendReel_of_record {c : Client} {k : Nat} {d : PaperAmend} {r : Reel} {s : State} (h : s.takes (.amendReel c k d))
    (hk : 1 ≤ k ∧ k ≤ 48) (hr : s.reel? k = some r) (hc : c = .console ∨ c = .logistics) :
    exec (.amendReel c k d) s = .next (deliver (.amendReel c k d) (amendRecord k d r s).1 (amendRecord k d r s).2) := by
  rw [exec_amendReel h, if_neg (not_not.2 hk), hr]
  exact if_neg (not_not.2 hc)

theorem amendFault_butt {r : Reel} {d : PaperAmend} (h : r.state = .butt) : amendFault r d = some (.refused .wrongState) := if_pos h

theorem amendFault_locked {r : Reel} {d : PaperAmend} (h1 : r.state ≠ .butt)
    (h2 : r.reservedBy ≠ none ∨ r.state = .committed ∨ r.state = .running) : amendFault r d = some .locked := by
  rw [amendFault, if_neg h1, if_pos (by rwa [Option.isSome_iff_ne_none])]

theorem amendFault_free {r : Reel} {d : PaperAmend} (h1 : r.reservedBy = none)
    (h2 : r.state = .floor ∨ r.state = .mounted ∨ r.state = .ready) :
    amendFault r d = if paperAmendOk d = false then some (.badRequest false) else none := by
  rcases h2 with e | e | e <;> simp [amendFault, h1, e]

theorem amendFault_accepted {r : Reel} {d : PaperAmend} (h1 : r.reservedBy = none)
    (h2 : r.state = .floor ∨ r.state = .mounted ∨ r.state = .ready) (hd : paperAmendOk d = true) : amendFault r d = none := by
  rw [amendFault_free h1 h2, hd]
  rfl

/-- A record amended off the stands. -/
theorem amendRecord_unlocated {k : Nat} {d : PaperAmend} {r : Reel} {s : State} (hn : s.HandlesOnce) (hr : s.reel? k = some r)
    (hf : amendFault r d = none) (hl : r.loc = none) : amendRecord k d r s =
      (doneWith (.verdict r.state r.reasons), s.modReel k (fun _ => { r with paper := amendPaper r.paper d })) := by
  simp only [amendRecord, hf, hl]
  rw [verdict_of_reel? (reel?_modReel_of_some hr _), modReel_eq_const hn hr]
  simp only [hl]

/-- A record amended on a stand is verified there and handed on (R19 to R21). -/
theorem amendRecord_located {k : Nat} {d : PaperAmend} {r : Reel} {s : State} (hn : s.HandlesOnce) (hr : s.reel? k = some r)
    (hf : amendFault r d = none) {st : StandIx} {a : Arm} (hl : r.loc = some (st, a)) (hres : r.reservedBy = none)
    (hs : r.state = .mounted ∨ r.state = .ready) :
    let v := verify (s.stand st).plan (s.stand st).profile { r with paper := amendPaper r.paper d }
    amendRecord k d r s = (doneWith (.verdict v.state v.reasons), handOn st s (s.modReel k (fun _ => v))) := by
  intro v
  have hv : verifiable st { r with paper := amendPaper r.paper d } = true := by simp [verifiable, onStand, hl, hres, hs]
  have hreel : verifyReel st k s (s.modReel k (fun r => { r with paper := amendPaper r.paper d })) =
      handOn st s (s.modReel k (fun _ => v)) := by
    unfold verifyReel
    rw [modReel_modReel, modReel_eq_const hn hr]
    simp only [hv, if_true, stand_modReel]
    rfl
  have hk : (handOn st s (s.modReel k (fun _ => v))).reel? k = some v := by rw [reel?_handOn]; exact reel?_modReel_of_some hr _
  simp only [amendRecord, hf, hl, hreel]
  rw [verdict_of_reel? hk]

/-- Settles O15: a check that fails answers; a record amended while located is verified and handed on. -/
theorem amendReelRefusesOrReplaces : Obligations.AmendReelRefusesOrReplaces := by
  refine ⟨fun c k d s h => ⟨fun hk => ?_, fun hk hr => ?_, fun r hk hr => ⟨fun hc => ?_, fun hc => ⟨fun hb => ?_, fun hb hl => ?_,
    fun hn hs hp => ?_⟩⟩⟩, fun c k d r s h hnodup hc hk hr hn hg hcal hcore hfull => ?_⟩
  · rw [exec_amendReel h]
    exact if_pos hk
  · rw [exec_amendReel h, if_neg (not_not.2 hk), hr]
  · rw [exec_amendReel h, if_neg (not_not.2 hk), hr]
    exact if_pos hc
  · rw [exec_amendReel_of_record h hk hr hc, amendRecord, amendFault_butt hb]
  · rw [exec_amendReel_of_record h hk hr hc, amendRecord, amendFault_locked hb hl]
    rfl
  · have hbad : paperAmendOk d = false := by rw [← Bool.not_eq_true, paperAmendOk_iff]; exact hp
    rw [exec_amendReel_of_record h hk hr hc, amendRecord, amendFault_free hn hs, if_pos hbad]
  · have hok : paperAmendOk d = true := (paperAmendOk_iff d).2 ⟨hg, hcal, hcore, hfull⟩
    refine ⟨fun hs hloc => ?_, fun st a hloc hs => ?_⟩
    · rw [exec_amendReel_of_record h hk hr hc, amendRecord_unlocated hnodup hr (amendFault_accepted hn (.inl hs) hok) hloc, hs]
      rfl
    · rw [exec_amendReel_of_record h hk hr hc, amendRecord_located hnodup hr (amendFault_accepted hn (.inr hs) hok) hloc hn hs]
      rfl

/-! ### MOUNT REEL (R14, R25) -/

/-- Settles O17: the checks one after the other, then the reel located, verified and handed on. -/
theorem mountReelLocatesAndVerifies : Obligations.MountReelLocatesAndVerifies := by
  intro c k stand a s h
  simp only [exec, execMountReel]
  rw [serve_of_takes _ h]
  by_cases hs : (1 ≤ k ∧ k ≤ 48) ∧ 1 ≤ stand ∧ stand ≤ 12
  · obtain ⟨hk, hst⟩ := hs
    have hstand : standIx stand = some ⟨stand - 1, by omega⟩ := dif_pos hst
    rw [dif_pos ⟨hk, hst⟩, hstand, (handleOk_iff k).2 hk]
    generalize (⟨stand - 1, by omega⟩ : StandIx) = st
    cases hr : s.reel? k with
    | none => rfl
    | some r =>
      have hcl : (reelClient c = false ∧ c ≠ .panel st) ↔ ¬ (c = .console ∨ c = .logistics ∨ c = .panel st) := by
        rw [reelClient_eq_false, ← or_assoc, not_or (q := c = .panel st)]
      have hact : s.isActive st (.reelPresent a) = false ↔ s.accepted st (.reelPresent a) ≠ some 1 := by simp [State.isActive]
      simp only [hcl, isSome_reelOn, hact]
      split
      · rfl
      · split
        · rfl
        · split
          · rfl
          · split
            · rfl
            · rw [verdict_of_reel? (by rw [reel?_handOn]; exact reel?_modReel_of_some hr _)]
              rfl
  · rw [dif_neg hs]
    rcases not_and_or.1 hs with hk | hst
    · rw [(handleOk_eq_false k).2 hk]
      cases standIx stand <;> rfl
    · rw [(standIx_eq_none stand).2 hst]
      cases handleOk k <;> rfl

/-! ### UNMOUNT REEL (R14, R27) -/

theorem mayUnmount_eq_false (c : Client) (r : Reel) :
    mayUnmount c r = false ↔ ¬ (c = .console ∨ c = .logistics ∨ r.loc.map (fun l => Client.panel l.1) = some c) := by
  rw [← Bool.not_eq_true, mayUnmount, Bool.or_eq_true, reelClient_iff, or_assoc]
  cases r.loc with
  | none => simp
  | some l => simp [eq_comm]

/-- Settles O18: the checks of R14, then the table of R27 by location and state. -/
theorem unmountReelByState : Obligations.UnmountReelByState := by
  intro c k s h
  simp only [exec, execUnmountReel]
  rw [serve_of_takes _ h]
  simp only [handleOk_eq_false, mayUnmount_eq_false]
  split
  · rfl
  · cases hr : s.reel? k with
    | none => rfl
    | some r =>
      simp only
      split
      · rfl
      · by_cases hn : r.reservedBy ≠ none
        · simp only [unmount, if_pos hn, if_pos (Option.isSome_iff_ne_none.2 hn)]
        · have hfree : ¬ r.reservedBy.isSome = true := by rwa [Option.isSome_iff_ne_none]
          simp only [unmount, if_neg hn, if_neg hfree]
          rcases hl : r.loc with _ | ⟨st, a⟩
          · -- off the arms: nothing to hand on
            have hat : ∀ t, handOnAt r s t = t := fun t => by rw [handOnAt, hl]
            cases r.state with
            | mounted | ready => exact congrArg (fun t => (.next (deliver _ done t) : Res)) (hat _)
            | floor | running | committed | butt => rfl
          · have hat : ∀ t, handOnAt r s t = handOn st s t := fun t => by rw [handOnAt, hl]
            cases r.state with
            | mounted | ready | butt => exact congrArg (fun t => (.next (deliver _ done t) : Res)) (hat _)
            | floor | running | committed => rfl

/-! ### RETIRE REEL (R14, R28) -/

/-- Settles O19: the checks of R14, then a record of the floor or a butt removed. -/
theorem retireReelRemovesTheRecord : Obligations.RetireReelRemovesTheRecord := by
  intro c k s h
  simp only [exec, execRetireReel]
  rw [serve_of_takes _ h]
  simp only [handleOk_eq_false, reelClient_eq_false]
  split
  · rfl
  · cases s.reel? k with
    | none => rfl
    | some r =>
      dsimp only
      split
      · rfl
      · split
        · unfold handOnAt
          cases r.loc <;> rfl
        · rfl

end Sys2Proof.Machine
end

section
/-! THREAD REEL (R14, R29): the checks, then the threaded reel (ThreadReelMakesItRun). -/

namespace Sys2Proof.Machine

/-- The other running reels of the stand fall off the web (R29 step 1). -/
theorem mapAll_toButt (st : StandIx) (k : Nat) (t : List (Nat × Reel)) :
    Table.mapAll (fun j x => if x.state = ReelState.running ∧ onStand st x = true ∧ j ≠ k then toButt x else x) t =
      t.map (fun (x : Nat × Reel) =>
        if x.2.state = .running ∧ (∃ a, x.2.loc = some (st, a)) ∧ x.1 ≠ k then (x.1, toButt x.2) else x) := by
  unfold Table.mapAll
  refine List.map_congr_left (fun x _ => ?_)
  simp only [onStand_iff]
  split <;> rfl

/-- The checks of THREAD REEL on a record, one after the other (R29). -/
theorem threadFault_eq (s : State) (st : StandIx) (r : Reel) : s.threadFault st r =
    if (s.stand st).plan.inPlan = false then some (.refused .notInPlan)
    else if (s.work st).active.isSome then some .busy
    else if r.loc.isNone ∨ r.loc ≠ (armAt (s.stand st).star .run).map (fun a => (st, a)) then some (.refused .notAtRun)
    else if ¬ (r.state = .mounted ∨ r.state = .ready ∨ r.state = .running) then some (.refused .wrongState)
    else none := by
  simp only [State.threadFault, ite_not]

/-- Settles O21: the checks one after the other, then the reel threaded. -/
theorem threadReelMakesItRun : Obligations.ThreadReelMakesItRun := by
  intro c stand k s h
  simp only [exec, execThreadReel]
  rw [serve_of_takes _ h]
  by_cases hs : (1 ≤ stand ∧ stand ≤ 12) ∧ 1 ≤ k ∧ k ≤ 48
  · obtain ⟨hst, hk⟩ := hs
    have hstand : standIx stand = some ⟨stand - 1, by omega⟩ := dif_pos hst
    rw [dif_pos ⟨hst, hk⟩, hstand, (handleOk_iff k).2 hk]
    generalize (⟨stand - 1, by omega⟩ : StandIx) = st
    cases hr : s.reel? k with
    | none => rfl
    | some r =>
      dsimp only
      rw [threadFault_eq, ← mapAll_toButt]
      by_cases hmode : byMode (s.stand st).queue.mode st c = false
      · simp only [if_pos hmode]
        rfl
      by_cases hplan : (s.stand st).plan.inPlan = false
      · simp only [if_neg hmode, if_pos hplan]
      by_cases hbusy : (s.work st).active.isSome = true
      · simp only [if_neg hmode, if_neg hplan, if_pos hbusy]
      by_cases hrun : r.loc.isNone ∨ r.loc ≠ (armAt (s.stand st).star .run).map (fun a => (st, a))
      · simp only [if_neg hmode, if_neg hplan, if_neg hbusy, if_pos hrun]
      by_cases hstate : ¬ (r.state = .mounted ∨ r.state = .ready ∨ r.state = .running)
      · simp only [if_neg hmode, if_neg hplan, if_neg hbusy, if_neg hrun, if_pos hstate]
      simp only [if_neg hmode, if_neg hplan, if_neg hbusy, if_neg hrun, if_neg hstate, thread, decide_eq_true_eq]
      rfl
  · rw [dif_neg hs]
    rcases not_and_or.1 hs with hst | hk
    · rw [(standIx_eq_none stand).2 hst]
      cases handleOk k <;> rfl
    · rw [(handleOk_eq_false k).2 hk]
      cases standIx stand <;> rfl

end Sys2Proof.Machine
end

section
/-! Run-out risk, the reel call, the hand-over of a reel change and the attention lines (RiskCallHandOverAndLines). -/

namespace Sys2Proof.Machine

/-! ### Run-out risk (R48, R49) -/

theorem jointMade_eq (x : SpliceState) :
    jointMade x = decide (x = .pasting ∨ x = .cutting ∨ x = .braking ∨ x = .indexing) := by
  cases x <;> rfl

/-- The test of R48, written out. -/
theorem riskTest_eq (st : StandIx) (s : State) : s.riskTest st =
    ((match s.runningDiameter st with
        | some d => decide ((d : Int) ≤ s.lastChance st)
        | none => false)
      && !(match s.spliceState st with
        | some x => decide (x = .pasting ∨ x = .cutting ∨ x = .braking ∨ x = .indexing)
        | none => false)) := by
  unfold State.riskTest
  simp only [jointMade_eq] <;> rfl

/-- RUN_OUT_RISK is raised at the change of the test from no to yes, once per running reel; the gauge follows the test. -/
theorem evalRisk_eq (st : StandIx) (s : State) : evalRisk st s =
    if s.riskTest st = true ∧ (s.stand st).gauge.inRisk = false ∧ (s.stand st).gauge.riskRaised = false then
      raise st .runOutRisk (s.modGauge st (fun g => { g with inRisk := true, riskRaised := true }))
    else s.modGauge st (fun g => { g with inRisk := s.riskTest st }) := by
  unfold evalRisk
  by_cases h : s.riskTest st = true ∧ (s.stand st).gauge.inRisk = false ∧ (s.stand st).gauge.riskRaised = false
  · obtain ⟨hrisk, hno, hnew⟩ := h
    simp [hrisk, hno, hnew]
  · have hquiet : (s.riskTest st && !(s.stand st).gauge.inRisk && !(s.stand st).gauge.riskRaised) = false := by
      simpa [← and_assoc] using h
    rw [if_neg h]
    simp [hquiet]

/-- The last-chance diameter (R48). -/
theorem lastChance_of_none {st : StandIx} {s : State} (h : s.activeSplice st = none) :
    s.lastChance st = (s.stand st).profile.params.lastChance := by
  simp only [State.lastChance, h]

theorem lastChance_of_active {st : StandIx} {s : State} {n : Nat} {sp : Splice} (h : s.activeSplice st = some (n, sp)) :
    s.lastChance st = if sp.state = .armed then (s.stand st).profile.params.lastChance
      else sp.params.lastChance.getD (s.stand st).profile.params.lastChance := by
  simp only [State.lastChance, h]

/-! ### The lines (R50, R157, R159) -/

theorem mem_allStands : ∀ st : StandIx, st ∈ allStands := by decide

theorem any_allStands (p : StandIx → Bool) : allStands.any p = true ↔ ∃ st, p st = true := by
  simp [List.any_eq_true, mem_allStands]

theorem inputsToPanel_iff (q : Queue) : q.inputsToPanel = true ↔ q.mask.getLsbD 12 = true ∧ q.mode = .localMode := by
  simp [Queue.inputsToPanel, inputsBit]

theorem attnCon_iff {s : State} (h : s.runs) : s.attnCon = true ↔
    ∃ st : StandIx, (∃ e ∈ (s.stand st).queue.entries, e.destination = .console)
      ∨ ((s.stand st).field.changes ≠ [] ∧ ¬ ((s.stand st).queue.mask.getLsbD 12 = true ∧ (s.stand st).queue.mode = .localMode)) := by
  simp only [State.attnCon, h, Bool.not_false, Bool.true_and, Bool.or_eq_true, List.any_eq_true,
    decide_eq_true_eq, Bool.and_eq_true, Bool.not_eq_true', List.isEmpty_eq_false_iff, ← inputsToPanel_iff, Bool.not_eq_true,
    mem_allStands, true_and]

theorem panelLamp_iff {s : State} (h : s.runs) (st : StandIx) : s.panelLamp st = true ↔
    (∃ e ∈ (s.stand st).queue.entries, e.destination = .panel)
      ∨ ((s.stand st).field.changes ≠ [] ∧ (s.stand st).queue.mask.getLsbD 12 = true ∧ (s.stand st).queue.mode = .localMode) := by
  simp only [State.panelLamp, h, Bool.not_false, Bool.true_and, Bool.or_eq_true, List.any_eq_true, decide_eq_true_eq,
    Bool.and_eq_true, Bool.not_eq_true', List.isEmpty_eq_false_iff, inputsToPanel_iff]

/-- Settles O36: each evaluation by the branches of its definition, each line by the stands that assert it. -/
theorem riskCallHandOverAndLines : Obligations.RiskCallHandOverAndLines := by
  refine ⟨fun st s => ?_, fun st s => ⟨lastChance_of_none, fun n sp h => ⟨fun ha => ?_, fun ha l hl => ?_⟩⟩,
    fun s h => ⟨?_, attnCon_iff h, panelLamp_iff h, ?_⟩, fun st s => ?_, fun st b s => ?_⟩
  · have h := evalRisk_eq st s
    rw [riskTest_eq] at h
    exact h
  · rw [lastChance_of_active h, if_pos ha]
  · rw [lastChance_of_active h, if_neg ha, hl]
    rfl
  · simp only [State.stopReq, h, Bool.not_false, Bool.true_and, any_allStands]
  · simp only [State.attnLog, h, Bool.not_false, Bool.true_and, any_allStands, Bool.or_eq_true]
  · unfold evalReelCall
    dsimp only
    refine congrArg (s.modQueue st) (funext fun q => ?_)
    have hcall : ∀ c : Bool, (q.reelCall || (c && !q.callCondition)) = if c = true ∧ q.callCondition = false then true else q.reelCall := by
      intro c
      cases c <;> cases q.callCondition <;> simp
    rw [hcall]
    rfl
  · unfold handOn
    simp only [Option.isNone_iff_eq_none, Option.isSome_iff_ne_none]
    rfl

end Sys2Proof.Machine
end

section
/-! The invariants after a full reset (R170; InvariantsHoldAtReset). -/

namespace Sys2Proof.Machine

/-- No queue holds an entry, no stand an active splice, and no splice is recorded. -/
theorem queuesInOrder_afterReset (cause : ResetCause) : (State.afterReset cause).QueuesInOrder := by
  have hwaits : ∀ f, ((State.afterReset cause).folder f).waits = [] := fun f => by rw [folder_afterReset]; rfl
  have hentries : ∀ st, ((State.afterReset cause).stand st).queue.entries = [] := fun st => by rw [stand_afterReset]; rfl
  have hidle : ∀ st, ((State.afterReset cause).work st).active = none := fun st => by rw [State.work, stand_afterReset]; rfl
  have hsplices : ∀ n, (State.afterReset cause).splice? n = none := fun _ => rfl
  constructor
  case waits => simp [hwaits]
  case serials => simp [hentries]
  case attributed => simp [hentries]
  case recorded => simp [hentries]
  case newest => simp [hidle]
  case values => simp [hsplices]
  case waste => simp [hsplices]

/-- Settles O60: the reset state by its empty tables and its reset values. -/
theorem invariantsHoldAtReset : Obligations.InvariantsHoldAtReset :=
  ⟨inRange_afterReset .power, disciplined_reset .power, (reelsInOrder_iff_ordered _).2 (ordered_afterReset .power),
    queuesInOrder_afterReset .power⟩

end Sys2Proof.Machine
end

section
/-! What the loss of a reel or of the web does (R32, R101, R106): the marks of a stand under a purge and under the splice
sequence. -/

namespace Sys2Proof.Machine

/-! ### The stands under the operations on splices and reels -/

@[simp] theorem stand_setCause (n : Nat) (c : EndCause) (s : State) (i : StandIx) : (setCause n c s).stand i = s.stand i :=
  stand_modSplice s n _ i

@[simp] theorem stand_noteSplice (n : Nat) (x : SpliceNote) (s : State) (i : StandIx) : (noteSplice n x s).stand i = s.stand i :=
  stand_modSplice s n _ i

@[simp] theorem stand_setSpliceState (n : Nat) (x : SpliceState) (s : State) (i : StandIx) :
    (setSpliceState n x s).stand i = s.stand i := stand_modSplice s n _ i

@[simp] theorem stand_giveBack (st : StandIx) (u : Bool) (k : Nat) (s : State) (i : StandIx) :
    (giveBack st u k s).stand i = s.stand i := stand_modReel s k _ i

@[simp] theorem stand_copyResiduals (n out : Nat) (s : State) (i : StandIx) : (copyResiduals n out s).stand i = s.stand i := by
  unfold copyResiduals
  split <;> simp

@[simp] theorem stand_markLeaves (x : MarkState) (n : Nat) (s : State) (i : StandIx) : (markLeaves x n s).stand i = s.stand i := by
  unfold markLeaves
  split
  · unfold unlist
    split <;> simp
  · rfl

theorem stand_foldl {α : Type} (g : State → α → State) {i : StandIx} (hg : ∀ s a, (g s a).stand i = s.stand i) (l : List α) :
    ∀ s : State, (l.foldl g s).stand i = s.stand i := by
  induction l with
  | nil => exact fun _ => rfl
  | cons a l ih => exact fun s => (ih (g s a)).trans (hg s a)

@[simp] theorem stand_purge (test : Nat → Splice → Bool) (s : State) (i : StandIx) : (purge test s).stand i = s.stand i := by
  unfold purge
  dsimp only
  rw [stand_foldl _ (fun t f => stand_grantOccasion f t i), stand_foldl _ (fun t (p : Nat × Splice) => stand_retire p.1 t i),
    stand_foldl _ (fun t (p : Nat × Splice) => stand_markLeaves .purged p.1 t i)]

@[simp] theorem stand_purgeStand (st : StandIx) (s : State) (i : StandIx) : (purgeStand st s).stand i = s.stand i :=
  stand_purge _ s i

@[simp] theorem stand_leaveSlot (sp : Splice) (s : State) (i : StandIx) : (leaveSlot sp s).stand i = s.stand i := by
  unfold leaveSlot
  split <;> simp

@[simp] theorem stand_leaveArbiter (st : StandIx) (sp : Splice) (s : State) (i : StandIx) :
    (leaveArbiter st sp s).stand i = s.stand i := by
  unfold leaveArbiter
  (repeat' split) <;> simp

/-! ### A record under a purge (R126) -/

/-- The record whose mark has left its track. -/
def Splice.left (final : MarkState) (x : Splice) : Splice := { x with mark := { x.mark with state := final } }

theorem splice?_markLeaves (final : MarkState) (n m : Nat) (s : State) :
    (markLeaves final n s).splice? m = if m = n then (s.splice? m).map (Splice.left final) else s.splice? m := by
  have hunlist : ∀ (sp : Splice) (t : State), (unlist n sp t).splice? m = t.splice? m := by
    intro sp t
    unfold unlist
    split <;> rfl
  unfold markLeaves
  split
  · rw [hunlist]
    exact splice?_modSplice_eq s n m _
  · next h =>
    split
    · next e =>
      rw [e, h]
      rfl
    · rfl

/-- Marks leave together: the records named by the list, each once. -/
theorem splice?_marksLeave (final : MarkState) (m : Nat) (l : List (Nat × Splice)) : ∀ s : State,
    (l.foldl (fun s p => markLeaves final p.1 s) s).splice? m =
      if m ∈ l.map Prod.fst then (s.splice? m).map (Splice.left final) else s.splice? m := by
  induction l with
  | nil => exact fun _ => rfl
  | cons p l ih =>
    intro s
    rw [List.foldl_cons, ih, splice?_markLeaves, List.map_cons]
    by_cases hp : m = p.1
    · have hagain : ((s.splice? m).map (Splice.left final)).map (Splice.left final) = (s.splice? m).map (Splice.left final) := by
        rw [Option.map_map]
        rfl
      have hmem : m ∈ p.1 :: l.map Prod.fst := by
        rw [hp]
        exact List.mem_cons_self
      rw [if_pos hp, if_pos hmem, hagain, ite_self]
    · have hmem : m ∈ p.1 :: l.map Prod.fst ↔ m ∈ l.map Prod.fst := by simp [hp]
      simp only [if_neg hp, hmem]

theorem splice?_of_retires {m : Nat} (l : List (Nat × Splice)) : ∀ {s : State} {x : Splice},
    (l.foldl (fun s p => retire p.1 s) s).splice? m = some x → s.splice? m = some x := by
  induction l with
  | nil => exact fun h => h
  | cons p l ih => exact fun h => splice?_of_retire (ih h)

theorem splice?_retires {m : Nat} (l : List (Nat × Splice)) : ∀ {s : State} {x : Splice}, s.splice? m = some x →
    isEnded x.state = false → (l.foldl (fun s p => retire p.1 s) s).splice? m = some x := by
  induction l with
  | nil => exact fun h _ => h
  | cons p l ih =>
    intro s x h he
    refine ih ?_ he
    rcases splice?_retire p.1 m s with e | ⟨rfl, _, y, hy, hend, _⟩
    · rw [e, h]
    · rw [h] at hy
      cases hy
      rw [he] at hend
      cases hend

theorem splice?_grants (m : Nat) (l : List FolderIx) : ∀ s : State,
    (l.foldl (fun s f => grantOccasion f s) s).splice? m = s.splice? m := by
  induction l with
  | nil => exact fun _ => rfl
  | cons f l ih => exact fun s => (ih (grantOccasion f s)).trans (splice?_grantOccasion f s m)

/-- A record after a purge is one from before it, its mark purged if it was hit. -/
theorem splice?_of_purge {test : Nat → Splice → Bool} {s : State} {m : Nat} {x : Splice} (h : (purge test s).splice? m = some x) :
    ∃ y, s.splice? m = some y ∧ x = if m ∈ (s.marksWhere test).map Prod.fst then y.left .purged else y := by
  unfold purge at h
  dsimp only at h
  rw [splice?_grants] at h
  have hx := splice?_of_retires _ h
  rw [splice?_marksLeave] at hx
  split at hx
  · obtain ⟨y, hy, rfl⟩ := Option.map_eq_some_iff.1 hx
    exact ⟨y, hy, by simp [*]⟩
  · exact ⟨x, hx, by simp [*]⟩

/-- The record of a splice that has not ended stays through a purge. -/
theorem splice?_purge {test : Nat → Splice → Bool} {s : State} {m : Nat} {x : Splice} (h : s.splice? m = some x)
    (he : isEnded x.state = false) :
    (purge test s).splice? m = some (if m ∈ (s.marksWhere test).map Prod.fst then x.left .purged else x) := by
  unfold purge
  dsimp only
  rw [splice?_grants]
  refine splice?_retires _ ?_ (by split <;> exact he)
  rw [splice?_marksLeave, h]
  split <;> rfl

theorem mem_marksWhere {test : Nat → Splice → Bool} {s : State} {m : Nat} {x : Splice} (h : s.splice? m = some x)
    (hmark : x.mark.state = .onTrack) (ht : test m x = true) : m ∈ (s.marksWhere test).map Prod.fst :=
  List.mem_map.2 ⟨(m, x), List.mem_filter.2 ⟨mem_of_find h, by simp [hmark, ht]⟩, rfl⟩

theorem mem_marksWhere_iff {test : Nat → Splice → Bool} {s : State} (hn : (s.splices.map Prod.fst).Nodup) {m : Nat} {x : Splice}
    (h : s.splice? m = some x) : m ∈ (s.marksWhere test).map Prod.fst ↔ x.mark.state = .onTrack ∧ test m x = true := by
  refine ⟨fun hm => ?_, fun ⟨h1, h2⟩ => mem_marksWhere h h1 h2⟩
  obtain ⟨⟨k, y⟩, hp, rfl⟩ := List.mem_map.1 hm
  obtain ⟨hy, htest⟩ := List.mem_filter.1 hp
  have hxy : some x = some y := h.symm.trans (find_of_mem hn hy)
  obtain rfl := Option.some.inj hxy
  simpa using htest

/-! ### No mark of the stand is left on a track (R106) -/

/-- No recorded splice of the stand has its mark ON_TRACK. -/
def State.NoMarks (s : State) (st : StandIx) : Prop :=
  ∀ n x, s.splice? n = some x → x.stand = st → x.mark.state ≠ .onTrack

/-- Nothing puts a mark on a track: each record comes from one of the same splice with the same mark, or with one off its track. -/
def KeepsMarksOff (s t : State) : Prop :=
  ∀ n x, t.splice? n = some x → ∃ y, s.splice? n = some y ∧ x.stand = y.stand ∧ (x.mark.state = .onTrack → y.mark.state = .onTrack)

theorem KeepsMarksOff.noMarks {s t : State} (k : KeepsMarksOff s t) {st : StandIx} (h : s.NoMarks st) : t.NoMarks st := by
  intro n x hx hst hmark
  obtain ⟨y, hy, hstand, hon⟩ := k n x hx
  exact h n y hy (hstand.symm.trans hst) (hon hmark)

theorem KeepsMarksOff.trans {s t u : State} (h : KeepsMarksOff s t) (k : KeepsMarksOff t u) : KeepsMarksOff s u := by
  intro n x hx
  obtain ⟨y, hy, h1, h2⟩ := k n x hx
  obtain ⟨z, hz, h3, h4⟩ := h n y hy
  exact ⟨z, hz, h1.trans h3, fun e => h4 (h2 e)⟩

theorem keepsMarksOff_of_eq {s t : State} (h : ∀ n, t.splice? n = s.splice? n) : KeepsMarksOff s t :=
  fun n x hx => ⟨x, (h n).symm.trans hx, rfl, id⟩

theorem keepsMarksOff_modSplice (s : State) (n : Nat) (f : Splice → Splice) (hf : ∀ x, (f x).stand = x.stand ∧ (f x).mark = x.mark) :
    KeepsMarksOff s (s.modSplice n f) := by
  intro m x hx
  rw [splice?_modSplice_eq] at hx
  split at hx
  · obtain ⟨y, hy, rfl⟩ := Option.map_eq_some_iff.1 hx
    obtain ⟨h1, h2⟩ := hf y
    exact ⟨y, hy, h1, fun e => h2 ▸ e⟩
  · exact ⟨x, hx, rfl, id⟩

theorem keepsMarksOff_setCause (n : Nat) (c : EndCause) (s : State) : KeepsMarksOff s (setCause n c s) :=
  keepsMarksOff_modSplice s n _ (fun _ => ⟨rfl, rfl⟩)

theorem keepsMarksOff_retire (n : Nat) (s : State) : KeepsMarksOff s (retire n s) :=
  fun _ x hx => ⟨x, splice?_of_retire hx, rfl, id⟩

theorem keepsMarksOff_purge (test : Nat → Splice → Bool) (s : State) : KeepsMarksOff s (purge test s) := by
  intro n x hx
  obtain ⟨y, hy, rfl⟩ := splice?_of_purge hx
  refine ⟨y, hy, by split <;> rfl, fun e => ?_⟩
  split at e
  · cases e
  · exact e

theorem noMarks_purgeStand (st : StandIx) (s : State) : (purgeStand st s).NoMarks st := by
  intro n x hx hst hmark
  obtain ⟨y, hy, rfl⟩ := splice?_of_purge hx
  split at hst
  · simp [Splice.left, *] at hmark
  · next hm =>
    rw [if_neg hm] at hmark
    exact hm (mem_marksWhere hy hmark (decide_eq_true hst))

theorem keepsMarksOff_enterSpindown (st : StandIx) (n : Nat) (o : SpinOutcome) (s : State) :
    KeepsMarksOff s (enterSpindown st n o s) :=
  (keepsMarksOff_modSplice s n (fun sp => { sp with state := .spindown }) (fun _ => ⟨rfl, rfl⟩)).trans
    (keepsMarksOff_of_eq (fun _ => rfl))

theorem keepsMarksOff_endSplice (st : StandIx) (n : Nat) (x : SpliceState) (c : Condition) (s : State) :
    KeepsMarksOff s (endSplice st n x c s) :=
  (keepsMarksOff_of_eq (fun k => splice?_raise st c s _ k)).trans
    ((keepsMarksOff_modSplice (raise st c s) n (fun sp => { sp with state := x, ended := some (raise st c s).now })
      (fun _ => ⟨rfl, rfl⟩)).trans (keepsMarksOff_of_eq (fun _ => rfl)))

theorem keepsMarksOff_giveUp (st : StandIx) (n : Nat) (sp : Splice) (c : EndCause) (s : State) :
    KeepsMarksOff s (giveUp st n sp c s) := by
  have hend : KeepsMarksOff s (immediateAbort st n sp c s) :=
    ((keepsMarksOff_setCause n c s).trans (keepsMarksOff_endSplice st n .aborted .spliceVoid _)).trans
      ((keepsMarksOff_of_eq (fun k => splice?_giveBack st false sp.incoming _ k)).trans ((keepsMarksOff_retire n _).trans
        (keepsMarksOff_of_eq (fun k => splice?_evalRisk st _ k))))
  have hspin : KeepsMarksOff s (abortToSpindown st n sp c s) :=
    ((keepsMarksOff_setCause n c s).trans (keepsMarksOff_of_eq (fun k => by rw [splice?_leaveArbiter]; rfl))).trans
      (keepsMarksOff_enterSpindown st n .aborted _)
  unfold giveUp
  cases sp.state with
  | armed => exact hend
  | accel | matched | waiting | firing => exact hspin
  | pasting | cutting | braking | indexing | spindown | completed | aborted | failed => exact keepsMarksOff_of_eq (fun _ => rfl)

end Sys2Proof.Machine
end

section
/-! The loss of a reel or of the web (R32, R101, R106): the stand through a splice not carried, and the losses by the record and by
the splice's state (LossesOfReelAndWeb). -/

namespace Sys2Proof.Machine

/-! ### Field, gauge and flags under the shared operations -/

@[simp] theorem field_raise (st : StandIx) (c : Condition) (s : State) (r : Option Nat × Option Nat) :
    ((raise st c s r).stand st).field = (s.stand st).field := by simp [raise]

@[simp] theorem seq_raise (st : StandIx) (c : Condition) (s : State) (r : Option Nat × Option Nat) :
    ((raise st c s r).stand st).seq = (s.stand st).seq := by simp [raise]

@[simp] theorem gauge_raise (st : StandIx) (c : Condition) (s : State) (r : Option Nat × Option Nat) :
    ((raise st c s r).stand st).gauge = (s.stand st).gauge := by simp [raise]

@[simp] theorem plan_raise (st : StandIx) (c : Condition) (s : State) (r : Option Nat × Option Nat) :
    ((raise st c s r).stand st).plan = (s.stand st).plan := by simp [raise]

@[simp] theorem profile_raise (st : StandIx) (c : Condition) (s : State) (r : Option Nat × Option Nat) :
    ((raise st c s r).stand st).profile = (s.stand st).profile := by simp [raise]

@[simp] theorem field_evalRisk (st : StandIx) (s : State) : ((evalRisk st s).stand st).field = (s.stand st).field := by
  unfold evalRisk
  dsimp only
  split <;> simp

@[simp] theorem field_handOn (st : StandIx) (b s : State) : ((handOn st b s).stand st).field = (s.stand st).field := by
  unfold handOn
  dsimp only
  split <;> simp [evalReelCall, chainOccasion]

@[simp] theorem gauge_handOn (st : StandIx) (b s : State) : ((handOn st b s).stand st).gauge = (s.stand st).gauge := by
  unfold handOn
  dsimp only
  split <;> simp [evalReelCall, chainOccasion]

@[simp] theorem webBroken_handOn (st : StandIx) (b s : State) :
    ((handOn st b s).stand st).seq.webBroken = (s.stand st).seq.webBroken := by
  unfold handOn
  dsimp only
  split <;> simp [evalReelCall, chainOccasion]

@[simp] theorem webBroken_enterSpindown (st : StandIx) (n : Nat) (o : SpinOutcome) (s : State) :
    ((enterSpindown st n o s).stand st).seq.webBroken = (s.stand st).seq.webBroken := by simp [enterSpindown]

theorem webBroken_giveUp (st : StandIx) (n : Nat) (sp : Splice) (c : EndCause) (s : State) :
    ((giveUp st n sp c s).stand st).seq.webBroken = (s.stand st).seq.webBroken := by
  have himmediate : ((immediateAbort st n sp c s).stand st).seq.webBroken = (s.stand st).seq.webBroken := by
    simp [immediateAbort, seq_evalRisk, endSplice, endRecord]
  have hspin : ((abortToSpindown st n sp c s).stand st).seq.webBroken = (s.stand st).seq.webBroken := by
    simp [abortToSpindown]
  unfold giveUp
  cases sp.state with
  | armed => exact himmediate
  | accel | matched | waiting | firing => exact hspin
  | pasting | cutting | braking | indexing | spindown | completed | aborted | failed => rfl

/-- What the evaluation of run-out risk leaves of the gauge: all but the two flags of R48 and R49. -/
theorem gauge_evalRisk (st : StandIx) (s : State) : ∃ x y,
    ((evalRisk st s).stand st).gauge = { (s.stand st).gauge with inRisk := x, riskRaised := y } := by
  unfold evalRisk
  dsimp only
  split
  · exact ⟨_, _, by rw [gauge_raise, stand_modGauge]⟩
  · exact ⟨_, _, by rw [stand_modGauge]⟩

/-- Without a running reel there is no risk. -/
theorem gauge_evalRisk_of_noRunningReel {st : StandIx} {s : State} (h : s.runningReel st = none) :
    ((evalRisk st s).stand st).gauge = { (s.stand st).gauge with inRisk := false } := by
  have hrisk : s.riskTest st = false := by simp [State.riskTest, State.runningDiameter, h]
  rw [evalRisk_eq, if_neg (by simp [hrisk]), stand_modGauge, hrisk]

/-- A condition held stays held through the evaluations. -/
theorem holds_evalRisk {st : StandIx} {s : State} {c : Condition} (h : (s.stand st).queue.Holds c) :
    ((evalRisk st s).stand st).queue.Holds c := by
  rcases queue_evalRisk st s with e | e <;> rw [e]
  · exact h
  · exact h.place _ _ _ _

theorem entries_handOn (st : StandIx) (b s : State) : ((handOn st b s).stand st).queue.entries = (s.stand st).queue.entries := by
  unfold handOn
  dsimp only
  split <;> simp [evalReelCall, chainOccasion]

/-! ### The slot left (R120) -/

@[simp] theorem splice?_leaveSlot (sp : Splice) (s : State) (n : Nat) : (leaveSlot sp s).splice? n = s.splice? n := by
  unfold leaveSlot
  split <;> simp

@[simp] theorem reels_leaveSlot (sp : Splice) (s : State) : (leaveSlot sp s).reels = s.reels := by
  unfold leaveSlot
  split <;> simp

@[simp] theorem work_leaveSlot (sp : Splice) (s : State) (i : StandIx) : (leaveSlot sp s).work i = s.work i := by
  unfold leaveSlot
  split <;> simp

theorem slot_leaveSlot {sp : Splice} {f : FolderIx} (h : sp.folder = some f) (s : State) : ((leaveSlot sp s).folder f).slot = none := by
  unfold leaveSlot
  rw [h]
  simp [slot_releaseSlot]

/-! ### The failed paste (R98) -/

/-- The stand with its paste failed and its mark, if it was placed, purged. -/
def pasteStopped (st : StandIx) (n : Nat) (s : State) : State :=
  let t := (releasePaster st s).modWork st (fun w => { w with confirmTimer := none })
  if (s.work st).markPlaced then purge (fun k _ => decide (k = n)) t else t

theorem failPaste_eq (st : StandIx) (n : Nat) (sp : Splice) (s : State) : failPaste st n sp s =
    evalRisk st (handOn st s (enterSpindown st n .failed (leaveSlot sp
      (noteSplice n .pasteUsed (giveBack st true sp.incoming (pasteStopped st n s)))))) := rfl

theorem seq_pasteStopped (st : StandIx) (n : Nat) (s : State) :
    ((pasteStopped st n s).stand st).seq.webBroken = (s.stand st).seq.webBroken := by
  unfold pasteStopped
  dsimp only
  split <;> simp [releasePaster]

theorem keepsMarksOff_pasteStopped (st : StandIx) (n : Nat) (s : State) : KeepsMarksOff s (pasteStopped st n s) := by
  have k : KeepsMarksOff s ((releasePaster st s).modWork st (fun w => { w with confirmTimer := none })) :=
    keepsMarksOff_of_eq (fun _ => rfl)
  unfold pasteStopped
  dsimp only
  split
  · exact k.trans (keepsMarksOff_purge _ _)
  · exact k

theorem webBroken_failPaste (st : StandIx) (n : Nat) (sp : Splice) (s : State) :
    ((failPaste st n sp s).stand st).seq.webBroken = (s.stand st).seq.webBroken := by
  rw [failPaste_eq, seq_evalRisk, webBroken_handOn, webBroken_enterSpindown, stand_leaveSlot, stand_noteSplice, stand_giveBack,
    seq_pasteStopped]

theorem keepsMarksOff_failPaste (st : StandIx) (n : Nat) (sp : Splice) (s : State) : KeepsMarksOff s (failPaste st n sp s) := by
  have hnote : KeepsMarksOff (pasteStopped st n s) (noteSplice n .pasteUsed (giveBack st true sp.incoming (pasteStopped st n s))) :=
    keepsMarksOff_modSplice (giveBack st true sp.incoming (pasteStopped st n s)) n _ (fun _ => ⟨rfl, rfl⟩)
  rw [failPaste_eq]
  exact (((keepsMarksOff_pasteStopped st n s).trans hnote).trans (keepsMarksOff_of_eq (fun k => splice?_leaveSlot sp _ k))).trans
    ((keepsMarksOff_enterSpindown st n .failed _).trans (keepsMarksOff_of_eq (fun k => by rw [splice?_evalRisk, splice?_handOn])))

/-! ### A splice not carried (R101) -/

/-- The splice not carried, up to the purge: raised, paster and knife released, the web broken, the marks purged, the slot free. -/
def webGone (st : StandIx) (n : Nat) (sp : Splice) (s : State) : State :=
  leaveSlot sp (purgeStand st ((releaseKnife st (releasePaster st (raise st .spliceNotCarried (setCause n .spliceNotCarried s)))).modSeq
    st (fun q => { q with webBroken := true })))

/-- The splice not carried, up to the hand-over: both reels changed, the residuals copied, the gauge afresh, braking and spinning
down. -/
def reelsGone (st : StandIx) (n : Nat) (sp : Splice) (arm : Option Arm) (s : State) : State :=
  enterSpindown st n .failed (startBraking st arm ((copyResiduals n sp.outgoing (noteSplice n .pasteUsed
    (giveBack st true sp.incoming (s.modReel sp.outgoing toButt)))).modGauge st (fun g => { g.afresh with riskRaised := false })))

theorem notCarried_eq (st : StandIx) (n : Nat) (sp : Splice) (s : State) : notCarried st n sp s =
    evalRisk st (handOn st s (reelsGone st n sp (s.armOf sp.outgoing) (webGone st n sp s))) := rfl

/-- The knife released if its pulse runs (R99, R141). -/
theorem releaseKnife_eq (st : StandIx) (s : State) :
    releaseKnife st s = if (s.stand st).field.knifePulse = none then s else endKnifePulse st s := by
  unfold releaseKnife
  cases (s.stand st).field.knifePulse <;> simp

theorem field_endKnifePulse (st : StandIx) (s : State) : ((endKnifePulse st s).stand st).field =
    { (s.stand st).field with knife := { drive := .off, pullInTimer := none }, knifePulse := none } := by
  unfold endKnifePulse
  dsimp only
  split <;> simp [Actuator.release]

theorem work_endKnifePulse (st : StandIx) (s : State) : (endKnifePulse st s).work st =
    if s.accepted st .knifeHome = some 1 then s.work st else { s.work st with knifeHomeTimer := some 500 } := by
  have hacc : (s.modField st (fun x => { x with knife := x.knife.release, knifePulse := none })).isActive st .knifeHome = true
      ↔ s.accepted st .knifeHome = some 1 := by simp [State.isActive, State.accepted, Field.input]
  unfold endKnifePulse
  simp only [hacc]
  split <;> simp

theorem field_releaseKnife (st : StandIx) (s : State) : ((releaseKnife st s).stand st).field = { (s.stand st).field with
    knife := if (s.stand st).field.knifePulse = none then (s.stand st).field.knife else { drive := .off, pullInTimer := none }
    knifePulse := none } := by
  rw [releaseKnife_eq]
  by_cases h : (s.stand st).field.knifePulse = none
  · rw [if_pos h, if_pos h, ← h]
  · rw [if_neg h, if_neg h, field_endKnifePulse]

theorem work_releaseKnife (st : StandIx) (s : State) : (releaseKnife st s).work st = { s.work st with
    knifeHomeTimer := if (s.stand st).field.knifePulse = none ∨ s.accepted st .knifeHome = some 1 then (s.work st).knifeHomeTimer
      else some 500 } := by
  rw [releaseKnife_eq]
  by_cases h : (s.stand st).field.knifePulse = none
  · rw [if_pos h, if_pos (.inl h)]
  · rw [if_neg h, work_endKnifePulse]
    simp only [h, false_or]
    split <;> rfl

theorem seq_releaseKnife (st : StandIx) (s : State) :
    ((releaseKnife st s).stand st).plan = (s.stand st).plan ∧ ((releaseKnife st s).stand st).profile = (s.stand st).profile
    ∧ ((releaseKnife st s).stand st).queue = (s.stand st).queue := by
  unfold releaseKnife endKnifePulse
  dsimp only
  (repeat' split) <;> simp

/-- The stand of a splice not carried, once the web is gone. -/
theorem stand_webGone (st : StandIx) (n : Nat) (sp : Splice) (s : State) :
    ((webGone st n sp s).stand st).plan = (s.stand st).plan ∧ ((webGone st n sp s).stand st).profile = (s.stand st).profile
    ∧ ((webGone st n sp s).stand st).seq.webBroken = true ∧ ((webGone st n sp s).stand st).queue.Holds .spliceNotCarried := by
  obtain ⟨hplan, hprofile, hqueue⟩ :=
    seq_releaseKnife st (releasePaster st (raise st .spliceNotCarried (setCause n .spliceNotCarried s)))
  unfold webGone
  simp only [stand_leaveSlot, stand_purgeStand, stand_modSeq, hplan, hprofile, hqueue]
  refine ⟨by simp [releasePaster], by simp [releasePaster], trivial, ?_⟩
  have h := Queue.holds_place (s.stand st).queue .spliceNotCarried (s.work st).active s.now (none, none)
  simpa [releasePaster, raise, State.now] using h

theorem field_webGone (st : StandIx) (n : Nat) (sp : Splice) (s : State) : ((webGone st n sp s).stand st).field =
    { (s.stand st).field with
      paster := { drive := .off, pullInTimer := none }
      knife := if (s.stand st).field.knifePulse = none then (s.stand st).field.knife else { drive := .off, pullInTimer := none }
      knifePulse := none } := by
  unfold webGone
  simp only [stand_leaveSlot, stand_purgeStand, stand_modSeq, field_releaseKnife]
  simp [releasePaster, Actuator.release]

theorem work_webGone (st : StandIx) (n : Nat) (sp : Splice) (s : State) : (webGone st n sp s).work st =
    { s.work st with
      knifeHomeTimer := if (s.stand st).field.knifePulse = none ∨ s.accepted st .knifeHome = some 1 then (s.work st).knifeHomeTimer
        else some 500 } := by
  have hpurge : ∀ t : State, (purgeStand st t).work st = t.work st := fun t => (kept_purge _ t).work st
  let t := releasePaster st (raise st .spliceNotCarried (setCause n .spliceNotCarried s))
  have hfield : (t.stand st).field = { (s.stand st).field with paster := { drive := .off, pullInTimer := none } } := by
    simp [t, releasePaster, Actuator.release]
  have hwork : t.work st = s.work st := by simp [t]
  have hacc : t.accepted st .knifeHome = s.accepted st .knifeHome := by rw [State.accepted, hfield]; rfl
  unfold webGone
  rw [work_leaveSlot, hpurge, work_modSeq _ _ _ (fun q => { q with webBroken := true }) (fun _ => rfl), work_releaseKnife, hfield,
    hacc, hwork]

theorem reels_webGone (st : StandIx) (n : Nat) (sp : Splice) (s : State) : (webGone st n sp s).reels = s.reels := by
  have hpurge : ∀ t : State, (purgeStand st t).reels = t.reels := fun t => (keepsHolds_purge _ t).reels
  simp [webGone, hpurge]

/-- The record of a splice not carried, once the web is gone: its cause set, its mark purged. -/
theorem splice?_webGone {st : StandIx} {n : Nat} {sp : Splice} {s : State} (h : s.splice? n = some sp) (hst : sp.stand = st)
    (hs : sp.state = .cutting) :
    ∃ mark, (webGone st n sp s).splice? n = some { sp with cause := some (sp.cause.getD .spliceNotCarried), mark := mark }
      ∧ ((s.splices.map Prod.fst).Nodup →
          mark = if sp.mark.state = .onTrack then { sp.mark with state := .purged } else sp.mark) := by
  let b := (releaseKnife st (releasePaster st (raise st .spliceNotCarried (setCause n .spliceNotCarried s)))).modSeq st
    (fun q => { q with webBroken := true })
  have hb : b.splice? n = some { sp with cause := some (sp.cause.getD .spliceNotCarried) } := by
    refine (splice?_releaseKnife st _ n).trans ?_
    rw [splice?_releasePaster, splice?_raise, splice?_setCause, h]
    rfl
  have hkeys : b.splices.map Prod.fst = s.splices.map Prod.fst := by simp [b, setCause, keys_update]
  have hp := splice?_purge (test := fun _ x => decide (x.stand = st)) hb (by rw [hs]; rfl)
  refine ⟨if n ∈ (b.marksWhere (fun _ x => decide (x.stand = st))).map Prod.fst then { sp.mark with state := .purged } else sp.mark,
    ?_, fun hn => ?_⟩
  · rw [webGone, splice?_leaveSlot]
    refine hp.trans ?_
    split <;> rfl
  · rw [← hkeys] at hn
    simp only [mem_marksWhere_iff hn hb, hst, decide_true, and_true]

/-- A BRAKE energised (R101, R140). -/
theorem field_startBraking (st : StandIx) (a : Option Arm) (s : State) : ((startBraking st a s).stand st).field =
    { (s.stand st).field with
      brake := if (s.stand st).field.brake.drive ≠ .off then (s.stand st).field.brake
        else if s.accepted st .driverHot = some 1 then { drive := .hold, pullInTimer := none }
        else { drive := .pullIn, pullInTimer := some (s.stand st).profile.settings.pullIn } } := by
  have henergise : ∀ x : Actuator, x.energise (s.isActive st .driverHot) (s.stand st).profile.settings.pullIn =
      if x.drive ≠ .off then x
      else if s.accepted st .driverHot = some 1 then { drive := .hold, pullInTimer := none }
      else { drive := .pullIn, pullInTimer := some (s.stand st).profile.settings.pullIn } := by
    intro x
    unfold Actuator.energise
    cases x.drive <;> simp [State.isActive]
  rw [startBraking, stand_modWork, energiseBrake, stand_modField]
  dsimp only
  rw [henergise]

theorem work_reelsGone (st : StandIx) (n : Nat) (sp : Splice) (a : Option Arm) (s : State) :
    (reelsGone st n sp a s).work st = { s.work st with
      outcome := some .failed, demand := 0, accelTimer := none, revolution := none, goodCount := 0, matched := false
      confirmTimer := none, buttArm := a, brakeKept := false
      stopTimer := some ((s.stand st).profile.settings.stopTimeout * 1000), quietTimer := some 2000, revQuietTimer := some 3000 } := by
  simp [reelsGone, enterSpindown, startBraking, energiseBrake, quietMs, revQuietMs]

theorem stand_reelsGone (st : StandIx) (n : Nat) (sp : Splice) (a : Option Arm) (s : State) :
    ((reelsGone st n sp a s).stand st).gauge = { (s.stand st).gauge with
      ref := false, revCount := 0, runMark := 0, tripped := false, streak := 0, riskRaised := false }
    ∧ ((reelsGone st n sp a s).stand st).queue = (s.stand st).queue
    ∧ ((reelsGone st n sp a s).stand st).seq.webBroken = (s.stand st).seq.webBroken := by
  simp [reelsGone, enterSpindown, startBraking, energiseBrake, Gauge.afresh]

theorem field_reelsGone (st : StandIx) (n : Nat) (sp : Splice) (a : Option Arm) (s : State) :
    ((reelsGone st n sp a s).stand st).field = { (s.stand st).field with
      brake := if (s.stand st).field.brake.drive ≠ .off then (s.stand st).field.brake
        else if s.accepted st .driverHot = some 1 then { drive := .hold, pullInTimer := none }
        else { drive := .pullIn, pullInTimer := some (s.stand st).profile.settings.pullIn } } := by
  let t := (copyResiduals n sp.outgoing (noteSplice n .pasteUsed (giveBack st true sp.incoming (s.modReel sp.outgoing
    toButt)))).modGauge st (fun g => { g.afresh with riskRaised := false })
  have hfield : (t.stand st).field = (s.stand st).field := by simp [t]
  have hprofile : (t.stand st).profile = (s.stand st).profile := by simp [t]
  have hacc : t.accepted st .driverHot = s.accepted st .driverHot := by rw [State.accepted, hfield, State.accepted]
  have h := field_startBraking st a t
  rw [hfield, hprofile, hacc] at h
  rw [reelsGone, enterSpindown, stand_modWork, stand_setSpliceState]
  exact h

theorem folder_reelsGone (st : StandIx) (n : Nat) (sp : Splice) (a : Option Arm) (s : State) (f : FolderIx) :
    (reelsGone st n sp a s).folder f = s.folder f := by
  simp [reelsGone, enterSpindown]

/-- The two reels of a splice not carried (R31, R101). -/
theorem reels_reelsGone (st : StandIx) (n : Nat) (sp : Splice) (a : Option Arm) (s : State) : (reelsGone st n sp a s).reels =
    (giveBack st true sp.incoming (s.modReel sp.outgoing toButt)).reels := by
  simp [reelsGone, enterSpindown]

/-- The outgoing reel after both have changed: a butt, also if it is the incoming reel that was given back. -/
theorem outgoing_giveBack_toButt (st : StandIx) (sp : Splice) (s : State) :
    ∃ f : Reel → Reel, (giveBack st true sp.incoming (s.modReel sp.outgoing toButt)).reel? sp.outgoing = (s.reel? sp.outgoing).map f
      ∧ ∀ r, (f r).residualDiameter = r.diameter
        ∧ (f r).residualLength = r.diameter.map (fun d => remainingLength d r.paper.core r.paper.caliper) := by
  rw [giveBack_eq]
  by_cases h : sp.outgoing = sp.incoming
  · rw [← h, reel?_modReel, reel?_modReel, Option.map_map]
    exact ⟨_, rfl, fun r => ⟨rfl, rfl⟩⟩
  · rw [reel?_modReel_ne _ _ h, reel?_modReel]
    exact ⟨toButt, rfl, fun r => ⟨rfl, rfl⟩⟩

theorem splice?_reelsGone {st : StandIx} {n : Nat} {sp x : Splice} {s : State} (a : Option Arm) (h : s.splice? n = some x) :
    (reelsGone st n sp a s).splice? n = some { x with
      state := .spindown, notes := addTo .pasteUsed x.notes
      residualDiameter := (s.reel? sp.outgoing).elim x.residualDiameter (fun r => r.diameter)
      residualLength := (s.reel? sp.outgoing).elim x.residualLength
        (fun r => r.diameter.map (fun d => remainingLength d r.paper.core r.paper.caliper)) } := by
  let t := noteSplice n .pasteUsed (giveBack st true sp.incoming (s.modReel sp.outgoing toButt))
  have hx : t.splice? n = some { x with notes := addTo .pasteUsed x.notes } := by
    rw [splice?_noteSplice, splice?_giveBack]
    exact congrArg (Option.map _) h
  obtain ⟨f, hf, hres⟩ := outgoing_giveBack_toButt st sp s
  have hreel : t.reel? sp.outgoing = (s.reel? sp.outgoing).map f := (reel?_noteSplice n .pasteUsed _ _).trans hf
  have hcopy : (copyResiduals n sp.outgoing t).splice? n = some { x with
      notes := addTo .pasteUsed x.notes
      residualDiameter := (s.reel? sp.outgoing).elim x.residualDiameter (fun r => r.diameter)
      residualLength := (s.reel? sp.outgoing).elim x.residualLength
        (fun r => r.diameter.map (fun d => remainingLength d r.paper.core r.paper.caliper)) } := by
    unfold copyResiduals
    rw [hreel]
    cases s.reel? sp.outgoing with
    | none => exact hx
    | some r =>
      obtain ⟨hd, hl⟩ := hres r
      refine (splice?_modSplice t n _).trans ?_
      rw [hx]
      simp [hd, hl]
  have hbrake : ∀ u : State, (startBraking st a (u.modGauge st (fun g => { g.afresh with riskRaised := false }))).splice? n =
      u.splice? n := fun u => splice?_startBraking st a _ n
  rw [reelsGone, enterSpindown, splice?_modWork, splice?_setSpliceState, hbrake, hcopy]
  rfl

theorem update_eq_map {α : Type} (k : Nat) (f : α → α) (t : List (Nat × α)) :
    Table.update k f t = t.map (fun p => (p.1, if p.1 = k then f p.2 else p.2)) := by
  induction t with
  | nil => rfl
  | cons p t ih => rw [Table.update, ih, List.map_cons]

/-- Neither reel of a splice not carried runs, so without another running reel on the stand there is none. -/
theorem runningReel_giveBack_toButt {st : StandIx} {sp : Splice} {s : State}
    (h : ∀ p ∈ s.reels, p.2.state = .running → onStand st p.2 = true → p.1 = sp.outgoing) :
    (giveBack st true sp.incoming (s.modReel sp.outgoing toButt)).runningReel st = none := by
  refine List.find?_eq_none.2 (fun p hp hrun => ?_)
  simp only [giveBack_eq, reels_modReel, update_eq_map, List.map_map, List.mem_map, Function.comp_apply] at hp
  obtain ⟨q, hq, rfl⟩ := hp
  obtain ⟨hstate, hon⟩ := Bool.and_eq_true_iff.1 hrun
  have hstate := of_decide_eq_true hstate
  split at hstate
  · exact givenBack_not_running _ _ _ _ hstate
  · next hinc =>
    split at hstate
    · exact toButt_not_running _ hstate
    · next hout =>
      simp only [if_neg hinc, if_neg hout] at hon
      exact hout (h q hq hstate hon)

theorem runningReel_of_reels {s t : State} (h : t.reels = s.reels) (st : StandIx) : t.runningReel st = s.runningReel st := by
  rw [State.runningReel, h, State.runningReel]

/-- What a splice not carried leaves (R101). -/
theorem notCarried_stand (st : StandIx) (n : Nat) (sp : Splice) (s : State) :
    (notCarried st n sp s).work st = { s.work st with
      outcome := some .failed, demand := 0, accelTimer := none, revolution := none, goodCount := 0, matched := false
      confirmTimer := none, buttArm := s.armOf sp.outgoing, brakeKept := false
      knifeHomeTimer :=
        if (s.stand st).field.knifePulse = none ∨ s.accepted st .knifeHome = some 1 then (s.work st).knifeHomeTimer else some 500
      stopTimer := some ((s.stand st).profile.settings.stopTimeout * 1000), quietTimer := some 2000, revQuietTimer := some 3000 }
    ∧ ((notCarried st n sp s).stand st).field = { (s.stand st).field with
        paster := { drive := .off, pullInTimer := none }
        knife := if (s.stand st).field.knifePulse = none then (s.stand st).field.knife else { drive := .off, pullInTimer := none }
        knifePulse := none
        brake := if (s.stand st).field.brake.drive ≠ .off then (s.stand st).field.brake
          else if s.accepted st .driverHot = some 1 then { drive := .hold, pullInTimer := none }
          else { drive := .pullIn, pullInTimer := some (s.stand st).profile.settings.pullIn } }
    ∧ ((notCarried st n sp s).stand st).seq.webBroken = true
    ∧ ((notCarried st n sp s).stand st).queue.Holds .spliceNotCarried := by
  obtain ⟨hplan, hprofile, hbroken, hheld⟩ := stand_webGone st n sp s
  have hfield := field_webGone st n sp s
  have hacc : (webGone st n sp s).accepted st .driverHot = s.accepted st .driverHot := by rw [State.accepted, hfield]; rfl
  obtain ⟨_, hqueue, hweb⟩ := stand_reelsGone st n sp (s.armOf sp.outgoing) (webGone st n sp s)
  rw [notCarried_eq]
  refine ⟨?_, ?_, ?_, holds_evalRisk ?_⟩
  · rw [work_evalRisk, work_handOn, work_reelsGone, work_webGone, hprofile]
  · rw [field_evalRisk, field_handOn, field_reelsGone, hacc, hprofile, hfield]
  · rw [seq_evalRisk, webBroken_handOn, hweb, hbroken]
  · rw [Queue.Holds, entries_handOn, hqueue]
    exact hheld

/-- The gauge after a splice not carried: afresh, and with no other running reel on the stand out of risk (R43, R49). -/
theorem notCarried_gauge (st : StandIx) (n : Nat) (sp : Splice) (s : State) :
    let g := ((notCarried st n sp s).stand st).gauge
    g.ref = false ∧ g.revCount = 0 ∧ g.runMark = 0 ∧ g.tripped = false ∧ g.streak = 0
    ∧ ((∀ p ∈ s.reels, p.2.state = .running → onStand st p.2 = true → p.1 = sp.outgoing) →
        g.inRisk = false ∧ g.riskRaised = false) := by
  intro g
  let u := handOn st s (reelsGone st n sp (s.armOf sp.outgoing) (webGone st n sp s))
  have hu : (u.stand st).gauge = { ((webGone st n sp s).stand st).gauge with
      ref := false, revCount := 0, runMark := 0, tripped := false, streak := 0, riskRaised := false } :=
    (gauge_handOn st s _).trans (stand_reelsGone st n sp _ _).1
  obtain ⟨x, y, he⟩ := gauge_evalRisk st u
  have hg : g = { (u.stand st).gauge with inRisk := x, riskRaised := y } := he
  rw [hu] at hg
  refine ⟨by rw [hg], by rw [hg], by rw [hg], by rw [hg], by rw [hg], fun h => ?_⟩
  have hnone : u.runningReel st = none := by
    have hr : u.reels = (giveBack st true sp.incoming ((webGone st n sp s).modReel sp.outgoing toButt)).reels :=
      (reels_handOn st s _).trans (reels_reelsGone st n sp _ _)
    rw [runningReel_of_reels hr]
    exact runningReel_giveBack_toButt (by rw [reels_webGone]; exact h)
  have hcalm : g = { (u.stand st).gauge with inRisk := false } := gauge_evalRisk_of_noRunningReel hnone
  rw [hu] at hcalm
  exact ⟨by rw [hcalm], by rw [hcalm]⟩

/-- The two reels of a splice not carried, and the others (R31, R101). -/
theorem notCarried_reels (st : StandIx) (n : Nat) (sp : Splice) (s : State) (hne : sp.outgoing ≠ sp.incoming) :
    (∀ r, s.reel? sp.outgoing = some r → (notCarried st n sp s).reel? sp.outgoing = some (toButt r))
    ∧ (∀ r, s.reel? sp.incoming = some r → (notCarried st n sp s).reel? sp.incoming =
        some (givenBack (s.stand st).plan (s.stand st).profile true r))
    ∧ (∀ k, k ≠ sp.outgoing → k ≠ sp.incoming → (notCarried st n sp s).reel? k = s.reel? k) := by
  obtain ⟨hplan, hprofile, _, _⟩ := stand_webGone st n sp s
  have hreel : ∀ k, (notCarried st n sp s).reel? k = ((s.modReel sp.outgoing toButt).modReel sp.incoming
      (givenBack (s.stand st).plan (s.stand st).profile true)).reel? k := by
    intro k
    rw [notCarried_eq, reel?_evalRisk, reel?_handOn, State.reel?, reels_reelsGone, giveBack_eq, stand_modReel, hplan, hprofile,
      reels_modReel, reels_modReel, reels_webGone]
    rfl
  refine ⟨fun r hr => ?_, fun r hr => ?_, fun k ho hi => ?_⟩
  · rw [hreel, reel?_modReel_ne _ _ hne, reel?_modReel, hr]
    rfl
  · rw [hreel, reel?_modReel, reel?_modReel_ne _ _ hne.symm, hr]
    rfl
  · rw [hreel, reel?_modReel_ne _ _ hi, reel?_modReel_ne _ _ ho]

/-- The record of a splice not carried (R101, R126). -/
theorem notCarried_splice {st : StandIx} {n : Nat} {sp : Splice} {s : State} (h : s.splice? n = some sp) (hst : sp.stand = st)
    (hs : sp.state = .cutting) :
    ∃ mark, (notCarried st n sp s).splice? n = some { sp with
        state := .spindown, cause := some (sp.cause.getD .spliceNotCarried), notes := addTo .pasteUsed sp.notes, mark := mark
        residualDiameter := (s.reel? sp.outgoing).elim sp.residualDiameter (fun r => r.diameter)
        residualLength := (s.reel? sp.outgoing).elim sp.residualLength
          (fun r => r.diameter.map (fun d => remainingLength d r.paper.core r.paper.caliper)) }
      ∧ ((s.splices.map Prod.fst).Nodup →
          mark = if sp.mark.state = .onTrack then { sp.mark with state := .purged } else sp.mark) := by
  obtain ⟨mark, hw, hmark⟩ := splice?_webGone h hst hs
  have hreel : (webGone st n sp s).reel? sp.outgoing = s.reel? sp.outgoing := by rw [State.reel?, reels_webGone, State.reel?]
  refine ⟨mark, ?_, hmark⟩
  rw [notCarried_eq, splice?_evalRisk, splice?_handOn, splice?_reelsGone _ hw, hreel]

theorem noMarks_notCarried (st : StandIx) (n : Nat) (sp : Splice) (s : State) : (notCarried st n sp s).NoMarks st := by
  have hgone : (webGone st n sp s).NoMarks st :=
    (keepsMarksOff_of_eq (fun k => splice?_leaveSlot sp _ k)).noMarks (noMarks_purgeStand st _)
  have hnote : ∀ t : State, KeepsMarksOff t (noteSplice n .pasteUsed (giveBack st true sp.incoming (t.modReel sp.outgoing toButt))) :=
    fun t => keepsMarksOff_modSplice (giveBack st true sp.incoming (t.modReel sp.outgoing toButt)) n _ (fun _ => ⟨rfl, rfl⟩)
  have hcopy : ∀ t : State, KeepsMarksOff t (copyResiduals n sp.outgoing t) := by
    intro t
    unfold copyResiduals
    split
    · exact keepsMarksOff_modSplice t n _ (fun _ => ⟨rfl, rfl⟩)
    · exact keepsMarksOff_of_eq (fun _ => rfl)
  have hgauge : ∀ t : State, KeepsMarksOff t (startBraking st (s.armOf sp.outgoing)
      (t.modGauge st (fun g => { g.afresh with riskRaised := false }))) :=
    fun t => keepsMarksOff_of_eq (fun k => splice?_startBraking st _ _ k)
  rw [notCarried_eq]
  exact ((((hnote _).trans (hcopy _)).trans (hgauge _)).trans ((keepsMarksOff_enterSpindown st n .failed _).trans
    (keepsMarksOff_of_eq (fun k => by rw [splice?_evalRisk, splice?_handOn, reelsGone])))).noMarks hgone

/-! ### The loss of the web (R106) -/

theorem webBroken_webLost (st : StandIx) (s : State) : ((webLost st s).stand st).seq.webBroken = true := by
  have hbreak : ((webBreak st s).stand st).seq.webBroken = true := by
    have ht : ((purgeStand st ((raise st .webBreak s).modSeq st (fun q => { q with webBroken := true }))).stand st).seq.webBroken =
        true := by rw [stand_purgeStand, stand_modSeq]
    unfold webBreak
    dsimp only
    split
    · exact ht
    · split
      case h_1 | h_2 | h_3 | h_4 | h_5 => rw [webBroken_handOn, webBroken_giveUp, ht]
      case h_6 => rw [webBroken_failPaste, stand_setCause, ht]
      all_goals exact ht
  unfold webLost
  split
  · split
    · exact (notCarried_stand st _ _ s).2.2.1
    · exact hbreak
  · exact hbreak

theorem noMarks_webLost (st : StandIx) (s : State) : (webLost st s).NoMarks st := by
  have hbreak : (webBreak st s).NoMarks st := by
    have ht := noMarks_purgeStand st ((raise st .webBreak s).modSeq st (fun q => { q with webBroken := true }))
    unfold webBreak
    dsimp only
    split
    · exact ht
    · split
      case h_1 | h_2 | h_3 | h_4 | h_5 =>
        exact ((keepsMarksOff_giveUp st _ _ .webBreak _).trans (keepsMarksOff_of_eq (fun k => splice?_handOn st s _ k))).noMarks ht
      case h_6 => exact ((keepsMarksOff_setCause _ .webBreak _).trans (keepsMarksOff_failPaste st _ _ _)).noMarks ht
      all_goals exact ht
  unfold webLost
  split
  · split
    · exact noMarks_notCarried st _ _ s
    · exact hbreak
  · exact hbreak

theorem webLost_of_not_cutting {st : StandIx} {s : State} (h : s.spliceState st ≠ some .cutting) : webLost st s = webBreak st s := by
  unfold webLost
  split
  · next n sp hs =>
    refine if_neg (fun e => h ?_)
    rw [State.spliceState, hs, ← e]
    rfl
  · rfl

/-- The break of the web by the state of the stand's splice (R106). -/
theorem webBreak_of_none {st : StandIx} {s : State} {t : State}
    (ht : purgeStand st ((raise st .webBreak s).modSeq st (fun q => { q with webBroken := true })) = t)
    (h : t.activeSplice st = none) : webBreak st s = t := by
  subst ht
  unfold webBreak
  simp only [h]

theorem webBreak_of_active {st : StandIx} {n : Nat} {sp : Splice} {s t : State}
    (ht : purgeStand st ((raise st .webBreak s).modSeq st (fun q => { q with webBroken := true })) = t)
    (h : t.activeSplice st = some (n, sp)) :
    (sp.state = .armed → webBreak st s = handOn st s (immediateAbort st n sp .webBreak t))
    ∧ (sp.state = .accel ∨ sp.state = .matched ∨ sp.state = .waiting ∨ sp.state = .firing →
        webBreak st s = handOn st s (abortToSpindown st n sp .webBreak t))
    ∧ (sp.state = .pasting → webBreak st s = failPaste st n sp (setCause n .webBreak t))
    ∧ (sp.state = .braking ∨ sp.state = .indexing ∨ sp.state = .spindown → webBreak st s = t) := by
  subst ht
  refine ⟨fun e => ?_, fun e => ?_, fun e => ?_, fun e => ?_⟩
  · unfold webBreak
    simp only [h, e, giveUp]
  · rcases e with e | e | e | e <;> (unfold webBreak; simp only [h, e, giveUp])
  · unfold webBreak
    simp only [h, e]
  · rcases e with e | e | e <;> (unfold webBreak; simp only [h, e])

/-! ### The loss of a reel (R32) -/

/-- The loss of a reserved reel by the state of the stand's splice. -/
theorem loseReserved_of_active {st : StandIx} {k n : Nat} {sp : Splice} {s : State} (h : s.activeSplice st = some (n, sp)) :
    (sp.state = .armed → loseReserved st k s = handOn st s (removeReel k (immediateAbort st n sp .reelLost (raise st .reelLost s))))
    ∧ (sp.state = .accel ∨ sp.state = .matched ∨ sp.state = .waiting ∨ sp.state = .firing →
        loseReserved st k s = handOn st s (removeReel k (abortToSpindown st n sp .reelLost (raise st .reelLost s))))
    ∧ (sp.state = .pasting ∨ sp.state = .cutting → loseReserved st k s = raise st .reelLost s) := by
  refine ⟨fun e => ?_, fun e => ?_, fun e => ?_⟩
  · unfold loseReserved
    simp only [h, e, giveUp]
  · rcases e with e | e | e | e <;> (unfold loseReserved; simp only [h, e, giveUp])
  · rcases e with e | e <;> (unfold loseReserved; simp only [h, e])

theorem reelLost_of_reserved {st : StandIx} {a : Arm} {k : Nat} {r : Reel} {s : State} (h : s.reelOn st a = some (k, r))
    (hres : r.reservedBy ≠ none) : reelLost st a s = loseReserved st k s := by
  unfold reelLost
  rw [h]
  exact if_pos (Option.isSome_iff_ne_none.2 hres)

/-- Settles O45: the loss of a reel by the record on the arm and the splice's state; the loss of the web by the splice's state; and
a splice not carried by its part up to the purge, its part up to the hand-over, and the evaluations after them. -/
theorem lossesOfReelAndWeb : Obligations.LossesOfReelAndWeb := by
  refine ⟨fun st a s h => ⟨onDevice_of_runs _ h, onDevice_of_runs _ h⟩, fun st a s => ⟨fun h => ?_, fun k r h =>
    ⟨fun hn hs => ?_, fun hn hs => ?_, fun hn hs => ?_, fun hres n sp hs => ?_⟩⟩, fun st s => ⟨fun n sp hs e => ?_, fun h => ?_,
    webBroken_webLost st s, noMarks_webLost st s⟩, fun st n sp s hs hst e => ?_⟩
  · unfold reelLost
    rw [State.reelOn, h]
  · have h : s.reelOn st a = some (k, r) := h
    rcases hs with hs | hs <;> (unfold reelLost; simp only [h, hn, hs]; rfl)
  · have h : s.reelOn st a = some (k, r) := h
    unfold reelLost
    simp only [h, hn, hs]
    rfl
  · have h : s.reelOn st a = some (k, r) := h
    unfold reelLost
    simp only [h, hn, hs]
    rfl
  · rw [reelLost_of_reserved h hres]
    exact loseReserved_of_active hs
  · unfold webLost
    rw [hs]
    exact if_pos e
  · intro t
    rw [webLost_of_not_cutting h]
    exact ⟨webBreak_of_none rfl, fun n sp hs => webBreak_of_active rfl hs⟩
  · obtain ⟨hwork, hfield, hbroken, hheld⟩ := notCarried_stand st n sp s
    obtain ⟨href, hrev, hmark, htrip, hstreak, hrisk⟩ := notCarried_gauge st n sp s
    refine ⟨notCarried_splice (activeSplice_eq_some.1 hs).2 hst e, hheld, hwork, hfield, hbroken, href, hrev, hmark, htrip, hstreak,
      hrisk, fun f hf => ?_, notCarried_reels st n sp s⟩
    rw [notCarried_eq, folder_evalRisk, folder_handOn, folder_reelsGone]
    exact slot_leaveSlot hf _

end Sys2Proof.Machine
end

section
/-! The counts of a stand's gauge (R38 to R42): the gauge's updates, and the REV pulse (RevPulseMeasuresTheReel). -/

namespace Sys2Proof.Machine

/-! ### Updates of the gauge -/

/-- Updates that do the same to the value held are the same update. -/
theorem modGauge_congr {s : State} {st : StandIx} {f g : Gauge → Gauge} (h : f (s.stand st).gauge = g (s.stand st).gauge) :
    s.modGauge st f = s.modGauge st g := by
  unfold State.modGauge State.modStand
  dsimp only
  rw [h]

@[simp] theorem modGauge_modGauge (s : State) (st : StandIx) (f g : Gauge → Gauge) :
    (s.modGauge st f).modGauge st g = s.modGauge st (fun x => g (f x)) :=
  modStand_modStand s st _ _

/-- The running reel's diameter becomes absent (R41, R42). -/
theorem dropRunningDiameter_of_running {st : StandIx} {h : Nat} {r : Reel} {s : State} (hrun : s.runningReel st = some (h, r)) :
    dropRunningDiameter st s = s.modReel h (fun x => { x with diameter := none }) := by
  unfold dropRunningDiameter
  rw [hrun]

/-! ### The REV pulse (R39 to R41, R102) -/

theorem candidateOk_iff (r : Reel) (d : Int) : candidateOk r d = true ↔
    (r.paper.core : Int) ≤ d ∧ ∀ held, r.diameter = some held → d ≤ (held : Int) + 3 := by
  unfold candidateOk
  cases r.diameter <;> simp

theorem watchesButt_iff (st : StandIx) (s : State) : s.watchesButt st = true ↔
    s.spliceState st = some .braking ∨ s.uncarried st = true ∨ (s.work st).brakeKept = true := by
  simp [State.watchesButt, or_assoc]

theorem seqRevPulse_eq (st : StandIx) (arm : Arm) (s : State) : seqRevPulse st arm s =
    if (s.spliceState st = some .braking ∨ s.uncarried st = true ∨ (s.work st).brakeKept = true)
        ∧ (s.work st).buttArm = some arm then
      s.modWork st (fun w => { w with revQuietTimer := some 3000 })
    else s := by
  simp only [seqRevPulse, watchesButt_iff, revQuietMs]

/-- Only the running reel's own arm measures it (R39). -/
theorem gaugeRevPulse_of_elsewhere {st : StandIx} {arm : Arm} {s : State}
    (h : ∀ k r, s.runningReel st = some (k, r) → r.loc ≠ some (st, arm)) : gaugeRevPulse st arm s = s := by
  unfold gaugeRevPulse
  split
  · next k r hrun => exact if_neg (h k r hrun)
  · rfl

/-- A pulse on the running reel's arm: the reference, or a revolution of a candidate diameter (R39, R40). -/
theorem gaugeRevPulse_of_running {st : StandIx} {arm : Arm} {h : Nat} {r : Reel} {s : State}
    (hrun : s.runningReel st = some (h, r)) (hloc : r.loc = some (st, arm)) : gaugeRevPulse st arm s =
    if (s.stand st).gauge.ref = false ∨ (s.stand st).gauge.tripped = true then s.modGauge st Gauge.setReference
    else if (s.stand st).gauge.revCount ≤ 0 then s.modGauge st (fun g => { g with revCount := 0, runMark := 0 })
    else judgeCandidate st h r (diameterOf (s.stand st).gauge.revCount)
      (s.modGauge st (fun g => { g with revCount := 0, runMark := 0 })) := by
  unfold gaugeRevPulse
  rw [hrun]
  exact if_pos hloc

/-- The second rejection before this one makes it the third (R41). -/
theorem judgeCandidate_of_rejected {st : StandIx} {h : Nat} {r : Reel} {d : Int} {s : State}
    (hrun : s.runningReel st = some (h, r)) (hbad : candidateOk r d = false) : judgeCandidate st h r d s =
    if (s.stand st).gauge.streak = 2 then diameterChanged st (((raise st .diameterGlitch s).modReel h
      (fun x => { x with diameter := none })).modGauge st (fun g => { g with streak := 0 }))
    else s.modGauge st (fun g => { g with streak := g.streak + 1 }) := by
  have hraise : (raise st .diameterGlitch s).runningReel st = some (h, r) :=
    (runningReel_of_reels (reels_raise st .diameterGlitch s _) st).trans hrun
  unfold judgeCandidate
  rw [hbad, dropRunningDiameter_of_running hraise]
  rfl

/-- A circumference over π, rounded to the nearest, a half upward (00 5.2). -/
theorem diameterOf_bounds (c : Int) :
    2 * 31416 * diameterOf c ≤ 20000 * c + 31416 ∧ 20000 * c + 31416 < 2 * 31416 * (diameterOf c + 1) := by
  unfold diameterOf roundDiv
  omega

/-- Settles O50: the pulse on the running reel's arm by the reference, the revolution count and the judgement of the candidate. -/
theorem revPulseMeasuresTheReel : Obligations.RevPulseMeasuresTheReel := by
  refine ⟨fun st arm s h => ?_, fun st arm s h => gaugeRevPulse_of_elsewhere h, fun st arm h r s hrun hloc => ?_, fun st s => rfl,
    fun c _ => diameterOf_bounds c⟩
  · have hexec : exec (.revPulse st arm) s = .next (seqRevPulse st arm (gaugeRevPulse st arm s)) :=
      onDevice_of_runs (fun s => seqRevPulse st arm (gaugeRevPulse st arm s)) h
    rw [hexec, seqRevPulse_eq]
  · intro g d ok t
    have hok : candidateOk r d = true ↔ ok := candidateOk_iff r d
    have hrun' : t.runningReel st = some (h, r) := hrun
    have hstreak : (t.stand st).gauge.streak = g.streak := by simp [t, g]
    rw [gaugeRevPulse_of_running hrun hloc]
    refine ⟨fun hnew => if_pos hnew, fun href htrip hno => ?_, fun href htrip hpos haccept => ?_,
      fun href htrip hpos hreject hfew => ?_, fun href htrip hpos hreject hthird => ?_⟩
    all_goals rw [if_neg (show ¬ (g.ref = false ∨ g.tripped = true) by simp [href, htrip])]
    · exact if_pos hno
    · rw [if_neg (show ¬ g.revCount ≤ 0 by omega)]
      exact if_pos (hok.2 haccept)
    · rw [if_neg (show ¬ g.revCount ≤ 0 by omega), judgeCandidate_of_rejected hrun' (Bool.eq_false_iff.2 (mt hok.1 hreject)), hstreak]
      exact if_neg hfew
    · rw [if_neg (show ¬ g.revCount ≤ 0 by omega), judgeCandidate_of_rejected hrun' (Bool.eq_false_iff.2 (mt hok.1 hreject)), hstreak]
      exact if_pos hthird

end Sys2Proof.Machine
end

section
/-! What each timer expiry does (log 5): the web speed sample, the timers of the actuators, those of the active splice, and the end
of a spin-down (TimersActWhenTheyExpire). -/

namespace Sys2Proof.Machine

/-! ### The web speed sample (R45, R46, R79) -/

@[simp] theorem stand_sampleOccasion (st : StandIx) (s : State) (f : FolderIx) (i : StandIx) :
    (sampleOccasion st s f).stand i = s.stand i := by
  unfold sampleOccasion
  split <;> simp

theorem stand_samples (st : StandIx) (l : List FolderIx) (s : State) (i : StandIx) :
    (l.foldl (sampleOccasion st) s).stand i = s.stand i :=
  stand_foldl _ (fun t f => stand_sampleOccasion st t f i) l s

/-- A sample is an occasion for the folder's arbiter while the stand is on its list (R118). -/
theorem folder_sampleOccasion (st : StandIx) (s : State) (g f : FolderIx) : (sampleOccasion st s g).folder f =
    if f = g ∧ (s.folder f).waits.any (fun e => decide (e.stand = st)) = true then
      { s.folder f with grantOccasions := (s.folder f).grantOccasions + 1 }
    else s.folder f := by
  unfold sampleOccasion
  by_cases hf : f = g
  · subst hf
    split <;> simp [folder_grantOccasion, *]
  · split <;> simp [folder_grantOccasion, hf]

/-- Each folder of a list without repeats takes the sample once. -/
theorem folder_samples (st : StandIx) (f : FolderIx) (l : List FolderIx) : ∀ s : State, l.Nodup →
    (l.foldl (sampleOccasion st) s).folder f =
      if f ∈ l ∧ (s.folder f).waits.any (fun e => decide (e.stand = st)) = true then
        { s.folder f with grantOccasions := (s.folder f).grantOccasions + 1 }
      else s.folder f := by
  induction l with
  | nil => intro s _; simp
  | cons g l ih =>
    intro s hn
    obtain ⟨hg, hl⟩ := List.nodup_cons.1 hn
    rw [List.foldl_cons, ih _ hl, folder_sampleOccasion]
    by_cases hf : f = g
    · subst hf
      simp [hg]
    · simp [hf]

theorem nodup_allFolders : allFolders.Nodup := by decide

theorem mem_allFolders : ∀ f : FolderIx, f ∈ allFolders := by decide

theorem folder_followWeb (st : StandIx) (s : State) (f : FolderIx) : (followWeb st s).folder f = s.folder f := by
  unfold followWeb
  (repeat' split) <;> rfl

theorem gauge_followWeb (st : StandIx) (s : State) : ((followWeb st s).stand st).gauge = (s.stand st).gauge := by
  unfold followWeb
  (repeat' split) <;> simp

/-- The demand follows the web while DRIVE-EN is asserted, but in SPINDOWN (R79). -/
theorem demand_followWeb (st : StandIx) (s : State) {n : Nat} {sp : Splice} (hs : s.activeSplice st = some (n, sp)) :
    ((followWeb st s).work st).demand =
      if (s.work st).driveEn = true ∧ sp.state ≠ .spindown then
        demandFor (s.stand st).gauge.webSpeed (sp.params.matchOffset.getD 0)
      else (s.work st).demand := by
  unfold followWeb
  rw [hs]
  dsimp only
  split <;> simp

@[simp] theorem activeSplice_modGauge (s : State) (st i : StandIx) (f : Gauge → Gauge) :
    (s.modGauge st f).activeSplice i = s.activeSplice i := by
  unfold State.activeSplice
  rw [work_modGauge]
  rfl

theorem exec_webSpeedTimerExpiry {st : StandIx} {s : State} (h : s.runs) : exec (.webSpeedTimerExpiry st) s = .next (
    if (s.stand st).gauge.speedTimer = none then s
    else allFolders.foldl (sampleOccasion st) (followWeb st (s.modGauge st Gauge.sample))) := by
  simp only [exec, execWebSpeedTimerExpiry, onDevice_of_runs _ h]
  cases (s.stand st).gauge.speedTimer <;> rfl

/-! ### The timers of the actuators (R99, R101, R102, R140, R141) -/

theorem endKnifePulse_eq (st : StandIx) (s : State) : endKnifePulse st s =
    let t := s.modField st (fun x => { x with knife := { drive := .off, pullInTimer := none }, knifePulse := none })
    if s.accepted st .knifeHome = some 1 then t else t.modWork st (fun w => { w with knifeHomeTimer := some 500 }) := by
  have hacc : (s.modField st (fun x => { x with knife := x.knife.release, knifePulse := none })).isActive st .knifeHome = true
      ↔ s.accepted st .knifeHome = some 1 := by simp [State.isActive, State.accepted, Field.input]
  unfold endKnifePulse
  simp only [hacc]
  rfl

theorem exec_knifePulseTimerExpiry {st : StandIx} {s : State} (h : s.runs) : exec (.knifePulseTimerExpiry st) s = .next (
    if (s.stand st).field.knifePulse = none then s else endKnifePulse st s) := by
  simp only [exec, execKnifePulseTimerExpiry, onDevice_of_runs _ h]
  cases (s.stand st).field.knifePulse <;> rfl

theorem exec_knifeHomeTimerExpiry {st : StandIx} {s : State} (h : s.runs) : exec (.knifeHomeTimerExpiry st) s = .next (
    if (s.work st).knifeHomeTimer = none then s
    else raise st .knifeNotHome (s.modWork st (fun w => { w with knifeHomeTimer := none }))) := by
  simp only [exec, execKnifeHomeTimerExpiry, onDevice_of_runs _ h]
  cases (s.work st).knifeHomeTimer <;> rfl

theorem pulledIn_eq (a : Actuator) : a.pulledIn = if a.drive = .pullIn then { drive := .hold, pullInTimer := none } else a := by
  unfold Actuator.pulledIn
  cases a.drive <;> rfl

/-- The butt at rest, its timer stopped, by the parts of the stand before it (R101, R102). -/
theorem buttQuiet_stopped (st : StandIx) (s : State) :
    let t := s.modWork st (fun w => { w with revQuietTimer := none })
    buttQuiet st t =
      if (s.work st).brakeKept then (releaseBrake st t).modWork st (fun w => { w with brakeKept := false, buttArm := none })
      else
        match s.activeSplice st with
        | some (n, sp) =>
          if sp.state = .braking ∧ s.accepted st .pasterHome = some 1 then endBraking st n t
          else if s.uncarried st = true ∧ (s.work st).quietTimer = none then endUncarried st n t
          else t
        | none => t := by
  intro t
  have hactive : t.activeSplice st = s.activeSplice st := by simp [t, State.activeSplice, splice?_modWork]
  have huncarried : t.uncarried st = s.uncarried st := by simp only [State.uncarried, hactive]
  have hhome : t.isActive st .pasterHome = true ↔ s.accepted st .pasterHome = some 1 := by simp [t, State.isActive, State.accepted]
  have hwork : t.work st = { s.work st with revQuietTimer := none } := work_modWork s st _
  unfold buttQuiet
  simp only [hactive, huncarried, hhome, hwork, Option.isNone_iff_eq_none] <;> rfl

theorem exec_revQuietTimerExpiry {st : StandIx} {s : State} (h : s.runs) : exec (.revQuietTimerExpiry st) s = .next (
    if (s.work st).revQuietTimer = none then s
    else buttQuiet st (s.modWork st (fun w => { w with revQuietTimer := none }))) := by
  simp only [exec, execRevQuietTimerExpiry, onDevice_of_runs _ h]
  cases (s.work st).revQuietTimer <;> rfl

theorem exec_pullInTimerExpiry {st : StandIx} {s : State} (h : s.runs) :
    exec (.pullInTimerExpiry st .paster) s = .next (s.modField st (fun x => { x with paster := x.paster.pulledIn }))
    ∧ exec (.pullInTimerExpiry st .knife) s = .next (s.modField st (fun x => { x with knife := x.knife.pulledIn }))
    ∧ exec (.pullInTimerExpiry st .brake) s = .next (s.modField st (fun x => { x with brake := x.brake.pulledIn })) := by
  simp only [exec, execPullInTimerExpiry, onDevice_of_runs _ h, and_self]

/-! ### The timers of the active splice (R82, R87, R98, R101, R102, R104) -/

theorem splice_timers_of_idle {st : StandIx} {s : State} (h : s.runs) (hs : s.activeSplice st = none) :
    exec (.accelTimerExpiry st) s = .next s ∧ exec (.quietTimerExpiry st) s = .next s ∧ exec (.stopTimerExpiry st) s = .next s
    ∧ exec (.confirmTimerExpiry st) s = .next s ∧ exec (.indexTimerExpiry st) s = .next s := by
  simp only [exec, execAccelTimerExpiry, execQuietTimerExpiry, execStopTimerExpiry, execConfirmTimerExpiry, execIndexTimerExpiry,
    onDevice_of_runs _ h, hs, and_self]

section
variable {st : StandIx} {n : Nat} {sp : Splice} {s : State} (h : s.runs) (hs : s.activeSplice st = some (n, sp))
include h hs

theorem exec_accelTimerExpiry_of_active : exec (.accelTimerExpiry st) s = .next (
    if sp.state = .accel ∧ (s.work st).accelTimer ≠ none then
      handOn st s (abortToSpindown st n sp .matchTimeout (raise st .matchTimeout s))
    else s) := by
  simp only [exec, execAccelTimerExpiry, onDevice_of_runs _ h, hs, Option.isSome_iff_ne_none]
  refine congrArg _ (ite_congr rfl (fun ⟨haccel, _⟩ => ?_) (fun _ => rfl))
  rw [giveUp, haccel]

theorem exec_quietTimerExpiry_of_active : exec (.quietTimerExpiry st) s = .next (
    if sp.state = .spindown ∧ (s.work st).quietTimer ≠ none then
      if s.uncarried st = false then endSpindown st n s
      else if (s.work st).revQuietTimer = none then endUncarried st n s
      else s.modWork st (fun w => { w with quietTimer := none })
    else s) := by
  simp only [exec, execQuietTimerExpiry, onDevice_of_runs _ h, hs, Option.isSome_iff_ne_none, Option.isNone_iff_eq_none]
  cases s.uncarried st <;> rfl

theorem exec_stopTimerExpiry_of_active : exec (.stopTimerExpiry st) s = .next (
    if (s.work st).stopTimer = none then s
    else if sp.state = .spindown then
      endSpindown st n (if s.uncarried st then keepBrake st (raise st .stopTimeout s) else raise st .stopTimeout s)
    else if sp.state = .braking then
      standEnd st n .brakeTimeout ((keepBrake st (raise st .stopTimeout s)).modWork st (fun w => { w with stopTimer := none }))
    else s) := by
  simp only [exec, execStopTimerExpiry, onDevice_of_runs _ h, hs]
  cases (s.work st).stopTimer with
  | none => rfl
  | some ms => cases sp.state <;> rfl

theorem exec_confirmTimerExpiry_of_active : exec (.confirmTimerExpiry st) s = .next (
    if sp.state = .pasting ∧ (s.work st).confirmTimer ≠ none ∧ (s.work st).confirmed = false then
      failPaste st n sp (raise st .pasteNotConfirmed (setCause n .pasteNotConfirmed s))
    else s) := by
  simp only [exec, execConfirmTimerExpiry, onDevice_of_runs _ h, hs, Option.isSome_iff_ne_none, pasteNotConfirmed]

theorem exec_indexTimerExpiry_of_active : exec (.indexTimerExpiry st) s = .next (
    if sp.state = .indexing ∧ (s.work st).indexTimer ≠ none then standEnd st n .indexTimeout (raise st .indexTimeout s)
    else s) := by
  simp only [exec, execIndexTimerExpiry, onDevice_of_runs _ h, hs, Option.isSome_iff_ne_none]

end

/-! ### The end of a spin-down (R87) -/

theorem drive_afterEnd (w : Working) : w.afterEnd.driveEn = false ∧ w.afterEnd.demand = 0 := by
  unfold Working.afterEnd
  split <;> exact ⟨rfl, rfl⟩

theorem holds_afterEnd {st : StandIx} (n : Nat) {s : State} {c : Condition} (h : (s.stand st).queue.Holds c) :
    ((afterEnd st n s).stand st).queue.Holds c := by
  have hrisk : ((evalRisk st (retire n s)).stand st).queue.Holds c := holds_evalRisk (by rwa [stand_retire])
  rwa [Queue.Holds, afterEnd, (queue_evalReelCall st _).2]

theorem splice?_of_afterEnd {st : StandIx} {n m : Nat} {s : State} {x : Splice} (h : (afterEnd st n s).splice? m = some x) :
    s.splice? m = some x := by
  rw [afterEnd, splice?_evalReelCall, splice?_evalRisk] at h
  exact splice?_of_retire h

theorem state_outcome (o : Option SpinOutcome) : (o.getD .aborted).state = if o = some .failed then .failed else .aborted := by
  rcases o with _ | _ | _ <;> rfl

/-- The splice ended with its outcome, SPLICE_VOID raised, the drive off (R87). -/
theorem endSpindown_spec (st : StandIx) (n : Nat) (s : State) :
    ((endSpindown st n s).work st).active = none ∧ ((endSpindown st n s).work st).driveEn = false
    ∧ ((endSpindown st n s).work st).demand = 0 ∧ ((endSpindown st n s).stand st).queue.Holds .spliceVoid
    ∧ ∀ x, (endSpindown st n s).splice? n = some x →
        x.state = (if (s.work st).outcome = some .failed then .failed else .aborted) ∧ x.ended = some s.link.time := by
  unfold endSpindown
  extract_lets outcome t
  have hwork : (afterEnd st n (endSplice st n outcome .spliceVoid t)).work st = (t.work st).afterEnd := by
    rw [work_afterEnd, work_endSplice]
  rw [hwork]
  obtain ⟨hdrive, hdemand⟩ := drive_afterEnd (t.work st)
  refine ⟨active_afterEnd _, hdrive, hdemand, holds_afterEnd n ?_, fun x hx => ?_⟩
  · rw [queue_endSplice]
    exact Queue.holds_place _ _ _ _ _
  · have hended := splice?_of_afterEnd hx
    rw [splice?_endSplice, Option.map_eq_some_iff] at hended
    obtain ⟨sp, _, rfl⟩ := hended
    exact ⟨state_outcome _, rfl⟩

/-- Settles O51: each expiry by its equation, the web speed sample by its parts, the end of a spin-down by `endSpindown_spec`. -/
theorem timersActWhenTheyExpire : Obligations.TimersActWhenTheyExpire := by
  intro st s h
  refine ⟨⟨_, exec_webSpeedTimerExpiry h, fun htimer => ?_⟩, ?_, exec_knifeHomeTimerExpiry h, ?_, ?_, splice_timers_of_idle h,
    fun n sp hs => ⟨exec_accelTimerExpiry_of_active h hs, exec_quietTimerExpiry_of_active h hs, exec_stopTimerExpiry_of_active h hs,
      exec_confirmTimerExpiry_of_active h hs, exec_indexTimerExpiry_of_active h hs, fun _ => endSpindown_spec st n s⟩⟩
  · rw [if_neg htimer]
    let t := s.modGauge st Gauge.sample
    have hgauge : (t.stand st).gauge = (s.stand st).gauge.sample := by simp [t]
    have hactive : t.activeSplice st = s.activeSplice st := activeSplice_modGauge s st st _
    have hwork : t.work st = s.work st := work_modGauge s st st _
    refine ⟨?_, fun n sp hs hdrive hspin => ?_, fun hspin => ?_, fun f => ?_⟩
    · rw [stand_samples, gauge_followWeb]
      exact hgauge
    · rw [State.work, stand_samples]
      refine (demand_followWeb st t (hactive.trans hs)).trans ?_
      rw [if_pos ⟨hwork ▸ hdrive, hspin⟩, hgauge]
      rfl
    · obtain ⟨⟨n, sp⟩, hs, hstate⟩ := Option.map_eq_some_iff.1 hspin
      rw [State.work, stand_samples]
      refine (demand_followWeb st t (hactive.trans hs)).trans ?_
      rw [if_neg (fun hno => hno.2 hstate), hwork]
    · rw [folder_samples st f _ _ nodup_allFolders, folder_followWeb, folder_modGauge]
      simp only [mem_allFolders, true_and]
      split <;> rfl
  · rw [exec_knifePulseTimerExpiry h, endKnifePulse_eq]
  · obtain ⟨hpaster, hknife, hbrake⟩ := exec_pullInTimerExpiry (st := st) h
    exact ⟨hpaster, hknife, hbrake, pulledIn_eq⟩
  · exact (exec_revQuietTimerExpiry h).trans (congrArg _ (ite_congr rfl (fun _ => rfl) (fun _ => buttQuiet_stopped st s)))

end Sys2Proof.Machine
end

section
/-! Web end (R44, R54, R100): the two reels and the splice record, the stand freed of the splice, the braking, and the entry that
carries the butt's residuals (WebEndHandsTheWebOver). -/

namespace Sys2Proof.Machine

/-! ### An entry with the butt's residuals (R146, R148) -/

/-- The queue holds an entry with WEB_END and these residuals. -/
abbrev Queue.HoldsButt (d l : Option Nat) (q : Queue) : Prop :=
  ∃ e ∈ q.entries, Condition.webEnd ∈ e.conditions ∧ e.residualDiameter = d ∧ e.residualLength = l

theorem mem_onLast_of_getLast? {f : StatusEntry → StatusEntry} {l : List StatusEntry} {e : StatusEntry} (h : l.getLast? = some e) :
    f e ∈ onLast f l := by
  induction l with
  | nil => cases h
  | cons y t ih =>
    cases t with
    | nil =>
      obtain rfl := Option.some.inj h
      exact List.mem_singleton.2 rfl
    | cons x t => exact List.mem_cons_of_mem _ (ih h)

/-- WEB_END raised where the entry it joins, if it joins one, holds none yet. -/
theorem Queue.holdsButt_place {q : Queue} {a : Option Nat} (now : Stamp) (r : Option Nat × Option Nat)
    (h : ∀ e, q.entries.getLast? = some e → (e.splice = a ∨ 4 ≤ q.entries.length) → Condition.webEnd ∉ e.conditions) :
    (q.place .webEnd a now r).HoldsButt r.1 r.2 := by
  unfold Queue.place
  dsimp only
  split
  · next e he =>
    split
    · next hjoin =>
      have hfresh := h e he hjoin
      exact ⟨_, mem_onLast_of_getLast? he, mem_addTo.2 (Or.inl rfl), by simp [StatusEntry.join, hfresh],
        by simp [StatusEntry.join, hfresh]⟩
    · exact ⟨_, List.mem_append_right _ (List.mem_singleton.2 rfl), List.mem_singleton.2 rfl, rfl, rfl⟩
  · exact ⟨_, List.mem_singleton.2 rfl, List.mem_singleton.2 rfl, rfl, rfl⟩

/-- Another condition raised leaves the residuals. -/
theorem Queue.HoldsButt.place {q : Queue} {d l : Option Nat} (h : q.HoldsButt d l) {c : Condition} (hc : c ≠ .webEnd)
    (a : Option Nat) (now : Stamp) (r : Option Nat × Option Nat) : (q.place c a now r).HoldsButt d l := by
  obtain ⟨e, he, hend, hd, hl⟩ := h
  unfold Queue.place
  dsimp only
  split
  · split
    · rcases mem_onLast_or he with hx | hx
      · exact ⟨e, hx, hend, hd, hl⟩
      · exact ⟨_, hx, mem_addTo.2 (Or.inr hend), by simp [StatusEntry.join, hc, hd], by simp [StatusEntry.join, hc, hl]⟩
    · exact ⟨e, List.mem_append_left _ he, hend, hd, hl⟩
  · next hn =>
    rw [List.getLast?_eq_none_iff] at hn
    exact absurd he (by simp [hn])

theorem holdsButt_evalRisk {st : StandIx} {s : State} {d l : Option Nat} (h : (s.stand st).queue.HoldsButt d l) :
    ((evalRisk st s).stand st).queue.HoldsButt d l := by
  rcases queue_evalRisk st s with e | e <;> rw [e]
  · exact h
  · exact h.place (by decide) _ _ _

/-! ### Web end in its parts (R100) -/

/-- The residuals of a reel's record, absent without one. -/
def residualsOf (s : State) (h : Nat) : Option Nat × Option Nat :=
  match s.reel? h with
  | some r => (r.residualDiameter, r.residualLength)
  | none => (none, none)

/-- The web handed over: the outgoing reel a butt, the incoming one running, the residuals in the splice record. -/
def webOver (n : Nat) (sp : Splice) (now : Stamp) (s : State) : State :=
  copyResiduals n sp.outgoing ((s.modReel sp.outgoing toButt).modReel sp.incoming (startsRunning now))

/-- The stand freed of the splice: WEB_END raised, the paster released, the drive off, the slot left, the gauge afresh. -/
def standFreed (st : StandIx) (sp : Splice) (s : State) : State :=
  (leaveSlot sp ((releasePaster st (raise st .webEnd s (residualsOf s sp.outgoing))).modWork st
    (fun w => { w with driveEn := false, demand := 0 }))).modGauge st (fun g => { g.afresh with riskRaised := false })

theorem webEnd_eq (st : StandIx) (n : Nat) (sp : Splice) (s : State) : webEnd st n sp s =
    evalRisk st (handOn st s (setSpliceState n .braking (startBraking st (s.armOf sp.outgoing)
      (evalRisk st (standFreed st sp (webOver n sp s.now (releaseKnife st s))))))) := rfl

@[simp] theorem stand_webOver (n : Nat) (sp : Splice) (now : Stamp) (s : State) (i : StandIx) :
    (webOver n sp now s).stand i = s.stand i := by simp [webOver]

/-- The butt's residuals (R44). -/
theorem reel?_webOver {sp : Splice} (hne : sp.outgoing ≠ sp.incoming) (n : Nat) (now : Stamp) (s : State) :
    (webOver n sp now s).reel? sp.outgoing = (s.reel? sp.outgoing).map toButt
    ∧ (webOver n sp now s).reel? sp.incoming = (s.reel? sp.incoming).map (startsRunning now) := by
  unfold webOver
  rw [reel?_copyResiduals, reel?_copyResiduals]
  exact ⟨(reel?_modReel_ne _ _ hne).trans (reel?_modReel _ _ _),
    (reel?_modReel _ _ _).trans (congrArg (Option.map _) (reel?_modReel_ne _ _ hne.symm))⟩

theorem splice?_copyResiduals {n out : Nat} {s : State} {sp : Splice} (h : s.splice? n = some sp) :
    ∃ d l, (copyResiduals n out s).splice? n = some { sp with residualDiameter := d, residualLength := l }
      ∧ ∀ r, s.reel? out = some r → d = r.residualDiameter ∧ l = r.residualLength := by
  unfold copyResiduals
  cases hr : s.reel? out with
  | none => exact ⟨sp.residualDiameter, sp.residualLength, h, fun _ hx => (Option.some_ne_none _ hx.symm).elim⟩
  | some r =>
    refine ⟨r.residualDiameter, r.residualLength, ?_, fun x hx => ?_⟩
    · rw [splice?_modSplice, h]
      rfl
    · obtain rfl := Option.some.inj hx
      exact ⟨rfl, rfl⟩

/-- The stand after it is freed, part by part. -/
theorem stand_standFreed (st : StandIx) (sp : Splice) (s : State) :
    ((standFreed st sp s).stand st).profile = (s.stand st).profile
    ∧ ((standFreed st sp s).stand st).field =
        { (s.stand st).field with paster := { drive := .off, pullInTimer := none } }
    ∧ ((standFreed st sp s).stand st).gauge = { (s.stand st).gauge.afresh with riskRaised := false }
    ∧ ((standFreed st sp s).stand st).queue =
        (s.stand st).queue.place .webEnd (s.work st).active s.now (residualsOf s sp.outgoing)
    ∧ (standFreed st sp s).work st = { s.work st with driveEn := false, demand := 0 } := by
  simp [standFreed, releasePaster, raise, Actuator.release]

@[simp] theorem reel?_standFreed (st : StandIx) (sp : Splice) (s : State) (k : Nat) :
    (standFreed st sp s).reel? k = s.reel? k := by
  unfold standFreed leaveSlot
  split <;> simp [State.reel?]

@[simp] theorem splice?_standFreed (st : StandIx) (sp : Splice) (s : State) (k : Nat) :
    (standFreed st sp s).splice? k = s.splice? k := by
  unfold standFreed leaveSlot
  split <;> simp [State.splice?]

theorem folder_standFreed {sp : Splice} {f : FolderIx} (h : sp.folder = some f) (st : StandIx) (s : State) :
    (standFreed st sp s).folder f = { s.folder f with slot := none, grantOccasions := (s.folder f).grantOccasions + 1 } := by
  unfold standFreed leaveSlot
  rw [h]
  simp [folder_releaseSlot]

theorem work_startBraking (st : StandIx) (a : Option Arm) (s : State) : (startBraking st a s).work st =
    { s.work st with
      buttArm := a, brakeKept := false, revQuietTimer := some 3000
      stopTimer := some ((s.stand st).profile.settings.stopTimeout * 1000) } := by
  simp [startBraking, revQuietMs]

theorem stand_startBraking (st : StandIx) (a : Option Arm) (s : State) :
    ((startBraking st a s).stand st).gauge = (s.stand st).gauge ∧ ((startBraking st a s).stand st).queue = (s.stand st).queue := by
  simp [startBraking, energiseBrake]

theorem profile_evalRisk (st : StandIx) (s : State) : ((evalRisk st s).stand st).profile = (s.stand st).profile := by
  rw [evalRisk_eq]
  split <;> simp

/-! ### What web end leaves -/

theorem webEnd_reels (st : StandIx) (n : Nat) {sp : Splice} (s : State) (hne : sp.outgoing ≠ sp.incoming) :
    (webEnd st n sp s).reel? sp.outgoing = (s.reel? sp.outgoing).map toButt
    ∧ (webEnd st n sp s).reel? sp.incoming = (s.reel? sp.incoming).map (startsRunning s.now) := by
  have hreel : ∀ k, (webEnd st n sp s).reel? k = (webOver n sp s.now (releaseKnife st s)).reel? k := by
    intro k
    rw [webEnd_eq, reel?_evalRisk, reel?_handOn, reel?_setSpliceState, reel?_startBraking, reel?_evalRisk, reel?_standFreed]
  obtain ⟨hout, hinc⟩ := reel?_webOver hne n s.now (releaseKnife st s)
  rw [reel?_releaseKnife] at hout hinc
  exact ⟨(hreel _).trans hout, (hreel _).trans hinc⟩

theorem webEnd_splice (st : StandIx) {n : Nat} {sp : Splice} {s : State} (h : s.splice? n = some sp) (hne : sp.outgoing ≠ sp.incoming) :
    ∃ d l, (webEnd st n sp s).splice? n = some { sp with state := .braking, residualDiameter := d, residualLength := l }
      ∧ ∀ r, s.reel? sp.outgoing = some r →
        d = r.diameter ∧ l = r.diameter.map (fun d => remainingLength d r.paper.core r.paper.caliper) := by
  let t := ((releaseKnife st s).modReel sp.outgoing toButt).modReel sp.incoming (startsRunning s.now)
  have ht : t.splice? n = some sp := (splice?_releaseKnife st s n).trans h
  have hreel : t.reel? sp.outgoing = (s.reel? sp.outgoing).map toButt := by
    rw [reel?_modReel_ne _ _ hne, reel?_modReel, reel?_releaseKnife]
  obtain ⟨d, l, hsplice, hres⟩ := splice?_copyResiduals (out := sp.outgoing) ht
  refine ⟨d, l, ?_, fun r hr => hres (toButt r) (by rw [hreel, hr]; rfl)⟩
  rw [webEnd_eq, splice?_evalRisk, splice?_handOn, splice?_setSpliceState, splice?_startBraking, splice?_evalRisk,
    splice?_standFreed, webOver, hsplice]
  rfl

theorem webEnd_work (st : StandIx) (n : Nat) (sp : Splice) (s : State) : (webEnd st n sp s).work st =
    { s.work st with
      driveEn := false, demand := 0, buttArm := s.armOf sp.outgoing, brakeKept := false, revQuietTimer := some 3000
      stopTimer := some ((s.stand st).profile.settings.stopTimeout * 1000)
      knifeHomeTimer :=
        if (s.stand st).field.knifePulse = none ∨ s.accepted st .knifeHome = some 1 then (s.work st).knifeHomeTimer else some 500 } := by
  obtain ⟨hprofile, -, -, -, hwork⟩ := stand_standFreed st sp (webOver n sp s.now (releaseKnife st s))
  have hover : (webOver n sp s.now (releaseKnife st s)).work st = (releaseKnife st s).work st := by
    rw [State.work, stand_webOver, State.work]
  rw [webEnd_eq, work_evalRisk, work_handOn, work_setSpliceState, work_startBraking, work_evalRisk, hwork, hover, work_releaseKnife,
    profile_evalRisk, hprofile, stand_webOver, (seq_releaseKnife st s).2.1]

theorem webEnd_field (st : StandIx) (n : Nat) (sp : Splice) (s : State) :
    let x := ((webEnd st n sp s).stand st).field
    x.paster = { drive := .off, pullInTimer := none } ∧ x.knifePulse = none ∧ x.brake.drive ≠ .off
    ∧ x.knife = (if (s.stand st).field.knifePulse = none then (s.stand st).field.knife else { drive := .off, pullInTimer := none }) := by
  obtain ⟨-, hfield, -⟩ := stand_standFreed st sp (webOver n sp s.now (releaseKnife st s))
  have hx : ((webEnd st n sp s).stand st).field = ((startBraking st (s.armOf sp.outgoing)
      (evalRisk st (standFreed st sp (webOver n sp s.now (releaseKnife st s))))).stand st).field := by
    rw [webEnd_eq, field_evalRisk, field_handOn, stand_setSpliceState]
  rw [field_startBraking, field_evalRisk, hfield, stand_webOver, field_releaseKnife] at hx
  rw [hx]
  refine ⟨rfl, rfl, ?_, rfl⟩
  dsimp only
  split
  · assumption
  · split <;> exact nofun

theorem webEnd_gauge (st : StandIx) (n : Nat) (sp : Splice) (s : State) :
    let g := ((webEnd st n sp s).stand st).gauge
    g.ref = false ∧ g.runMark = 0 ∧ g.streak = 0 := by
  let u := standFreed st sp (webOver n sp s.now (releaseKnife st s))
  obtain ⟨-, -, hgauge, -⟩ := stand_standFreed st sp (webOver n sp s.now (releaseKnife st s))
  let v := handOn st s (setSpliceState n .braking (startBraking st (s.armOf sp.outgoing) (evalRisk st u)))
  have hv : (v.stand st).gauge = ((evalRisk st u).stand st).gauge := by
    rw [gauge_handOn, stand_setSpliceState, (stand_startBraking st _ _).1]
  obtain ⟨a, b, hfirst⟩ := gauge_evalRisk st u
  obtain ⟨c, d, hlast⟩ := gauge_evalRisk st v
  rw [webEnd_eq]
  rw [hv, hfirst, hgauge] at hlast
  rw [hlast]
  exact ⟨rfl, rfl, rfl⟩

theorem webEnd_folder (st : StandIx) (n : Nat) {sp : Splice} (s : State) {f : FolderIx} (h : sp.folder = some f) :
    (webEnd st n sp s).folder f = { s.folder f with slot := none, grantOccasions := (s.folder f).grantOccasions + 1 } := by
  rw [webEnd_eq, folder_evalRisk, folder_handOn, folder_setSpliceState, folder_startBraking, folder_evalRisk, folder_standFreed h,
    webOver, folder_copyResiduals, folder_modReel, folder_modReel, folder_releaseKnife]

/-- Whatever the queue holds as WEB_END is raised, it holds after web end, if the evaluation of run-out risk keeps it. -/
theorem webEnd_queue {st : StandIx} {n : Nat} {sp : Splice} {s : State} (P : Queue → Prop)
    (hentries : ∀ q q' : Queue, q'.entries = q.entries → P q → P q')
    (hrisk : ∀ t : State, P (t.stand st).queue → P ((evalRisk st t).stand st).queue)
    (h : P ((s.stand st).queue.place .webEnd (s.work st).active s.now
      (residualsOf (webOver n sp s.now (releaseKnife st s)) sp.outgoing))) :
    P ((webEnd st n sp s).stand st).queue := by
  let w := webOver n sp s.now (releaseKnife st s)
  obtain ⟨-, -, -, hqueue, -⟩ := stand_standFreed st sp w
  have hw : (w.stand st).queue = (s.stand st).queue := by rw [stand_webOver, (seq_releaseKnife st s).2.2]
  have hactive : (w.work st).active = (s.work st).active := by
    have hwork : w.work st = (releaseKnife st s).work st := by rw [State.work, stand_webOver, State.work]
    rw [hwork, work_releaseKnife]
  have hnow : w.now = s.now := by simp [w, webOver, State.now]
  rw [webEnd_eq]
  refine hrisk _ (hentries _ _ (entries_handOn st s _) ?_)
  rw [stand_setSpliceState, (stand_startBraking st _ _).2]
  refine hrisk _ ?_
  rw [hqueue, hw, hactive, hnow]
  exact h

/-- Settles O47: web end by its parts, the reels and the record, the stand, and the queue as WEB_END is raised. -/
theorem webEndHandsTheWebOver : Obligations.WebEndHandsTheWebOver := by
  intro st n sp s hs _ hne t
  obtain ⟨hactive, hsplice⟩ := activeSplice_eq_some.1 hs
  obtain ⟨hout, hinc⟩ := webEnd_reels st n s hne
  obtain ⟨d, l, hrecord, hres⟩ := webEnd_splice st hsplice hne
  obtain ⟨hpaster, hpulse, hbrake, hknife⟩ := webEnd_field st n sp s
  obtain ⟨href, hmark, hstreak⟩ := webEnd_gauge st n sp s
  have hwork : t.work st = _ := webEnd_work st n sp s
  refine ⟨fun r hr => ⟨?_, fun x hx => ?_⟩, fun r hr => ?_, fun x hx => ?_, by rw [hwork], by rw [hwork], by rw [hwork],
    by rw [hwork], by rw [hwork], hpaster, hpulse, hbrake, hknife, by rw [hwork], href, hmark, hstreak, fun f hf => ?_, ?_, fun hfresh r hr => ?_⟩
  · rw [hout, hr]
    rfl
  · obtain rfl := Option.some.inj (hrecord.symm.trans hx)
    exact hres r hr
  · rw [hinc, hr]
    rfl
  · obtain rfl := Option.some.inj (hrecord.symm.trans hx)
    exact ⟨rfl, rfl, rfl⟩
  · rw [show t.folder f = _ from webEnd_folder st n s hf]
    exact ⟨rfl, rfl⟩
  · exact webEnd_queue (Queue.Holds .webEnd) (fun q q' e h => by rwa [Queue.Holds, e]) (fun _ h => holds_evalRisk h)
      (Queue.holds_place _ _ _ _ _)
  · have hbutt : residualsOf (webOver n sp s.now (releaseKnife st s)) sp.outgoing =
        (r.diameter, r.diameter.map (fun d => remainingLength d r.paper.core r.paper.caliper)) := by
      rw [residualsOf, (reel?_webOver hne n s.now _).1, reel?_releaseKnife, hr]
      rfl
    refine webEnd_queue (Queue.HoldsButt _ _) (fun q q' e h => by rwa [Queue.HoldsButt, e]) (fun _ h => holdsButt_evalRisk h) ?_
    rw [hbutt, hactive]
    exact Queue.holdsButt_place s.now _ hfresh

end Sys2Proof.Machine
end

section
/-! A web count (R38, R42, R97, R100, R124): the gauge, the sequencer's counts, the marks moved, and the marks that leave a track
(WebCountIsTakenByAll). -/

namespace Sys2Proof.Machine

/-! ### The gauge (R38, R42) -/

theorem gauge_webCount_eq (s : State) (st : StandIx) (d : Direction) (g : Gauge) :
    let step : Int := match d with
      | .forward => 1
      | .reverse => -1
    g.webCount d (s.runningReel st).isSome = { g with
      revCount := if g.ref then g.revCount + step else g.revCount
      runMark := if s.runningReel st ≠ none ∧ g.tripped = false then (g.runMark + step).toNat else g.runMark
      window := g.window + step } := by
  unfold Gauge.webCount
  simp only [Option.isSome_iff_ne_none]
  cases d with
  | forward => rfl
  | reverse =>
    have hback : ((g.runMark : Int) + -1).toNat = g.runMark - 1 := by omega
    dsimp only [countOf]
    rw [hback]

/-- The 4,500th forward count without a run mark trips the watch (R42). -/
theorem gaugeWebCount_eq (st : StandIx) (d : Direction) (s : State) : gaugeWebCount st d s =
    if s.runningReel st ≠ none ∧ (s.stand st).gauge.tripped = false ∧ d = .forward ∧ (s.stand st).gauge.runMark = 4499 then
      runMarkLost st (s.modGauge st (fun g => { g.webCount d (s.runningReel st).isSome with tripped := true }))
    else s.modGauge st (Gauge.webCount d (s.runningReel st).isSome) := by
  have hcount : s.runningReel st ≠ none → (s.stand st).gauge.tripped = false → d = .forward →
      (((s.modGauge st (Gauge.webCount d (s.runningReel st).isSome)).stand st).gauge.runMark = 4500 ↔
        (s.stand st).gauge.runMark = 4499) := by
    intro hrun htrip hd
    subst hd
    simp [Gauge.webCount, htrip, Option.isSome_iff_ne_none.2 hrun]
  unfold gaugeWebCount
  simp only [modGauge_modGauge, Option.isSome_iff_ne_none]
  refine ite_congr (propext (and_congr_right fun hrun => and_congr_right fun htrip => and_congr_right fun hd => ?_)) (fun _ => rfl)
    (fun _ => rfl)
  exact hcount hrun htrip hd

/-- The watch tripped (R42): the running reel is the one before the condition is raised. -/
theorem runMarkLost_eq (st : StandIx) (s : State) :
    let t := raise st .runMarkLost s
    runMarkLost st s = (diameterChanged st (match s.runningReel st with
      | some (h, _) => t.modReel h (fun r => { r with diameter := none })
      | none => t)).modGauge st (fun g => { g with streak := 0 }) := by
  intro t
  have hrun : t.runningReel st = s.runningReel st := runningReel_of_reels (reels_raise st .runMarkLost s _) st
  unfold runMarkLost dropRunningDiameter
  rw [hrun] <;> rfl

/-! ### The sequencer (R80, R97, R100) -/

theorem working_webCount_eq (d : Direction) : Working.webCount d = fun w =>
    { w with
      revolution := w.revolution.map (fun r => { r with web := r.web + (match d with | .forward => 1 | .reverse => -1) })
      carryCount := if w.carryDistance = none then w.carryCount
        else w.carryCount + (match d with | .forward => 1 | .reverse => -1) } := by
  funext w
  unfold Working.webCount
  cases w.carryDistance <;> rfl

theorem carryCheck_eq (st : StandIx) (s : State) : carryCheck st s =
    match s.activeSplice st, (s.work st).carryDistance with
    | some (n, sp), some dist => if sp.state = .cutting ∧ (dist : Int) ≤ (s.work st).carryCount then webEnd st n sp s else s
    | _, _ => s := by
  unfold carryCheck
  cases s.activeSplice st with
  | none => rfl
  | some x => cases (s.work st).carryDistance <;> rfl

theorem exec_webCount {st : StandIx} (d : Direction) {s : State} (h : s.runs) : exec (.webCount st d) s =
    .next (trackWebCount st d (carryCheck st ((gaugeWebCount st d s).modWork st (Working.webCount d)))) :=
  onDevice_of_runs (fun s => trackWebCount st d (carryCheck st ((gaugeWebCount st d s).modWork st (Working.webCount d)))) h

/-! ### The marks moved (R124) -/

theorem move_eq (d : Direction) (m : Mark) : m.move d = { m with
    remaining := match d with
      | .forward => m.remaining.map (fun r => r - 1)
      | .reverse => if m.remaining = m.path.map Int.ofNat then m.remaining else m.remaining.map (fun r => r + 1) } := by
  unfold Mark.move
  cases d with
  | forward => rfl
  | reverse =>
    dsimp only
    split <;> rfl

theorem splice?_moveMarks (st : StandIx) (d : Direction) (n : Nat) (s : State) : (moveMarks st d s).splice? n =
    (s.splice? n).map (fun sp => if sp.stand = st ∧ sp.mark.state = .onTrack then { sp with mark := sp.mark.move d } else sp) := by
  simp only [State.splice?, moveMarks, find_mapAll]

/-! ### A folder as its marks leave (R125) -/

@[simp] theorem modFolder_self (s : State) (f : FolderIx) : s.modFolder f (fun F => F) = s := by
  simp [State.modFolder, State.folder, Vector.get_eq_getElem]

theorem folder_unlist (n : Nat) (sp : Splice) (s : State) (f : FolderIx) : (unlist n sp s).folder f =
    { s.folder f with
      track := if sp.folder = some f then (s.folder f).track.filter (fun r => !decide (r.splice = n)) else (s.folder f).track } := by
  unfold unlist
  split
  · next g hg =>
    by_cases hf : g = f
    · subst hf
      simp [hg]
    · simp [hg, hf, folder_modFolder_ne _ _ (Ne.symm hf)]
  · next hg => simp [hg]

/-- The mark of a splice taken off the track of the splice's folder. -/
theorem folder_markLeaves (final : MarkState) (n : Nat) (s : State) (f : FolderIx) : (markLeaves final n s).folder f =
    { s.folder f with
      track := if (s.splice? n).bind (fun sp => sp.folder) = some f then
          (s.folder f).track.filter (fun r => !decide (r.splice = n))
        else (s.folder f).track } := by
  unfold markLeaves
  cases s.splice? n with
  | none => rfl
  | some sp => exact folder_unlist n sp _ f

theorem folder_eject (g f : FolderIx) (n : Nat) (s : State) : ((eject g n s).folder f).spacing = (s.folder f).spacing
    ∧ ((eject g n s).folder f).track = if (s.splice? n).bind (fun sp => sp.folder) = some f then
        (s.folder f).track.filter (fun r => !decide (r.splice = n))
      else (s.folder f).track := by
  unfold eject
  rw [folder_grantOccasion, folder_retire, folder_markLeaves]
  split <;> exact ⟨rfl, rfl⟩

theorem splice?_eject_ne (f : FolderIx) {n m : Nat} (s : State) (h : m ≠ n) : (eject f n s).splice? m = s.splice? m := by
  rw [eject, splice?_grantOccasion]
  rcases splice?_retire n m (markLeaves .ejected n s) with e | ⟨e, _⟩
  · rw [e, splice?_markLeaves, if_neg h]
  · exact absurd e h

theorem spacing_ejects (g f : FolderIx) (l : List SpliceRef) : ∀ s : State,
    ((l.foldl (fun t r => eject g r.splice t) s).folder f).spacing = (s.folder f).spacing := by
  induction l with
  | nil => exact fun _ => rfl
  | cons r l ih => exact fun s => (ih (eject g r.splice s)).trans (folder_eject g f r.splice s).1

/-- The track after ejections: each leaves it, if its splice runs to this folder. -/
theorem track_ejects (f : FolderIx) (l : List SpliceRef) : ∀ s : State, (l.map SpliceRef.splice).Nodup →
    ((l.foldl (fun t r => eject f r.splice t) s).folder f).track = (s.folder f).track.filter (fun r =>
      !(decide (r.splice ∈ l.map SpliceRef.splice) && decide ((s.splice? r.splice).bind (fun sp => sp.folder) = some f))) := by
  induction l with
  | nil => intro s _; simp
  | cons a l ih =>
    intro s hn
    obtain ⟨ha, hl⟩ := List.nodup_cons.1 hn
    have hrest : ∀ r : SpliceRef, r.splice ≠ a.splice → (eject f a.splice s).splice? r.splice = s.splice? r.splice :=
      fun r hr => splice?_eject_ne f s hr
    have hhead : ((eject f a.splice s).folder f).track = (s.folder f).track.filter (fun r =>
        !(decide (r.splice = a.splice) && decide ((s.splice? r.splice).bind (fun sp => sp.folder) = some f))) := by
      rw [(folder_eject f f a.splice s).2]
      split
      · next hf =>
        refine List.filter_congr (fun r _ => ?_)
        by_cases hr : r.splice = a.splice
        · simp [hr, hf]
        · simp [hr]
      · next hf =>
        refine (List.filter_eq_self.2 (fun r _ => ?_)).symm
        by_cases hr : r.splice = a.splice
        · simp [hr, hf]
        · simp [hr]
    rw [List.foldl_cons, ih _ hl, hhead, List.filter_filter]
    refine List.filter_congr (fun r _ => ?_)
    by_cases hr : r.splice = a.splice
    · simp [hr, ha]
    · simp [hrest r hr, hr]

/-! ### The marks that cross a trail or the spacing (R118, R124) -/

/-- Whether a mark of the stand lies below the folder's trail. -/
def State.pastTrail (s : State) (st : StandIx) (f : FolderIx) (r : SpliceRef) : Bool :=
  decide (r.stand = st) && (match s.remainingOf r with
    | some x => decide (x < -((s.folder f).trail * (s.folder f).cutoff : Int))
    | none => false)

theorem ejectPast_eq (st : StandIx) (f : FolderIx) (s : State) : ejectPast f (fun r => decide (r.stand = st)) s =
    ((s.trackOrder f).filter (s.pastTrail st f)).foldl (fun t r => eject f r.splice t) s := rfl

theorem travelReaches_eq (s : State) (f : FolderIx) (r : SpliceRef) : s.travelReaches f r =
    match (s.splice? r.splice).map (fun sp => (sp.mark.path.bind (fun p => some (p : Int)), sp.mark.remaining)) with
    | some (some p, some x) => decide (p - x = ((s.folder f).spacing : Int))
    | _ => false := by
  unfold State.travelReaches State.markOf markTravel
  cases s.splice? r.splice with
  | none => rfl
  | some sp =>
    dsimp only [Option.map_some, Option.bind_some]
    cases sp.mark.path with
    | none => rfl
    | some p => cases sp.mark.remaining <;> rfl

theorem grants_eq {α : Type} (f : FolderIx) (l : List α) : ∀ s : State, l.foldl (fun t _ => grantOccasion f t) s =
    s.modFolder f (fun F => { F with grantOccasions := F.grantOccasions + l.length }) := by
  induction l with
  | nil => exact fun s => (modFolder_self s f).symm
  | cons a l ih =>
    intro s
    rw [List.foldl_cons, ih, grantOccasion, modFolder_modFolder]
    simp only [List.length_cons, Nat.add_assoc, Nat.add_comm 1]

theorem crossed_eq (st : StandIx) (d : Direction) (s : State) (f : FolderIx) :
    let t := ((s.trackOrder f).filter (s.pastTrail st f)).foldl (fun t r => eject f r.splice t) s
    crossed st d s f = match d with
      | .forward => t.modFolder f (fun F => { F with grantOccasions := F.grantOccasions
          + ((t.folder f).track.filter (fun r => decide (r.stand = st) && t.travelReaches f r)).length })
      | .reverse => t := by
  intro t
  unfold crossed
  rw [ejectPast_eq]
  cases d with
  | forward => exact grants_eq f _ t
  | reverse => rfl

/-- The track after the count: without the marks of the stand below the trail. -/
theorem track_crossed (st : StandIx) (d : Direction) (f : FolderIx) (s : State) (hn : ((s.folder f).track.map SpliceRef.splice).Nodup) :
    ((crossed st d s f).folder f).track = (s.folder f).track.filter (fun r =>
      !(s.pastTrail st f r && decide ((s.splice? r.splice).bind (fun sp => sp.folder) = some f))) := by
  have hperm := perm_trackOrder s f
  let past := (s.trackOrder f).filter (s.pastTrail st f)
  have hnodup : (past.map SpliceRef.splice).Nodup :=
    List.Nodup.sublist (List.Sublist.map _ List.filter_sublist) ((hperm.map _).nodup_iff.2 hn)
  have hpast : ∀ r ∈ (s.folder f).track, r.splice ∈ past.map SpliceRef.splice ↔ s.pastTrail st f r = true := by
    intro r hr
    refine ⟨fun h => ?_, fun h => List.mem_map_of_mem (List.mem_filter.2 ⟨hperm.mem_iff.2 hr, h⟩)⟩
    obtain ⟨x, hx, hsame⟩ := List.mem_map.1 h
    obtain ⟨hlisted, htest⟩ := List.mem_filter.1 hx
    rwa [← List.inj_on_of_nodup_map hn (hperm.mem_iff.1 hlisted) hr hsame]
  have htrack : ((crossed st d s f).folder f).track = ((past.foldl (fun t r => eject f r.splice t) s).folder f).track := by
    rw [crossed_eq]
    cases d with
    | forward =>
      dsimp only
      rw [folder_modFolder]
    | reverse => rfl
  rw [htrack, track_ejects f past s hnodup]
  refine List.filter_congr (fun r hr => ?_)
  have htest : decide (r.splice ∈ past.map SpliceRef.splice) = s.pastTrail st f r := by
    rw [Bool.eq_iff_iff, decide_eq_true_iff]
    exact hpast r hr
  rw [htest]

/-- Settles O46: each receiver's part by its equation, the tracks by `crossed_eq` and `track_crossed`. -/
theorem webCountIsTakenByAll : Obligations.WebCountIsTakenByAll := by
  refine ⟨fun st d s h => ?_, fun st d s => ?_, fun st s => carryCheck_eq st s, fun st d n s => ?_, fun st d s => rfl,
    fun st d f s => ?_, fun st d f s hn => track_crossed st d f s hn, fun st s => runMarkLost_eq st s⟩
  · exact (exec_webCount d h).trans (congrArg Host.Outcome.next (congrArg
      (fun f => trackWebCount st d (carryCheck st ((gaugeWebCount st d s).modWork st f))) (working_webCount_eq d)))
  · intro g step g'
    have hcount : (s.stand st).gauge.webCount d (s.runningReel st).isSome = g' := gauge_webCount_eq s st d g
    refine ⟨fun hno => ?_, fun h r hrun htrip hd hmark => ?_⟩
    · rw [gaugeWebCount_eq, if_neg hno]
      exact modGauge_congr hcount
    · rw [gaugeWebCount_eq, if_pos ⟨by simp [hrun], htrip, hd, hmark⟩]
      exact congrArg (runMarkLost st) (modGauge_congr (by rw [hcount]))
  · rw [splice?_moveMarks]
    simp only [move_eq] <;> rfl
  · intro past t reached
    have hspacing : (t.folder f).spacing = (s.folder f).spacing := spacing_ejects f f past s
    have hreached : (t.folder f).track.filter (fun r => decide (r.stand = st) && t.travelReaches f r) = reached := by
      refine List.filter_congr (fun r _ => ?_)
      rw [travelReaches_eq, hspacing]
      rfl
    rw [← hreached]
    exact crossed_eq st d s f

end Sys2Proof.Machine
end

section
/-! The folder discipline under each command, and under a step (EveryStepKeepsOneSplicePerSlot): what Laws/Orderly.lean says of
each shared operation, carried to the commands. -/

namespace Sys2Proof.Machine

/-- A command whose outcome, if it completes, has the folders disciplined. -/
abbrev DisciplinedAfter (r : Res) : Prop := ∀ t, r = .next t → t.Disciplined

theorem disciplinedAfter_next {t : State} (h : t.Disciplined) : DisciplinedAfter (.next t) := by
  intro u e
  cases e
  exact h

/-- An event of the running device. -/
theorem disciplinedAfter_onDevice {f : State → State} {s : State} (h : s.Disciplined) (hf : (f s).Disciplined) :
    DisciplinedAfter (onDevice f s) := by
  rcases onDevice_completes f s with e | e <;> rw [e]
  · exact disciplinedAfter_next h
  · exact disciplinedAfter_next hf

/-- A request. -/
theorem disciplinedAfter_serve {r : Instr} {own : State → Answer × State} {s : State} (h : s.Disciplined)
    (hf : (own s).2.Disciplined) : DisciplinedAfter (serve r own s) := by
  rcases serve_completes r own s with e | e <;> rw [e]
  · exact disciplinedAfter_next h
  · exact disciplinedAfter_next ((quiet_deliver r _ _).disciplined hf)

variable {s : State}

theorem disciplinedAfter_readsOnly (h : s.Disciplined) {c : Instr} (hc : readsOnly c = true) : DisciplinedAfter (exec c s) := by
  rcases exec_readsOnly hc s with e | ⟨a, e⟩ <;> rw [e]
  · exact disciplinedAfter_next h
  · exact disciplinedAfter_next ((quiet_deliver c a s).disciplined h)

/-- An accepted change taken by its block. -/
theorem disciplinedAfter_takeChange (h : s.Disciplined) (st : StandIx) (i : Input) (l : Fin 4) {f : State → State} (hf : Keeps f) :
    DisciplinedAfter (onDevice (takeChange st i l f) s) := disciplinedAfter_onDevice h (keeps_takeChange hf s h)

/-! ### Resets, time and the link -/

theorem disciplined_powerOn (s : State) : DisciplinedAfter (execPowerOn s) := by
  unfold execPowerOn
  split
  · exact disciplinedAfter_next ((quiet_modLink _ _).disciplined (disciplined_fullReset .power s))
  · exact disciplinedAfter_next (disciplined_fullReset .power s)

theorem disciplined_resetPinAsserted (h : s.Disciplined) : DisciplinedAfter (execResetPinAsserted s) :=
  disciplinedAfter_next (((quiet_foldl _ (fun s st => quiet_dropOutputs st s) allStands s).trans (quiet_modLink _ _)).disciplined h)

theorem disciplined_resetPinReleased (h : s.Disciplined) : DisciplinedAfter (execResetPinReleased s) := by
  unfold execResetPinReleased
  split
  · exact disciplinedAfter_next (disciplined_fullReset _ s)
  · exact disciplinedAfter_next h

/-- An event that changes the link alone. -/
theorem disciplinedAfter_modLink (h : s.Disciplined) (f : Link → Link) : DisciplinedAfter (onDevice (fun s => s.modLink f) s) :=
  disciplinedAfter_onDevice h ((quiet_modLink s f).disciplined h)

theorem disciplined_characterReceived (h : s.Disciplined) (b : Byte) (e : Bool) : DisciplinedAfter (execCharacterReceived b e s) := by
  refine disciplinedAfter_onDevice h ?_
  split
  · exact h
  · exact (quiet_modLink s _).disciplined h

theorem disciplined_answerLastByteSent (h : s.Disciplined) : DisciplinedAfter (execAnswerLastByteSent s) := by
  refine disciplinedAfter_onDevice h ?_
  split
  · split
    · exact disciplined_fullReset _ s
    · exact (quiet_modLink s _).disciplined h
  · split
    · exact disciplined_fullReset _ s
    · exact h

theorem disciplined_resetDevice (h : s.Disciplined) (c : Client) : DisciplinedAfter (execResetDevice c s) := by
  refine disciplinedAfter_onDevice h ?_
  have hd := (quiet_deliver (.resetDevice c) (plain (s.resetAnswer c)) s).disciplined h
  split
  · dsimp only
    split
    · exact (quiet_modLink _ _).disciplined hd
    · exact (quiet_modLink _ _).disciplined hd
  · exact h

/-! ### The Reel Table (R22, R25 to R29): no splice, no folder and no working state changes -/

/-- The Reel Table replaced. -/
theorem quiet_reels (s : State) (l : List (Nat × Reel)) : Quiet s { s with reels := l } :=
  quiet_of_eq rfl (fun _ => rfl) (fun _ => rfl)

theorem disciplined_announceReel (h : s.Disciplined) (c : Client) (code : List Nat) (p : PaperData) :
    DisciplinedAfter (execAnnounceReel c code p s) := by
  refine disciplinedAfter_serve h ?_
  split
  · exact h
  · split
    · exact h
    · exact (quiet_reels s _).disciplined h

theorem disciplined_amendReel (h : s.Disciplined) (c : Client) (k : Nat) (d : PaperAmend) :
    DisciplinedAfter (execAmendReel c k d s) := by
  refine disciplinedAfter_serve h ?_
  dsimp only
  split
  · exact h
  · split
    · exact h
    · next r hr =>
      split
      · exact h
      · split
        · exact (quiet_modReel s k _).disciplined h
        · exact h
        · have q := quiet_modReel s k (fun r => { r with paper := amendPaper r.paper d })
          split
          · exact (q.trans ((quiet_modReel _ k _).trans (quiet_handOn _ s _))).disciplined h
          · exact q.disciplined h

theorem disciplined_mountReel (h : s.Disciplined) (c : Client) (k stand : Nat) (a : Arm) :
    DisciplinedAfter (execMountReel c k stand a s) := by
  refine disciplinedAfter_serve h ?_
  dsimp only
  (repeat' split)
  case _ => exact h
  case _ => exact h
  case _ => exact h
  case _ => exact h
  case _ => exact h
  case _ => exact ((quiet_modReel s k _).trans (quiet_handOn _ s _)).disciplined h
  case _ => exact h

theorem disciplined_unmountReel (h : s.Disciplined) (c : Client) (k : Nat) : DisciplinedAfter (execUnmountReel c k s) := by
  refine disciplinedAfter_serve h ?_
  (repeat' split)
  case _ => exact h
  case _ => exact h
  case _ => exact h
  case _ => exact h
  case _ => exact ((quiet_modReel s k _).trans (quiet_handOnAt _ s _)).disciplined h

theorem disciplined_retireReel (h : s.Disciplined) (c : Client) (k : Nat) : DisciplinedAfter (execRetireReel c k s) := by
  refine disciplinedAfter_serve h ?_
  (repeat' split)
  case _ => exact h
  case _ => exact h
  case _ => exact h
  case _ => exact ((quiet_reels s _).trans (quiet_handOnAt _ s _)).disciplined h
  case _ => exact h

theorem disciplined_thread (h : s.Disciplined) (st : StandIx) (k : Nat) (r : Reel) : (thread st k r s).Disciplined :=
  disciplined_diameterChanged (((quiet_reels s _).trans ((quiet_modReel _ k _).trans
    ((quiet_modSeq _ st (fun q => { q with webBroken := false }) rfl).trans
      ((quiet_modGauge _ st _).trans (quiet_handOn st s _))))).disciplined h) st

theorem disciplined_threadReel (h : s.Disciplined) (c : Client) (stand k : Nat) : DisciplinedAfter (execThreadReel c stand k s) := by
  refine disciplinedAfter_serve h ?_
  (repeat' split)
  case _ => exact h
  case _ => exact h
  case _ => exact h
  case _ => exact disciplined_thread h _ k _
  case _ => exact h

/-! ### Standing data (R9, R60, R62, R114, R155) -/

theorem disciplined_writePlanEntry (h : s.Disciplined) (c : Client) (stand : Nat) (e : PlanFields) :
    DisciplinedAfter (execWritePlanEntry c stand e s) := by
  refine disciplinedAfter_serve h ?_
  split
  · exact h
  · next st _ =>
    split
    · exact h
    · split
      · exact h
      · next p _ =>
        split
        · exact h
        · exact ((quiet_modStand s st (fun x => { x with plan := p }) rfl).trans
            ((quiet_verifyStand st _).trans (quiet_handOn st s _))).disciplined h

theorem disciplined_writeFolder (h : s.Disciplined) (c : Client) (folder cutoff lead trail spacing : Nat) :
    DisciplinedAfter (execWriteFolder c folder cutoff lead trail spacing s) := by
  refine disciplinedAfter_serve h ?_
  (repeat' split)
  case _ => exact h
  case _ => exact h
  case _ f _ _ =>
    exact (quiet_grantOccasion f _).disciplined
      (disciplined_ejectPast ((quiet_modFolder s f _ rfl (List.Perm.refl _) rfl).disciplined h) f _)

theorem disciplined_writeProfile (h : s.Disciplined) (c : Client) (stand : Nat) (p : Profile) :
    DisciplinedAfter (execWriteProfile c stand p s) := by
  refine disciplinedAfter_serve h ?_
  (repeat' split)
  case _ => exact h
  case _ => exact h
  case _ => exact h
  case _ st _ _ _ =>
    exact disciplined_judgeStart (((quiet_modStand s st (fun x => { x with profile := clampProfile p }) rfl).trans
      ((quiet_verifyStand st _).trans ((quiet_handOn st s _).trans
        ((quiet_evalReelCall st _).trans (quiet_evalRisk st _))))).disciplined h) false st

theorem disciplined_writeOneShot (h : s.Disciplined) (c : Client) (stand : Nat) (v : Params (Option Int)) :
    DisciplinedAfter (execWriteOneShot c stand v s) := by
  refine disciplinedAfter_serve h ?_
  (repeat' split)
  case _ => exact h
  case _ => exact h
  case _ st _ _ => exact disciplined_judgeStart ((quiet_modStand s st _ rfl).disciplined h) false st

theorem disciplined_writeRouting (h : s.Disciplined) (c : Client) (stand : Nat) (mask : BitVec 16) (mode : Mode) :
    DisciplinedAfter (execWriteRouting c stand mask mode s) := by
  refine disciplinedAfter_serve h ?_
  (repeat' split)
  case _ => exact h
  case _ => exact h
  case _ => exact h
  case _ => dsimp only; exact (quiet_modQueue s _ _).disciplined h

/-! ### Splices (R63 to R68, R77, R84, R86) -/

theorem disciplined_armSplice (h : s.Disciplined) (c : Client) (stand : Nat) (g : Trigger) (v : Params (Option Int)) :
    DisciplinedAfter (execArmSplice c stand g v s) := by
  refine disciplinedAfter_serve h ?_
  (repeat' split)
  case _ => exact h
  case _ => exact h
  case _ => exact h
  case _ hf =>
    obtain ⟨hidle, hroom⟩ := armFault_none hf
    exact disciplined_arm h hidle hroom _ _ _ _

theorem disciplined_amendSplice (h : s.Disciplined) (c : Client) (n : Nat) (v : Params AmendParam) :
    DisciplinedAfter (execAmendSplice c n v s) := by
  have q := quiet_modSplice s n (fun x => { x with explicit := amendExplicit x.explicit v }) (fun _ => rfl)
  refine disciplinedAfter_serve h ?_
  dsimp only
  (repeat' split)
  case _ => exact h
  case _ => exact h
  case _ => exact h
  case _ => exact h
  case _ => exact h
  case _ => exact disciplined_judgeStart ((q.trans (quiet_noteSplice n .clamped _)).disciplined h) false _
  case _ => exact disciplined_judgeStart (q.disciplined h) false _

theorem disciplined_setChain (h : s.Disciplined) (c : Client) (stand : Nat) (on : Bool) :
    DisciplinedAfter (execSetChain c stand on s) := by
  refine disciplinedAfter_serve h ?_
  split
  · exact h
  · next st _ =>
    have q := quiet_modSeq s st (fun q => { q with chain := on }) rfl
    split
    · exact h
    · dsimp only
      split
      · exact (q.trans (quiet_chainOccasion st _)).disciplined h
      · exact q.disciplined h

theorem disciplined_startAccel (h : s.Disciplined) (c : Client) (stand : Nat) : DisciplinedAfter (execStartAccel c stand s) := by
  refine disciplinedAfter_serve h ?_
  (repeat' split)
  case _ => exact h
  case _ => exact h
  case _ => exact h
  case _ st _ _ _ n sp hs e =>
    have hc := disciplined_commit h (.of_active hs) (sp := sp) e
    unfold startArmed
    (repeat' split)
    · exact h
    · exact (quiet_modWork s st (fun w => { w with startPending := true }) rfl rfl).disciplined h
    · exact hc
    · exact hc
  case _ => exact h

theorem disciplined_fireSplice (h : s.Disciplined) (c : Client) (stand : Nat) : DisciplinedAfter (execFireSplice c stand s) := by
  refine disciplinedAfter_serve h ?_
  split
  · exact h
  · split
    · exact h
    · split
      · exact h
      · next n sp hs =>
        split
        case h_3 e => exact disciplined_enterWaiting h (.of_active hs) e rfl
        all_goals exact h

theorem disciplined_abortSplice (h : s.Disciplined) (c : Client) (stand : Nat) : DisciplinedAfter (execAbortSplice c stand s) := by
  refine disciplinedAfter_serve h ?_
  split
  · exact h
  · next st _ =>
    split
    · exact h
    · split
      · exact h
      · next n sp hs =>
        have hg := (quiet_handOn st s _).disciplined (disciplined_giveUp h (.of_active hs) rfl rfl .abortRequest)
        split
        case h_1 | h_2 | h_3 | h_4 | h_5 => exact hg
        all_goals exact h

/-! ### Status, inputs and tracks (R111, R139, R153, R159) -/

theorem disciplined_acknowledgeStatus (h : s.Disciplined) (c : Client) (stand serial revision : Nat) :
    DisciplinedAfter (execAcknowledgeStatus c stand serial revision s) := by
  refine disciplinedAfter_serve h ?_
  (repeat' split)
  case _ => exact h
  case _ => exact h
  case _ => exact h
  case _ => exact h
  case _ =>
    unfold acknowledgeOldest
    split
    · exact h
    · split
      · exact h
      · exact keeps_acknowledge _ _ _ s h

theorem disciplined_clearChanges (h : s.Disciplined) (c : Client) (stand snapshot : Nat) :
    DisciplinedAfter (execClearChanges c stand snapshot s) := by
  refine disciplinedAfter_serve h ?_
  dsimp only
  (repeat' split)
  case _ => exact h
  case _ => exact h
  case _ => exact h
  case _ => dsimp only; exact (quiet_modField s _ _).disciplined h

theorem disciplined_takeCall (h : s.Disciplined) (c : Client) (stand : Nat) (flag : CallFlag) :
    DisciplinedAfter (execTakeCall c stand flag s) := by
  refine disciplinedAfter_serve h ?_
  dsimp only
  (repeat' split)
  case _ => exact h
  case _ => exact h
  case _ => dsimp only; exact (quiet_modQueue s _ _).disciplined h

theorem disciplined_forceGate (h : s.Disciplined) (c : Client) (folder : Nat) (x : GateForce) :
    DisciplinedAfter (execForceGate c folder x s) := by
  refine disciplinedAfter_serve h ?_
  (repeat' split)
  case _ => exact h
  case _ => exact h
  case _ => dsimp only; exact (quiet_modFolder s _ _ rfl (List.Perm.refl _) rfl).disciplined h

theorem disciplined_execResetStand (h : s.Disciplined) (c : Client) (stand : Nat) : DisciplinedAfter (execResetStand c stand s) := by
  refine disciplinedAfter_serve h ?_
  split
  · exact h
  · next st _ =>
    split
    · exact h
    · split
      · next x hx =>
        split
        · exact h
        · next hn =>
          refine disciplined_resetStand h (fun n sp hs => ?_)
          rw [spliceState_of_activeSplice hs] at hx
          cases hx
          simpa using hn
      · next hx =>
        refine disciplined_resetStand h (fun n sp hs => ?_)
        rw [spliceState_of_activeSplice hs] at hx
        cases hx

/-! ### Field events (R32, R95, R99, R101 to R106, R133 to R135, R142) -/

theorem disciplined_samplingTimerExpiry (h : s.Disciplined) (st : StandIx) (x : Sample) :
    DisciplinedAfter (execSamplingTimerExpiry st x s) :=
  disciplinedAfter_onDevice h (((quiet_foldl _ (fun t i => quiet_sampleInput st i (sampleLevel x i) t) allInputs s).trans
    (quiet_modField _ st _)).disciplined h)

theorem disciplined_pasterEngagedActive (h : s.Disciplined) (st : StandIx) : DisciplinedAfter (execPasterEngagedActive st s) := by
  refine disciplinedAfter_takeChange h st _ _ (fun t k => ?_)
  split
  · exact (quiet_modWork t st (fun w => { w with confirmed := true, confirmTimer := none }) rfl rfl).disciplined k
  · exact k

theorem disciplined_pasterHomeActive (h : s.Disciplined) (st : StandIx) : DisciplinedAfter (execPasterHomeActive st s) := by
  refine disciplinedAfter_takeChange h st _ _ (fun t k => ?_)
  split
  · next n sp hs =>
    split
    · next e => exact disciplined_endBraking k (.of_active hs) e.1
    · exact k
  · exact k

theorem disciplined_knifeHomeActive (h : s.Disciplined) (st : StandIx) : DisciplinedAfter (execKnifeHomeActive st s) :=
  disciplinedAfter_takeChange h st _ _ (fun t k =>
    ((quiet_modWork t st (fun w => { w with knifeHomeTimer := none }) rfl rfl).trans (quiet_updateIndexReq st _)).disciplined k)

theorem disciplined_safetyGateChange (h : s.Disciplined) (st : StandIx) (closed : Bool) :
    DisciplinedAfter (execSafetyGateChange st closed s) := by
  refine disciplinedAfter_takeChange h st _ _ (fun t k => ?_)
  split
  · refine (quiet_updateIndexReq st _).disciplined ?_
    split
    · exact k
    · exact (quiet_gateFoundOpen st t).disciplined k
  · exact k

theorem disciplined_driverHotActive (h : s.Disciplined) (st : StandIx) : DisciplinedAfter (execDriverHotActive st s) :=
  disciplinedAfter_takeChange h st _ _ (fun t k => ((quiet_modField t st _).trans (quiet_raise st .driverHot _ _)).disciplined k)

/-! ### Counts and pulses (R38, R39, R80, R128) -/

theorem disciplined_webCount (h : s.Disciplined) (st : StandIx) (d : Direction) : DisciplinedAfter (execWebCount st d s) :=
  disciplinedAfter_onDevice h (disciplined_trackWebCount (disciplined_carryCheck
    ((quiet_modWork _ st (Working.webCount d) rfl rfl).disciplined (disciplined_gaugeWebCount h st d)) st) st d)

theorem disciplined_tachCount (h : s.Disciplined) (st : StandIx) (d : Direction) : DisciplinedAfter (execTachCount st d s) :=
  disciplinedAfter_onDevice h (disciplined_judgePoints
    (((quiet_modWork s st (Working.tachCount d) rfl rfl).trans (still_restartQuiet st _).quiet).disciplined h) st)

theorem disciplined_pasteMarkPulse (h : s.Disciplined) (st : StandIx) : DisciplinedAfter (execPasteMarkPulse st s) := by
  refine disciplinedAfter_onDevice h ?_
  (repeat' split)
  · exact h
  · exact (quiet_modWork s st (fun w => { w with revolution := some { tach := 0, web := 0 } }) rfl rfl).disciplined h
  · exact h
  · next hs _ _ _ _ _ => exact disciplined_formRevolution h (.of_active hs) rfl _
  · exact h

theorem disciplined_revPulse (h : s.Disciplined) (st : StandIx) (a : Arm) : DisciplinedAfter (execRevPulse st a s) :=
  disciplinedAfter_onDevice h ((quiet_seqRevPulse st a _).disciplined (disciplined_gaugeRevPulse h st a))

theorem disciplined_folderCutPulse (h : s.Disciplined) (f : FolderIx) : DisciplinedAfter (execFolderCutPulse f s) := by
  refine disciplinedAfter_onDevice h ?_
  split
  · refine ((quiet_foldl _ (fun t (r : SpliceRef) => ?_) _ s).trans
      (quiet_modFolder _ f _ rfl (List.Perm.refl _) rfl)).disciplined h
    exact quiet_modSplice t r.splice (fun sp => { sp with mark := { sp.mark with waste := min 65535 (sp.mark.waste + 1) } })
      (fun _ => rfl)
  · exact h

/-! ### Timers (R45, R82, R87, R98, R99, R101 to R104, R140) -/

theorem disciplined_webSpeedTimerExpiry (h : s.Disciplined) (st : StandIx) : DisciplinedAfter (execWebSpeedTimerExpiry st s) := by
  refine disciplinedAfter_onDevice h ?_
  split
  · exact ((quiet_modGauge s st Gauge.sample).trans ((quiet_followWeb st _).trans
      (still_foldl _ (still_sampleOccasion st) allFolders _).quiet)).disciplined h
  · exact h

theorem disciplined_accelTimerExpiry (h : s.Disciplined) (st : StandIx) : DisciplinedAfter (execAccelTimerExpiry st s) := by
  refine disciplinedAfter_onDevice h ?_
  have q := quiet_raise st .matchTimeout s (none, none)
  (repeat' split)
  · next n sp hs _ =>
    exact (quiet_handOn st s _).disciplined
      (disciplined_giveUp (q.disciplined h) ((State.Holds.of_active hs).quiet q) rfl rfl .matchTimeout)
  · exact h
  · exact h

theorem disciplined_quietTimerExpiry (h : s.Disciplined) (st : StandIx) : DisciplinedAfter (execQuietTimerExpiry st s) := by
  refine disciplinedAfter_onDevice h ?_
  split
  · next n sp hs =>
    have hv := State.Holds.of_active hs
    split
    · next e =>
      split
      · split
        · exact disciplined_endUncarried h hv e.1
        · exact (quiet_modWork s st (fun w => { w with quietTimer := none }) rfl rfl).disciplined h
      · exact disciplined_endSpindown h hv e.1
    · exact h
  · exact h

theorem disciplined_stopTimerExpiry (h : s.Disciplined) (st : StandIx) : DisciplinedAfter (execStopTimerExpiry st s) := by
  refine disciplinedAfter_onDevice h ?_
  have q := quiet_raise st .stopTimeout s (none, none)
  have qb := q.trans (quiet_keepBrake st _)
  split
  · next n sp hs =>
    have hv := State.Holds.of_active hs
    split
    · split
      case h_1 e =>
        dsimp only
        split
        · exact disciplined_endSpindown (qb.disciplined h) (hv.quiet qb) e
        · exact disciplined_endSpindown (q.disciplined h) (hv.quiet q) e
      case h_2 e =>
        have qw := qb.trans (quiet_modWork _ st (fun w => { w with stopTimer := none }) rfl rfl)
        have hb : sp.view.state = .braking := e
        exact disciplined_standEnd (qw.disciplined h) (hv.quiet qw) (by rw [hb]; rfl) (by rw [hb]; nofun) _
      all_goals exact h
    · exact h
  · exact h

theorem disciplined_confirmTimerExpiry (h : s.Disciplined) (st : StandIx) : DisciplinedAfter (execConfirmTimerExpiry st s) := by
  refine disciplinedAfter_onDevice h ?_
  (repeat' split)
  · next hs e => exact disciplined_pasteNotConfirmed h (.of_active hs) e.1 rfl
  · exact h
  · exact h

theorem disciplined_knifePulseTimerExpiry (h : s.Disciplined) (st : StandIx) :
    DisciplinedAfter (execKnifePulseTimerExpiry st s) := by
  refine disciplinedAfter_onDevice h ?_
  split
  · exact (quiet_endKnifePulse st s).disciplined h
  · exact h

theorem disciplined_knifeHomeTimerExpiry (h : s.Disciplined) (st : StandIx) :
    DisciplinedAfter (execKnifeHomeTimerExpiry st s) := by
  refine disciplinedAfter_onDevice h ?_
  split
  · exact ((quiet_modWork s st (fun w => { w with knifeHomeTimer := none }) rfl rfl).trans
      (quiet_raise st .knifeNotHome _ _)).disciplined h
  · exact h

theorem disciplined_revQuietTimerExpiry (h : s.Disciplined) (st : StandIx) :
    DisciplinedAfter (execRevQuietTimerExpiry st s) := by
  refine disciplinedAfter_onDevice h ?_
  split
  · exact keeps_buttQuiet st _ ((quiet_modWork s st (fun w => { w with revQuietTimer := none }) rfl rfl).disciplined h)
  · exact h

theorem disciplined_indexTimerExpiry (h : s.Disciplined) (st : StandIx) : DisciplinedAfter (execIndexTimerExpiry st s) := by
  refine disciplinedAfter_onDevice h ?_
  have q := quiet_raise st .indexTimeout s (none, none)
  (repeat' split)
  · next n sp hs e =>
    have hi : sp.view.state = .indexing := e.1
    exact disciplined_standEnd (q.disciplined h) ((State.Holds.of_active hs).quiet q) (by rw [hi]; rfl) (by rw [hi]; nofun) _
  · exact h
  · exact h

theorem disciplined_pullInTimerExpiry (h : s.Disciplined) (st : StandIx) (o : Output) :
    DisciplinedAfter (execPullInTimerExpiry st o s) := disciplinedAfter_onDevice h ((quiet_modField s st _).disciplined h)

/-! ### The auto-arm and the grant (R69, R117, R119) -/

theorem disciplined_autoArmAttempt (h : s.Disciplined) (st : StandIx) : DisciplinedAfter (execAutoArmAttempt st s) := by
  refine disciplinedAfter_onDevice h ?_
  split
  · exact h
  · have ht := (quiet_modSeq s st (fun q => { q with chainOccasions := q.chainOccasions - 1 }) rfl).disciplined h
    unfold takeChainOccasion
    dsimp only
    split
    · exact disciplined_autoArm ht st
    · exact ht

theorem disciplined_grantEvaluation (h : s.Disciplined) (f : FolderIx) : DisciplinedAfter (execGrantEvaluation f s) := by
  refine disciplinedAfter_onDevice h ?_
  split
  · exact h
  · exact disciplined_evaluateGrant ((quiet_modFolder s f (fun F => { F with grantOccasions := F.grantOccasions - 1 }) rfl
      (List.Perm.refl _) rfl).disciplined h) f

/-! ### A step -/

/-- Every command keeps the discipline of the folders. -/
theorem disciplined_exec (h : s.Disciplined) (c : Instr) : DisciplinedAfter (exec c s) := by
  cases c with
  | powerOn => exact disciplined_powerOn s
  | resetPinAsserted => exact disciplined_resetPinAsserted h
  | resetPinReleased => exact disciplined_resetPinReleased h
  | timeCounterTick => exact disciplinedAfter_modLink h _
  | characterReceived b e => exact disciplined_characterReceived h b e
  | interCharacterTimerExpiry => exact disciplinedAfter_modLink h _
  | transmitAnswer => exact disciplinedAfter_modLink h _
  | answerLastByteSent => exact disciplined_answerLastByteSent h
  | announceReel c code p => exact disciplined_announceReel h c code p
  | amendReel c k d => exact disciplined_amendReel h c k d
  | mountReel c k stand a => exact disciplined_mountReel h c k stand a
  | unmountReel c k => exact disciplined_unmountReel h c k
  | retireReel c k => exact disciplined_retireReel h c k
  | readReel c k => exact disciplinedAfter_readsOnly h rfl
  | findReel c code => exact disciplinedAfter_readsOnly h rfl
  | listStand c stand => exact disciplinedAfter_readsOnly h rfl
  | threadReel c stand k => exact disciplined_threadReel h c stand k
  | writePlanEntry c stand e => exact disciplined_writePlanEntry h c stand e
  | readSettings c stand => exact disciplinedAfter_readsOnly h rfl
  | writeFolder c f cutoff lead trail spacing => exact disciplined_writeFolder h c f cutoff lead trail spacing
  | writeProfile c stand p => exact disciplined_writeProfile h c stand p
  | writeOneShot c stand v => exact disciplined_writeOneShot h c stand v
  | writeRouting c stand mask mode => exact disciplined_writeRouting h c stand mask mode
  | armSplice c stand g v => exact disciplined_armSplice h c stand g v
  | amendSplice c n v => exact disciplined_amendSplice h c n v
  | setChain c stand on => exact disciplined_setChain h c stand on
  | readSplice c n => exact disciplinedAfter_readsOnly h rfl
  | startAccel c stand => exact disciplined_startAccel h c stand
  | fireSplice c stand => exact disciplined_fireSplice h c stand
  | abortSplice c stand => exact disciplined_abortSplice h c stand
  | readStatus c stand => exact disciplinedAfter_readsOnly h rfl
  | acknowledgeStatus c stand serial revision => exact disciplined_acknowledgeStatus h c stand serial revision
  | readInputs c stand => exact disciplinedAfter_readsOnly h rfl
  | clearChanges c stand snapshot => exact disciplined_clearChanges h c stand snapshot
  | takeCall c stand flag => exact disciplined_takeCall h c stand flag
  | readTrack c f => exact disciplinedAfter_readsOnly h rfl
  | forceGate c f x => exact disciplined_forceGate h c f x
  | resetStand c stand => exact disciplined_execResetStand h c stand
  | resetDevice c => exact disciplined_resetDevice h c
  | readDevice c => exact disciplinedAfter_readsOnly h rfl
  | samplingTimerExpiry st x => exact disciplined_samplingTimerExpiry h st x
  | starCodeAccepted st code => exact disciplinedAfter_takeChange h st _ _ (fun _ k => disciplined_starTaken k st code)
  | reelPresentLoss st a => exact disciplinedAfter_takeChange h st _ _ (fun _ k => disciplined_reelLost k st a)
  | webPresentLoss st => exact disciplinedAfter_takeChange h st _ _ (fun _ k => disciplined_webLost k st)
  | pasterEngagedActive st => exact disciplined_pasterEngagedActive h st
  | pasterHomeActive st => exact disciplined_pasterHomeActive h st
  | knifeHomeActive st => exact disciplined_knifeHomeActive h st
  | safetyGateChange st closed => exact disciplined_safetyGateChange h st closed
  | driverHotActive st => exact disciplined_driverHotActive h st
  | driverHotInactive st => exact disciplinedAfter_takeChange h st _ _ (fun _ k => disciplined_judgeStart k true st)
  | webCount st d => exact disciplined_webCount h st d
  | tachCount st d => exact disciplined_tachCount h st d
  | pasteMarkPulse st => exact disciplined_pasteMarkPulse h st
  | revPulse st a => exact disciplined_revPulse h st a
  | folderCutPulse f => exact disciplined_folderCutPulse h f
  | webSpeedTimerExpiry st => exact disciplined_webSpeedTimerExpiry h st
  | accelTimerExpiry st => exact disciplined_accelTimerExpiry h st
  | quietTimerExpiry st => exact disciplined_quietTimerExpiry h st
  | stopTimerExpiry st => exact disciplined_stopTimerExpiry h st
  | confirmTimerExpiry st => exact disciplined_confirmTimerExpiry h st
  | knifePulseTimerExpiry st => exact disciplined_knifePulseTimerExpiry h st
  | knifeHomeTimerExpiry st => exact disciplined_knifeHomeTimerExpiry h st
  | revQuietTimerExpiry st => exact disciplined_revQuietTimerExpiry h st
  | indexTimerExpiry st => exact disciplined_indexTimerExpiry h st
  | pullInTimerExpiry st o => exact disciplined_pullInTimerExpiry h st o
  | autoArmAttempt st => exact disciplined_autoArmAttempt h st
  | grantEvaluation f => exact disciplined_grantEvaluation h f

/-- Two splices that hold the slot of one folder are one (R117). -/
theorem State.Disciplined.holder_unique (h : s.Disciplined) {n m : Nat} {x y : Splice} {f : FolderIx}
    (hn : s.splice? n = some x) (hm : s.splice? m = some y) (hx : holdsSlot x.state = true) (hy : holdsSlot y.state = true)
    (hf : x.folder = some f) (hg : y.folder = some f) : n = m := by
  obtain ⟨f1, e1, slot1⟩ := h.holder n x hn hx
  obtain ⟨f2, e2, slot2⟩ := h.holder m y hm hy
  obtain rfl : f = f1 := Option.some.inj (hf.symm.trans e1)
  obtain rfl : f = f2 := Option.some.inj (hg.symm.trans e2)
  exact congrArg SpliceRef.splice (Option.some.inj (slot1.symm.trans slot2))

/-- Settles O57: each command keeps the discipline by the lemma of its effect; the slot names its one holder. -/
theorem everyStepKeepsOneSplicePerSlot : Obligations.EveryStepKeepsOneSplicePerSlot := by
  refine ⟨fun s t h e => ?_, fun s n m x y f h hn hm hx hy hf hg => h.holder_unique hn hm hx hy hf hg⟩
  cases hp : s.pending with
  | nil =>
    rw [step_nil hp] at e
    exact disciplinedAfter_next h t e
  | cons c rest =>
    rw [step_cons hp] at e
    exact disciplined_exec (disciplined_pending h rest) c t e

end Sys2Proof.Machine
end

section
/-! The order of the wait lists and of the queues (`State.QueuesInOrder`) seen through what its parts speak of: the wait lists; of
each status queue its entries and its next serial, with the stand's active splice; of each splice record its stand, its end
acknowledgement, its values and its waste copies; of each stand the values a splice takes from it. Operations that leave these, or
change them only as `Calm` says, keep the order; raising a condition, ending a splice, arming and acknowledging have a lemma each. -/

namespace Sys2Proof.Machine

/-! ### A status queue by itself (R146, R148) -/

/-- An entry that holds no condition that ends its splice (R153). -/
def StatusEntry.Open (e : StatusEntry) : Prop := Condition.standEnd ∉ e.conditions ∧ Condition.spliceVoid ∉ e.conditions

/-- A condition that ends its splice (R153). -/
abbrev Condition.Ends (c : Condition) : Prop := c = .standEnd ∨ c = .spliceVoid

/-- A queue in order, as State.QueuesInOrder has it, with the stand's active splice. -/
structure Queue.Tidy (q : Queue) (active : Option Nat) : Prop where
  serials : (q.entries.map StatusEntry.serial ++ [q.nextSerial]).IsChain (fun a b => b = nextNumber a)
  attributed : q.entries.Pairwise (fun a b => a.splice = none ∨ a.splice ≠ b.splice)
  newest : ∀ n, active = some n → ∀ e ∈ q.entries, e.splice = some n → q.entries.getLast? = some e ∧ e.Open

/-- With no active splice nothing is asked of the newest entry. -/
theorem Queue.Tidy.idle {q : Queue} {a : Option Nat} (h : q.Tidy a) : q.Tidy none := ⟨h.serials, h.attributed, nofun⟩

/-- Only the entries and the next serial matter. -/
theorem Queue.Tidy.congr {p q : Queue} {a : Option Nat} (h : q.Tidy a) (he : p.entries = q.entries)
    (hn : p.nextSerial = q.nextSerial) : p.Tidy a := by
  constructor
  · rw [he, hn]; exact h.serials
  · rw [he]; exact h.attributed
  · rw [he]; exact h.newest

theorem onLast_append_singleton (f : StatusEntry → StatusEntry) (l : List StatusEntry) (e : StatusEntry) :
    onLast f (l ++ [e]) = l ++ [f e] := by
  induction l with
  | nil => rfl
  | cons x l ih => cases l with
    | nil => rfl
    | cons y l => exact congrArg (x :: ·) ih

/-- What placing a condition does to the entries (R148, R149): a new entry at the end, or the last one joined. -/
theorem place_cases (q : Queue) (c : Condition) (a : Option Nat) (now : Stamp) (r : Option Nat × Option Nat) :
    (∃ e, (q.place c a now r).entries = q.entries ++ [e] ∧ (q.place c a now r).nextSerial = nextNumber q.nextSerial
      ∧ e.serial = q.nextSerial ∧ e.splice = a ∧ e.conditions = [c] ∧ ∀ x, q.entries.getLast? = some x → x.splice ≠ a)
    ∨ ∃ l x e, q.entries = l ++ [x] ∧ (q.place c a now r).entries = l ++ [e] ∧ (q.place c a now r).nextSerial = q.nextSerial
      ∧ e.serial = x.serial ∧ e.splice = x.splice ∧ e.conditions = addTo c x.conditions := by
  unfold Queue.place
  dsimp only
  split
  · next x hx =>
    split
    · obtain ⟨l, hl⟩ := List.getLast?_eq_some_iff.1 hx
      refine Or.inr ⟨l, x, x.join c (q.routing c) r, hl, ?_, rfl, rfl, rfl, rfl⟩
      rw [hl, onLast_append_singleton]
      rfl
    · next hc =>
      refine Or.inl ⟨q.newEntry c a now r, rfl, rfl, rfl, rfl, rfl, fun y hy => ?_⟩
      rw [hx] at hy
      cases hy
      exact fun e => hc (Or.inl e)
  · next hx =>
    refine Or.inl ⟨q.newEntry c a now r, ?_, rfl, rfl, rfl, rfl, fun y hy => ?_⟩
    · rw [List.getLast?_eq_none_iff.1 hx]; rfl
    · rw [hx] at hy; cases hy

/-- The entries of a queue are attributed to the active splice or as they were. -/
theorem mem_place {q : Queue} {c : Condition} {a : Option Nat} {now : Stamp} {r : Option Nat × Option Nat} {e : StatusEntry}
    (h : e ∈ (q.place c a now r).entries) : e.splice = a ∨ ∃ x ∈ q.entries, x.splice = e.splice := by
  rcases place_cases q c a now r with ⟨y, he, _, _, hs, _⟩ | ⟨l, x, y, hl, he, _, _, hs, _⟩
  · rw [he, List.mem_append, List.mem_singleton] at h
    rcases h with h | rfl
    · exact Or.inr ⟨e, h, rfl⟩
    · exact Or.inl hs
  · rw [he, List.mem_append, List.mem_singleton] at h
    rcases h with h | rfl
    · exact Or.inr ⟨e, by rw [hl]; exact List.mem_append_left _ h, rfl⟩
    · exact Or.inr ⟨x, by rw [hl]; simp, hs.symm⟩

theorem serials_place {q : Queue} {a : Option Nat} (h : q.Tidy a) (c : Condition) (b : Option Nat) (now : Stamp)
    (r : Option Nat × Option Nat) : ((q.place c b now r).entries.map StatusEntry.serial ++ [(q.place c b now r).nextSerial]).IsChain
      (fun a b => b = nextNumber a) := by
  have hc := h.serials
  rcases place_cases q c b now r with ⟨e, he, hn, hs, _⟩ | ⟨l, x, e, hl, he, hn, hs, _⟩
  · rw [he, hn, List.map_append, List.map_singleton, hs]
    refine List.isChain_append.2 ⟨hc, by simp, fun u hu v hv => ?_⟩
    simp only [List.getLast?_append, List.getLast?_singleton, Option.some_or, Option.mem_def, Option.some.injEq,
      List.head?_cons] at hu hv
    rw [← hu, ← hv]
  · rw [hl] at hc
    rw [he, hn]
    simpa [hs] using hc

/-- A condition of the active splice joins the newest entry or opens one of its own. -/
theorem attributed_place {q : Queue} {a : Option Nat} (h : q.Tidy a) (c : Condition) (now : Stamp) (r : Option Nat × Option Nat) :
    (q.place c a now r).entries.Pairwise (fun a b => a.splice = none ∨ a.splice ≠ b.splice) := by
  have hp := h.attributed
  rcases place_cases q c a now r with ⟨e, he, _, _, hs, _, hlast⟩ | ⟨l, x, e, hl, he, _, _, hs, _⟩
  · rw [he, List.pairwise_append]
    refine ⟨hp, List.pairwise_singleton _ _, fun y hy z hz => ?_⟩
    obtain rfl := List.mem_singleton.1 hz
    rw [hs]
    cases hn : y.splice with
    | none => exact Or.inl rfl
    | some n =>
      refine Or.inr (fun ha => ?_)
      exact hlast y (h.newest n ha.symm y hy hn).1 (hn.trans ha)
  · rw [hl, List.pairwise_append] at hp
    obtain ⟨h1, _, h3⟩ := hp
    rw [he, List.pairwise_append]
    refine ⟨h1, List.pairwise_singleton _ _, fun y hy z hz => ?_⟩
    obtain rfl := List.mem_singleton.1 hz
    rw [hs]
    exact h3 y hy x (List.mem_singleton.2 rfl)

/-- Placing a condition keeps a queue in order; one that ends the splice is placed as the splice ceases to be active. -/
theorem tidy_place {q : Queue} {a : Option Nat} (h : q.Tidy a) {c : Condition} (hc : ¬ c.Ends) (now : Stamp)
    (r : Option Nat × Option Nat) : (q.place c a now r).Tidy a := by
  refine ⟨serials_place h c a now r, attributed_place h c now r, fun n hn e he hs => ?_⟩
  have hold := h.newest n hn
  have hpair := h.attributed
  have fresh : ∀ x : Condition, x.Ends → x ∉ [c] := fun x hx hm => hc ((List.mem_singleton.1 hm) ▸ hx)
  rcases place_cases q c a now r with ⟨x, hx, _, _, hxs, hxc, hlast⟩ | ⟨l, x, y, hl, hx, _, _, hys, hyc⟩
  · rw [hx, List.mem_append, List.mem_singleton] at he
    rcases he with he | rfl
    · exact absurd (hs.trans hn.symm) (hlast e (hold e he hs).1)
    · exact ⟨by rw [hx]; simp, by rw [hxc]; exact fresh _ (Or.inl rfl), by rw [hxc]; exact fresh _ (Or.inr rfl)⟩
  · rw [hx, List.mem_append, List.mem_singleton] at he
    rw [hl] at hold hpair
    rcases he with he | rfl
    · obtain ⟨hlast, _⟩ := hold e (List.mem_append_left _ he) hs
      rw [List.getLast?_append, List.getLast?_singleton, Option.some_or, Option.some.injEq] at hlast
      rcases (List.pairwise_append.1 hpair).2.2 e he x (List.mem_singleton.2 rfl) with k | k
      · rw [hs] at k; cases k
      · exact absurd (congrArg _ hlast.symm) k
    · obtain ⟨_, h1, h2⟩ := hold x (by simp) (hys.symm.trans hs)
      refine ⟨by rw [hx]; simp, ?_, ?_⟩ <;> rw [hyc, mem_addTo]
      · exact fun k => k.elim (fun k => hc (Or.inl k.symm)) h1
      · exact fun k => k.elim (fun k => hc (Or.inr k.symm)) h2

theorem tidy_place_end {q : Queue} {a : Option Nat} (h : q.Tidy a) (c : Condition) (now : Stamp) (r : Option Nat × Option Nat) :
    (q.place c a now r).Tidy none := ⟨serials_place h c a now r, attributed_place h c now r, nofun⟩

/-- The oldest entry removed, or kept for DRIVER_HOT alone (R153). -/
theorem tidy_acknowledged {q : Queue} {a : Option Nat} (h : q.Tidy a) {e : StatusEntry} {rest kept : List StatusEntry}
    (he : q.entries = e :: rest) (hk : kept = e.persisted :: rest ∨ kept = rest) : ({ q with entries := kept } : Queue).Tidy a := by
  obtain ⟨hc, hp, hn⟩ := h
  rw [he] at hc hp hn
  obtain ⟨_, hp⟩ := List.pairwise_cons.1 hp
  have last : ∀ x ∈ rest, ∀ n, a = some n → x.splice = some n → rest.getLast? = some x ∧ x.Open := by
    intro x hx n hn' hs
    obtain ⟨h1, h2⟩ := hn n hn' x (List.mem_cons_of_mem _ hx) hs
    obtain ⟨y, l, rfl⟩ := List.exists_cons_of_ne_nil (List.ne_nil_of_mem hx)
    exact ⟨by rwa [List.getLast?_cons_cons] at h1, h2⟩
  rcases hk with rfl | rfl
  · refine ⟨hc, List.pairwise_cons.2 ⟨fun _ _ => Or.inl rfl, hp⟩, fun n hn' x hx hs => ?_⟩
    rcases List.mem_cons.1 hx with rfl | hx
    · cases hs
    · obtain ⟨h1, h2⟩ := last x hx n hn' hs
      obtain ⟨y, l, rfl⟩ := List.exists_cons_of_ne_nil (List.ne_nil_of_mem hx)
      exact ⟨by rwa [List.getLast?_cons_cons], h2⟩
  · exact ⟨hc.tail, hp, fun n hn' x hx hs => last x hx n hn' hs⟩

/-! ### A wait list by itself (R115) -/

/-- A wait list in order. -/
abbrev WaitsSorted (l : List WaitEntry) : Prop := l.Pairwise (fun a b => a.before b = true)

/-- Of two entries of different stands that are not in this order the other stands first. -/
theorem before_of_not_before {a b : WaitEntry} (hs : a.stand ≠ b.stand) (h : ¬ a.before b = true) : b.before a = true := by
  have hne : a.stand.val ≠ b.stand.val := fun e => hs (Fin.ext e)
  unfold WaitEntry.before at h ⊢
  cases ha : a.margin <;> cases hb : b.margin <;>
    simp_all only [decide_eq_true_eq, Bool.or_eq_true, Bool.and_eq_true, Fin.lt_def, not_true_eq_false] <;> omega

theorem before_trans {a b c : WaitEntry} (h : a.before b = true) (k : b.before c = true) : a.before c = true := by
  unfold WaitEntry.before at h k ⊢
  cases ha : a.margin <;> cases hb : b.margin <;> cases hc : c.margin <;>
    simp_all only [decide_eq_true_eq, Bool.or_eq_true, Bool.and_eq_true, Fin.lt_def, Bool.false_eq_true] <;> omega

theorem sorted_insertWait {e : WaitEntry} {l : List WaitEntry} (h : WaitsSorted l) (hs : ∀ x ∈ l, x.stand ≠ e.stand) :
    WaitsSorted (insertWait e l) := by
  induction l with
  | nil => exact List.pairwise_singleton _ _
  | cons x l ih =>
    obtain ⟨h1, h2⟩ := List.pairwise_cons.1 h
    unfold insertWait
    split
    · next hb =>
      refine List.pairwise_cons.2 ⟨fun y hy => ?_, h⟩
      rcases List.mem_cons.1 hy with rfl | hy
      · exact hb
      · exact before_trans hb (h1 y hy)
    · next hb =>
      refine List.pairwise_cons.2 ⟨fun y hy => ?_, ih h2 (fun y hy => hs y (List.mem_cons_of_mem _ hy))⟩
      rcases List.mem_cons.1 ((perm_insertWait e l).mem_iff.1 hy) with rfl | hy
      · exact before_of_not_before (hs x List.mem_cons_self).symm hb
      · exact h1 y hy

/-- A change of the matched flags moves no entry. -/
theorem sorted_map {l : List WaitEntry} (h : WaitsSorted l) (f : WaitEntry → WaitEntry)
    (hf : ∀ e, (f e).margin = e.margin ∧ (f e).stand = e.stand) : WaitsSorted (l.map f) := by
  refine List.pairwise_map.2 (h.imp (fun {a b} hab => ?_))
  unfold WaitEntry.before at hab ⊢
  rw [(hf a).1, (hf a).2, (hf b).1, (hf b).2]
  exact hab

end Sys2Proof.Machine
end

section
/-! The device in order (`State.Tidy`), and the operations that keep it so by `Calm`: no queue, no attribution and no acknowledgement
changes, and what else changes stays as the order wants it. -/

namespace Sys2Proof.Machine

/-- A splice record whose values and waste copies lie in their ranges (R56, R58, R128). -/
structure Splice.Fine (x : Splice) : Prop where
  explicit : clampOptional x.explicit = x.explicit
  params : clampOptional x.params = x.params
  waste : x.mark.waste ≤ 65535

/-- The values that a splice takes from its stand lie in their ranges (R58, R62). -/
structure Stand.Clamped (x : Stand) : Prop where
  profile : clampParams x.profile.params = x.profile.params
  oneShot : clampOptional x.oneShot.values = x.oneShot.values

/-- A splice of the stand is recorded, and its end is not acknowledged. -/
def State.Open (s : State) (st : StandIx) (n : Nat) : Prop := ∃ x, s.splice? n = some x ∧ x.stand = st ∧ x.endAck = false

/-- A splice number belongs to one stand. -/
theorem State.Open.unique {s : State} {i j : StandIx} {n : Nat} (h : s.Open i n) (k : s.Open j n) : i = j := by
  obtain ⟨x, hx, hi, _⟩ := h
  obtain ⟨y, hy, hj, _⟩ := k
  rw [hx] at hy
  cases hy
  exact hi.symm.trans hj

/-- The wait lists, queues and records in order, with what the steps need beside it: the values that splices take, and the records
of the active splices. -/
structure State.Tidy (s : State) : Prop where
  waits : ∀ f, WaitsSorted (s.folder f).waits
  queues : ∀ st, (s.stand st).queue.Tidy (s.work st).active
  recorded : ∀ st, ∀ e ∈ (s.stand st).queue.entries, ∀ n, e.splice = some n → s.Open st n
  live : ∀ st n, (s.work st).active = some n → s.Open st n
  records : ∀ n x, s.splice? n = some x → x.Fine
  clamped : ∀ st, (s.stand st).Clamped

theorem State.Tidy.of_queuesInOrder {s : State} (hr : s.InRange) (hd : s.Disciplined) (h : s.QueuesInOrder) : s.Tidy where
  waits := h.waits
  queues st := ⟨h.serials st, h.attributed st, fun n hn => (h.newest st n hn).1⟩
  recorded := h.recorded
  live st n hn := by
    obtain ⟨x, hx, hs, _⟩ := hd.active st n hn
    exact ⟨x, hx, hs, (h.newest st n hn).2 x hx⟩
  records n x hx := ⟨(h.values n x hx).1, (h.values n x hx).2, h.waste n x hx⟩
  clamped st := ⟨congrArg Profile.params (hr.stands st).profile, (hr.stands st).oneShot⟩

theorem State.Tidy.queuesInOrder {s : State} (h : s.Tidy) : s.QueuesInOrder where
  waits := h.waits
  serials st := (h.queues st).serials
  attributed st := (h.queues st).attributed
  recorded := h.recorded
  newest st n hn := by
    refine ⟨(h.queues st).newest n hn, fun x hx => ?_⟩
    obtain ⟨y, hy, _, he⟩ := h.live st n hn
    rw [hy] at hx
    cases hx
    exact he
  values n x hx := ⟨(h.records n x hx).explicit, (h.records n x hx).params⟩
  waste n x hx := (h.records n x hx).waste

/-! ### Operations that keep the order whatever the state -/

/-- What an operation may do that neither places nor acknowledges a condition: the wait lists stay sorted; a queue keeps its entries
and its next serial; an active splice stays active or ceases to be; a record that is open stays so, and every record is one that was
there, its values in their ranges if they were; a stand's values stay in their ranges. -/
structure Calm (s t : State) : Prop where
  waits : ∀ f, WaitsSorted (s.folder f).waits → WaitsSorted (t.folder f).waits
  queues : ∀ st, (t.stand st).queue.entries = (s.stand st).queue.entries
    ∧ (t.stand st).queue.nextSerial = (s.stand st).queue.nextSerial
  active : ∀ st, (t.work st).active = (s.work st).active ∨ (t.work st).active = none
  kept : ∀ st n, s.Open st n → t.Open st n
  records : ∀ n x, t.splice? n = some x → ∃ y, s.splice? n = some y ∧ (y.Fine → x.Fine)
  clamped : ∀ st, (s.stand st).Clamped → (t.stand st).Clamped

theorem Calm.refl (s : State) : Calm s s :=
  ⟨fun _ h => h, fun _ => ⟨rfl, rfl⟩, fun _ => Or.inl rfl, fun _ _ h => h, fun _ x h => ⟨x, h, id⟩, fun _ h => h⟩

theorem Calm.trans {s t u : State} (h : Calm s t) (k : Calm t u) : Calm s u := by
  refine ⟨fun f e => k.waits f (h.waits f e), fun st => ⟨(k.queues st).1.trans (h.queues st).1, (k.queues st).2.trans (h.queues st).2⟩,
    fun st => ?_, fun st n e => k.kept st n (h.kept st n e), fun n x e => ?_, fun st e => k.clamped st (h.clamped st e)⟩
  · rcases k.active st with e | e
    · rw [e]; exact h.active st
    · exact Or.inr e
  · obtain ⟨y, hy, fy⟩ := k.records n x e
    obtain ⟨z, hz, fz⟩ := h.records n y hy
    exact ⟨z, hz, fy ∘ fz⟩

theorem Calm.tidy {s t : State} (k : Calm s t) (h : s.Tidy) : t.Tidy where
  waits f := k.waits f (h.waits f)
  queues st := by
    refine Queue.Tidy.congr ?_ (k.queues st).1 (k.queues st).2
    rcases k.active st with e | e
    · rw [e]; exact h.queues st
    · rw [e]; exact (h.queues st).idle
  recorded st e he n hn := k.kept st n (h.recorded st e ((k.queues st).1 ▸ he) n hn)
  live st n hn := by
    rcases k.active st with e | e
    · rw [e] at hn; exact k.kept st n (h.live st n hn)
    · rw [e] at hn; cases hn
  records n x hx := by
    obtain ⟨y, hy, hf⟩ := k.records n x hx
    exact hf (h.records n y hy)
  clamped st := k.clamped st (h.clamped st)

theorem calm_foldl {α : Type} (g : State → α → State) (hg : ∀ s a, Calm s (g s a)) (l : List α) : ∀ s : State, Calm s (l.foldl g s) := by
  induction l with
  | nil => exact Calm.refl
  | cons a l ih => exact fun s => (hg s a).trans (ih _)

/-! ### The updates -/

/-- Tables, stands and folders the same. -/
theorem calm_of_eq {s t : State} (h1 : t.splices = s.splices) (h2 : t.stands = s.stands) (h3 : t.folders = s.folders) : Calm s t := by
  have hf : ∀ f, t.folder f = s.folder f := fun f => by rw [State.folder, h3]; rfl
  have hs : ∀ st, t.stand st = s.stand st := fun st => by rw [State.stand, h2]; rfl
  have hx : ∀ n, t.splice? n = s.splice? n := fun n => by rw [State.splice?, h1]; rfl
  refine ⟨fun f h => by rw [hf]; exact h, fun st => by rw [hs]; exact ⟨rfl, rfl⟩, fun st => Or.inl (by rw [State.work, hs]; rfl),
    fun st n h => ?_, fun n x h => ⟨x, (hx n).symm.trans h, id⟩, fun st h => by rw [hs]; exact h⟩
  obtain ⟨x, e, h⟩ := h
  exact ⟨x, (hx n).trans e, h⟩

theorem calm_modStand (s : State) (i : StandIx) (f : Stand → Stand)
    (hq : (f (s.stand i)).queue.entries = (s.stand i).queue.entries ∧ (f (s.stand i)).queue.nextSerial = (s.stand i).queue.nextSerial)
    (ha : (f (s.stand i)).seq.work.active = (s.stand i).seq.work.active ∨ (f (s.stand i)).seq.work.active = none)
    (hc : (s.stand i).Clamped → (f (s.stand i)).Clamped) : Calm s (s.modStand i f) := by
  have hj : ∀ j, (s.modStand i f).stand j = if j = i then f (s.stand i) else s.stand j := fun j => by
    by_cases e : j = i
    · subst e; simp
    · simp [e]
  refine ⟨fun _ h => h, fun j => ?_, fun j => ?_, fun _ _ h => h, fun _ x h => ⟨x, h, id⟩, fun j h => ?_⟩
  · rw [hj]
    split
    · next e => rw [e]; exact hq
    · exact ⟨rfl, rfl⟩
  · rw [State.work, hj]
    split
    · next e => rw [e]; exact ha
    · exact Or.inl rfl
  · rw [hj]
    split
    · next e => exact hc (e ▸ h)
    · exact h

theorem calm_modSeq (s : State) (i : StandIx) (f : Sequencer → Sequencer)
    (h : (f (s.stand i).seq).work.active = (s.stand i).seq.work.active ∨ (f (s.stand i).seq).work.active = none) :
    Calm s (s.modSeq i f) := calm_modStand s i _ ⟨rfl, rfl⟩ h (fun k => ⟨k.profile, k.oneShot⟩)

theorem calm_modWork (s : State) (i : StandIx) (f : Working → Working)
    (h : (f (s.work i)).active = (s.work i).active ∨ (f (s.work i)).active = none) : Calm s (s.modWork i f) := calm_modSeq s i _ h

theorem calm_modGauge (s : State) (i : StandIx) (f : Gauge → Gauge) : Calm s (s.modGauge i f) :=
  calm_modStand s i _ ⟨rfl, rfl⟩ (Or.inl rfl) (fun k => ⟨k.profile, k.oneShot⟩)

theorem calm_modField (s : State) (i : StandIx) (f : Field → Field) : Calm s (s.modField i f) :=
  calm_modStand s i _ ⟨rfl, rfl⟩ (Or.inl rfl) (fun k => ⟨k.profile, k.oneShot⟩)

theorem calm_modQueue (s : State) (i : StandIx) (f : Queue → Queue) (h : (f (s.stand i).queue).entries = (s.stand i).queue.entries
    ∧ (f (s.stand i).queue).nextSerial = (s.stand i).queue.nextSerial) : Calm s (s.modQueue i f) :=
  calm_modStand s i _ h (Or.inl rfl) (fun k => ⟨k.profile, k.oneShot⟩)

theorem calm_modFolder (s : State) (i : FolderIx) (g : Folder → Folder)
    (h : WaitsSorted (s.folder i).waits → WaitsSorted (g (s.folder i)).waits) : Calm s (s.modFolder i g) := by
  refine ⟨fun f k => ?_, fun _ => ⟨rfl, rfl⟩, fun _ => Or.inl rfl, fun _ _ h => h, fun _ x h => ⟨x, h, id⟩, fun _ h => h⟩
  by_cases e : f = i
  · subst e; rw [folder_modFolder]; exact h k
  · rw [folder_modFolder_ne s g e]; exact k

theorem calm_modSplice (s : State) (n : Nat) (f : Splice → Splice)
    (h : ∀ x, (f x).stand = x.stand ∧ (f x).endAck = x.endAck ∧ (x.Fine → (f x).Fine)) : Calm s (s.modSplice n f) := by
  refine ⟨fun _ h => h, fun _ => ⟨rfl, rfl⟩, fun _ => Or.inl rfl, fun st m k => ?_, fun m x k => ?_, fun _ h => h⟩
  · obtain ⟨x, e, hs, ha⟩ := k
    by_cases hm : m = n
    · exact ⟨f x, by rw [splice?_modSplice_eq, if_pos hm, e]; rfl, (h x).1.trans hs, (h x).2.1.trans ha⟩
    · exact ⟨x, by rw [splice?_modSplice_eq, if_neg hm, e], hs, ha⟩
  · rw [splice?_modSplice_eq] at k
    split at k
    · obtain ⟨y, e, rfl⟩ := Option.map_eq_some_iff.1 k
      exact ⟨y, e, (h y).2.2⟩
    · exact ⟨x, k, id⟩

/-- An update that leaves stand, acknowledgement, values and mark of a record. -/
theorem calm_modSplice_same (s : State) (n : Nat) (f : Splice → Splice) (h : ∀ x, (f x).stand = x.stand ∧ (f x).endAck = x.endAck
    ∧ (f x).explicit = x.explicit ∧ (f x).params = x.params ∧ (f x).mark = x.mark) : Calm s (s.modSplice n f) := by
  refine calm_modSplice s n f (fun x => ?_)
  obtain ⟨h1, h2, h3, h4, h5⟩ := h x
  exact ⟨h1, h2, fun k => ⟨by rw [h3]; exact k.explicit, by rw [h4]; exact k.params, by rw [h5]; exact k.waste⟩⟩

theorem calm_modReel (s : State) (k : Nat) (f : Reel → Reel) : Calm s (s.modReel k f) := calm_of_eq rfl rfl rfl

theorem calm_modLink (s : State) (f : Link → Link) : Calm s (s.modLink f) := calm_of_eq rfl rfl rfl

/-- A record whose end is acknowledged may go (R72). -/
theorem calm_retire (n : Nat) (s : State) : Calm s (retire n s) := by
  have hst : ∀ st, (retire n s).stand st = s.stand st := stand_retire n s
  refine ⟨fun f h => by rw [folder_retire]; exact h, fun st => by rw [hst]; exact ⟨rfl, rfl⟩,
    fun st => Or.inl (by rw [work_retire]), fun st m h => ?_, fun m x h => ⟨x, splice?_of_retire h, id⟩, fun st h => by rw [hst]; exact h⟩
  obtain ⟨x, e, hs, ha⟩ := h
  refine ⟨x, ?_, hs, ha⟩
  unfold retire
  split
  · next y hy =>
    split
    · next hc =>
      rw [State.splice?, find_erase, if_neg]
      · exact e
      · rintro rfl
        rw [hy] at e
        cases e
        rw [ha] at hc
        exact Bool.false_ne_true hc.2.1
    · exact e
  · exact e

/-! ### Reel call, reels, folders (R21, R30, R115, R118, R120, R158) -/

theorem calm_evalReelCall (st : StandIx) (s : State) : Calm s (evalReelCall st s) := by
  unfold evalReelCall
  exact calm_modQueue s st _ ⟨rfl, rfl⟩

theorem calm_chainOccasion (st : StandIx) (s : State) : Calm s (chainOccasion st s) := calm_modSeq s st _ (Or.inl rfl)

theorem calm_handOn (st : StandIx) (b s : State) : Calm s (handOn st b s) := by
  unfold handOn
  dsimp only
  split
  · exact (calm_chainOccasion st s).trans (calm_evalReelCall st _)
  · exact calm_evalReelCall st s

theorem calm_handOnAt (r : Reel) (b s : State) : Calm s (handOnAt r b s) := by
  unfold handOnAt
  split
  · exact calm_handOn _ b s
  · exact Calm.refl s

theorem calm_giveBack (st : StandIx) (u : Bool) (k : Nat) (s : State) : Calm s (giveBack st u k s) := calm_modReel s k _

theorem calm_reels (s : State) (l : List (Nat × Reel)) : Calm s { s with reels := l } := calm_of_eq rfl rfl rfl

theorem calm_verifyStand (st : StandIx) (s : State) : Calm s (verifyStand st s) := calm_reels s _

theorem calm_dropRunningDiameter (st : StandIx) (s : State) : Calm s (dropRunningDiameter st s) := by
  unfold dropRunningDiameter
  split
  · exact calm_modReel s _ _
  · exact Calm.refl s

theorem calm_grantOccasion (f : FolderIx) (s : State) : Calm s (grantOccasion f s) := calm_modFolder s f _ id

theorem calm_leaveWaits (f : FolderIx) (st : StandIx) (s : State) : Calm s (leaveWaits f st s) :=
  calm_modFolder s f _ (fun h => h.filter _)

theorem calm_releaseSlot (f : FolderIx) (s : State) : Calm s (releaseSlot f s) :=
  (calm_modFolder s f (fun F => { F with slot := none }) id).trans (calm_grantOccasion f _)

theorem calm_leaveSlot (sp : Splice) (s : State) : Calm s (leaveSlot sp s) := by
  unfold leaveSlot
  split
  · exact calm_releaseSlot _ s
  · exact Calm.refl s

theorem calm_leaveArbiter (st : StandIx) (sp : Splice) (s : State) : Calm s (leaveArbiter st sp s) := by
  unfold leaveArbiter
  (repeat' split)
  · exact calm_leaveWaits _ st s
  · exact calm_releaseSlot _ s
  all_goals exact Calm.refl s

theorem calm_refreshMargin (st : StandIx) (s : State) : Calm s (refreshMargin st s) := by
  unfold refreshMargin
  split
  · split
    · split
      · next f _ _ e he =>
        dsimp only
        split
        · exact Calm.refl s
        · refine (calm_modFolder s f _ (fun h => ?_)).trans (calm_grantOccasion f _)
          have hst : e.stand = st := by simpa using List.find?_some he
          exact sorted_insertWait (h.filter _) (fun x hx => by simpa [hst] using (List.mem_filter.1 hx).2)
      · exact Calm.refl s
    · exact Calm.refl s
  · exact Calm.refl s

theorem calm_setMatched (st : StandIx) (sp : Splice) (x : Bool) (s : State) : Calm s (setMatched st sp x s) := by
  have k := calm_modWork s st (fun w => { w with matched := x }) (Or.inl rfl)
  unfold setMatched
  dsimp only
  split
  · exact k.trans (calm_modFolder _ _ _ (fun h => sorted_map h _ (fun e => by split <;> exact ⟨rfl, rfl⟩)))
  · exact k

theorem calm_setGirth (k : Nat) (g : Int) (s : State) : Calm s (setGirth k g s) := calm_modReel s k _

theorem calm_rematch (st : StandIx) (sp : Splice) (g : Int) (s : State) : Calm s (rematch st sp g s) := by
  have k := ((calm_modWork s st (fun w => { w with goodCount := 3 }) (Or.inl rfl)).trans (calm_setMatched st sp true _)).trans
    (calm_setGirth sp.incoming g _)
  unfold rematch
  dsimp only
  split
  · exact k.trans (calm_grantOccasion _ _)
  · exact k

/-! ### Outputs (R140, R141) -/

theorem calm_energisePaster (st : StandIx) (s : State) : Calm s (energisePaster st s) := by
  unfold energisePaster
  exact calm_modField s st _

theorem calm_energiseBrake (st : StandIx) (s : State) : Calm s (energiseBrake st s) := by
  unfold energiseBrake
  exact calm_modField s st _

theorem calm_energiseKnife (st : StandIx) (s : State) : Calm s (energiseKnife st s) := by
  unfold energiseKnife
  exact calm_modField s st _

theorem calm_releasePaster (st : StandIx) (s : State) : Calm s (releasePaster st s) := calm_modField s st _
theorem calm_releaseBrake (st : StandIx) (s : State) : Calm s (releaseBrake st s) := calm_modField s st _

theorem calm_endKnifePulse (st : StandIx) (s : State) : Calm s (endKnifePulse st s) := by
  have k := calm_modField s st (fun x => { x with knife := x.knife.release, knifePulse := none })
  unfold endKnifePulse
  dsimp only
  split
  · exact k
  · exact k.trans (calm_modWork _ st _ (Or.inl rfl))

theorem calm_releaseKnife (st : StandIx) (s : State) : Calm s (releaseKnife st s) := by
  unfold releaseKnife
  split
  · exact calm_endKnifePulse st s
  · exact Calm.refl s

theorem calm_startBraking (st : StandIx) (a : Option Arm) (s : State) : Calm s (startBraking st a s) :=
  (calm_energiseBrake st s).trans (calm_modWork _ st _ (Or.inl rfl))

theorem calm_keepBrake (st : StandIx) (s : State) : Calm s (keepBrake st s) :=
  (calm_modField s st _).trans (calm_modWork _ st _ (Or.inl rfl))

theorem calm_updateIndexReq (st : StandIx) (s : State) : Calm s (updateIndexReq st s) := by
  unfold updateIndexReq
  dsimp only
  (repeat' split)
  · exact Calm.refl s
  · exact calm_modWork s st _ (Or.inl rfl)
  · exact calm_modWork s st _ (Or.inl rfl)
  · exact Calm.refl s

theorem calm_dropOutputs (st : StandIx) (s : State) : Calm s (dropOutputs st s) :=
  (calm_modField s st _).trans (calm_modWork _ st _ (Or.inl rfl))

/-! ### The splice record and its mark (R54, R72, R124 to R126) -/

theorem calm_setSpliceState (n : Nat) (x : SpliceState) (s : State) : Calm s (setSpliceState n x s) :=
  calm_modSplice_same s n _ (fun _ => ⟨rfl, rfl, rfl, rfl, rfl⟩)

theorem calm_evaluateGrant (f : FolderIx) (s : State) : Calm s (evaluateGrant f s) := by
  unfold evaluateGrant
  split
  · exact Calm.refl s
  · split
    · unfold grant
      exact (calm_modFolder s f (fun F => { F with slot := some _ }) id).trans ((calm_leaveWaits f _ _).trans
        ((calm_setSpliceState _ .firing _).trans (calm_modWork _ _ _ (Or.inl rfl))))
    · exact Calm.refl s

theorem calm_setCause (n : Nat) (c : EndCause) (s : State) : Calm s (setCause n c s) :=
  calm_modSplice_same s n _ (fun _ => ⟨rfl, rfl, rfl, rfl, rfl⟩)

theorem calm_noteSplice (n : Nat) (x : SpliceNote) (s : State) : Calm s (noteSplice n x s) :=
  calm_modSplice_same s n _ (fun _ => ⟨rfl, rfl, rfl, rfl, rfl⟩)

theorem calm_endRecord (n : Nat) (x : SpliceState) (s : State) : Calm s (endRecord n x s) :=
  calm_modSplice_same s n _ (fun _ => ⟨rfl, rfl, rfl, rfl, rfl⟩)

theorem calm_copyResiduals (n out : Nat) (s : State) : Calm s (copyResiduals n out s) := by
  unfold copyResiduals
  split
  · exact calm_modSplice_same s n _ (fun _ => ⟨rfl, rfl, rfl, rfl, rfl⟩)
  · exact Calm.refl s

/-- A mark changes, its waste copies as they were. -/
theorem Splice.Fine.marked {x y : Splice} (h : x.Fine) (h1 : y.explicit = x.explicit) (h2 : y.params = x.params)
    (h3 : y.mark.waste = x.mark.waste) : y.Fine := by
  constructor
  · rw [h1]; exact h.explicit
  · rw [h2]; exact h.params
  · rw [h3]; exact h.waste

theorem calm_enterSpindown (st : StandIx) (n : Nat) (o : SpinOutcome) (s : State) : Calm s (enterSpindown st n o s) :=
  (calm_setSpliceState n .spindown s).trans (calm_modWork _ st _ (Or.inl rfl))

theorem calm_markLeaves (final : MarkState) (n : Nat) (s : State) : Calm s (markLeaves final n s) := by
  unfold markLeaves
  split
  · have k := calm_modSplice s n (fun x => { x with mark := { x.mark with state := final } })
      (fun _ => ⟨rfl, rfl, fun h => h.marked rfl rfl rfl⟩)
    unfold unlist
    split
    · exact k.trans (calm_modFolder _ _ _ id)
    · exact k
  · exact Calm.refl s

theorem calm_eject (f : FolderIx) (n : Nat) (s : State) : Calm s (eject f n s) :=
  ((calm_markLeaves .ejected n s).trans (calm_retire n _)).trans (calm_grantOccasion f _)

theorem calm_purge (test : Nat → Splice → Bool) (s : State) : Calm s (purge test s) :=
  ((calm_foldl _ (fun s (p : Nat × Splice) => calm_markLeaves .purged p.1 s) _ s).trans
    (calm_foldl _ (fun s (p : Nat × Splice) => calm_retire p.1 s) _ _)).trans
    (calm_foldl _ (fun s f => calm_grantOccasion f s) _ _)

theorem calm_purgeStand (st : StandIx) (s : State) : Calm s (purgeStand st s) := calm_purge _ s

theorem calm_ejectPast (f : FolderIx) (test : SpliceRef → Bool) (s : State) : Calm s (ejectPast f test s) :=
  calm_foldl _ (fun t (r : SpliceRef) => calm_eject f r.splice t) _ s

theorem calm_moveMarks (st : StandIx) (d : Direction) (s : State) : Calm s (moveMarks st d s) := by
  have hmoved : ∀ m : Mark, (m.move d).waste = m.waste := fun m => by rw [move_eq]
  refine ⟨fun _ h => h, fun _ => ⟨rfl, rfl⟩, fun _ => Or.inl rfl, fun i n h => ?_, fun n x h => ?_, fun _ h => h⟩
  · obtain ⟨x, e, hs, ha⟩ := h
    rw [State.Open, splice?_moveMarks, e]
    refine ⟨_, rfl, ?_⟩
    dsimp only
    split
    · exact ⟨hs, ha⟩
    · exact ⟨hs, ha⟩
  · rw [splice?_moveMarks] at h
    obtain ⟨y, hy, rfl⟩ := Option.map_eq_some_iff.1 h
    refine ⟨y, hy, fun k => ?_⟩
    split
    · exact k.marked rfl rfl (hmoved _)
    · exact k

theorem calm_crossed (st : StandIx) (d : Direction) (s : State) (f : FolderIx) : Calm s (crossed st d s f) := by
  have k := calm_ejectPast f (fun r => decide (r.stand = st)) s
  unfold crossed
  cases d with
  | forward => exact k.trans (calm_foldl _ (fun t _ => calm_grantOccasion f t) _ _)
  | reverse => exact k

theorem calm_trackWebCount (st : StandIx) (d : Direction) (s : State) : Calm s (trackWebCount st d s) :=
  (calm_moveMarks st d s).trans (calm_foldl _ (calm_crossed st d) _ _)

theorem calm_pasteFront (st : StandIx) (n : Nat) (sp : Splice) (s : State) : Calm s (pasteFront st n sp s) := by
  have k := (calm_modSplice s n (fun x => { x with
      pasted := some s.now
      mark := { state := .onTrack, path := some (s.stand st).plan.path, remaining := some ((s.stand st).plan.path : Int), waste := 0 } })
    (fun _ => ⟨rfl, rfl, fun h => ⟨h.explicit, h.params, Nat.zero_le _⟩⟩)).trans
    (calm_modWork _ st (fun w => { w with markPlaced := true }) (Or.inl rfl))
  unfold pasteFront
  dsimp only
  split
  · exact k.trans ((calm_modFolder _ _ _ id).trans (calm_grantOccasion _ _))
  · exact k

theorem calm_wasteCopy (n : Nat) (s : State) :
    Calm s (s.modSplice n (fun sp => { sp with mark := { sp.mark with waste := min 65535 (sp.mark.waste + 1) } })) :=
  calm_modSplice s n _ (fun _ => ⟨rfl, rfl, fun h => ⟨h.explicit, h.params, Nat.min_le_left _ _⟩⟩)

/-! ### Counts, samples and acceptances (R39, R46, R79, R87, R102, R133, R134) -/

theorem calm_seqRevPulse (st : StandIx) (a : Arm) (s : State) : Calm s (seqRevPulse st a s) := by
  unfold seqRevPulse
  split
  · exact calm_modWork s st _ (Or.inl rfl)
  · exact Calm.refl s

theorem calm_restartQuiet (st : StandIx) (s : State) : Calm s (restartQuiet st s) := by
  unfold restartQuiet
  split
  · exact calm_modWork s st _ (Or.inl rfl)
  · exact Calm.refl s

theorem calm_followWeb (st : StandIx) (s : State) : Calm s (followWeb st s) := by
  unfold followWeb
  split
  · split
    · exact calm_modWork s st _ (Or.inl rfl)
    · exact Calm.refl s
  · exact Calm.refl s

theorem calm_sampleOccasion (st : StandIx) (s : State) (f : FolderIx) : Calm s (sampleOccasion st s f) := by
  unfold sampleOccasion
  split
  · exact calm_grantOccasion f s
  · exact Calm.refl s

theorem calm_acceptInput (st : StandIx) (i : Input) (l : Fin 4) (s : State) : Calm s (acceptInput st i l s) := calm_modField s st _

theorem calm_settleIndex (st : StandIx) (i : Input) (s : State) : Calm s (settleIndex st i s) := by
  unfold settleIndex
  split
  · exact calm_updateIndexReq st s
  · exact Calm.refl s

theorem calm_sampleInput (st : StandIx) (i : Input) (l : Fin 4) (s : State) : Calm s (sampleInput st i l s) := by
  unfold sampleInput
  dsimp only
  split
  · split
    · exact (calm_acceptInput st i l s).trans (calm_modField _ st _)
    · exact (calm_acceptInput st i l s).trans (calm_settleIndex st i _)
  · exact calm_modField s st _

theorem calm_setStar (st : StandIx) (x : StarIndex) (s : State) : Calm s (setStar st x s) :=
  calm_modStand s st _ ⟨rfl, rfl⟩ (Or.inl rfl) (fun k => ⟨k.profile, k.oneShot⟩)

theorem calm_deliver (r : Instr) (a : Answer) (s : State) : Calm s (deliver r a s) := calm_of_eq rfl rfl rfl

theorem calm_clearDiameters (st : StandIx) (s : State) : Calm s (clearDiameters st s) := calm_reels s _

theorem calm_giveBackReserved (st : StandIx) (n : Nat) (sp : Splice) (s : State) : Calm s (giveBackReserved st n sp s) := by
  unfold giveBackReserved
  (repeat' split)
  · exact calm_giveBack st _ _ s
  · exact Calm.refl s
  · exact Calm.refl s

end Sys2Proof.Machine
end

section
/-! The order of the wait lists and of the queues (`State.Tidy`) under the operations that raise conditions, commit, arm, end splices or
acknowledge. -/

namespace Sys2Proof.Machine

variable {s : State}

/-! ### Conditions (R148), the end of a splice (R85, R87, R104) -/

/-- One stand changes: its queue in order with its active splice, and the entries attributed to recorded splices. -/
theorem tidy_modStand (h : s.Tidy) (st : StandIx) (f : Stand → Stand)
    (hq : (f (s.stand st)).queue.Tidy (f (s.stand st)).seq.work.active)
    (hr : ∀ e ∈ (f (s.stand st)).queue.entries, ∀ n, e.splice = some n → s.Open st n)
    (ha : (f (s.stand st)).seq.work.active = (s.work st).active ∨ (f (s.stand st)).seq.work.active = none)
    (hc : (f (s.stand st)).Clamped) : (s.modStand st f).Tidy := by
  have hj : ∀ j, (s.modStand st f).stand j = if j = st then f (s.stand st) else s.stand j := fun j => by
    by_cases e : j = st
    · subst e; simp
    · simp [e]
  refine ⟨h.waits, fun j => ?_, fun j => ?_, fun j n hn => ?_, h.records, fun j => ?_⟩
  · rw [State.work, hj]
    split
    · exact hq
    · exact h.queues j
  · rw [hj]
    split
    · next e => rw [e]; exact hr
    · exact h.recorded j
  · rw [State.work, hj] at hn
    split at hn
    · next e =>
      rcases ha with ha | ha
      · rw [ha] at hn; rw [e]; exact h.live st n hn
      · rw [ha] at hn; cases hn
    · exact h.live j n hn
  · rw [hj]
    split
    · exact hc
    · exact h.clamped j

/-- The entries after a condition is raised are attributed to recorded splices. -/
theorem open_place (h : s.Tidy) {st : StandIx} {c : Condition} {now : Stamp} {r : Option Nat × Option Nat} {e : StatusEntry}
    (he : e ∈ ((s.stand st).queue.place c (s.work st).active now r).entries) {n : Nat} (hn : e.splice = some n) : s.Open st n := by
  rcases mem_place he with ha | ⟨x, hx, hs⟩
  · exact h.live st n (ha.symm.trans hn)
  · exact h.recorded st x hx n (hs.trans hn)

theorem tidy_raise (h : s.Tidy) (st : StandIx) {c : Condition} {r : Option Nat × Option Nat} (hc : ¬ c.Ends := by decide) :
    (raise st c s r).Tidy := by
  unfold raise State.modQueue
  exact tidy_modStand h st _ (tidy_place (h.queues st) hc s.now r) (fun _ he _ hn => open_place h he hn) (Or.inl rfl)
    ⟨(h.clamped st).profile, (h.clamped st).oneShot⟩

/-- The condition that ends a splice is placed as the splice ceases to be active. -/
theorem tidy_endSplice (h : s.Tidy) (st : StandIx) (n : Nat) (x : SpliceState) (c : Condition) : (endSplice st n x c s).Tidy := by
  have hend : ((raise st c s).modWork st Working.afterEnd).Tidy := by
    unfold raise State.modWork State.modSeq State.modQueue
    rw [modStand_modStand]
    refine tidy_modStand h st _ ?_ (fun _ he _ hn => open_place h he hn) (Or.inr (active_afterEnd _))
      ⟨(h.clamped st).profile, (h.clamped st).oneShot⟩
    dsimp only
    rw [active_afterEnd]
    exact tidy_place_end (h.queues st) c s.now (none, none)
  exact (calm_endRecord n x _).tidy hend

theorem tidy_evalRisk (h : s.Tidy) (st : StandIx) : (evalRisk st s).Tidy := by
  rw [evalRisk_eq]
  split
  · exact tidy_raise ((calm_modGauge s st _).tidy h) st
  · exact (calm_modGauge s st _).tidy h

theorem tidy_afterEnd (h : s.Tidy) (st : StandIx) (n : Nat) : (afterEnd st n s).Tidy :=
  (calm_evalReelCall st _).tidy (tidy_evalRisk ((calm_retire n s).tidy h) st)

theorem tidy_gateFoundOpen (h : s.Tidy) (st : StandIx) : (gateFoundOpen st s).Tidy := by
  unfold gateFoundOpen
  split
  · exact h
  · exact (calm_modWork _ st _ (Or.inl rfl)).tidy (tidy_raise h st)

theorem tidy_chainBlocked (h : s.Tidy) (st : StandIx) : (chainBlocked st s).Tidy := by
  unfold chainBlocked
  split
  · exact h
  · exact (calm_modSeq _ st _ (Or.inl rfl)).tidy (tidy_raise h st)

/-! ### Giving up and spin-down (R85, R87, R101) -/

theorem tidy_immediateAbort (h : s.Tidy) (st : StandIx) (n : Nat) (sp : Splice) (c : EndCause) : (immediateAbort st n sp c s).Tidy :=
  tidy_evalRisk (((calm_giveBack st false sp.incoming _).trans (calm_retire n _)).tidy
    (tidy_endSplice ((calm_setCause n c s).tidy h) st n .aborted .spliceVoid)) st

theorem calm_abortToSpindown (st : StandIx) (n : Nat) (sp : Splice) (c : EndCause) (s : State) :
    Calm s (abortToSpindown st n sp c s) :=
  (((calm_setCause n c s).trans (calm_giveBack st false sp.incoming _)).trans (calm_leaveArbiter st sp _)).trans
    (calm_enterSpindown st n .aborted _)

theorem tidy_giveUp (h : s.Tidy) (st : StandIx) (n : Nat) (sp : Splice) (c : EndCause) : (giveUp st n sp c s).Tidy := by
  have hd := (calm_abortToSpindown st n sp c s).tidy h
  unfold giveUp
  split
  case h_1 => exact tidy_immediateAbort h st n sp c
  case h_2 | h_3 | h_4 | h_5 => exact hd
  all_goals exact h

theorem tidy_endSpindown (h : s.Tidy) (st : StandIx) (n : Nat) : (endSpindown st n s).Tidy := by
  unfold endSpindown
  exact tidy_afterEnd (tidy_endSplice ((calm_modWork s st _ (Or.inl rfl)).tidy h) st n _ _) st n

theorem tidy_endUncarried (h : s.Tidy) (st : StandIx) (n : Nat) : (endUncarried st n s).Tidy :=
  tidy_endSpindown (((calm_releaseBrake st s).trans
    (calm_modWork _ st (fun w => { w with revQuietTimer := none }) (Or.inl rfl))).tidy h) st n

/-! ### Commit and triggers (R66, R75, R78, R83) -/

/-- The resolved values lie in their ranges where those they are taken from do (R58, R61). -/
theorem clampOptional_resolve {e o : Params (Option Int)} {p : Params Int} (he : clampOptional e = e) (ho : clampOptional o = o)
    (hp : clampParams p = p) : clampOptional ((resolve e o p).map some) = (resolve e o p).map some := by
  have one : ∀ {range : Int × Int} {a b : Option Int} {v : Int}, a.map (clampInt range) = a → b.map (clampInt range) = b →
      clampInt range v = v → clampInt range (resolveOne a b v) = resolveOne a b v := by
    intro range a b v ha hb hv
    cases a with
    | some x => exact Option.some.inj ha
    | none => cases b with
      | some y => exact Option.some.inj hb
      | none => exact hv
  obtain ⟨e1, e2, e3, e4, e5, e6, e7, e8⟩ := e
  obtain ⟨o1, o2, o3, o4, o5, o6, o7, o8⟩ := o
  obtain ⟨p1, p2, p3, p4, p5, p6, p7, p8⟩ := p
  simp only [clampOptional, clampParams, Params.map2, Params.mk.injEq] at he ho hp
  obtain ⟨he1, he2, he3, he4, he5, he6, he7, he8⟩ := he
  obtain ⟨ho1, ho2, ho3, ho4, ho5, ho6, ho7, ho8⟩ := ho
  obtain ⟨hp1, hp2, hp3, hp4, hp5, hp6, hp7, hp8⟩ := hp
  simp only [clampOptional, resolve, Params.map, Params.map2, Option.map_some, Params.mk.injEq, Option.some.injEq]
  exact ⟨one he1 ho1 hp1, one he2 ho2 hp2, one he3 ho3 hp3, one he4 ho4 hp4, one he5 ho5 hp5, one he6 ho6 hp6, one he7 ho7 hp7,
    one he8 ho8 hp8⟩

theorem clampOptional_noParams : clampOptional noParams = noParams := rfl

/-- A record changes within its ranges. -/
theorem tidy_modSplice (h : s.Tidy) (n : Nat) (f : Splice → Splice)
    (hf : ∀ x, s.splice? n = some x → (f x).stand = x.stand ∧ (f x).endAck = x.endAck ∧ (f x).Fine) : (s.modSplice n f).Tidy := by
  have hopen : ∀ st m, s.Open st m → (s.modSplice n f).Open st m := by
    intro st m ⟨x, e, hs, ha⟩
    by_cases hm : m = n
    · subst hm
      exact ⟨f x, by rw [splice?_modSplice, e]; rfl, (hf x e).1.trans hs, (hf x e).2.1.trans ha⟩
    · exact ⟨x, by rw [splice?_modSplice_ne s f hm, e], hs, ha⟩
  refine ⟨h.waits, h.queues, fun st e he m hm => hopen st m (h.recorded st e he m hm), fun st m hm => hopen st m (h.live st m hm),
    fun m x hx => ?_, h.clamped⟩
  rw [splice?_modSplice_eq] at hx
  split at hx
  · next hm =>
    obtain ⟨y, e, rfl⟩ := Option.map_eq_some_iff.1 hx
    exact (hf y (hm ▸ e)).2.2
  · exact h.records m x hx

theorem tidy_resolveSplice (h : s.Tidy) (st : StandIx) {n : Nat} {sp : Splice} (hs : s.splice? n = some sp) :
    (resolveSplice st n sp s).Tidy := by
  have hv : clampOptional ((s.resolved sp).map some) = (s.resolved sp).map some :=
    clampOptional_resolve (h.records n sp hs).explicit (h.clamped sp.stand).oneShot (h.clamped sp.stand).profile
  have h1 : (s.modSplice n (fun x => { x with params := (s.resolved sp).map some })).Tidy :=
    tidy_modSplice h n _ (fun x hx => ⟨rfl, rfl, (h.records n x hx).explicit, hv, (h.records n x hx).waste⟩)
  have hempty : ∀ t : State, Calm t (t.modStand st (fun x => { x with oneShot := OneShot.empty })) := fun t =>
    calm_modStand t st _ ⟨rfl, rfl⟩ (Or.inl rfl) (fun k => ⟨k.profile, clampOptional_noParams⟩)
  unfold resolveSplice
  dsimp only
  refine (hempty _).tidy ?_
  have h2 : ∀ (b : Bool) (x : SpliceNote) {t : State}, t.Tidy → (if b = true then noteSplice n x t else t).Tidy := by
    intro b x t ht
    split
    · exact (calm_noteSplice n x t).tidy ht
    · exact ht
  exact h2 _ .clamped (h2 _ .oneShotUsed h1)

theorem tidy_failCommit (h : s.Tidy) (st : StandIx) (n : Nat) (sp : Splice) : (failCommit st n sp s).Tidy :=
  tidy_afterEnd (((calm_giveBack st false sp.incoming _).trans (calm_handOn st s _)).tidy
    (tidy_endSplice (tidy_raise ((calm_setCause n .paramConflict s).tidy h) st) st n .aborted .spliceVoid)) st n

theorem tidy_succeedCommit (h : s.Tidy) (st : StandIx) (n : Nat) (sp : Splice) (off : Int) : (succeedCommit st n sp off s).Tidy :=
  tidy_evalRisk ((((calm_modReel s sp.incoming (fun r => { r with state := .committed })).trans
    (calm_modSplice_same _ n (fun x => { x with
      folder := some (s.stand st).plan.folder, committed := some s.now, state := .accel }) (fun _ => ⟨rfl, rfl, rfl, rfl, rfl⟩))).trans
    ((calm_modWork _ st _ (Or.inl rfl)).trans (calm_handOn st s _))).tidy h) st

theorem tidy_commit (h : s.Tidy) (st : StandIx) {n : Nat} {sp : Splice} (hs : s.splice? n = some sp) : (commit st n sp s).Tidy := by
  have hr := tidy_resolveSplice h st hs
  unfold commit
  dsimp only
  split
  · exact tidy_succeedCommit hr st n sp _
  · exact tidy_failCommit hr st n sp

theorem tidy_judgeStart (h : s.Tidy) (p : Bool) (st : StandIx) : (judgeStart p st s).Tidy := by
  unfold judgeStart
  split
  · next n sp hs =>
    split
    · exact tidy_commit h st (activeSplice_eq_some.1 hs).2
    · exact h
  · exact h

/-- A MATCHED splice waits in no list (R115). -/
theorem tidy_enterWaiting (h : s.Tidy) {st : StandIx} {n : Nat} {sp : Splice} (hd : s.Disciplined)
    (hs : s.activeSplice st = some (n, sp)) (hm : sp.state = .matched) : (enterWaiting st n sp s).Tidy := by
  unfold enterWaiting
  split
  · next f _ =>
    have hout : ∀ e ∈ (s.folder f).waits, e.stand ≠ st := by
      intro e he hst
      obtain ⟨ha, hsp⟩ := activeSplice_eq_some.1 hs
      obtain ⟨x, hx, _, _, hw, hact⟩ := (hd.waiter f).1 e he
      rw [hst, ha] at hact
      cases hact
      rw [hsp] at hx
      cases hx
      rw [hm] at hw
      cases hw
    exact ((((calm_setSpliceState n .waiting s).trans (calm_modWork _ st (fun w => { w with matched := true }) (Or.inl rfl))).trans
      (calm_modFolder _ f (fun F => { F with
        waits := insertWait { stand := st, splice := n, matched := true, margin := s.marginOf st sp } F.waits })
        (fun k => sorted_insertWait k hout))).trans (calm_grantOccasion f _)).tidy h
  · exact h

theorem tidy_judgeWaiting (h : s.Tidy) (hd : s.Disciplined) (st : StandIx) : (judgeWaiting st s).Tidy := by
  unfold judgeWaiting
  split
  · next n sp hs =>
    split
    · split
      · next e => exact tidy_enterWaiting h hd hs e.1
      · exact h
    · exact h
  · exact h

theorem tidy_diameterChanged (h : s.Tidy) (hd : s.Disciplined) (st : StandIx) : (diameterChanged st s).Tidy :=
  tidy_evalRisk ((calm_refreshMargin st _).tidy (tidy_judgeWaiting (tidy_judgeStart ((calm_evalReelCall st s).tidy h) false st)
    (disciplined_judgeStart ((quiet_evalReelCall st s).disciplined hd) false st) st)) st

/-! ### Arming (R53, R64) -/

theorem tidy_allocate (h : s.Tidy) (st : StandIx) (hroom : s.splices.length < 32) (o : Origin) (g : Trigger)
    {x : Params (Option Int)} (hx : clampOptional x = x) (c : Bool) : (allocate st o g x c s).Tidy := by
  unfold allocate
  split
  · next out _ inc _ _ _ =>
    have hfree := find_freeNumber (t := s.splices) (by omega) s.nextSplice
    generalize freeNumber s.splices 33 s.nextSplice = n at hfree
    have hnone : s.splice? n = none := hfree
    have hnot : ∀ i, ¬ s.Open i n := fun i ⟨y, hy, _⟩ => by rw [hnone] at hy; cases hy
    let t : State := { s with
      splices := Table.insert n (newSplice st o g out inc x c s.now) s.splices, nextSplice := nextNumber n }
    have hfind : ∀ m, t.splice? m = if m = n then some (newSplice st o g out inc x c s.now) else s.splice? m := fun m =>
      find_insert n m _ s.splices hfree
    have hopen : ∀ i m, s.Open i m → t.Open i m := by
      intro i m hm
      have hne : m ≠ n := fun e => hnot i (e ▸ hm)
      rw [State.Open, hfind, if_neg hne]
      exact hm
    have ht : t.Tidy := by
      refine ⟨h.waits, h.queues, fun i e he m hm => hopen i m (h.recorded i e he m hm), fun i m hm => hopen i m (h.live i m hm),
        fun m y hy => ?_, h.clamped⟩
      rw [hfind] at hy
      split at hy
      · cases hy; exact ⟨hx, clampOptional_noParams, Nat.zero_le _⟩
      · exact h.records m y hy
    have hnew : t.Open st n := ⟨_, by rw [hfind, if_pos rfl], rfl, rfl⟩
    have hr := (calm_modReel t inc (fun r => { r with reservedBy := some n })).tidy ht
    have hj : ∀ j, (((t.modReel inc (fun r => { r with reservedBy := some n })).modWork st
        (fun w => { w with active := some n })).work j).active = if j = st then some n else (s.work j).active := by
      intro j
      by_cases e : j = st
      · subst e; simp
      · simp [e]; rfl
    refine ⟨hr.waits, fun j => ?_, fun j => ?_, fun j m hm => ?_, hr.records, fun j => ?_⟩
    · rw [hj]
      by_cases e : j = st
      · subst e
        rw [if_pos rfl, stand_modWork]
        refine ⟨(h.queues j).serials, (h.queues j).attributed, fun m hm e he hs => ?_⟩
        cases hm
        exact absurd (h.recorded j e he n hs) (hnot j)
      · rw [if_neg e, stand_modWork_ne _ _ e]
        exact h.queues j
    · by_cases e : j = st
      · subst e
        rw [stand_modWork]
        exact hr.recorded j
      · rw [stand_modWork_ne _ _ e]
        exact hr.recorded j
    · rw [hj] at hm
      split at hm
      · next e => cases hm; rw [e]; exact hnew
      · exact hr.live j m hm
    · by_cases e : j = st
      · subst e
        rw [stand_modWork]
        exact ⟨(h.clamped j).profile, (h.clamped j).oneShot⟩
      · rw [stand_modWork_ne _ _ e]
        exact h.clamped j
  · exact h

theorem tidy_arm (h : s.Tidy) (st : StandIx) (hroom : s.splices.length < 32) (o : Origin) (g : Trigger)
    {x : Params (Option Int)} (hx : clampOptional x = x) (c : Bool) : (arm st o g x c s).Tidy :=
  tidy_judgeStart ((calm_handOn st s _).tidy (tidy_allocate h st hroom o g hx c)) false st

theorem tidy_autoArm (h : s.Tidy) (st : StandIx) : (autoArm st s).Tidy := by
  unfold autoArm
  split
  · next hf =>
    exact tidy_arm ((calm_modSeq s st (fun q => { q with chainBlocked := false }) (Or.inl rfl)).tidy h) st (armFault_none hf).2 _ _
      clampOptional_noParams _
  · exact tidy_chainBlocked h st
  · exact tidy_chainBlocked h st
  all_goals exact h

/-! ### The paste, its failure, the web end (R94 to R101) -/

theorem calm_if {b : Bool} {f : State → State} (hf : ∀ t, Calm t (f t)) (s : State) : Calm s (if b = true then f s else s) := by
  split
  · exact hf s
  · exact Calm.refl s

theorem tidy_failPaste (h : s.Tidy) (st : StandIx) (n : Nat) (sp : Splice) : (failPaste st n sp s).Tidy := by
  have hp : Calm s (pasteStopped st n s) := by
    unfold pasteStopped
    exact ((calm_releasePaster st s).trans (calm_modWork _ st (fun w => { w with confirmTimer := none }) (Or.inl rfl))).trans
      (calm_if (calm_purge _) _)
  rw [failPaste_eq]
  exact tidy_evalRisk ((hp.trans ((calm_giveBack st true sp.incoming _).trans ((calm_noteSplice n .pasteUsed _).trans
    ((calm_leaveSlot sp _).trans ((calm_enterSpindown st n .failed _).trans (calm_handOn st s _)))))).tidy h) st

theorem tidy_pasteNotConfirmed (h : s.Tidy) (st : StandIx) (n : Nat) (sp : Splice) : (pasteNotConfirmed st n sp s).Tidy :=
  tidy_failPaste (tidy_raise ((calm_setCause n .pasteNotConfirmed s).tidy h) st) st n sp

theorem tidy_notCarried (h : s.Tidy) (st : StandIx) (n : Nat) (sp : Splice) : (notCarried st n sp s).Tidy := by
  have hr := tidy_raise ((calm_setCause n .spliceNotCarried s).tidy h) st (c := .spliceNotCarried)
    (r := (none, none))
  have hw : (webGone st n sp s).Tidy :=
    ((((calm_releasePaster st _).trans (calm_releaseKnife st _)).trans
      (calm_modSeq _ st (fun q => { q with webBroken := true }) (Or.inl rfl))).trans
      ((calm_purgeStand st _).trans (calm_leaveSlot sp _))).tidy hr
  have hg : ∀ t : State, Calm t (reelsGone st n sp (s.armOf sp.outgoing) t) := fun t =>
    (((calm_modReel t sp.outgoing toButt).trans (calm_giveBack st true sp.incoming _)).trans
      ((calm_noteSplice n .pasteUsed _).trans (calm_copyResiduals n sp.outgoing _))).trans
      ((calm_modGauge _ st (fun g => { g.afresh with riskRaised := false })).trans
        ((calm_startBraking st _ _).trans (calm_enterSpindown st n .failed _)))
  rw [notCarried_eq]
  exact tidy_evalRisk (((hg _).trans (calm_handOn st s _)).tidy hw) st

theorem tidy_webEnd (h : s.Tidy) (st : StandIx) (n : Nat) (sp : Splice) : (webEnd st n sp s).Tidy := by
  have ho : Calm s (webOver n sp s.now (releaseKnife st s)) :=
    (calm_releaseKnife st s).trans (((calm_modReel _ sp.outgoing toButt).trans (calm_modReel _ sp.incoming _)).trans
      (calm_copyResiduals n sp.outgoing _))
  have hf : (standFreed st sp (webOver n sp s.now (releaseKnife st s))).Tidy :=
    (((calm_releasePaster st _).trans (calm_modWork _ st (fun w => { w with driveEn := false, demand := 0 }) (Or.inl rfl))).trans
      ((calm_leaveSlot sp _).trans (calm_modGauge _ st (fun g => { g.afresh with riskRaised := false })))).tidy
      (tidy_raise (ho.tidy h) st)
  rw [webEnd_eq]
  exact tidy_evalRisk (((calm_startBraking st _ _).trans ((calm_setSpliceState n .braking _).trans (calm_handOn st s _))).tidy
    (tidy_evalRisk hf st)) st

theorem tidy_firePoint (h : s.Tidy) (st : StandIx) (n : Nat) : (firePoint st n s).Tidy := by
  unfold firePoint
  exact tidy_evalRisk (((calm_energisePaster st s).trans ((calm_modWork _ st _ (Or.inl rfl)).trans
    (calm_setSpliceState n .pasting _))).tidy h) st

theorem tidy_knifePoint (h : s.Tidy) (st : StandIx) (n : Nat) (sp : Splice) : (knifePoint st n sp s).Tidy := by
  have ht := tidy_evalRisk (((calm_energiseKnife st s).trans ((calm_modWork _ st (fun w =>
    { w with carryDistance := some (s.stand st).profile.settings.carry, carryCount := 0 }) (Or.inl rfl)).trans
    (calm_setSpliceState n .cutting _))).tidy h) st
  unfold knifePoint
  dsimp only
  split
  · exact ht
  · exact tidy_notCarried ((calm_modField _ st Field.takeWebLoss).tidy ht) st n _

theorem tidy_judgeFirePoint (h : s.Tidy) (st : StandIx) : (judgeFirePoint st s).Tidy := by
  unfold judgeFirePoint
  split
  · split
    · exact tidy_firePoint h st _
    · exact h
  · exact h

theorem tidy_judgeFront (h : s.Tidy) (st : StandIx) : (judgeFront st s).Tidy := by
  unfold judgeFront
  split
  · split
    · exact (calm_pasteFront st _ _ s).tidy h
    · exact h
  · exact h

theorem tidy_judgeKnifePoint (h : s.Tidy) (st : StandIx) : (judgeKnifePoint st s).Tidy := by
  unfold judgeKnifePoint
  split
  · split
    · split
      · exact tidy_knifePoint h st _ _
      · exact tidy_pasteNotConfirmed h st _ _
    · exact h
  · exact h

theorem tidy_judgePoints (h : s.Tidy) (st : StandIx) : (judgePoints st s).Tidy :=
  tidy_judgeKnifePoint (tidy_judgeFront (tidy_judgeFirePoint h st) st) st

/-! ### Braking, indexing, the stand end (R102 to R104) -/

theorem tidy_standEnd (h : s.Tidy) (st : StandIx) (n : Nat) (c : EndCause) : (standEnd st n c s).Tidy :=
  tidy_afterEnd ((calm_chainOccasion st _).tidy (tidy_endSplice (((calm_setCause n c s).trans
    (calm_modWork _ st (fun w => { w with indexReq := false, indexTimer := none }) (Or.inl rfl))).tidy h) st n .completed .standEnd)) st n

theorem tidy_enterIndexing (h : s.Tidy) (st : StandIx) (n : Nat) : (enterIndexing st n s).Tidy := by
  have ht := (calm_setSpliceState n .indexing s).tidy h
  have hwait : (updateIndexReq st (if (setSpliceState n .indexing s).isInactive st .safetyGate then
      gateFoundOpen st (setSpliceState n .indexing s) else setSpliceState n .indexing s)).Tidy := by
    refine (calm_updateIndexReq st _).tidy ?_
    split
    · exact tidy_gateFoundOpen ht st
    · exact ht
  have helse := tidy_standEnd (tidy_raise ht st (c := .starMoved) (r := (none, none))) st n .starSettledElsewhere
  unfold enterIndexing
  dsimp only
  split
  · split
    · exact tidy_standEnd ht st n .indexed
    · split
      · exact hwait
      · exact helse
  · exact helse
  · exact hwait
  · exact hwait

theorem tidy_endBraking (h : s.Tidy) (st : StandIx) (n : Nat) : (endBraking st n s).Tidy :=
  tidy_enterIndexing (((calm_releaseBrake st s).trans
    (calm_modWork _ st (fun w => { w with stopTimer := none, revQuietTimer := none }) (Or.inl rfl))).tidy h) st n

theorem tidy_buttQuiet (h : s.Tidy) (st : StandIx) : (buttQuiet st s).Tidy := by
  unfold buttQuiet
  split
  · exact ((calm_releaseBrake st s).trans
      (calm_modWork _ st (fun w => { w with brakeKept := false, buttArm := none }) (Or.inl rfl))).tidy h
  · split
    · split
      · exact tidy_endBraking h st _
      · split
        · exact tidy_endUncarried h st _
        · exact h
    · exact h

/-! ### Counts and pulses (R38 to R42, R81, R92, R100) -/

theorem tidy_runMarkLost (h : s.Tidy) (hd : s.Disciplined) (st : StandIx) : (runMarkLost st s).Tidy :=
  (calm_modGauge _ st _).tidy (tidy_diameterChanged ((calm_dropRunningDiameter st _).tidy (tidy_raise h st))
    (((quiet_raise st .runMarkLost s (none, none)).trans (quiet_dropRunningDiameter st _)).disciplined hd) st)

theorem tidy_gaugeWebCount (h : s.Tidy) (hd : s.Disciplined) (st : StandIx) (d : Direction) : (gaugeWebCount st d s).Tidy := by
  rw [gaugeWebCount_eq]
  split
  · exact tidy_runMarkLost ((calm_modGauge s st _).tidy h) ((quiet_modGauge s st _).disciplined hd) st
  · exact (calm_modGauge s st _).tidy h

theorem tidy_carryCheck (h : s.Tidy) (st : StandIx) : (carryCheck st s).Tidy := by
  unfold carryCheck
  split
  · split
    · split
      · exact tidy_webEnd h st _ _
      · exact h
    · exact h
  · exact h

theorem tidy_judgeCandidate (h : s.Tidy) (hd : s.Disciplined) (st : StandIx) (k : Nat) (r : Reel) (d : Int) :
    (judgeCandidate st k r d s).Tidy := by
  have streak : ∀ {t : State}, t.Tidy → t.Disciplined →
      (diameterChanged st (t.modGauge st (fun g => { g with streak := 0 }))).Tidy := fun ht hd =>
    tidy_diameterChanged ((calm_modGauge _ st _).tidy ht) ((quiet_modGauge _ st _).disciplined hd) st
  unfold judgeCandidate
  split
  · exact streak ((calm_modReel s k _).tidy h) ((quiet_modReel s k _).disciplined hd)
  · split
    · exact streak ((calm_dropRunningDiameter st _).tidy (tidy_raise h st))
        (((quiet_raise st .diameterGlitch s (none, none)).trans (quiet_dropRunningDiameter st _)).disciplined hd)
    · exact (calm_modGauge s st _).tidy h

theorem tidy_gaugeRevPulse (h : s.Tidy) (hd : s.Disciplined) (st : StandIx) (a : Arm) : (gaugeRevPulse st a s).Tidy := by
  unfold gaugeRevPulse
  split
  · split
    · dsimp only
      split
      · exact (calm_modGauge s st _).tidy h
      · split
        · exact (calm_modGauge s st _).tidy h
        · exact tidy_judgeCandidate ((calm_modGauge s st _).tidy h) ((quiet_modGauge s st _).disciplined hd) st _ _ _
    · exact h
  · exact h

theorem tidy_enterMatched (h : s.Tidy) (hd : s.Disciplined) {st : StandIx} {n : Nat} {sp : Splice}
    (hs : s.activeSplice st = some (n, sp)) (ha : sp.state = .accel) (g : Int) : (enterMatched st n sp g s).Tidy := by
  have hv : sp.view.state = .accel := ha
  have hm := disciplined_setSpliceState hd (State.Holds.of_active hs).view .matched rfl (by rw [hv]; rfl) (by rw [hv]; nofun)
    (fun _ => by rw [hv]; rfl) nofun
  have k := calm_setSpliceState n .matched s
  exact tidy_judgeWaiting ((k.trans ((calm_modWork _ st (fun w => { w with goodCount := 3, accelTimer := none }) (Or.inl rfl)).trans
      (calm_setGirth sp.incoming g _))).tidy h)
    (((quiet_modWork _ st (fun w => { w with goodCount := 3, accelTimer := none }) rfl rfl).trans
      (still_setGirth sp.incoming g _).quiet).disciplined hm) st

theorem tidy_afterRevolution (h : s.Tidy) (hd : s.Disciplined) {st : StandIx} {n : Nat} {sp : Splice}
    (hs : s.activeSplice st = some (n, sp)) (good : Bool) (g : Int) : (afterRevolution st n sp good g s).Tidy := by
  have hclear := calm_modWork s st (fun w => { w with goodCount := 0 }) (Or.inl rfl)
  have hadd := calm_modWork s st (fun w => { w with goodCount := w.goodCount + 1 }) (Or.inl rfl)
  unfold afterRevolution
  dsimp only
  split
  case h_1 e =>
    split
    · split
      · exact tidy_enterMatched h hd hs e g
      · exact hadd.tidy h
    · exact hclear.tidy h
  case h_2 =>
    split
    · exact h
    · exact (hclear.trans ((calm_setSpliceState n .accel _).trans (calm_modWork _ st _ (Or.inl rfl)))).tidy h
  case h_3 =>
    split
    · split
      · exact h
      · exact (hclear.trans (calm_setMatched st sp false _)).tidy h
    · split
      · split
        · exact (calm_rematch st sp g s).tidy h
        · exact hadd.tidy h
      · exact hclear.tidy h
  all_goals exact h

theorem tidy_formRevolution (h : s.Tidy) (hd : s.Disciplined) {st : StandIx} {n : Nat} {sp : Splice}
    (hs : s.activeSplice st = some (n, sp)) (r : Revolution) : (formRevolution st n sp r s).Tidy := by
  have kept := calm_modWork s st (fun w => { w with revolution := some { tach := 0, web := 0 }, keptGirth := some r.tach }) (Or.inl rfl)
  unfold formRevolution
  dsimp only
  split
  · split
    · unfold firePulse
      exact tidy_judgePoints ((kept.trans ((calm_modWork _ st _ (Or.inl rfl)).trans
        (calm_if (calm_noteSplice n .knifeLate) _))).tidy h) st
    · exact kept.tidy h
  · have q := (quiet_modWork s st (fun w => { w with
        revolution := some { tach := 0, web := 0 }, keptGirth := some r.tach }) rfl rfl).trans
      (quiet_modWork _ st (fun w => { w with prevGirth := some r.tach }) rfl rfl)
    refine tidy_afterRevolution ((kept.trans (calm_modWork _ st _ (Or.inl rfl))).tidy h) (q.disciplined hd) ?_ _ _
    obtain ⟨ha, hx⟩ := activeSplice_eq_some.1 hs
    exact activeSplice_eq_some.2 ⟨by rw [q.view.active]; exact ha, hx⟩

/-! ### The star, a reel or the web lost (R5, R32, R101, R104 to R106) -/

theorem tidy_departure (h : s.Tidy) (st : StandIx) : (departure st s).Tidy := by
  have hr := tidy_raise h st (c := .starMoved) (r := (none, none))
  unfold departure
  split
  · exact h
  · split
    case h_1 | h_2 | h_3 | h_4 | h_5 => exact tidy_giveUp hr st _ _ .starMoved
    case h_6 | h_7 => exact hr
    all_goals exact h

theorem tidy_settling (h : s.Tidy) (st : StandIx) (j : Arm) : (settling st j s).Tidy := by
  unfold settling
  split
  · exact h
  · split
    · split
      · exact tidy_standEnd h st _ .indexed
      · exact tidy_standEnd (tidy_raise h st) st _ .starSettledElsewhere
    · exact h

theorem tidy_starTaken (h : s.Tidy) (st : StandIx) (code : Fin 4) : (starTaken st code s).Tidy := by
  have ht := (calm_setStar st (starOf code) s).tidy h
  unfold starTaken
  dsimp only
  split
  · exact (calm_handOn st _ _).tidy (tidy_settling (tidy_departure ht st) st _)
  · exact (calm_handOn st s _).tidy (tidy_departure ht st)
  · exact (calm_handOn st s _).tidy (tidy_settling ht st _)
  · exact (calm_handOn st s _).tidy (tidy_settling ht st _)
  all_goals exact ht

theorem tidy_loseReserved (h : s.Tidy) (st : StandIx) (k : Nat) : (loseReserved st k s).Tidy := by
  have ht := tidy_raise h st (c := .reelLost) (r := (none, none))
  unfold loseReserved
  dsimp only
  split
  · exact ht
  · split
    case h_1 | h_2 | h_3 | h_4 | h_5 =>
      exact ((calm_modReel _ k _).trans (calm_handOn st s _)).tidy (tidy_giveUp ht st _ _ .reelLost)
    all_goals exact ht

theorem tidy_reelLost (h : s.Tidy) (st : StandIx) (a : Arm) : (reelLost st a s).Tidy := by
  have hm : ∀ (k : Nat) (f : Reel → Reel), (handOn st s (s.modReel k f)).Tidy := fun k f =>
    ((calm_modReel s k f).trans (calm_handOn st s _)).tidy h
  unfold reelLost
  split
  · exact h
  · split
    · exact tidy_loseReserved h st _
    · split
      · exact hm _ _
      · exact hm _ _
      · exact hm _ _
      · exact tidy_raise h st
      · exact tidy_loseReserved h st _
      · exact h

theorem tidy_webBreak (h : s.Tidy) (st : StandIx) : (webBreak st s).Tidy := by
  have ht := ((calm_modSeq _ st (fun q => { q with webBroken := true }) (Or.inl rfl)).trans (calm_purgeStand st _)).tidy
    (tidy_raise h st (c := .webBreak) (r := (none, none)))
  unfold webBreak
  dsimp only
  split
  · exact ht
  · split
    case h_1 | h_2 | h_3 | h_4 | h_5 => exact (calm_handOn st s _).tidy (tidy_giveUp ht st _ _ .webBreak)
    case h_6 => exact tidy_failPaste ((calm_setCause _ .webBreak _).tidy ht) st _ _
    all_goals exact ht

theorem tidy_webLost (h : s.Tidy) (st : StandIx) : (webLost st s).Tidy := by
  unfold webLost
  split
  · split
    · exact tidy_notCarried h st _ _
    · exact tidy_webBreak h st
  · exact tidy_webBreak h st

/-! ### Acknowledgement, RESET STAND (R72, R111, R153) -/

/-- A splice whose end is acknowledged is active nowhere and has no entry left. -/
theorem tidy_endAck (h : s.Tidy) {n : Nat} (ha : ∀ st, (s.work st).active ≠ some n)
    (he : ∀ st, ∀ e ∈ (s.stand st).queue.entries, e.splice ≠ some n) :
    (s.modSplice n (fun x => { x with endAck := true })).Tidy := by
  have hopen : ∀ st m, m ≠ n → s.Open st m → (s.modSplice n (fun x => { x with endAck := true })).Open st m := by
    intro st m hm ⟨x, hx, k⟩
    exact ⟨x, by rw [splice?_modSplice_ne _ _ hm, hx], k⟩
  refine ⟨h.waits, h.queues, fun st e hm m hs => ?_, fun st m hm => ?_, fun m x hx => ?_, h.clamped⟩
  · exact hopen st m (fun k => he st e hm (k ▸ hs)) (h.recorded st e hm m hs)
  · exact hopen st m (fun k => ha st (k ▸ hm)) (h.live st m hm)
  · rw [splice?_modSplice_eq] at hx
    split at hx
    · obtain ⟨y, hy, rfl⟩ := Option.map_eq_some_iff.1 hx
      exact ⟨(h.records m y hy).explicit, (h.records m y hy).params, (h.records m y hy).waste⟩
    · exact h.records m x hx

theorem splices_modQueue_collect (e : StatusEntry) (st : StandIx) (f : Queue → Queue) (s : State) :
    (collect e s).modQueue st f = collect e (s.modQueue st f) := by
  unfold collect
  split
  · split
    · unfold retire
      have hx : ∀ n, ((s.modQueue st f).modSplice n (fun sp => { sp with endAck := true })).splice? n
          = (s.modSplice n (fun sp => { sp with endAck := true })).splice? n := fun _ => rfl
      rw [hx]
      split
      · split
        · rfl
        · rfl
      · rfl
    · rfl
  · rfl

theorem tidy_acknowledge (h : s.Tidy) (st : StandIx) {e : StatusEntry} {rest : List StatusEntry}
    (he : (s.stand st).queue.entries = e :: rest) : (acknowledge st e rest s).Tidy := by
  obtain ⟨kept, hk, hkept⟩ : ∃ kept, (if s.persists st e = true then e.persisted :: rest else rest) = kept
      ∧ (kept = e.persisted :: rest ∨ kept = rest) := ⟨_, rfl, by split <;> simp⟩
  have hmem : ∀ x ∈ kept, ∀ n, x.splice = some n → x ∈ rest := by
    intro x hx n hn
    rcases hkept with rfl | rfl
    · rcases List.mem_cons.1 hx with rfl | hx
      · cases hn
      · exact hx
    · exact hx
  have hold : e ∈ (s.stand st).queue.entries := by rw [he]; exact List.mem_cons_self
  have hrest : ∀ x ∈ rest, x ∈ (s.stand st).queue.entries := fun x hx => by rw [he]; exact List.mem_cons_of_mem _ hx
  have hq : (s.modQueue st (fun q => { q with entries := kept })).Tidy :=
    tidy_modStand h st _ (tidy_acknowledged (h.queues st) he hkept)
      (fun x hx n hn => h.recorded st x (hrest x (hmem x hx n hn)) n hn) (Or.inl rfl) ⟨(h.clamped st).profile, (h.clamped st).oneShot⟩
  have hc : (collect e (s.modQueue st (fun q => { q with entries := kept }))).Tidy := by
    unfold collect
    split
    · next hend =>
      split
      · next n hn =>
        have hopen : s.Open st n := h.recorded st e hold n hn
        refine (calm_retire n _).tidy (tidy_endAck hq (fun i hi => ?_) (fun i x hx hs => ?_))
        · rw [work_modQueue] at hi
          obtain rfl := hopen.unique (h.live i n hi)
          obtain ⟨_, h1, h2⟩ := (h.queues st).newest n hi e hold hn
          exact hend.elim h1 h2
        · by_cases hi : i = st
          · subst hi
            rw [stand_modQueue] at hx
            have hp := (h.queues i).attributed
            rw [he] at hp
            rcases (List.pairwise_cons.1 hp).1 x (hmem x hx n hs) with k | k
            · rw [hn] at k; cases k
            · exact k (hn.trans hs.symm)
          · rw [stand_modQueue_ne _ _ hi] at hx
            exact hi (hopen.unique (h.recorded i x hx n hs)).symm
      · exact hq
    · exact hq
  unfold acknowledge
  dsimp only
  rw [hk, splices_modQueue_collect]
  split
  · exact (calm_chainOccasion st _).tidy hc
  · exact hc

theorem tidy_endAtReset (h : s.Tidy) (st : StandIx) : (endAtReset st s).Tidy := by
  unfold endAtReset
  split
  · exact h
  · next n sp _ =>
    have ht := ((calm_setCause n .standReset s).trans (calm_noteSplice n .standReset _)).tidy h
    dsimp only
    split
    · exact ((calm_retire n _).trans (calm_chainOccasion st _)).tidy (tidy_endSplice ht st n _ _)
    · exact ((calm_retire n _).trans (calm_giveBackReserved st n sp _)).tidy (tidy_endSplice ht st n _ _)

theorem tidy_resetStand (h : s.Tidy) (st : StandIx) : (resetStand st s).Tidy := by
  have he := tidy_endAtReset ((calm_clearDiameters st s).tidy h) st
  have hc : ∀ t : State, Calm t ((offLists st t).modStand st (fun x =>
      { x with star := .unknown, lastSettled := none, gauge := Gauge.reset, field := x.field.restart })) := fun t =>
    ((calm_foldl _ (fun t f => calm_leaveWaits f st t) allFolders t).trans (calm_modWork _ st (fun _ => Working.reset) (Or.inr rfl))).trans
      (calm_modStand _ st _ ⟨rfl, rfl⟩ (Or.inl rfl) (fun k => ⟨k.profile, k.oneShot⟩))
  exact (calm_evalReelCall st _).tidy (tidy_evalRisk ((hc _).tidy he) st)

end Sys2Proof.Machine
end

section
/-! The order of the queues and of the wait lists under each command, and under a step (EveryStepKeepsQueuesAndWaitLists). -/

namespace Sys2Proof.Machine

/-- A command whose outcome, if it completes, is in order. -/
abbrev TidyAfter (r : Res) : Prop := ∀ t, r = .next t → t.Tidy

theorem tidyAfter_next {t : State} (h : t.Tidy) : TidyAfter (.next t) := by
  intro u e
  cases e
  exact h

/-- An event of the running device. -/
theorem tidyAfter_onDevice {f : State → State} {s : State} (h : s.Tidy) (hf : (f s).Tidy) : TidyAfter (onDevice f s) := by
  rcases onDevice_completes f s with e | e <;> rw [e]
  · exact tidyAfter_next h
  · exact tidyAfter_next hf

/-- A request. -/
theorem tidyAfter_serve {r : Instr} {own : State → Answer × State} {s : State} (h : s.Tidy) (hf : (own s).2.Tidy) :
    TidyAfter (serve r own s) := by
  rcases serve_completes r own s with e | e <;> rw [e]
  · exact tidyAfter_next h
  · exact tidyAfter_next ((calm_deliver r _ _).tidy hf)

variable {s : State}

theorem tidyAfter_readsOnly (h : s.Tidy) {c : Instr} (hc : readsOnly c = true) : TidyAfter (exec c s) := by
  rcases exec_readsOnly hc s with e | ⟨a, e⟩ <;> rw [e]
  · exact tidyAfter_next h
  · exact tidyAfter_next ((calm_deliver c a s).tidy h)

/-- An accepted change taken by its block. -/
theorem tidyAfter_takeChange (h : s.Tidy) (st : StandIx) (i : Input) (l : Fin 4) {f : State → State}
    (hf : ∀ t : State, t.Tidy → (f t).Tidy) : TidyAfter (onDevice (takeChange st i l f) s) := by
  refine tidyAfter_onDevice h ?_
  unfold takeChange
  dsimp only
  split
  · split
    · exact hf _ ((calm_modField s st _).tidy h)
    · exact h
  · split
    · exact h
    · split
      · exact hf _ ((calm_acceptInput st i l s).tidy h)
      · exact ((calm_acceptInput st i l s).trans (calm_settleIndex st i _)).tidy h

/-! ### Resets, time and the link -/

theorem tidy_fullReset (cause : ResetCause) (s : State) : (fullReset cause s).Tidy :=
  (calm_of_eq rfl rfl rfl : Calm (State.afterReset cause) (fullReset cause s)).tidy
    (.of_queuesInOrder (inRange_afterReset cause) (disciplined_reset cause) (queuesInOrder_afterReset cause))

theorem tidyAfter_powerOn (s : State) : TidyAfter (execPowerOn s) := by
  unfold execPowerOn
  split
  · exact tidyAfter_next ((calm_modLink _ _).tidy (tidy_fullReset .power s))
  · exact tidyAfter_next (tidy_fullReset .power s)

theorem tidyAfter_resetPinAsserted (h : s.Tidy) : TidyAfter (execResetPinAsserted s) :=
  tidyAfter_next (((calm_foldl _ (fun s st => calm_dropOutputs st s) allStands s).trans (calm_modLink _ _)).tidy h)

theorem tidyAfter_resetPinReleased (h : s.Tidy) : TidyAfter (execResetPinReleased s) := by
  unfold execResetPinReleased
  split
  · exact tidyAfter_next (tidy_fullReset _ s)
  · exact tidyAfter_next h

/-- An event that changes the link alone. -/
theorem tidyAfter_modLink (h : s.Tidy) (f : Link → Link) : TidyAfter (onDevice (fun s => s.modLink f) s) :=
  tidyAfter_onDevice h ((calm_modLink s f).tidy h)

theorem tidyAfter_characterReceived (h : s.Tidy) (b : Byte) (e : Bool) : TidyAfter (execCharacterReceived b e s) := by
  refine tidyAfter_onDevice h ?_
  split
  · exact h
  · exact (calm_modLink s _).tidy h

theorem tidyAfter_answerLastByteSent (h : s.Tidy) : TidyAfter (execAnswerLastByteSent s) := by
  refine tidyAfter_onDevice h ?_
  split
  · split
    · exact tidy_fullReset _ s
    · exact (calm_modLink s _).tidy h
  · split
    · exact tidy_fullReset _ s
    · exact h

theorem tidyAfter_resetDevice (h : s.Tidy) (c : Client) : TidyAfter (execResetDevice c s) := by
  refine tidyAfter_onDevice h ?_
  have hd := (calm_deliver (.resetDevice c) (plain (s.resetAnswer c)) s).tidy h
  split
  · dsimp only
    split
    · exact (calm_modLink _ _).tidy hd
    · exact (calm_modLink _ _).tidy hd
  · exact h

/-! ### The Reel Table (R22, R25 to R29) -/

theorem tidyAfter_announceReel (h : s.Tidy) (c : Client) (code : List Nat) (p : PaperData) :
    TidyAfter (execAnnounceReel c code p s) := by
  refine tidyAfter_serve h ?_
  split
  · exact h
  · split
    · exact h
    · exact (calm_reels s _).tidy h

theorem tidyAfter_amendReel (h : s.Tidy) (c : Client) (k : Nat) (d : PaperAmend) : TidyAfter (execAmendReel c k d s) := by
  refine tidyAfter_serve h ?_
  dsimp only
  split
  · exact h
  · split
    · exact h
    · next r hr =>
      split
      · exact h
      · split
        · exact (calm_modReel s k _).tidy h
        · exact h
        · have q := calm_modReel s k (fun r => { r with paper := amendPaper r.paper d })
          split
          · exact (q.trans ((calm_modReel _ k _).trans (calm_handOn _ s _))).tidy h
          · exact q.tidy h

theorem tidyAfter_mountReel (h : s.Tidy) (c : Client) (k stand : Nat) (a : Arm) : TidyAfter (execMountReel c k stand a s) := by
  refine tidyAfter_serve h ?_
  dsimp only
  (repeat' split)
  case _ => exact h
  case _ => exact h
  case _ => exact h
  case _ => exact h
  case _ => exact h
  case _ => exact ((calm_modReel s k _).trans (calm_handOn _ s _)).tidy h
  case _ => exact h

theorem tidyAfter_unmountReel (h : s.Tidy) (c : Client) (k : Nat) : TidyAfter (execUnmountReel c k s) := by
  refine tidyAfter_serve h ?_
  (repeat' split)
  case _ => exact h
  case _ => exact h
  case _ => exact h
  case _ => exact h
  case _ => exact ((calm_modReel s k _).trans (calm_handOnAt _ s _)).tidy h

theorem tidyAfter_retireReel (h : s.Tidy) (c : Client) (k : Nat) : TidyAfter (execRetireReel c k s) := by
  refine tidyAfter_serve h ?_
  (repeat' split)
  case _ => exact h
  case _ => exact h
  case _ => exact h
  case _ => exact ((calm_reels s _).trans (calm_handOnAt _ s _)).tidy h
  case _ => exact h

theorem tidy_thread (h : s.Tidy) (hd : s.Disciplined) (st : StandIx) (k : Nat) (r : Reel) : (thread st k r s).Tidy := by
  have hc : ∀ t : State, Calm t (handOn st s (((t.modReel k (fun x =>
      { x with state := .running, reasons := [], diameter := none,
               runningSince := if decide (r.state = .running) then x.runningSince else some s.now })).modSeq st
      (fun q => { q with webBroken := false })).modGauge st
      (fun g => { g.afresh with riskRaised := g.riskRaised && decide (r.state = .running) }))) := fun t =>
    (calm_modReel t k _).trans ((calm_modSeq _ st (fun q => { q with webBroken := false }) (Or.inl rfl)).trans
      ((calm_modGauge _ st _).trans (calm_handOn st s _)))
  exact tidy_diameterChanged (((calm_reels s _).trans (hc _)).tidy h)
    (((quiet_reels s _).trans ((quiet_modReel _ k _).trans
      ((quiet_modSeq _ st (fun q => { q with webBroken := false }) rfl).trans
        ((quiet_modGauge _ st _).trans (quiet_handOn st s _))))).disciplined hd) st

theorem tidyAfter_threadReel (h : s.Tidy) (hd : s.Disciplined) (c : Client) (stand k : Nat) :
    TidyAfter (execThreadReel c stand k s) := by
  refine tidyAfter_serve h ?_
  (repeat' split)
  case _ => exact h
  case _ => exact h
  case _ => exact h
  case _ => exact tidy_thread h hd _ k _
  case _ => exact h

/-! ### Standing data (R9, R60, R62, R114, R155) -/

theorem tidyAfter_writePlanEntry (h : s.Tidy) (c : Client) (stand : Nat) (e : PlanFields) :
    TidyAfter (execWritePlanEntry c stand e s) := by
  refine tidyAfter_serve h ?_
  split
  · exact h
  · next st _ =>
    split
    · exact h
    · split
      · exact h
      · next p _ =>
        split
        · exact h
        · exact ((calm_modStand s st (fun x => { x with plan := p }) ⟨rfl, rfl⟩ (Or.inl rfl) (fun k => ⟨k.profile, k.oneShot⟩)).trans
            ((calm_verifyStand st _).trans (calm_handOn st s _))).tidy h

theorem tidyAfter_writeFolder (h : s.Tidy) (c : Client) (folder cutoff lead trail spacing : Nat) :
    TidyAfter (execWriteFolder c folder cutoff lead trail spacing s) := by
  refine tidyAfter_serve h ?_
  (repeat' split)
  case _ => exact h
  case _ => exact h
  case _ f _ _ => exact ((calm_modFolder s f _ id).trans ((calm_ejectPast f _ _).trans (calm_grantOccasion f _))).tidy h

/-- The values written are clamped (R58). -/
theorem tidyAfter_writeProfile (h : s.Tidy) (c : Client) (stand : Nat) (p : Profile) :
    TidyAfter (execWriteProfile c stand p s) := by
  refine tidyAfter_serve h ?_
  (repeat' split)
  case _ => exact h
  case _ => exact h
  case _ => exact h
  case _ st _ _ _ =>
    have hp := calm_modStand s st (fun x => { x with profile := clampProfile p }) ⟨rfl, rfl⟩ (Or.inl rfl)
      (fun k => ⟨clampParams_clampParams p.params, k.oneShot⟩)
    exact tidy_judgeStart (tidy_evalRisk ((hp.trans ((calm_verifyStand st _).trans ((calm_handOn st s _).trans
      (calm_evalReelCall st _)))).tidy h) st) false st

theorem tidyAfter_writeOneShot (h : s.Tidy) (c : Client) (stand : Nat) (v : Params (Option Int)) :
    TidyAfter (execWriteOneShot c stand v s) := by
  refine tidyAfter_serve h ?_
  (repeat' split)
  case _ => exact h
  case _ => exact h
  case _ st _ _ =>
    exact tidy_judgeStart ((calm_modStand s st _ ⟨rfl, rfl⟩ (Or.inl rfl)
      (fun k => ⟨k.profile, clampOptional_clampOptional v⟩)).tidy h) false st

theorem tidyAfter_writeRouting (h : s.Tidy) (c : Client) (stand : Nat) (mask : BitVec 16) (mode : Mode) :
    TidyAfter (execWriteRouting c stand mask mode s) := by
  refine tidyAfter_serve h ?_
  (repeat' split)
  case _ => exact h
  case _ => exact h
  case _ => exact h
  case _ st _ _ _ =>
    exact (calm_modQueue s st (fun q => { q with mask := mask.setWidth 13, mode := mode }) ⟨rfl, rfl⟩).tidy h

/-! ### Splices (R63 to R68, R77, R84, R86) -/

theorem tidyAfter_armSplice (h : s.Tidy) (c : Client) (stand : Nat) (g : Trigger) (v : Params (Option Int)) :
    TidyAfter (execArmSplice c stand g v s) := by
  refine tidyAfter_serve h ?_
  (repeat' split)
  case _ => exact h
  case _ => exact h
  case _ => exact h
  case _ hf => exact tidy_arm h _ (armFault_none hf).2 _ _ (clampOptional_clampOptional v) _

/-- An amended value is clamped, and a value not carried is as it was (R65). -/
theorem clampOptional_amendExplicit {old : Params (Option Int)} (h : clampOptional old = old) (a : Params AmendParam) :
    clampOptional (amendExplicit old a) = amendExplicit old a := by
  have one : ∀ {range : Int × Int} {o : Option Int}, range.1 ≤ range.2 → o.map (clampInt range) = o → ∀ x : AmendParam,
      (match x with | .notCarried => o | .default => none | .value v => some (clampInt range v)).map (clampInt range)
        = match x with | .notCarried => o | .default => none | .value v => some (clampInt range v) := by
    intro range o hr ho x
    cases x with
    | notCarried => exact ho
    | default => rfl
    | value v => exact congrArg some (clampInt_clampInt hr v)
  obtain ⟨o1, o2, o3, o4, o5, o6, o7, o8⟩ := old
  simp only [clampOptional, Params.map2, Params.mk.injEq, paramRanges] at h
  obtain ⟨h1, h2, h3, h4, h5, h6, h7, h8⟩ := h
  simp only [clampOptional, amendExplicit, Params.map2, paramRanges, Params.mk.injEq]
  exact ⟨one (by decide) h1 _, one (by decide) h2 _, one (by decide) h3 _, one (by decide) h4 _, one (by decide) h5 _,
    one (by decide) h6 _, one (by decide) h7 _, one (by decide) h8 _⟩

theorem tidyAfter_amendSplice (h : s.Tidy) (c : Client) (n : Nat) (v : Params AmendParam) :
    TidyAfter (execAmendSplice c n v s) := by
  have q := calm_modSplice s n (fun x => { x with explicit := amendExplicit x.explicit v })
    (fun x => ⟨rfl, rfl, fun k => ⟨clampOptional_amendExplicit k.explicit v, k.params, k.waste⟩⟩)
  refine tidyAfter_serve h ?_
  dsimp only
  (repeat' split)
  case _ => exact h
  case _ => exact h
  case _ => exact h
  case _ => exact h
  case _ => exact h
  case _ => exact tidy_judgeStart ((q.trans (calm_noteSplice n .clamped _)).tidy h) false _
  case _ => exact tidy_judgeStart (q.tidy h) false _

theorem tidyAfter_setChain (h : s.Tidy) (c : Client) (stand : Nat) (on : Bool) : TidyAfter (execSetChain c stand on s) := by
  refine tidyAfter_serve h ?_
  split
  · exact h
  · next st _ =>
    have q := calm_modSeq s st (fun q => { q with chain := on }) (Or.inl rfl)
    split
    · exact h
    · dsimp only
      split
      · exact (q.trans (calm_chainOccasion st _)).tidy h
      · exact q.tidy h

theorem tidyAfter_startAccel (h : s.Tidy) (c : Client) (stand : Nat) : TidyAfter (execStartAccel c stand s) := by
  refine tidyAfter_serve h ?_
  (repeat' split)
  case _ => exact h
  case _ => exact h
  case _ => exact h
  case _ st _ _ _ n sp hs e =>
    have hc := tidy_commit h st (activeSplice_eq_some.1 hs).2
    unfold startArmed
    (repeat' split)
    · exact h
    · exact (calm_modWork s st (fun w => { w with startPending := true }) (Or.inl rfl)).tidy h
    · exact hc
    · exact hc
  case _ => exact h

theorem tidyAfter_fireSplice (h : s.Tidy) (hd : s.Disciplined) (c : Client) (stand : Nat) :
    TidyAfter (execFireSplice c stand s) := by
  refine tidyAfter_serve h ?_
  split
  · exact h
  · split
    · exact h
    · split
      · exact h
      · next n sp hs =>
        split
        case h_3 e => exact tidy_enterWaiting h hd hs e
        all_goals exact h

theorem tidyAfter_abortSplice (h : s.Tidy) (c : Client) (stand : Nat) : TidyAfter (execAbortSplice c stand s) := by
  refine tidyAfter_serve h ?_
  split
  · exact h
  · next st _ =>
    split
    · exact h
    · split
      · exact h
      · next n sp hs =>
        split
        case h_1 | h_2 | h_3 | h_4 | h_5 => exact (calm_handOn st s _).tidy (tidy_giveUp h st n sp .abortRequest)
        all_goals exact h

/-! ### Status, inputs and tracks (R111, R139, R153, R159) -/

theorem tidyAfter_acknowledgeStatus (h : s.Tidy) (c : Client) (stand serial revision : Nat) :
    TidyAfter (execAcknowledgeStatus c stand serial revision s) := by
  refine tidyAfter_serve h ?_
  (repeat' split)
  case _ => exact h
  case _ => exact h
  case _ => exact h
  case _ => exact h
  case _ he =>
    unfold acknowledgeOldest
    split
    · exact h
    · split
      · exact h
      · exact tidy_acknowledge h _ he

theorem tidyAfter_clearChanges (h : s.Tidy) (c : Client) (stand snapshot : Nat) :
    TidyAfter (execClearChanges c stand snapshot s) := by
  refine tidyAfter_serve h ?_
  dsimp only
  (repeat' split)
  case _ => exact h
  case _ => exact h
  case _ => exact h
  case _ => dsimp only; exact (calm_modField s _ _).tidy h

theorem tidyAfter_takeCall (h : s.Tidy) (c : Client) (stand : Nat) (flag : CallFlag) :
    TidyAfter (execTakeCall c stand flag s) := by
  refine tidyAfter_serve h ?_
  dsimp only
  (repeat' split)
  case _ => exact h
  case _ => exact h
  case _ =>
    dsimp only
    refine (calm_modQueue s _ _ ?_).tidy h
    cases flag <;> exact ⟨rfl, rfl⟩

theorem tidyAfter_forceGate (h : s.Tidy) (c : Client) (folder : Nat) (x : GateForce) :
    TidyAfter (execForceGate c folder x s) := by
  refine tidyAfter_serve h ?_
  (repeat' split)
  case _ => exact h
  case _ => exact h
  case _ f _ _ => exact (calm_modFolder s f (fun F => { F with force := x }) id).tidy h

theorem tidyAfter_resetStand (h : s.Tidy) (c : Client) (stand : Nat) : TidyAfter (execResetStand c stand s) := by
  refine tidyAfter_serve h ?_
  (repeat' split)
  case _ => exact h
  case _ => exact h
  case _ => exact h
  case _ => exact tidy_resetStand h _
  case _ => exact tidy_resetStand h _

/-! ### Field events (R32, R95, R99, R101 to R106, R133 to R135, R142) -/

theorem tidyAfter_samplingTimerExpiry (h : s.Tidy) (st : StandIx) (x : Sample) : TidyAfter (execSamplingTimerExpiry st x s) :=
  tidyAfter_onDevice h (((calm_foldl _ (fun t i => calm_sampleInput st i (sampleLevel x i) t) allInputs s).trans
    (calm_modField _ st _)).tidy h)

theorem tidyAfter_pasterEngagedActive (h : s.Tidy) (st : StandIx) : TidyAfter (execPasterEngagedActive st s) := by
  refine tidyAfter_takeChange h st _ _ (fun t k => ?_)
  split
  · exact (calm_modWork t st (fun w => { w with confirmed := true, confirmTimer := none }) (Or.inl rfl)).tidy k
  · exact k

theorem tidyAfter_pasterHomeActive (h : s.Tidy) (st : StandIx) : TidyAfter (execPasterHomeActive st s) := by
  refine tidyAfter_takeChange h st _ _ (fun t k => ?_)
  split
  · split
    · exact tidy_endBraking k st _
    · exact k
  · exact k

theorem tidyAfter_knifeHomeActive (h : s.Tidy) (st : StandIx) : TidyAfter (execKnifeHomeActive st s) :=
  tidyAfter_takeChange h st _ _ (fun t k =>
    ((calm_modWork t st (fun w => { w with knifeHomeTimer := none }) (Or.inl rfl)).trans (calm_updateIndexReq st _)).tidy k)

theorem tidyAfter_safetyGateChange (h : s.Tidy) (st : StandIx) (closed : Bool) : TidyAfter (execSafetyGateChange st closed s) := by
  refine tidyAfter_takeChange h st _ _ (fun t k => ?_)
  split
  · refine (calm_updateIndexReq st _).tidy ?_
    split
    · exact k
    · exact tidy_gateFoundOpen k st
  · exact k

theorem tidyAfter_driverHotActive (h : s.Tidy) (st : StandIx) : TidyAfter (execDriverHotActive st s) :=
  tidyAfter_takeChange h st _ _ (fun t k => tidy_raise ((calm_modField t st _).tidy k) st)

/-! ### Counts and pulses (R38, R39, R80, R128) -/

theorem tidyAfter_webCount (h : s.Tidy) (hd : s.Disciplined) (st : StandIx) (d : Direction) : TidyAfter (execWebCount st d s) :=
  tidyAfter_onDevice h ((calm_trackWebCount st d _).tidy (tidy_carryCheck
    ((calm_modWork _ st (Working.webCount d) (Or.inl rfl)).tidy (tidy_gaugeWebCount h hd st d)) st))

theorem tidyAfter_tachCount (h : s.Tidy) (st : StandIx) (d : Direction) : TidyAfter (execTachCount st d s) :=
  tidyAfter_onDevice h (tidy_judgePoints
    (((calm_modWork s st (Working.tachCount d) (Or.inl rfl)).trans (calm_restartQuiet st _)).tidy h) st)

theorem tidyAfter_pasteMarkPulse (h : s.Tidy) (hd : s.Disciplined) (st : StandIx) : TidyAfter (execPasteMarkPulse st s) := by
  refine tidyAfter_onDevice h ?_
  (repeat' split)
  · exact h
  · exact (calm_modWork s st (fun w => { w with revolution := some { tach := 0, web := 0 } }) (Or.inl rfl)).tidy h
  · exact h
  · next hs _ _ _ _ _ => exact tidy_formRevolution h hd hs _
  · exact h

theorem tidyAfter_revPulse (h : s.Tidy) (hd : s.Disciplined) (st : StandIx) (a : Arm) : TidyAfter (execRevPulse st a s) :=
  tidyAfter_onDevice h ((calm_seqRevPulse st a _).tidy (tidy_gaugeRevPulse h hd st a))

theorem tidyAfter_folderCutPulse (h : s.Tidy) (f : FolderIx) : TidyAfter (execFolderCutPulse f s) := by
  refine tidyAfter_onDevice h ?_
  split
  · exact ((calm_foldl _ (fun t (r : SpliceRef) => calm_wasteCopy r.splice t) _ s).trans (calm_modFolder _ f _ id)).tidy h
  · exact h

/-! ### Timers (R45, R82, R87, R98, R99, R101 to R104, R140) -/

theorem tidyAfter_webSpeedTimerExpiry (h : s.Tidy) (st : StandIx) : TidyAfter (execWebSpeedTimerExpiry st s) := by
  refine tidyAfter_onDevice h ?_
  split
  · exact ((calm_modGauge s st Gauge.sample).trans ((calm_followWeb st _).trans
      (calm_foldl _ (calm_sampleOccasion st) allFolders _))).tidy h
  · exact h

theorem tidyAfter_accelTimerExpiry (h : s.Tidy) (st : StandIx) : TidyAfter (execAccelTimerExpiry st s) := by
  refine tidyAfter_onDevice h ?_
  (repeat' split)
  · exact (calm_handOn st s _).tidy (tidy_giveUp (tidy_raise h st) st _ _ .matchTimeout)
  · exact h
  · exact h

theorem tidyAfter_quietTimerExpiry (h : s.Tidy) (st : StandIx) : TidyAfter (execQuietTimerExpiry st s) := by
  refine tidyAfter_onDevice h ?_
  (repeat' split)
  · exact tidy_endUncarried h st _
  · exact (calm_modWork s st (fun w => { w with quietTimer := none }) (Or.inl rfl)).tidy h
  · exact tidy_endSpindown h st _
  · exact h
  · exact h

theorem tidyAfter_stopTimerExpiry (h : s.Tidy) (st : StandIx) : TidyAfter (execStopTimerExpiry st s) := by
  refine tidyAfter_onDevice h ?_
  have q : (raise st .stopTimeout s).Tidy := tidy_raise h st
  have qb := (calm_keepBrake st _).tidy q
  split
  · split
    · split
      case h_1 =>
        dsimp only
        split
        · exact tidy_endSpindown qb st _
        · exact tidy_endSpindown q st _
      case h_2 => exact tidy_standEnd ((calm_modWork _ st (fun w => { w with stopTimer := none }) (Or.inl rfl)).tidy qb) st _ _
      all_goals exact h
    · exact h
  · exact h

theorem tidyAfter_confirmTimerExpiry (h : s.Tidy) (st : StandIx) : TidyAfter (execConfirmTimerExpiry st s) := by
  refine tidyAfter_onDevice h ?_
  (repeat' split)
  · exact tidy_pasteNotConfirmed h st _ _
  · exact h
  · exact h

theorem tidyAfter_knifePulseTimerExpiry (h : s.Tidy) (st : StandIx) : TidyAfter (execKnifePulseTimerExpiry st s) := by
  refine tidyAfter_onDevice h ?_
  split
  · exact (calm_endKnifePulse st s).tidy h
  · exact h

theorem tidyAfter_knifeHomeTimerExpiry (h : s.Tidy) (st : StandIx) : TidyAfter (execKnifeHomeTimerExpiry st s) := by
  refine tidyAfter_onDevice h ?_
  split
  · exact tidy_raise ((calm_modWork s st (fun w => { w with knifeHomeTimer := none }) (Or.inl rfl)).tidy h) st
  · exact h

theorem tidyAfter_revQuietTimerExpiry (h : s.Tidy) (st : StandIx) : TidyAfter (execRevQuietTimerExpiry st s) := by
  refine tidyAfter_onDevice h ?_
  split
  · exact tidy_buttQuiet ((calm_modWork s st (fun w => { w with revQuietTimer := none }) (Or.inl rfl)).tidy h) st
  · exact h

theorem tidyAfter_indexTimerExpiry (h : s.Tidy) (st : StandIx) : TidyAfter (execIndexTimerExpiry st s) := by
  refine tidyAfter_onDevice h ?_
  (repeat' split)
  · exact tidy_standEnd (tidy_raise h st) st _ _
  · exact h
  · exact h

theorem tidyAfter_pullInTimerExpiry (h : s.Tidy) (st : StandIx) (o : Output) : TidyAfter (execPullInTimerExpiry st o s) :=
  tidyAfter_onDevice h ((calm_modField s st _).tidy h)

/-! ### The auto-arm and the grant (R69, R117, R119) -/

theorem tidyAfter_autoArmAttempt (h : s.Tidy) (st : StandIx) : TidyAfter (execAutoArmAttempt st s) := by
  refine tidyAfter_onDevice h ?_
  have ht := (calm_modSeq s st (fun q => { q with chainOccasions := q.chainOccasions - 1 }) (Or.inl rfl)).tidy h
  unfold takeChainOccasion
  dsimp only
  (repeat' split)
  · exact h
  · exact tidy_autoArm ht st
  · exact ht

theorem tidyAfter_grantEvaluation (h : s.Tidy) (f : FolderIx) : TidyAfter (execGrantEvaluation f s) := by
  refine tidyAfter_onDevice h ?_
  split
  · exact h
  · exact ((calm_modFolder s f (fun F => { F with grantOccasions := F.grantOccasions - 1 }) id).trans (calm_evaluateGrant f _)).tidy h

/-! ### A step -/

/-- Every command keeps the order of the queues and of the wait lists. -/
theorem tidyAfter_exec (h : s.Tidy) (hd : s.Disciplined) (c : Instr) : TidyAfter (exec c s) := by
  cases c with
  | powerOn => exact tidyAfter_powerOn s
  | resetPinAsserted => exact tidyAfter_resetPinAsserted h
  | resetPinReleased => exact tidyAfter_resetPinReleased h
  | timeCounterTick => exact tidyAfter_modLink h _
  | characterReceived b e => exact tidyAfter_characterReceived h b e
  | interCharacterTimerExpiry => exact tidyAfter_modLink h _
  | transmitAnswer => exact tidyAfter_modLink h _
  | answerLastByteSent => exact tidyAfter_answerLastByteSent h
  | announceReel c code p => exact tidyAfter_announceReel h c code p
  | amendReel c k d => exact tidyAfter_amendReel h c k d
  | mountReel c k stand a => exact tidyAfter_mountReel h c k stand a
  | unmountReel c k => exact tidyAfter_unmountReel h c k
  | retireReel c k => exact tidyAfter_retireReel h c k
  | readReel c k => exact tidyAfter_readsOnly h rfl
  | findReel c code => exact tidyAfter_readsOnly h rfl
  | listStand c stand => exact tidyAfter_readsOnly h rfl
  | threadReel c stand k => exact tidyAfter_threadReel h hd c stand k
  | writePlanEntry c stand e => exact tidyAfter_writePlanEntry h c stand e
  | readSettings c stand => exact tidyAfter_readsOnly h rfl
  | writeFolder c f cutoff lead trail spacing => exact tidyAfter_writeFolder h c f cutoff lead trail spacing
  | writeProfile c stand p => exact tidyAfter_writeProfile h c stand p
  | writeOneShot c stand v => exact tidyAfter_writeOneShot h c stand v
  | writeRouting c stand mask mode => exact tidyAfter_writeRouting h c stand mask mode
  | armSplice c stand g v => exact tidyAfter_armSplice h c stand g v
  | amendSplice c n v => exact tidyAfter_amendSplice h c n v
  | setChain c stand on => exact tidyAfter_setChain h c stand on
  | readSplice c n => exact tidyAfter_readsOnly h rfl
  | startAccel c stand => exact tidyAfter_startAccel h c stand
  | fireSplice c stand => exact tidyAfter_fireSplice h hd c stand
  | abortSplice c stand => exact tidyAfter_abortSplice h c stand
  | readStatus c stand => exact tidyAfter_readsOnly h rfl
  | acknowledgeStatus c stand serial revision => exact tidyAfter_acknowledgeStatus h c stand serial revision
  | readInputs c stand => exact tidyAfter_readsOnly h rfl
  | clearChanges c stand snapshot => exact tidyAfter_clearChanges h c stand snapshot
  | takeCall c stand flag => exact tidyAfter_takeCall h c stand flag
  | readTrack c f => exact tidyAfter_readsOnly h rfl
  | forceGate c f x => exact tidyAfter_forceGate h c f x
  | resetStand c stand => exact tidyAfter_resetStand h c stand
  | resetDevice c => exact tidyAfter_resetDevice h c
  | readDevice c => exact tidyAfter_readsOnly h rfl
  | samplingTimerExpiry st x => exact tidyAfter_samplingTimerExpiry h st x
  | starCodeAccepted st code => exact tidyAfter_takeChange h st _ _ (fun _ k => tidy_starTaken k st code)
  | reelPresentLoss st a => exact tidyAfter_takeChange h st _ _ (fun _ k => tidy_reelLost k st a)
  | webPresentLoss st => exact tidyAfter_takeChange h st _ _ (fun _ k => tidy_webLost k st)
  | pasterEngagedActive st => exact tidyAfter_pasterEngagedActive h st
  | pasterHomeActive st => exact tidyAfter_pasterHomeActive h st
  | knifeHomeActive st => exact tidyAfter_knifeHomeActive h st
  | safetyGateChange st closed => exact tidyAfter_safetyGateChange h st closed
  | driverHotActive st => exact tidyAfter_driverHotActive h st
  | driverHotInactive st => exact tidyAfter_takeChange h st _ _ (fun _ k => tidy_judgeStart k true st)
  | webCount st d => exact tidyAfter_webCount h hd st d
  | tachCount st d => exact tidyAfter_tachCount h st d
  | pasteMarkPulse st => exact tidyAfter_pasteMarkPulse h hd st
  | revPulse st a => exact tidyAfter_revPulse h hd st a
  | folderCutPulse f => exact tidyAfter_folderCutPulse h f
  | webSpeedTimerExpiry st => exact tidyAfter_webSpeedTimerExpiry h st
  | accelTimerExpiry st => exact tidyAfter_accelTimerExpiry h st
  | quietTimerExpiry st => exact tidyAfter_quietTimerExpiry h st
  | stopTimerExpiry st => exact tidyAfter_stopTimerExpiry h st
  | confirmTimerExpiry st => exact tidyAfter_confirmTimerExpiry h st
  | knifePulseTimerExpiry st => exact tidyAfter_knifePulseTimerExpiry h st
  | knifeHomeTimerExpiry st => exact tidyAfter_knifeHomeTimerExpiry h st
  | revQuietTimerExpiry st => exact tidyAfter_revQuietTimerExpiry h st
  | indexTimerExpiry st => exact tidyAfter_indexTimerExpiry h st
  | pullInTimerExpiry st o => exact tidyAfter_pullInTimerExpiry h st o
  | autoArmAttempt st => exact tidyAfter_autoArmAttempt h st
  | grantEvaluation f => exact tidyAfter_grantEvaluation h f

/-- Consecutive numbers are the iterates of the first. -/
theorem isChain_nextNumber (l : List Nat) : ∀ a, (a :: l).IsChain (fun a b => b = nextNumber a) →
    a :: l = (List.range (l.length + 1)).map (fun i => nextNumber^[i] a) := by
  induction l with
  | nil => exact fun _ _ => rfl
  | cons b l ih =>
    intro a h
    obtain ⟨rfl, h⟩ := List.isChain_cons_cons.1 h
    rw [List.length_cons, List.range_succ_eq_map, List.map_cons, List.map_map, ih _ h]
    rfl

/-- At most 33 consecutive numbers differ. -/
theorem nodup_of_isChain_nextNumber {l : List Nat} (h : l.IsChain (fun a b => b = nextNumber a)) (hl : l.length ≤ 33)
    (hr : ∀ a ∈ l, 1 ≤ a ∧ a ≤ 65535) : l.Nodup := by
  cases l with
  | nil => exact List.nodup_nil
  | cons a l =>
    rw [isChain_nextNumber l a h]
    have ha := hr a List.mem_cons_self
    refine List.Nodup.map_on (fun i hi j hj e => ?_) List.nodup_range
    have hi := List.mem_range.1 hi
    have hj := List.mem_range.1 hj
    rw [List.length_cons] at hl
    simp only [nextNumber_iterate a i (by omega), nextNumber_iterate a j (by omega)] at e
    split_ifs at e <;> omega

/-- Settles O59: each command keeps the order by the lemma of its effect; the serials of a queue are consecutive. -/
theorem everyStepKeepsQueuesAndWaitLists : Obligations.EveryStepKeepsQueuesAndWaitLists := by
  refine ⟨fun s t hr hd hq e => ?_, fun s st hr hq => ?_⟩
  · have h := State.Tidy.of_queuesInOrder hr hd hq
    refine State.Tidy.queuesInOrder ?_
    cases hp : s.pending with
    | nil =>
      rw [step_nil hp] at e
      exact tidyAfter_next h t e
    | cons c rest =>
      rw [step_cons hp] at e
      exact tidyAfter_exec ((calm_of_eq rfl rfl rfl : Calm s { s with pending := rest }).tidy h) (disciplined_pending hd rest) c t e
  · obtain ⟨hlen, _, _, hent⟩ := (hr.stands st).queue
    refine nodup_of_isChain_nextNumber (hq.serials st).left_of_append ?_ (fun a ha => ?_)
    · rw [List.length_map]
      omega
    · obtain ⟨e, he, rfl⟩ := List.mem_map.1 ha
      exact (hent e he).2.2

end Sys2Proof.Machine
end

section
/-! WRITE PROFILE, WRITE ONE-SHOT and WRITE ROUTING (R58 to R60, R62, R155: WriteProfileOneShotAndRouting). -/

namespace Sys2Proof.Machine

/-- No marker is set exactly where the two sets compared are one. -/
theorem anyMarker_differ (p q : Params (Option Int)) :
    anyMarker (Params.map2 (fun a b => !decide (a = b)) p q) = !decide (q = p) := by
  obtain ⟨p1, p2, p3, p4, p5, p6, p7, p8⟩ := p
  obtain ⟨q1, q2, q3, q4, q5, q6, q7, q8⟩ := q
  rw [Bool.eq_iff_iff]
  simp only [anyMarker, Params.map2, Params.toList, List.any_cons, List.any_nil, id, Bool.or_false, Bool.or_eq_true, Bool.not_eq_true',
    decide_eq_false_iff_not, Params.mk.injEq, eq_comm (b := p1), eq_comm (b := p2), eq_comm (b := p3), eq_comm (b := p4),
    eq_comm (b := p5), eq_comm (b := p6), eq_comm (b := p7), eq_comm (b := p8)]
  tauto

/-- DONE_CLAMPED tells that a carried value was clamped (R58). -/
theorem anyMarker_clampMarkers (v : Params (Option Int)) : anyMarker (clampMarkers v) = !decide (clampOptional v = v) :=
  anyMarker_differ v (clampOptional v)

/-- DONE where what is asked holds, DONE_CLAMPED where not. -/
theorem doneClamped_not (P : Prop) [Decidable P] (p : Payload) :
    doneClamped (!decide P) p = { code := if P then .done else .doneClamped, payload := p } := by
  by_cases h : P <;> simp [doneClamped, h]

/-- A profile written: the stand's reels verified against it, the change handed on, the conditions and the trigger judged (R60). -/
theorem writeProfile_eq (st : StandIx) (q : Profile) (s : State) :
    writeProfile st q s = judgeStart false st (evalRisk st (evalReelCall st (handOn st s
      { s.modStand st (fun x => { x with profile := q }) with
        reels := s.reels.map (fun x =>
          (x.1, if verifiable st x.2 then verify (s.stand st).plan q x.2 else x.2)) }))) := by
  unfold writeProfile verifyStand Table.mapAll
  rw [stand_modStand]
  rfl

theorem profileConsistent_eq_false (p : Params Int) : profileConsistent p = false ↔
    ¬ (p.lastChance + 20 ≤ p.spliceDiameter ∧ p.spliceDiameter + 40 ≤ p.accelStart) := by
  rw [← Bool.not_eq_true, profileConsistent_iff]

/-- The three unused bits of a routing mask (R155). -/
theorem unusedBits_ne_zero (mask : BitVec 16) : mask.extractLsb' 13 3 ≠ 0 ↔ 8192 ≤ mask.toNat := by
  have hlt : mask.toNat < 65536 := mask.isLt
  rw [ne_eq, ← BitVec.toNat_inj, BitVec.extractLsb'_toNat, Nat.shiftRight_eq_div_pow]
  simp only [BitVec.ofNat_eq_ofNat, BitVec.toNat_ofNat]
  omega

theorem exec_writeProfile (c : Client) (stand : Nat) (p : Profile) {s : State} (h : s.takes (.writeProfile c stand p)) :
    exec (.writeProfile c stand p) s =
      match standIx stand with
      | none => answered (.writeProfile c stand p) (plain (.badRequest false)) s
      | some st =>
        if byMode (s.stand st).queue.mode st c = false then answered (.writeProfile c stand p) (plain .notPermitted) s
        else if profileConsistent (clampProfile p).params = false then
          answered (.writeProfile c stand p) (plain (.refused .paramConflict)) s
        else answered (.writeProfile c stand p) (doneClamped (!decide (clampProfile p = p)) .none)
          (writeProfile st (clampProfile p) s) := by
  simp only [exec, execWriteProfile]
  rw [serve_of_takes _ h]
  cases standIx stand with
  | none => rfl
  | some st =>
    dsimp only
    (repeat' split)
    all_goals rfl

/-- Settles O25: for each of the three requests the checks one after the other, then what is written. -/
theorem writeProfileOneShotAndRouting : Obligations.WriteProfileOneShotAndRouting := by
  refine ⟨fun c stand p s h => ?_, fun c stand v s h => ?_, fun c stand mask mode s h => ?_⟩
  · rw [exec_writeProfile c stand p h]
    cases standIx stand with
    | none => rfl
    | some st =>
      dsimp only
      rw [doneClamped_not, writeProfile_eq]
      by_cases hm : byMode (s.stand st).queue.mode st c = false
      · rw [if_pos hm, if_pos hm]
      · rw [if_neg hm, if_neg hm]
        by_cases hp : profileConsistent (clampProfile p).params = false
        · rw [if_pos hp]
          exact (if_pos ((profileConsistent_eq_false _).1 hp)).symm
        · rw [if_neg hp]
          exact (if_neg (fun k => hp ((profileConsistent_eq_false _).2 k))).symm
  · simp only [exec, execWriteOneShot]
    rw [serve_of_takes _ h]
    cases standIx stand with
    | none => rfl
    | some st =>
      dsimp only
      rw [anyMarker_clampMarkers, doneClamped_not]
      split
      · rfl
      · rfl
  · simp only [exec, execWriteRouting, unusedBits_ne_zero, ← BitVec.ofNat_toNat]
    rw [serve_of_takes _ h]
    cases standIx stand with
    | none => rfl
    | some st =>
      dsimp only
      (repeat' split)
      all_goals rfl

end Sys2Proof.Machine
end

section
/-! ARM SPLICE and the auto-arm attempt (R53, R54, R63, R64, R69, R70: ArmSpliceAllocatesOrRefuses, AutoArmTakesAnOccasion). -/

namespace Sys2Proof.Machine

/-! ### The free number (R53) -/

/-- Of 33 consecutive numbers a table of 32 records leaves one free. -/
theorem exists_free {t : List (Nat × Splice)} (ht : t.length ≤ 32) (n : Nat) :
    ¬ ∀ j, j < 33 → Table.find (nextNumber^[j] n) t ≠ none := by
  intro h
  have hn : ((List.range 33).map (fun j => nextNumber^[j] n)).Nodup := by
    refine List.Nodup.map_on (fun i hi j hj e => ?_) List.nodup_range
    have hi := List.mem_range.1 hi
    have hj := List.mem_range.1 hj
    simp only [nextNumber_iterate n i (by omega), nextNumber_iterate n j (by omega)] at e
    split_ifs at e <;> omega
  have hs : ((List.range 33).map (fun j => nextNumber^[j] n)) ⊆ t.map Prod.fst := by
    intro x hx
    obtain ⟨j, hj, rfl⟩ := List.mem_map.1 hx
    exact mem_keys_of_find (Option.isSome_iff_ne_none.2 (h j (List.mem_range.1 hj)))
  have hlen := (hn.subperm hs).length_le
  simp at hlen
  omega

/-- The free number is the first one free, or the steps ran out. -/
theorem freeNumber_first (t : List (Nat × Splice)) (k : Nat) : ∀ n, ∃ j, j ≤ k ∧ freeNumber t k n = nextNumber^[j] n
    ∧ ∀ i, i < j → Table.find (nextNumber^[i] n) t ≠ none := by
  induction k with
  | zero => exact fun n => ⟨0, Nat.le_refl 0, rfl, nofun⟩
  | succ k ih =>
    intro n
    unfold freeNumber
    split
    · next h =>
      obtain ⟨j, hj, e, hi⟩ := ih (nextNumber n)
      refine ⟨j + 1, Nat.succ_le_succ hj, by rw [e, Function.iterate_succ_apply], fun i hlt => ?_⟩
      cases i with
      | zero => exact Option.isSome_iff_ne_none.1 h
      | succ i => rw [Function.iterate_succ_apply]; exact hi i (Nat.lt_of_succ_lt_succ hlt)
    · exact ⟨0, Nat.zero_le _, rfl, nofun⟩

/-- Counting upward, and from 65,535 to 1. -/
theorem nextNumber_iterate_mod {n j : Nat} (h1 : 1 ≤ n) (h2 : n ≤ 65535) (hj : j ≤ 33) :
    nextNumber^[j] n = (n - 1 + j) % 65535 + 1 := by
  rw [nextNumber_iterate n j hj]
  split <;> omega

theorem freeNumber_eq_first_free {t : List (Nat × Splice)} {n : Nat} (ht : t.length ≤ 32) (h1 : 1 ≤ n) (h2 : n ≤ 65535) :
    ∃ k, k ≤ 32 ∧ freeNumber t 33 n = (n - 1 + k) % 65535 + 1 ∧ Table.find ((n - 1 + k) % 65535 + 1) t = none
      ∧ ∀ j, j < k → Table.find ((n - 1 + j) % 65535 + 1) t ≠ none := by
  obtain ⟨k, hk, e, hbefore⟩ := freeNumber_first t 33 n
  have hk' : k ≤ 32 := by
    rcases Nat.lt_or_eq_of_le hk with hlt | rfl
    · omega
    · exact absurd hbefore (exists_free ht n)
  rw [nextNumber_iterate_mod h1 h2 hk] at e
  refine ⟨k, hk', e, e ▸ find_freeNumber ht n, fun j hj => ?_⟩
  rw [← nextNumber_iterate_mod h1 h2 (by omega)]
  exact hbefore j hj

/-! ### Arming (R64) -/

/-- Arming with both reels found: the record, the reservation, the active splice; the change handed on and the trigger judged. -/
theorem arm_eq (st : StandIx) (o : Origin) (g : Trigger) (x : Params (Option Int)) (c : Bool) (s : State) {out inc : Nat}
    {running next : Reel} (hrun : s.runningReel st = some (out, running)) (hready : s.readyAtSplice st = some (inc, next)) :
    arm st o g x c s = judgeStart false st (handOn st s
      (({ s with
          splices := Table.insert (freeNumber s.splices 33 s.nextSplice) (newSplice st o g out inc x c s.now) s.splices
          nextSplice := nextNumber (freeNumber s.splices 33 s.nextSplice) }.modReel inc
            (fun r => { r with reservedBy := some (freeNumber s.splices 33 s.nextSplice) })).modWork st
            (fun w => { w with active := some (freeNumber s.splices 33 s.nextSplice) }))) := by
  unfold arm allocate
  rw [hrun, hready]

theorem activeNumber_allocate (st : StandIx) (o : Origin) (g : Trigger) (x : Params (Option Int)) (c : Bool) (s : State)
    {out inc : Nat} {running next : Reel} (hrun : s.runningReel st = some (out, running))
    (hready : s.readyAtSplice st = some (inc, next)) :
    (allocate st o g x c s).activeNumber st = freeNumber s.splices 33 s.nextSplice := by
  unfold allocate State.activeNumber
  rw [hrun, hready]
  dsimp only
  rw [work_modWork]
  rfl

theorem clampedNote_eq (P : Prop) [Decidable P] :
    (if (!decide P) = true then [SpliceNote.clamped] else []) = if P then [] else [SpliceNote.clamped] := by
  by_cases h : P <;> simp [h]

theorem oldestException_eq (q : Queue) : q.oldestException = q.entries.find? (fun e => e.conditions.any isException) := rfl

/-! ### ARM SPLICE (R63, R64) -/

theorem exec_armSplice (c : Client) (stand : Nat) (g : Trigger) (v : Params (Option Int)) {s : State}
    (h : s.takes (.armSplice c stand g v)) : exec (.armSplice c stand g v) s =
      match standIx stand with
      | none => answered (.armSplice c stand g v) (plain (.badRequest false)) s
      | some st =>
        if byMode (s.stand st).queue.mode st c = false then answered (.armSplice c stand g v) (plain .notPermitted) s
        else match armFault st (clampOptional v) s with
        | some e => answered (.armSplice c stand g v) e.answer s
        | none => answered (.armSplice c stand g v)
            { code := if clampOptional v = v then .done else .doneClamped
              payload := .spliceNumber ((allocate st (originOf c) g (clampOptional v) (!decide (clampOptional v = v)) s).activeNumber st) }
            (arm st (originOf c) g (clampOptional v) (!decide (clampOptional v = v)) s) := by
  simp only [exec, execArmSplice]
  rw [serve_of_takes _ h]
  cases standIx stand with
  | none => rfl
  | some st =>
    dsimp only
    rw [anyMarker_clampMarkers, doneClamped_not]
    split
    · rfl
    · cases armFault st (clampOptional v) s <;> rfl

/-- Settles O27: the checks one after the other, then the splice armed; the number by the first one free. -/
theorem armSpliceAllocatesOrRefuses : Obligations.ArmSpliceAllocatesOrRefuses := by
  refine ⟨fun c stand g v s h => ?_, fun t n ht h1 h2 => freeNumber_eq_first_free ht h1 h2⟩
  rw [exec_armSplice c stand g v h]
  cases standIx stand with
  | none => rfl
  | some st =>
    dsimp only
    by_cases hmode : byMode (s.stand st).queue.mode st c = false
    · simp only [if_pos hmode]
    by_cases hplan : (s.stand st).plan.inPlan = false
    · simp only [armFault, if_neg hmode, if_pos hplan]
      rfl
    by_cases hbusy : (s.work st).active.isSome = true
    · simp only [armFault, if_neg hmode, if_neg hplan, if_pos hbusy]
      rfl
    simp only [armFault, if_neg hmode, if_neg hplan, if_neg hbusy, oldestException_eq]
    cases (s.stand st).queue.entries.find? (fun e => e.conditions.any isException) with
    | some e => rfl
    | none =>
      dsimp only
      by_cases hqueue : 4 ≤ (s.stand st).queue.entries.length
      · simp only [if_pos hqueue]
        rfl
      by_cases htable : 32 ≤ s.splices.length
      · simp only [if_neg hqueue, if_pos htable]
        rfl
      by_cases hweb : (s.stand st).seq.webBroken = true
      · simp only [if_neg hqueue, if_neg htable, if_pos hweb]
        rfl
      simp only [if_neg hqueue, if_neg htable, if_neg hweb]
      rcases hrun : s.runningReel st with _ | ⟨out, running⟩
      · rfl
      · rcases hready : s.readyAtSplice st with _ | ⟨inc, next⟩
        · rfl
        · simp only [State.isActive, decide_eq_true_eq]
          by_cases hhot : s.accepted st .driverHot = some 1
          · simp only [if_pos hhot]
            rfl
          simp only [if_neg hhot]
          cases consistent (some running.paper.core) (some (next.diameter.getD next.paper.full)) (s.tentative st (clampOptional v)) with
          | false => rfl
          | true =>
            rw [activeNumber_allocate st _ _ _ _ s hrun hready, arm_eq st _ _ _ _ s hrun hready]
            unfold newSplice
            rw [clampedNote_eq]
            cases c <;> rfl

/-! ### The auto-arm attempt (R69, R70) -/

/-- No check of R63 reads how many occasions wait. -/
theorem armFault_takeOccasion (st : StandIx) (x : Params (Option Int)) (s : State) :
    armFault st x (s.modSeq st (fun q => { q with chainOccasions := q.chainOccasions - 1 })) = armFault st x s := by
  have hstand : (s.modSeq st (fun q => { q with chainOccasions := q.chainOccasions - 1 })).stand st =
      { s.stand st with seq := { (s.stand st).seq with chainOccasions := (s.stand st).seq.chainOccasions - 1 } } := stand_modSeq _ _ _
  simp only [armFault, State.work, State.isActive, State.accepted, State.tentative, State.readyAtSplice, State.reelAt, hstand]
  rfl

theorem chainBlocked_takeOccasion (st : StandIx) (s : State) :
    chainBlocked st (s.modSeq st (fun q => { q with chainOccasions := q.chainOccasions - 1 })) =
      if (s.stand st).seq.chainBlocked then s.modSeq st (fun q => { q with chainOccasions := q.chainOccasions - 1 })
      else (raise st .chainBlocked (s.modSeq st (fun q => { q with chainOccasions := q.chainOccasions - 1 }))).modSeq st
        (fun q => { q with chainBlocked := true }) := by
  unfold chainBlocked
  rw [stand_modSeq]

/-- Whether an exception waits for acknowledgement (R63, R69). -/
theorem oldestException_isNone (q : Queue) :
    q.oldestException.isNone = !q.entries.any (fun e => e.conditions.any isException) := by
  rw [oldestException_eq, ← Option.not_isSome, List.isSome_find?]

/-- Settles O28: an occasion taken, then by the checks armed, blocked or nothing; the arming of R64 with both reels found. -/
theorem autoArmTakesAnOccasion : Obligations.AutoArmTakesAnOccasion := by
  refine ⟨fun st s h => ?_, fun st o g x c s out inc running next hrun hready => arm_eq st o g x c s hrun hready⟩
  simp only [exec, execAutoArmAttempt]
  rw [onDevice_of_runs _ h]
  refine congrArg _ ?_
  split
  · rfl
  unfold takeChainOccasion
  rw [oldestException_isNone]
  by_cases hoff : (s.stand st).seq.chain = false ∨ (s.stand st).queue.entries.any (fun e => e.conditions.any isException) = true
  · rw [if_pos hoff]
    refine if_neg (fun ⟨hc, he⟩ => ?_)
    rcases hoff with k | k
    · rw [k] at hc
      cases hc
    · rw [k] at he
      cases he
  have hon : (s.stand st).seq.chain = true ∧ (!(s.stand st).queue.entries.any (fun e => e.conditions.any isException)) = true := by
    simpa using hoff
  have hfree : (s.stand st).queue.oldestException = none := by
    rw [← Option.isNone_iff_eq_none, oldestException_isNone]
    exact hon.2
  simp only [if_pos hon, if_neg hoff, autoArm, armFault_takeOccasion, chainBlocked_takeOccasion]
  simp only [armFault, hfree]
  by_cases hplan : (s.stand st).plan.inPlan = false
  · simp only [if_pos hplan, if_pos (Or.inl hplan)]
  by_cases hbusy : (s.work st).active.isSome = true
  · simp only [if_neg hplan, if_pos hbusy, if_pos (Or.inr hbusy)]
  have hboth : ¬ ((s.stand st).plan.inPlan = false ∨ (s.work st).active.isSome = true) := not_or.2 ⟨hplan, hbusy⟩
  simp only [if_neg hplan, if_neg hbusy, if_neg hboth]
  by_cases hqueue : 4 ≤ (s.stand st).queue.entries.length
  · simp only [if_pos hqueue, if_pos (Or.inl hqueue)]
  by_cases htable : 32 ≤ s.splices.length
  · simp only [if_neg hqueue, if_pos htable, if_pos (Or.inr htable)]
  simp only [if_neg hqueue, if_neg htable, if_neg (not_or.2 ⟨hqueue, htable⟩)]
  by_cases hweb : (s.stand st).seq.webBroken = true
  · simp only [if_pos hweb]
  simp only [if_neg hweb]
  rcases hrun : s.runningReel st with _ | ⟨out, running⟩
  · rfl
  · rcases hready : s.readyAtSplice st with _ | ⟨inc, next⟩
    · rfl
    · simp only [State.isActive, decide_eq_true_eq]
      by_cases hhot : s.accepted st .driverHot = some 1
      · rw [if_pos hhot]
        exact (if_neg (fun k => k.1 hhot)).symm
      · rw [if_neg hhot]
        by_cases hcons : consistent (some running.paper.core) (some (next.diameter.getD next.paper.full)) (s.tentative st noParams) = true
        · rw [if_pos hcons]
          exact (if_pos ⟨hhot, hcons⟩).symm
        · rw [if_neg hcons]
          exact (if_neg (fun k => hcons k.2)).symm

end Sys2Proof.Machine
end

section
/-! AMEND SPLICE and SET CHAIN (R58, R65, R68, R69: AmendSpliceAndSetChain). -/

namespace Sys2Proof.Machine

/-- A value outside its range is one that clamping changes. -/
theorem clampInt_ne_iff {lo hi : Int} (h : lo ≤ hi) (v : Int) : clampInt (lo, hi) v ≠ v ↔ v < lo ∨ hi < v := by
  rw [clampInt_eq_max_min h]
  omega

theorem numberOk_eq_false (n : Nat) : numberOk n = false ↔ ¬ (1 ≤ n ∧ n ≤ 65535) := by
  rw [← Bool.not_eq_true, numberOk_iff]

/-- One parameter of an amendment (R65). -/
theorem amendOne_eq {lo hi : Int} (h : lo ≤ hi) (held : Option Int) (x : AmendParam) :
    (match x with | .notCarried => held | .default => none | .value v => some (clampInt (lo, hi) v))
      = match x with | .notCarried => held | .default => none | .value v => some (max lo (min hi v)) := by
  cases x with
  | value v => exact congrArg some (clampInt_eq_max_min h v)
  | _ => rfl

/-- The marker of one parameter of an amendment (R58). -/
theorem amendMarker_iff {lo hi : Int} (h : lo ≤ hi) (x : AmendParam) :
    (match x with | .value v => !decide (clampInt (lo, hi) v = v) | .notCarried => false | .default => false) = true
      ↔ ∃ v, x = .value v ∧ (v < lo ∨ hi < v) := by
  cases x with
  | value v => simp [← clampInt_ne_iff h]
  | _ => simp

theorem amendExplicit_eq (old : Params (Option Int)) (a : Params AmendParam) :
    let amended : Int → Int → Option Int → AmendParam → Option Int := fun lo hi held x =>
      match x with
      | .notCarried => held
      | .default => none
      | .value v => some (max lo (min hi v))
    amendExplicit old a =
      { accelStart := amended 150 700 old.accelStart a.accelStart
        spliceDiameter := amended 110 500 old.spliceDiameter a.spliceDiameter
        lastChance := amended 90 400 old.lastChance a.lastChance
        matchTolerance := amended 1 20 old.matchTolerance a.matchTolerance
        matchOffset := amended (-10) 10 old.matchOffset a.matchOffset
        minSpeed := amended 500 5000 old.minSpeed a.minSpeed
        pasteTarget := amended 20 600 old.pasteTarget a.pasteTarget
        knifeDistance := amended 100 2000 old.knifeDistance a.knifeDistance } := by
  simp only [amendExplicit, Params.map2, paramRanges, Params.mk.injEq]
  exact ⟨amendOne_eq (by decide) _ _, amendOne_eq (by decide) _ _, amendOne_eq (by decide) _ _, amendOne_eq (by decide) _ _,
    amendOne_eq (by decide) _ _, amendOne_eq (by decide) _ _, amendOne_eq (by decide) _ _, amendOne_eq (by decide) _ _⟩

theorem amendClamped_iff (a : Params AmendParam) :
    let outside : Int → Int → AmendParam → Prop := fun lo hi x => ∃ v, x = .value v ∧ (v < lo ∨ hi < v)
    amendClamped a = true ↔
      outside 150 700 a.accelStart ∨ outside 110 500 a.spliceDiameter ∨ outside 90 400 a.lastChance
      ∨ outside 1 20 a.matchTolerance ∨ outside (-10) 10 a.matchOffset ∨ outside 500 5000 a.minSpeed
      ∨ outside 20 600 a.pasteTarget ∨ outside 100 2000 a.knifeDistance := by
  simp only [amendClamped, anyMarker, Params.map2, Params.toList, paramRanges, List.any_cons, List.any_nil, id, Bool.or_false,
    Bool.or_eq_true]
  exact or_congr (amendMarker_iff (by decide) _) (or_congr (amendMarker_iff (by decide) _)
    (or_congr (amendMarker_iff (by decide) _) (or_congr (amendMarker_iff (by decide) _)
      (or_congr (amendMarker_iff (by decide) _) (or_congr (amendMarker_iff (by decide) _)
        (or_congr (amendMarker_iff (by decide) _) (amendMarker_iff (by decide) _)))))))

/-- The check of R59 on the values an amendment would leave. -/
theorem amendConsistent_eq (s : State) (sp : Splice) (x : Params (Option Int)) : s.amendConsistent sp x =
    consistent ((s.runningReel sp.stand).map (fun p => p.2.paper.core))
      ((s.reel? sp.incoming).map (fun r => r.diameter.getD r.paper.full)) (s.tentative sp.stand x) := rfl

/-- The flag set on and the occasion are one change of the sequencer (R68, R69). -/
theorem chainOccasion_modSeq (st : StandIx) (s : State) (f : Sequencer → Sequencer) : chainOccasion st (s.modSeq st f) =
    s.modSeq st (fun q => { f q with chainOccasions := (f q).chainOccasions + 1 }) := by
  unfold chainOccasion State.modSeq
  rw [modStand_modStand]

/-- The values amended and the clamping noted are one change of the record (R65). -/
theorem amend_modSplice (s : State) (n : Nat) (v : Params AmendParam) :
    (if amendClamped v then noteSplice n .clamped (s.modSplice n (fun x => { x with explicit := amendExplicit x.explicit v }))
      else s.modSplice n (fun x => { x with explicit := amendExplicit x.explicit v }))
      = s.modSplice n (fun x => { x with
          explicit := amendExplicit x.explicit v
          notes := if amendClamped v then addTo .clamped x.notes else x.notes }) := by
  cases amendClamped v with
  | false => rfl
  | true => exact modSplice_modSplice s n _ _

/-- Settles O29: the checks one after the other and what the two requests change; the values parameter by parameter. -/
theorem amendSpliceAndSetChain : Obligations.AmendSpliceAndSetChain := by
  refine ⟨fun c n v s h => ?_, fun old a => ⟨amendExplicit_eq old a, amendClamped_iff a⟩, fun c stand on s h => ?_⟩
  · simp only [exec, execAmendSplice, numberOk_eq_false]
    rw [serve_of_takes _ h]
    split
    · rfl
    · cases s.splice? n with
      | none => rfl
      | some sp =>
        dsimp only
        rw [amend_modSplice, amendConsistent_eq]
        split
        · rfl
        · split
          · rfl
          · split
            · rfl
            · rfl
  · simp only [exec, execSetChain]
    rw [serve_of_takes _ h]
    cases standIx stand with
    | none => rfl
    | some st =>
      dsimp only
      split
      · rfl
      · cases on with
        | true => exact congrArg (fun t => (.next (deliver _ done t) : Res)) (chainOccasion_modSeq st s _)
        | false => rfl

end Sys2Proof.Machine
end

section
/-! The commit of an ARMED splice (R66, R78, R79: CommitResolvesAndDrives). -/

namespace Sys2Proof.Machine

/-! ### Two conditions of one splice share an entry (R148) -/

/-- The newest entry after a condition is placed holds it, and takes the next condition of the same splice. -/
theorem getLast?_place (q : Queue) (c : Condition) (a : Option Nat) (now : Stamp) (r : Option Nat × Option Nat) :
    ∃ e, (q.place c a now r).entries.getLast? = some e ∧ c ∈ e.conditions
      ∧ (e.splice = a ∨ 4 ≤ (q.place c a now r).entries.length) := by
  unfold Queue.place
  dsimp only
  split
  · next x hx =>
    split
    · next hc =>
      obtain ⟨l, hl⟩ := List.getLast?_eq_some_iff.1 hx
      refine ⟨x.join c (q.routing c) r, ?_, mem_addTo.2 (Or.inl rfl), hc.imp id (fun k => ?_)⟩
      · rw [hl, onLast_append_singleton, List.getLast?_concat]
        rfl
      · rw [length_onLast]
        exact k
    · exact ⟨q.newEntry c a now r, List.getLast?_concat, List.mem_singleton.2 rfl, Or.inl rfl⟩
  · exact ⟨q.newEntry c a now r, rfl, List.mem_singleton.2 rfl, Or.inl rfl⟩

/-- A condition joins the newest entry where that is of the same splice or the queue is full. -/
theorem mem_place_of_joins {q : Queue} {a : Option Nat} {e : StatusEntry} (he : q.entries.getLast? = some e)
    (hj : e.splice = a ∨ 4 ≤ q.entries.length) (c : Condition) (now : Stamp) (r : Option Nat × Option Nat) :
    ∃ x ∈ (q.place c a now r).entries, x.conditions = addTo c e.conditions := by
  obtain ⟨l, hl⟩ := List.getLast?_eq_some_iff.1 he
  refine ⟨e.join c (q.routing c) r, ?_, rfl⟩
  unfold Queue.place
  simp only [he]
  rw [if_pos hj, hl, onLast_append_singleton]
  exact List.mem_append_right _ (List.mem_singleton.2 rfl)

/-- A queue with an entry that holds both conditions. -/
def Queue.HoldsBoth (c d : Condition) (q : Queue) : Prop := ∃ e ∈ q.entries, c ∈ e.conditions ∧ d ∈ e.conditions

theorem Queue.holdsBoth_place_place (q : Queue) (c d : Condition) (a : Option Nat) (now now' : Stamp)
    (r r' : Option Nat × Option Nat) : ((q.place c a now r).place d a now' r').HoldsBoth c d := by
  obtain ⟨e, he, hc, hj⟩ := getLast?_place q c a now r
  obtain ⟨x, hx, hxc⟩ := mem_place_of_joins he hj d now' r'
  exact ⟨x, hx, by rw [hxc]; exact mem_addTo.2 (Or.inr hc), by rw [hxc]; exact mem_addTo.2 (Or.inl rfl)⟩

/-- No condition leaves an entry when another is placed. -/
theorem Queue.HoldsBoth.place {q : Queue} {c d : Condition} (h : q.HoldsBoth c d) (b : Condition) (a : Option Nat) (now : Stamp)
    (r : Option Nat × Option Nat) : (q.place b a now r).HoldsBoth c d := by
  obtain ⟨e, he, hc, hd⟩ := h
  rcases place_cases q b a now r with ⟨x, hx, _⟩ | ⟨l, x, y, hl, hx, _, _, _, hyc⟩
  · exact ⟨e, by rw [hx]; exact List.mem_append_left _ he, hc, hd⟩
  · rw [hl, List.mem_append, List.mem_singleton] at he
    rcases he with he | rfl
    · exact ⟨e, by rw [hx]; exact List.mem_append_left _ he, hc, hd⟩
    · exact ⟨y, by rw [hx]; exact List.mem_append_right _ (List.mem_singleton.2 rfl),
        by rw [hyc]; exact mem_addTo.2 (Or.inr hc), by rw [hyc]; exact mem_addTo.2 (Or.inr hd)⟩

theorem Queue.HoldsBoth.congr {p q : Queue} {c d : Condition} (h : q.HoldsBoth c d) (e : p.entries = q.entries) : p.HoldsBoth c d := by
  unfold Queue.HoldsBoth
  rw [e]
  exact h

/-- What follows the end of a splice takes no condition away. -/
theorem holdsBoth_afterEnd {st : StandIx} (n : Nat) {s : State} {c d : Condition} (h : (s.stand st).queue.HoldsBoth c d) :
    ((afterEnd st n s).stand st).queue.HoldsBoth c d := by
  refine Queue.HoldsBoth.congr ?_ (queue_evalReelCall st _).2
  rcases queue_evalRisk st (retire n s) with e | e <;> rw [e, stand_retire]
  · exact h
  · exact h.place _ _ _ _

/-! ### The one-shot set and the entry of a stand under the shared operations -/

@[simp] theorem oneShot_raise (st : StandIx) (c : Condition) (s : State) (r : Option Nat × Option Nat) :
    ((raise st c s r).stand st).oneShot = (s.stand st).oneShot := by simp [raise]

@[simp] theorem oneShot_evalReelCall (st : StandIx) (s : State) :
    ((evalReelCall st s).stand st).oneShot = (s.stand st).oneShot := by simp [evalReelCall]

@[simp] theorem oneShot_evalRisk (st : StandIx) (s : State) : ((evalRisk st s).stand st).oneShot = (s.stand st).oneShot := by
  rw [evalRisk_eq]
  split <;> simp

@[simp] theorem oneShot_handOn (st : StandIx) (b s : State) : ((handOn st b s).stand st).oneShot = (s.stand st).oneShot := by
  unfold handOn
  dsimp only
  split <;> simp [chainOccasion]

@[simp] theorem oneShot_endSplice (st : StandIx) (n : Nat) (x : SpliceState) (c : Condition) (s : State) :
    ((endSplice st n x c s).stand st).oneShot = (s.stand st).oneShot := by simp [endSplice, endRecord]

@[simp] theorem oneShot_afterEnd (st : StandIx) (n : Nat) (s : State) :
    ((afterEnd st n s).stand st).oneShot = (s.stand st).oneShot := by simp [afterEnd]

@[simp] theorem plan_endSplice (st : StandIx) (n : Nat) (x : SpliceState) (c : Condition) (s : State) :
    ((endSplice st n x c s).stand st).plan = (s.stand st).plan := by simp [endSplice, endRecord]

@[simp] theorem profile_endSplice (st : StandIx) (n : Nat) (x : SpliceState) (c : Condition) (s : State) :
    ((endSplice st n x c s).stand st).profile = (s.stand st).profile := by simp [endSplice, endRecord]

/-! ### Resolution (R66) -/

/-- The notes of a splice that takes its one-shot values (R66). -/
def consumptionNotes (explicit : Params (Option Int)) (shot : OneShot) (notes : List SpliceNote) : List SpliceNote :=
  let taken := takesOneShot explicit shot.values
  let used := if anyMarker taken then addTo .oneShotUsed notes else notes
  if anyMarker (Params.map2 (fun (a b : Bool) => a && b) taken shot.clamped) then addTo .clamped used else used

/-- The resolution is one change of the record, and the one-shot set emptied. -/
theorem resolveSplice_eq (st : StandIx) (n : Nat) (sp : Splice) (s : State) : resolveSplice st n sp s =
    (s.modSplice n (fun x => { x with
      params := (s.resolved sp).map some
      notes := consumptionNotes sp.explicit (s.stand st).oneShot x.notes })).modStand st
        (fun x => { x with oneShot := OneShot.empty }) := by
  unfold resolveSplice consumptionNotes
  dsimp only
  cases anyMarker (takesOneShot sp.explicit (s.stand st).oneShot.values) <;>
    cases anyMarker (Params.map2 (fun (a b : Bool) => a && b) (takesOneShot sp.explicit (s.stand st).oneShot.values)
      (s.stand st).oneShot.clamped) <;>
    simp [noteSplice]

/-- The record of a splice whose values are resolved. -/
def State.resolvedRecord (s : State) (st : StandIx) (sp : Splice) : Splice := { sp with
  params := (s.tentative st sp.explicit).map some
  notes := consumptionNotes sp.explicit (s.stand st).oneShot sp.notes }

theorem splice?_resolveSplice {st : StandIx} {n : Nat} {sp : Splice} {s : State} (hs : s.splice? n = some sp) (hst : sp.stand = st) :
    (resolveSplice st n sp s).splice? n = some (s.resolvedRecord st sp) := by
  rw [resolveSplice_eq]
  refine (splice?_modSplice s n _).trans ?_
  rw [hs, State.resolved, hst]
  rfl

theorem stand_resolveSplice (st : StandIx) (n : Nat) (sp : Splice) (s : State) :
    (resolveSplice st n sp s).stand st = { s.stand st with oneShot := OneShot.empty } := by
  rw [resolveSplice_eq, stand_modStand]
  rfl

theorem reels_resolveSplice (st : StandIx) (n : Nat) (sp : Splice) (s : State) : (resolveSplice st n sp s).reels = s.reels := by
  rw [resolveSplice_eq]
  rfl

theorem folder_resolveSplice (st : StandIx) (n : Nat) (sp : Splice) (s : State) (f : FolderIx) :
    (resolveSplice st n sp s).folder f = s.folder f := by
  rw [resolveSplice_eq]
  rfl

theorem link_resolveSplice (st : StandIx) (n : Nat) (sp : Splice) (s : State) : (resolveSplice st n sp s).link = s.link := by
  rw [resolveSplice_eq]
  rfl

/-! ### The commit that succeeds (R78, R79) -/

theorem splice?_succeedCommit (st : StandIx) (n : Nat) (sp : Splice) (o : Int) (s : State) :
    (succeedCommit st n sp o s).splice? n = (s.splice? n).map (fun x =>
      { x with folder := some (s.stand st).plan.folder, committed := some s.link.time, state := .accel }) := by
  unfold succeedCommit
  dsimp only
  rw [splice?_evalRisk, splice?_handOn, splice?_modWork, splice?_modSplice]
  rfl

theorem reel?_succeedCommit (st : StandIx) (n : Nat) (sp : Splice) (o : Int) (s : State) {r : Reel}
    (hr : s.reel? sp.incoming = some r) : (succeedCommit st n sp o s).reel? sp.incoming = some { r with state := .committed } := by
  unfold succeedCommit
  dsimp only
  rw [reel?_evalRisk, reel?_handOn]
  exact reel?_modReel_of_some hr _

theorem work_succeedCommit (st : StandIx) (n : Nat) (sp : Splice) (o : Int) (s : State) :
    (succeedCommit st n sp o s).work st = { s.work st with
      startPending := false
      driveEn := true
      demand := demandFor (s.stand st).gauge.webSpeed o
      revolution := none
      prevGirth := none
      keptGirth := none
      goodCount := 0
      matched := false
      accelTimer := some ((s.stand st).profile.settings.accelTimeout * 1000) } := by
  unfold succeedCommit
  dsimp only
  rw [work_evalRisk, work_handOn, work_modWork]
  rfl

theorem folder_succeedCommit (st : StandIx) (n : Nat) (sp : Splice) (o : Int) (s : State) (f : FolderIx) :
    (succeedCommit st n sp o s).folder f = s.folder f := by
  unfold succeedCommit
  dsimp only
  rw [folder_evalRisk, folder_handOn]
  rfl

theorem oneShot_succeedCommit (st : StandIx) (n : Nat) (sp : Splice) (o : Int) (s : State) :
    ((succeedCommit st n sp o s).stand st).oneShot = (s.stand st).oneShot := by
  unfold succeedCommit
  simp

/-! ### The commit in conflict (R66) -/

/-- A record tested for retirement stays until its end is acknowledged (R72). -/
theorem splice?_retire_of_unacknowledged {n : Nat} {s : State} {x : Splice} (hx : s.splice? n = some x) (ha : x.endAck = false) :
    (retire n s).splice? n = some x := by
  unfold retire
  rw [hx]
  dsimp only
  rw [if_neg (by simp [ha])]
  exact hx

theorem splice?_afterEnd_of_unacknowledged {st : StandIx} {n : Nat} {s : State} {x : Splice} (hx : s.splice? n = some x)
    (ha : x.endAck = false) : (afterEnd st n s).splice? n = some x := by
  rw [afterEnd, splice?_evalReelCall, splice?_evalRisk]
  exact splice?_retire_of_unacknowledged hx ha

/-- The record of the splice before its retirement is tested. -/
theorem splice?_beforeRetirement (st : StandIx) (n : Nat) (k : Nat) (b s : State) :
    (handOn st b (giveBack st false k (endSplice st n .aborted .spliceVoid (raise st .paramConflict (setCause n .paramConflict s))))).splice? n
      = (s.splice? n).map (fun x => { x with
          state := .aborted, ended := some s.link.time, cause := some (x.cause.getD .paramConflict) }) := by
  rw [splice?_handOn, splice?_giveBack, splice?_endSplice, splice?_raise, splice?_setCause, Option.map_map]
  rfl

theorem queue_failCommit (st : StandIx) (n : Nat) (sp : Splice) (s : State) :
    ((failCommit st n sp s).stand st).queue.HoldsBoth .paramConflict .spliceVoid := by
  refine holdsBoth_afterEnd n (Queue.HoldsBoth.congr ?_ (entries_handOn st s _))
  rw [stand_giveBack, queue_endSplice, work_raise]
  have hq : ((raise st .paramConflict (setCause n .paramConflict s)).stand st).queue =
      (s.stand st).queue.place .paramConflict (s.work st).active s.now (none, none) := by
    unfold raise setCause
    rw [stand_modQueue]
    rfl
  rw [hq]
  exact Queue.holdsBoth_place_place _ _ _ _ _ _ _ _

theorem work_failCommit (st : StandIx) (n : Nat) (sp : Splice) (s : State) :
    (failCommit st n sp s).work st = (s.work st).afterEnd := by
  unfold failCommit
  dsimp only
  rw [work_afterEnd, work_handOn, work_giveBack, work_endSplice, work_raise, work_setCause]

theorem reel?_failCommit (st : StandIx) (n : Nat) (sp : Splice) (s : State) {r : Reel} (hr : s.reel? sp.incoming = some r) :
    (failCommit st n sp s).reel? sp.incoming = some (givenBack (s.stand st).plan (s.stand st).profile false r) := by
  unfold failCommit
  dsimp only
  have hended : (endSplice st n .aborted .spliceVoid (raise st .paramConflict (setCause n .paramConflict s))).reel? sp.incoming
      = some r := by
    rw [State.reel?, reels_endSplice, reels_raise, reels_setCause]
    exact hr
  rw [afterEnd, reel?_evalReelCall, reel?_evalRisk, reel?_retire, reel?_handOn, giveBack_eq, reel?_modReel_of_some hended,
    plan_endSplice, profile_endSplice, plan_raise, profile_raise, stand_setCause]

theorem folder_failCommit (st : StandIx) (n : Nat) (sp : Splice) (s : State) (f : FolderIx) :
    (failCommit st n sp s).folder f = s.folder f := by
  simp [failCommit, afterEnd, endSplice]

theorem oneShot_failCommit (st : StandIx) (n : Nat) (sp : Splice) (s : State) :
    ((failCommit st n sp s).stand st).oneShot = (s.stand st).oneShot := by
  unfold failCommit
  simp

/-- Settles O31: the resolution by its equation, then the commit that succeeds and the one in conflict part by part. -/
theorem commitResolvesAndDrives : Obligations.CommitResolvesAndDrives := by
  intro st n sp s hact hst _ t values shot taken used notes
  have hs : s.splice? n = some sp := (activeSplice_eq_some.1 hact).2
  have hrec := splice?_resolveSplice hs hst
  have hstand := stand_resolveSplice st n sp s
  have hwork : (resolveSplice st n sp s).work st = s.work st := by rw [State.work, hstand]; rfl
  have hreel : ∀ k, (resolveSplice st n sp s).reel? k = s.reel? k := fun k => by rw [State.reel?, reels_resolveSplice]; rfl
  have hlink := link_resolveSplice st n sp s
  have ht : t = if s.commitConsistent sp then succeedCommit st n sp (s.resolved sp).matchOffset (resolveSplice st n sp s)
    else failCommit st n sp (resolveSplice st n sp s) := rfl
  refine ⟨?_, fun hok => ?_, fun hbad => ?_⟩
  · rw [ht]
    split
    · rw [oneShot_succeedCommit, hstand]
      rfl
    · rw [oneShot_failCommit, hstand]
      rfl
  · rw [if_pos hok] at ht
    rw [ht]
    refine ⟨?_, fun r hr => reel?_succeedCommit st n sp _ _ ((hreel _).trans hr), ?_, fun f => ?_⟩
    · rw [splice?_succeedCommit, hrec, hstand, hlink]
      rfl
    · rw [work_succeedCommit, hwork, hstand, State.resolved, hst]
    · rw [folder_succeedCommit, folder_resolveSplice]
  · rw [if_neg (by simp [hbad])] at ht
    rw [ht]
    have hbefore := splice?_beforeRetirement st n sp.incoming (resolveSplice st n sp s) (resolveSplice st n sp s)
    rw [hrec, hlink] at hbefore
    refine ⟨?_, ?_, queue_failCommit st n sp _, fun ha => ?_, fun x hx => ?_, fun r hr => ?_, fun f => ?_⟩
    · rw [work_failCommit]
      exact active_afterEnd _
    · rw [work_failCommit]
      exact (drive_afterEnd _).1
    · rw [show (failCommit st n sp (resolveSplice st n sp s)).splice? n = _ from splice?_afterEnd_of_unacknowledged hbefore ha]
      exact Option.some_ne_none _
    · have he := (splice?_of_afterEnd hx).symm.trans hbefore
      exact Option.some.inj he
    · rw [reel?_failCommit st n sp _ ((hreel _).trans hr), hstand]
      rfl
    · rw [folder_failCommit, folder_resolveSplice]

end Sys2Proof.Machine
end

section
/-! How marks leave the tracks and records the table, and the track order (R72, R122, R125, R126: MarksLeaveTheirTracks). -/

namespace Sys2Proof.Machine

/-! ### Retirement (R72) -/

/-- A record that the retirement test leaves. -/
def Splice.kept (x : Splice) : Bool := !decide (isEnded x.state = true ∧ x.endAck = true ∧ x.mark.state ≠ .onTrack)

/-- A record whose mark has left its track stays until it has ended and its end is acknowledged. -/
theorem kept_left {final : MarkState} (h : final ≠ .onTrack) (x : Splice) :
    (x.left final).kept = !decide (isEnded x.state = true ∧ x.endAck = true) := by
  simp [Splice.kept, Splice.left, h]

theorem retire_of_none {n : Nat} {s : State} (h : s.splice? n = none) : retire n s = s := by
  unfold retire
  rw [h]

theorem retire_of_some {n : Nat} {s : State} {x : Splice} (h : s.splice? n = some x) :
    retire n s = if isEnded x.state = true ∧ x.endAck = true ∧ x.mark.state ≠ .onTrack then
      { s with splices := s.splices.filter (fun p => !decide (p.1 = n)) } else s := by
  unfold retire
  rw [h]
  rfl

theorem splice?_retire_eq (n m : Nat) (s : State) :
    (retire n s).splice? m = if m = n then (s.splice? m).filter Splice.kept else s.splice? m := by
  cases hx : s.splice? n with
  | none =>
    rw [retire_of_none hx]
    split
    · next e => rw [e, hx]; rfl
    · rfl
  | some x =>
    have herase : ({ s with splices := s.splices.filter (fun p => !decide (p.1 = n)) } : State).splice? m =
        if m = n then none else s.splice? m := find_erase n m s.splices
    rw [retire_of_some hx]
    split
    · next hc =>
      rw [herase]
      split
      · next e => rw [e, hx, Option.filter_some, if_neg (by simp [Splice.kept, hc])]
      · rfl
    · next hc =>
      split
      · next e => rw [e, hx, Option.filter_some, if_pos (by rw [Splice.kept, decide_eq_false hc]; rfl)]
      · rfl

/-- The records of a list tested, each once. -/
theorem splice?_retires_eq (m : Nat) (l : List (Nat × Splice)) : ∀ s : State,
    (l.foldl (fun s p => retire p.1 s) s).splice? m =
      if m ∈ l.map Prod.fst then (s.splice? m).filter Splice.kept else s.splice? m := by
  induction l with
  | nil => exact fun _ => rfl
  | cons p l ih =>
    intro s
    rw [List.foldl_cons, ih, splice?_retire_eq, List.map_cons]
    by_cases hp : m = p.1
    · simp [hp, Option.filter_filter]
    · simp only [List.mem_cons, hp, false_or, if_false]

/-! ### What no mark's leaving touches -/

/-- Stands, reels, the next splice number and the link. -/
def State.beside (s : State) : Vector Stand 12 × List (Nat × Reel) × Nat × Link := (s.stands, s.reels, s.nextSplice, s.link)

theorem beside_eq_iff {s t : State} : t.beside = s.beside ↔
    t.stands = s.stands ∧ t.reels = s.reels ∧ t.nextSplice = s.nextSplice ∧ t.link = s.link := by
  simp [State.beside]

theorem beside_foldl {α : Type} {g : State → α → State} (h : ∀ s a, (g s a).beside = s.beside) (l : List α) :
    ∀ s : State, (l.foldl g s).beside = s.beside := by
  induction l with
  | nil => exact fun _ => rfl
  | cons a l ih => exact fun s => (ih (g s a)).trans (h s a)

theorem beside_markLeaves (final : MarkState) (n : Nat) (s : State) : (markLeaves final n s).beside = s.beside := by
  unfold markLeaves unlist
  (repeat' split)
  all_goals rfl

theorem beside_retire (n : Nat) (s : State) : (retire n s).beside = s.beside := by
  unfold retire
  (repeat' split)
  all_goals rfl

theorem beside_purge (test : Nat → Splice → Bool) (s : State) : (purge test s).beside = s.beside := by
  unfold purge
  dsimp only
  rw [beside_foldl (fun t f => (rfl : (grantOccasion f t).beside = t.beside)), beside_foldl (fun t (p : Nat × Splice) => beside_retire p.1 t),
    beside_foldl (fun t (p : Nat × Splice) => beside_markLeaves .purged p.1 t)]

/-! ### An ejected mark (R125) -/

/-- The record of an ejected mark, its retirement tested. -/
theorem splice?_eject_self {f : FolderIx} {n : Nat} {x : Splice} {s : State} (hx : s.splice? n = some x) :
    (eject f n s).splice? n = if isEnded x.state = true ∧ x.endAck = true then none else some (x.left .ejected) := by
  rw [eject, splice?_grantOccasion, splice?_retire_eq, if_pos rfl, splice?_markLeaves, if_pos rfl, hx, Option.map_some,
    Option.filter_some, kept_left (by decide)]
  by_cases h : isEnded x.state = true ∧ x.endAck = true <;> simp [h]

theorem folder_eject_self {f : FolderIx} {n : Nat} {x : Splice} {s : State} (hx : s.splice? n = some x) (hf : x.folder = some f) :
    (eject f n s).folder f = { s.folder f with
      track := (s.folder f).track.filter (fun r => !decide (r.splice = n))
      grantOccasions := (s.folder f).grantOccasions + 1 } := by
  rw [eject, grantOccasion, folder_modFolder, folder_retire, folder_markLeaves, hx]
  simp [hf]

theorem folder_eject_ne {f g : FolderIx} {n : Nat} {x : Splice} {s : State} (hx : s.splice? n = some x) (hf : x.folder = some f)
    (hg : g ≠ f) : (eject f n s).folder g = s.folder g := by
  rw [eject, grantOccasion, folder_modFolder_ne _ _ hg, folder_retire, folder_markLeaves, hx]
  simp [hf, Ne.symm hg]

/-! ### Marks purged together (R126) -/

/-- Whether a mark listed is that of a splice of the list, of the folder's own. -/
def State.leaves (s : State) (l : List (Nat × Splice)) (f : FolderIx) (r : SpliceRef) : Bool :=
  decide (r.splice ∈ l.map Prod.fst) && decide ((s.splice? r.splice).bind (fun sp => sp.folder) = some f)

/-- The marks of the list are taken off each track. -/
theorem folder_marksLeave (final : MarkState) (f : FolderIx) (l : List (Nat × Splice)) : ∀ s : State,
    (l.foldl (fun s p => markLeaves final p.1 s) s).folder f =
      { s.folder f with track := (s.folder f).track.filter (fun r => !s.leaves l f r) } := by
  induction l with
  | nil => intro s; simp [State.leaves]
  | cons p l ih =>
    intro s
    have hfolder : ∀ m, ((markLeaves final p.1 s).splice? m).bind (fun sp => sp.folder) = (s.splice? m).bind (fun sp => sp.folder) := by
      intro m
      rw [splice?_markLeaves]
      split
      · cases s.splice? m <;> rfl
      · rfl
    have htrack : ((markLeaves final p.1 s).folder f).track = (s.folder f).track.filter (fun r => !s.leaves [p] f r) := by
      rw [folder_markLeaves]
      dsimp only
      split
      · next h =>
        refine List.filter_congr (fun r _ => ?_)
        by_cases e : r.splice = p.1
        · simp [State.leaves, e, h]
        · simp [State.leaves, e]
      · next h =>
        refine (List.filter_eq_self.2 (fun r _ => ?_)).symm
        by_cases e : r.splice = p.1
        · simp [State.leaves, e, h]
        · simp [State.leaves, e]
    have hrest : (markLeaves final p.1 s).folder f =
        { s.folder f with track := ((markLeaves final p.1 s).folder f).track } := by rw [folder_markLeaves]
    rw [List.foldl_cons, ih, hrest, htrack]
    dsimp only
    rw [List.filter_filter]
    congr 1
    refine List.filter_congr (fun r _ => ?_)
    simp only [State.leaves, hfolder, List.map_cons, List.map_nil, List.mem_cons, List.not_mem_nil, or_false]
    by_cases e : r.splice = p.1
    · by_cases hf : (s.splice? p.1).bind (fun sp => sp.folder) = some f <;> simp [e, hf]
    · simp [e]

theorem folder_retires (f : FolderIx) (l : List (Nat × Splice)) : ∀ s : State,
    (l.foldl (fun s p => retire p.1 s) s).folder f = s.folder f := by
  induction l with
  | nil => exact fun _ => rfl
  | cons p l ih => exact fun s => (ih _).trans (folder_retire p.1 s f)

/-- One occasion for each folder of the list. -/
theorem folder_grants (f : FolderIx) (l : List FolderIx) : ∀ s : State, l.Nodup →
    (l.foldl (fun s f => grantOccasion f s) s).folder f =
      { s.folder f with grantOccasions := (s.folder f).grantOccasions + if f ∈ l then 1 else 0 } := by
  induction l with
  | nil => intro s _; rfl
  | cons g l ih =>
    intro s h
    obtain ⟨hg, hl⟩ := List.nodup_cons.1 h
    rw [List.foldl_cons, ih _ hl, grantOccasion]
    by_cases e : f = g
    · subst e
      rw [folder_modFolder]
      simp [hg]
    · rw [folder_modFolder_ne _ _ e]
      simp [e]

theorem splice?_purge_eq {test : Nat → Splice → Bool} {s : State} (hn : (s.splices.map Prod.fst).Nodup) {n : Nat} {x : Splice}
    (hx : s.splice? n = some x) : (purge test s).splice? n =
      if (decide (x.mark.state = .onTrack) && test n x) = false then some x
      else if isEnded x.state = true ∧ x.endAck = true then none
      else some (x.left .purged) := by
  unfold purge
  dsimp only
  rw [splice?_grants, splice?_retires_eq, splice?_marksLeave, hx]
  by_cases hm : n ∈ (s.marksWhere test).map Prod.fst
  · obtain ⟨h1, h2⟩ := (mem_marksWhere_iff hn hx).1 hm
    rw [if_pos hm, if_pos hm, if_neg (by simp [h1, h2]), Option.map_some, Option.filter_some, kept_left (by decide)]
    by_cases h : isEnded x.state = true ∧ x.endAck = true <;> simp [h]
  · rw [if_neg hm, if_neg hm, if_pos]
    rw [mem_marksWhere_iff hn hx] at hm
    simpa using hm

theorem splice?_purge_of_none {test : Nat → Splice → Bool} {s : State} {n : Nat} (hx : s.splice? n = none) :
    (purge test s).splice? n = none := by
  cases h : (purge test s).splice? n with
  | none => rfl
  | some x =>
    obtain ⟨y, hy, _⟩ := splice?_of_purge h
    rw [hx] at hy
    cases hy

theorem folder_purge {test : Nat → Splice → Bool} {s : State} (hn : (s.splices.map Prod.fst).Nodup) (f : FolderIx) :
    (purge test s).folder f = { s.folder f with
      track := (s.folder f).track.filter (fun r =>
        match s.splice? r.splice with
        | none => true
        | some sp => !(decide (sp.mark.state = .onTrack) && test r.splice sp && decide (sp.folder = some f)))
      grantOccasions := (s.folder f).grantOccasions
        + (if s.splices.any (fun x => decide (x.2.mark.state = .onTrack) && test x.1 x.2 && decide (x.2.folder = some f))
            then 1 else 0) } := by
  unfold purge
  dsimp only
  rw [folder_grants f _ _ (nodup_allFolders.filter _), folder_retires, folder_marksLeave]
  have htrack : (s.folder f).track.filter (fun r => !s.leaves (s.marksWhere test) f r) = (s.folder f).track.filter (fun r =>
      match s.splice? r.splice with
      | none => true
      | some sp => !(decide (sp.mark.state = .onTrack) && test r.splice sp && decide (sp.folder = some f))) := by
    refine List.filter_congr (fun r _ => ?_)
    unfold State.leaves
    cases hx : s.splice? r.splice with
    | none => simp
    | some x =>
      rw [Bool.eq_iff_iff]
      simp [mem_marksWhere_iff hn hx]
  have hconcerned : (f ∈ allFolders.filter (fun f => (s.marksWhere test).any (fun p => decide (p.2.folder = some f)))) =
      (s.splices.any (fun x => decide (x.2.mark.state = .onTrack) && test x.1 x.2 && decide (x.2.folder = some f)) = true) := by
    rw [List.mem_filter, State.marksWhere, List.any_filter]
    simp [mem_allFolders f]
  rw [htrack]
  simp only [hconcerned]

/-! ### The track order (R122) -/

/-- The remaining distance of a mark, as the track order takes it. -/
abbrev State.distance (s : State) (r : SpliceRef) : Int := (s.remainingOf r).getD 0

/-- A mark is inserted where its distance stands. -/
theorem sorted_insertByDistance (s : State) (r : SpliceRef) {l : List SpliceRef} (h : l.Pairwise (fun a b => s.distance a ≤ s.distance b)) :
    (insertByDistance s r l).Pairwise (fun a b => s.distance a ≤ s.distance b) := by
  induction l with
  | nil => exact List.pairwise_singleton _ _
  | cons x l ih =>
    obtain ⟨h1, h2⟩ := List.pairwise_cons.1 h
    unfold insertByDistance
    split
    · next hlt =>
      refine List.pairwise_cons.2 ⟨fun y hy => ?_, h⟩
      rcases List.mem_cons.1 hy with rfl | hy
      · exact le_of_lt hlt
      · exact le_trans (le_of_lt hlt) (h1 y hy)
    · next hge =>
      refine List.pairwise_cons.2 ⟨fun y hy => ?_, ih h2⟩
      rcases List.mem_cons.1 ((perm_insertByDistance s r l).mem_iff.1 hy) with rfl | hy
      · exact le_of_not_gt hge
      · exact h1 y hy

/-- A mark is inserted behind those at its own distance. -/
theorem filter_insertByDistance (s : State) (r : SpliceRef) (d : Int) {l : List SpliceRef}
    (h : l.Pairwise (fun a b => s.distance a ≤ s.distance b)) :
    (insertByDistance s r l).filter (fun x => decide (s.distance x = d)) =
      l.filter (fun x => decide (s.distance x = d)) ++ [r].filter (fun x => decide (s.distance x = d)) := by
  induction l with
  | nil => rfl
  | cons x l ih =>
    obtain ⟨h1, h2⟩ := List.pairwise_cons.1 h
    unfold insertByDistance
    split
    · next hlt =>
      by_cases hd : s.distance r = d
      · have hnone : (x :: l).filter (fun y => decide (s.distance y = d)) = [] := by
          refine List.filter_eq_nil_iff.2 (fun y hy => ?_)
          have hle : s.distance x ≤ s.distance y := by
            rcases List.mem_cons.1 hy with rfl | hy
            · exact le_refl _
            · exact h1 y hy
          have hlt' : s.distance r < s.distance x := hlt
          simp only [decide_eq_true_eq]
          omega
        rw [List.filter_cons, hnone, List.nil_append, List.filter_singleton, if_pos (by simpa using hd)]
        simp [hd]
      · rw [List.filter_cons, if_neg (by simpa using hd)]
        simp [hd]
    · rw [List.filter_cons, List.filter_cons, ih h2]
      split <;> rfl

/-- The marks inserted one after the other are sorted, those at one distance in the order of their insertion. -/
theorem foldl_insertByDistance (s : State) (l : List SpliceRef) : ∀ a : List SpliceRef,
    a.Pairwise (fun a b => s.distance a ≤ s.distance b) →
    (l.foldl (fun l r => insertByDistance s r l) a).Pairwise (fun a b => s.distance a ≤ s.distance b)
    ∧ ∀ d, (l.foldl (fun l r => insertByDistance s r l) a).filter (fun r => decide (s.distance r = d)) =
        (a ++ l).filter (fun r => decide (s.distance r = d)) := by
  induction l with
  | nil => exact fun a h => ⟨h, fun d => by rw [List.append_nil]; rfl⟩
  | cons r l ih =>
    intro a h
    obtain ⟨hsorted, hfilter⟩ := ih _ (sorted_insertByDistance s r h)
    refine ⟨hsorted, fun d => (hfilter d).trans ?_⟩
    rw [List.filter_append, filter_insertByDistance s r d h, ← List.filter_append, ← List.filter_append, List.append_assoc]
    rfl

/-- Settles O53: retirement by its equation, ejection and purge part by part, the track order by its insertions. -/
theorem marksLeaveTheirTracks : Obligations.MarksLeaveTheirTracks := by
  refine ⟨fun n s => ⟨retire_of_none, fun sp hs => ⟨fun h => ?_, fun h => ?_⟩⟩, fun f n sp s hs hf => ?_, fun test s hn => ?_,
    fun _ _ => rfl, fun f s => ?_⟩
  · rw [retire_of_some hs, if_pos h]
  · rw [retire_of_some hs, if_neg h]
  · refine ⟨splice?_eject_self hs, fun m hm => splice?_eject_ne f s hm, folder_eject_self hs hf, fun g hg => folder_eject_ne hs hf hg, ?_⟩
    rw [← beside_eq_iff]
    exact (beside_retire n _).trans (beside_markLeaves .ejected n s)
  · refine ⟨fun n => ?_, folder_purge hn, beside_eq_iff.1 (beside_purge test s)⟩
    cases hx : s.splice? n with
    | none => exact splice?_purge_of_none hx
    | some x => exact splice?_purge_eq hn hx
  · obtain ⟨hsorted, hfilter⟩ := foldl_insertByDistance s (s.folder f).track [] List.Pairwise.nil
    exact ⟨perm_trackOrder s f, hsorted, hfilter⟩

end Sys2Proof.Machine
end

section
/-! START ACCEL, FIRE SPLICE and ABORT SPLICE by the state they find (R76, R77, R84, R86: StartAccelByState, FireSpliceByState,
AbortSpliceByState). -/

namespace Sys2Proof.Machine

/-! ### START ACCEL (R76, R77) -/

theorem isActive_iff (s : State) (st : StandIx) (i : Input) : s.isActive st i = true ↔ s.accepted st i = some 1 :=
  decide_eq_true_iff

/-- START ACCEL taken on an ARMED splice: the answer and the state, check by check. -/
theorem startArmed_eq (st : StandIx) (n : Nat) (sp : Splice) (s : State) : startArmed st n sp s =
    if (s.work st).startPending then (doneWith (.started n .armed), s)
    else if s.accepted st .driverHot = some 1 then
      (doneWith (.started n .armed), s.modWork st (fun w => { w with startPending := true }))
    else (if s.commitConsistent sp then doneWith (.started n .accel) else plain (.refused .paramConflict), commit st n sp s) := by
  unfold startArmed
  simp only [isActive_iff]
  cases s.commitConsistent sp <;> rfl

/-- Settles O30: the checks one after the other, an ARMED splice by `startArmed_eq`. -/
theorem startAccelByState : Obligations.StartAccelByState := by
  intro c stand s h
  simp only [exec, execStartAccel]
  rw [serve_of_takes _ h]
  cases standIx stand with
  | none => rfl
  | some st =>
    dsimp only
    by_cases hmode : byMode (s.stand st).queue.mode st c = false
    · simp only [if_pos hmode]
      rfl
    simp only [if_neg hmode]
    rcases s.activeSplice st with _ | ⟨n, sp⟩
    · rfl
    · dsimp only
      by_cases harmed : sp.state = .armed
      · rw [if_pos harmed, if_neg (not_not.2 harmed), startArmed_eq]
        split
        · rfl
        · split <;> rfl
      · rw [if_neg harmed, if_pos harmed]
        rfl

/-! ### FIRE SPLICE (R83, R84) -/

/-- Entry to WAITING with the folder known: the record, the matched flag, and the folder's wait list and occasion in one change. -/
theorem enterWaiting_eq {st : StandIx} {n : Nat} {sp : Splice} {s : State} {f : FolderIx} (hf : sp.folder = some f) :
    enterWaiting st n sp s =
      ((s.modSplice n (fun x => { x with state := .waiting })).modWork st (fun w => { w with matched := true })).modFolder f
        (fun F => { F with
          waits := insertWait { stand := st, splice := n, matched := true, margin := s.marginOf st sp } F.waits
          grantOccasions := F.grantOccasions + 1 }) := by
  unfold enterWaiting
  rw [hf]
  exact modFolder_modFolder _ f _ _

theorem enterWaiting_of_noFolder {st : StandIx} {n : Nat} {sp : Splice} {s : State} (hf : sp.folder = none) :
    enterWaiting st n sp s = s := by
  unfold enterWaiting
  rw [hf]

/-- Settles O32: the checks one after the other, then the splice's state; the entry to WAITING by `enterWaiting_eq`. -/
theorem fireSpliceByState : Obligations.FireSpliceByState := by
  intro c stand s h
  simp only [exec, execFireSplice]
  rw [serve_of_takes _ h]
  cases standIx stand with
  | none => rfl
  | some st =>
    dsimp only
    by_cases hmode : byMode (s.stand st).queue.mode st c = false
    · simp only [if_pos hmode]
      rfl
    simp only [if_neg hmode]
    rcases s.activeSplice st with _ | ⟨n, sp⟩
    · rfl
    · dsimp only
      cases hstate : sp.state with
      | matched =>
        cases hfolder : sp.folder with
        | none => exact congrArg (fun t => (.next (deliver _ _ t) : Res)) (enterWaiting_of_noFolder hfolder)
        | some f => exact congrArg (fun t => (.next (deliver _ _ t) : Res)) (enterWaiting_eq hfolder)
      | armed | accel | waiting | firing | pasting | cutting | braking | indexing | spindown | completed | aborted | failed => rfl

/-! ### ABORT SPLICE (R86) -/

theorem consoleOrPanel_eq_false (st : StandIx) (c : Client) : consoleOrPanel st c = false ↔ ¬ (c = .console ∨ c = .panel st) := by
  rw [← consoleOrPanel_iff, Bool.not_eq_true]

/-- Settles O33: the checks one after the other, then the splice's state, each giving up by its procedure (R85). -/
theorem abortSpliceByState : Obligations.AbortSpliceByState := by
  intro c stand s h
  simp only [exec, execAbortSplice, consoleOrPanel_eq_false]
  rw [serve_of_takes _ h]
  cases standIx stand with
  | none => rfl
  | some st =>
    dsimp only
    by_cases hclient : ¬ (c = .console ∨ c = .panel st)
    · simp only [if_pos hclient]
      rfl
    simp only [if_neg hclient]
    rcases s.activeSplice st with _ | ⟨n, sp⟩
    · rfl
    · dsimp only [giveUp]
      cases sp.state <;> rfl

end Sys2Proof.Machine
end

section
/-! A splice given up (R85, R87: GivingUpASplice). -/

namespace Sys2Proof.Machine

/-! ### The reel given back (R30) -/

theorem givenBack_free (plan : PlanEntry) (p : Profile) (used : Bool) (r : Reel) :
    (givenBack plan p used r).reservedBy = none
    ∧ ((givenBack plan p used r).state = .ready ∨ (givenBack plan p used r).state = .mounted) := by
  have hstate : ∀ x : Reel, (verify plan p x).state = .ready ∨ (verify plan p x).state = .mounted := fun x => by
    unfold verify
    dsimp only
    split <;> simp
  refine ⟨?_, hstate _⟩
  cases used <;> rfl

/-- A reel given back is free. -/
theorem free_of_giveBack {st : StandIx} {used : Bool} {k : Nat} {s : State} {r : Reel} (h : (giveBack st used k s).reel? k = some r) :
    r.reservedBy = none ∧ (r.state = .ready ∨ r.state = .mounted) := by
  rw [giveBack_eq, reel?_modReel, Option.map_eq_some_iff] at h
  obtain ⟨x, _, rfl⟩ := h
  exact givenBack_free _ _ _ x

/-! ### The immediate abort (R85) -/

theorem splice?_of_immediateAbort {st : StandIx} {n : Nat} {sp : Splice} {cause : EndCause} {s : State} {x : Splice}
    (hs : s.splice? n = some sp) (hx : (immediateAbort st n sp cause s).splice? n = some x) :
    x = { sp with state := .aborted, ended := some s.link.time, cause := some (sp.cause.getD cause) } := by
  unfold immediateAbort at hx
  rw [splice?_evalRisk] at hx
  have hended := splice?_of_retire hx
  rw [splice?_giveBack, splice?_endSplice, splice?_setCause, hs] at hended
  exact (Option.some.inj hended).symm

theorem holds_immediateAbort (st : StandIx) (n : Nat) (sp : Splice) (cause : EndCause) (s : State) :
    ((immediateAbort st n sp cause s).stand st).queue.Holds .spliceVoid := by
  refine holds_evalRisk ?_
  rw [stand_retire, stand_giveBack, queue_endSplice]
  exact Queue.holds_place _ _ _ _ _

theorem free_of_immediateAbort {st : StandIx} {n : Nat} {sp : Splice} {cause : EndCause} {s : State} {r : Reel}
    (hr : (immediateAbort st n sp cause s).reel? sp.incoming = some r) :
    r.reservedBy = none ∧ (r.state = .ready ∨ r.state = .mounted) := by
  unfold immediateAbort at hr
  rw [reel?_evalRisk, reel?_retire] at hr
  exact free_of_giveBack hr

/-! ### The abort to spin-down (R85, R87) -/

theorem splice?_enterSpindown (st : StandIx) (n : Nat) (o : SpinOutcome) (s : State) :
    (enterSpindown st n o s).splice? n = (s.splice? n).map (fun x => { x with state := .spindown }) :=
  splice?_setSpliceState n .spindown s

theorem splice?_abortToSpindown (st : StandIx) (n : Nat) (sp : Splice) (cause : EndCause) (s : State) :
    (abortToSpindown st n sp cause s).splice? n =
      (s.splice? n).map (fun x => { x with state := .spindown, cause := some (x.cause.getD cause) }) := by
  unfold abortToSpindown
  rw [splice?_enterSpindown, splice?_leaveArbiter, splice?_giveBack, splice?_setCause, Option.map_map]
  rfl

/-- The working state in SPINDOWN (R87, log 20). -/
theorem work_enterSpindown (st : StandIx) (n : Nat) (o : SpinOutcome) (s : State) :
    (enterSpindown st n o s).work st = { s.work st with
      outcome := some o, demand := 0, accelTimer := none, revolution := none, goodCount := 0, matched := false,
      confirmTimer := none, stopTimer := some ((s.stand st).profile.settings.stopTimeout * 1000), quietTimer := some 2000 } :=
  work_modWork _ st _

theorem work_abortToSpindown (st : StandIx) (n : Nat) (sp : Splice) (cause : EndCause) (s : State) :
    (abortToSpindown st n sp cause s).work st = { s.work st with
      outcome := some .aborted, demand := 0, accelTimer := none, revolution := none, goodCount := 0, matched := false,
      confirmTimer := none, stopTimer := some ((s.stand st).profile.settings.stopTimeout * 1000), quietTimer := some 2000 } := by
  unfold abortToSpindown
  rw [work_enterSpindown, work_leaveArbiter, stand_leaveArbiter, work_giveBack, stand_giveBack, work_setCause, stand_setCause]

theorem folder_abortToSpindown (st : StandIx) (n : Nat) (sp : Splice) (cause : EndCause) (s : State) (f : FolderIx) :
    (abortToSpindown st n sp cause s).folder f =
      (leaveArbiter st sp (giveBack st false sp.incoming (setCause n cause s))).folder f :=
  folder_setSpliceState n .spindown _ f

/-- A waiter leaves its folder's list (R85). -/
theorem not_mem_waits_abortToSpindown {st : StandIx} {n : Nat} {sp : Splice} {cause : EndCause} {s : State} {f : FolderIx}
    (hf : sp.folder = some f) (hw : sp.state = .waiting) :
    ∀ e ∈ ((abortToSpindown st n sp cause s).folder f).waits, e.stand ≠ st := by
  intro e he
  rw [folder_abortToSpindown, leaveArbiter, hf] at he
  simp only [if_pos hw, folder_leaveWaits, if_true] at he
  simpa using (List.mem_filter.1 he).2

/-- A firing splice's slot is free again, an occasion for the arbiter (R85, R120). -/
theorem folder_abortToSpindown_of_firing {st : StandIx} {n : Nat} {sp : Splice} {cause : EndCause} {s : State} {f : FolderIx}
    (hf : sp.folder = some f) (hfire : sp.state = .firing) :
    (abortToSpindown st n sp cause s).folder f =
      { s.folder f with slot := none, grantOccasions := (s.folder f).grantOccasions + 1 } := by
  rw [folder_abortToSpindown, leaveArbiter, hf]
  simp only [hfire, reduceCtorEq, if_false, holdsSlot, if_true, folder_releaseSlot, folder_giveBack, folder_setCause]

theorem reel?_abortToSpindown (st : StandIx) (n : Nat) (sp : Splice) (cause : EndCause) (s : State) (k : Nat) :
    (abortToSpindown st n sp cause s).reel? k = (giveBack st false sp.incoming (setCause n cause s)).reel? k := by
  have hleave : ∀ t, (leaveArbiter st sp t).reel? k = t.reel? k := fun t => by
    unfold leaveArbiter
    (repeat' split) <;> simp
  exact (reel?_setSpliceState n .spindown _ k).trans (hleave _)

/-! ### By the state of the splice -/

theorem giveUp_of_armed {sp : Splice} (h : sp.state = .armed) (st : StandIx) (n : Nat) (cause : EndCause) (s : State) :
    giveUp st n sp cause s = immediateAbort st n sp cause s := by
  rw [giveUp, h]

theorem giveUp_of_driven {sp : Splice} (h : sp.state = .accel ∨ sp.state = .matched ∨ sp.state = .waiting ∨ sp.state = .firing)
    (st : StandIx) (n : Nat) (cause : EndCause) (s : State) : giveUp st n sp cause s = abortToSpindown st n sp cause s := by
  rcases h with h | h | h | h <;> rw [giveUp, h]

/-- Settles O34: from ARMED the immediate abort part by part, from ACCEL to FIRING the abort to spin-down. -/
theorem givingUpASplice : Obligations.GivingUpASplice := by
  intro st n sp cause s hact _ t
  obtain ⟨_, hs⟩ := activeSplice_eq_some.1 hact
  refine ⟨fun harmed => ?_, fun hdriven => ?_, fun hstate r hr => ?_⟩
  · have ht : t = immediateAbort st n sp cause s := giveUp_of_armed harmed st n cause s
    rw [ht]
    refine ⟨active_immediateAbort st n sp cause s, fun x hx => ?_, holds_immediateAbort st n sp cause s⟩
    rw [splice?_of_immediateAbort hs hx]
    exact ⟨rfl, rfl, rfl⟩
  · have ht : t = abortToSpindown st n sp cause s := giveUp_of_driven hdriven st n cause s
    rw [ht]
    refine ⟨?_, work_abortToSpindown st n sp cause s, fun hw f hf => not_mem_waits_abortToSpindown hf hw, fun hfire f hf => ?_⟩
    · rw [splice?_abortToSpindown, hs]
      rfl
    · rw [folder_abortToSpindown_of_firing hf hfire]
      exact ⟨rfl, rfl⟩
  · rcases hstate with harmed | hdriven
    · rw [show t = immediateAbort st n sp cause s from giveUp_of_armed harmed st n cause s] at hr
      exact free_of_immediateAbort hr
    · rw [show t = abortToSpindown st n sp cause s from giveUp_of_driven hdriven st n cause s, reel?_abortToSpindown] at hr
      exact free_of_giveBack hr

end Sys2Proof.Machine
end

section
/-! The triggers of the commit and of WAITING, the margins and the order of a wait list (R75, R76, R83, R115, R116, R118:
TriggersAndMarginsAreJudged). -/

namespace Sys2Proof.Machine

/-! ### The commit triggers (R75, R76) -/

theorem isActive_eq_false (s : State) (st : StandIx) (i : Input) : s.isActive st i = false ↔ s.accepted st i ≠ some 1 := by
  rw [← Bool.not_eq_true, isActive_iff]

theorem autoTrigger_iff (s : State) (st : StandIx) (sp : Splice) : s.autoTrigger st sp = true ↔
    sp.trigger = .auto ∧ ∃ d : Nat, s.runningDiameter st = some d ∧ (d : Int) ≤ (s.tentative st sp.explicit).accelStart := by
  unfold State.autoTrigger
  cases s.runningDiameter st <;> simp

theorem judgeStart_of_idle {st : StandIx} {s : State} (h : s.activeSplice st = none) (pending : Bool) :
    judgeStart pending st s = s := by
  unfold judgeStart
  rw [h]

theorem judgeStart_of_active {st : StandIx} {s : State} {n : Nat} {sp : Splice} (h : s.activeSplice st = some (n, sp))
    (pending : Bool) : judgeStart pending st s =
      if sp.state = .armed ∧ s.accepted st .driverHot ≠ some 1
          ∧ ((sp.trigger = .auto
              ∧ ∃ d : Nat, s.runningDiameter st = some d ∧ (d : Int) ≤ (s.tentative st sp.explicit).accelStart)
            ∨ (pending = true ∧ (s.work st).startPending = true)) then
        commit st n sp s
      else s := by
  unfold judgeStart
  rw [h]
  exact if_congr (and_congr_right' (and_congr (isActive_eq_false _ _ _) (or_congr_left (autoTrigger_iff _ _ _)))) rfl rfl

/-! ### The trigger of WAITING (R83) -/

theorem judgeWaiting_of_idle {st : StandIx} {s : State} (h : s.activeSplice st = none) : judgeWaiting st s = s := by
  unfold judgeWaiting
  rw [h]

theorem judgeWaiting_of_met {st : StandIx} {s : State} {n : Nat} {sp : Splice} (h : s.activeSplice st = some (n, sp))
    (hstate : sp.state = .matched) (hauto : sp.trigger = .auto) {d : Nat} {limit : Int} (hd : s.runningDiameter st = some d)
    (hlimit : sp.params.spliceDiameter = some limit) (hle : (d : Int) ≤ limit) :
    judgeWaiting st s = enterWaiting st n sp s := by
  unfold judgeWaiting
  rw [h]
  dsimp only
  rw [hd, hlimit]
  exact if_pos ⟨hstate, hauto, hle⟩

theorem judgeWaiting_of_not_met {st : StandIx} {s : State} {n : Nat} {sp : Splice} (h : s.activeSplice st = some (n, sp))
    (hno : ¬ (sp.state = .matched ∧ sp.trigger = .auto
      ∧ ∃ (d : Nat) (limit : Int), s.runningDiameter st = some d ∧ sp.params.spliceDiameter = some limit ∧ (d : Int) ≤ limit)) :
    judgeWaiting st s = s := by
  unfold judgeWaiting
  rw [h]
  dsimp only
  split
  · next d limit hd hlimit =>
    exact if_neg (fun ⟨hstate, hauto, hle⟩ => hno ⟨hstate, hauto, d, limit, hd, hlimit, hle⟩)
  · rfl

/-! ### The margins (R116) -/

theorem marginOf_of_some {st : StandIx} {sp : Splice} {s : State} {d : Nat} {l : Int} (hd : s.runningDiameter st = some d)
    (hl : sp.params.lastChance = some l) : s.marginOf st sp = some ((d : Int) - l) := by
  unfold State.marginOf
  rw [hd, hl]

theorem marginOf_of_none {st : StandIx} {sp : Splice} {s : State}
    (h : s.runningDiameter st = none ∨ sp.params.lastChance = none) : s.marginOf st sp = none := by
  unfold State.marginOf
  rcases h with h | h <;> rw [h]
  cases s.runningDiameter st <;> rfl

theorem refreshMargin_of_idle {st : StandIx} {s : State} (h : s.activeSplice st = none) : refreshMargin st s = s := by
  unfold refreshMargin
  rw [h]

/-- A waiter's margin that has changed gives it its place again, an occasion for the arbiter (R118). -/
theorem refreshMargin_of_waiter {st : StandIx} {s : State} {n : Nat} {sp : Splice} {f : FolderIx} {e : WaitEntry}
    (h : s.activeSplice st = some (n, sp)) (hf : sp.folder = some f)
    (he : (s.folder f).waits.find? (fun e => decide (e.stand = st)) = some e) : refreshMargin st s =
      if e.margin = s.marginOf st sp then s
      else s.modFolder f (fun F => { F with
        waits := insertWait { e with margin := s.marginOf st sp } (F.waits.filter (fun x => !decide (x.stand = st)))
        grantOccasions := F.grantOccasions + 1 }) := by
  unfold refreshMargin
  rw [h]
  dsimp only
  rw [hf]
  dsimp only
  rw [he]
  exact ite_congr rfl (fun _ => rfl) (fun _ => modFolder_modFolder s f _ _)

theorem refreshMargin_of_not_waiter {st : StandIx} {s : State} {n : Nat} {sp : Splice} (h : s.activeSplice st = some (n, sp))
    (hno : ∀ f, sp.folder = some f → ∀ e ∈ (s.folder f).waits, e.stand ≠ st) : refreshMargin st s = s := by
  unfold refreshMargin
  rw [h]
  dsimp only
  split
  · next f hf =>
    rw [List.find?_eq_none.2 (fun e he => by simpa using hno f hf e he)]
  · rfl

/-! ### The order of a wait list (R115) -/

theorem before_iff (a b : WaitEntry) : a.before b = true ↔
    match a.margin, b.margin with
    | some x, some y => x < y ∨ (x = y ∧ a.stand < b.stand)
    | some _, none => True
    | none, some _ => False
    | none, none => a.stand < b.stand := by
  unfold WaitEntry.before
  cases a.margin <;> cases b.margin <;> simp

/-- Settles O52: each trigger by its test, the margins, and the list by the order of its entries. -/
theorem triggersAndMarginsAreJudged : Obligations.TriggersAndMarginsAreJudged := by
  refine ⟨fun st pending s => ⟨fun h => judgeStart_of_idle h pending, fun n sp h => ⟨fun hmet => ?_, fun hno => ?_⟩⟩,
    fun st s => ⟨judgeWaiting_of_idle, fun n sp h => ⟨judgeWaiting_of_not_met h, fun hmet f hf => ?_⟩⟩,
    fun st sp s => ⟨fun d l => marginOf_of_some, marginOf_of_none⟩,
    fun st s => ⟨fun n sp f e => refreshMargin_of_waiter, refreshMargin_of_idle, fun n sp => refreshMargin_of_not_waiter⟩,
    fun e l => ?_⟩
  · exact (judgeStart_of_active h pending).trans (if_pos hmet)
  · exact (judgeStart_of_active h pending).trans (if_neg hno)
  · obtain ⟨hstate, hauto, d, limit, hd, hlimit, hle⟩ := hmet
    rw [judgeWaiting_of_met h hstate hauto hd hlimit hle]
    exact enterWaiting_eq hf
  · intro first
    have hfirst : ∀ a b : WaitEntry, a.before b = true ↔ first a b := before_iff
    refine ⟨perm_insertWait e l, fun hsorted hstand => ?_⟩
    exact (sorted_insertWait (hsorted.imp (hfirst _ _).2) hstand).imp (hfirst _ _).1

end Sys2Proof.Machine
end

section
/-! Accepted changes taken by their blocks (R76, R95, R99, R102, R103, R134, R142, log 3: AcceptedChangesAreTaken). -/

namespace Sys2Proof.Machine

/-! ### How a change is taken (log 3) -/

/-- The first change handed for the input is taken if it has the command's level. -/
theorem takeChange_of_handed {st : StandIx} {i : Input} {s : State} {h : Handed}
    (hh : (s.stand st).field.handed.find? (fun h => decide (h.input = i)) = some h) (level : Fin 4) (effect : State → State) :
    takeChange st i level effect s =
      if h.level = level then effect (s.modField st (fun x => { x with handed := x.handed.erase h })) else s := by
  unfold takeChange
  dsimp only
  rw [hh]

section
variable {st : StandIx} {i : Input} {level : Fin 4} {effect : State → State} {s : State}
  (hh : (s.stand st).field.handed.find? (fun h => decide (h.input = i)) = none)
include hh

theorem takeChange_of_accepted (ha : ((s.stand st).field.input i).accepted = some level) :
    takeChange st i level effect s = s := by
  unfold takeChange
  dsimp only
  rw [hh]
  exact if_pos ha

/-- With nothing handed the command makes the acceptance itself. -/
theorem takeChange_of_not_accepted (ha : ((s.stand st).field.input i).accepted ≠ some level) : takeChange st i level effect s =
    if handsOn i level ((s.stand st).field.input i).accepted.isNone then effect (acceptInput st i level s)
    else settleIndex st i (acceptInput st i level s) := by
  unfold takeChange
  dsimp only
  rw [hh]
  exact if_neg ha

end

/-! ### The acceptance (R134) -/

theorem modField_congr {s : State} {st : StandIx} {f g : Field → Field} (h : f (s.stand st).field = g (s.stand st).field) :
    s.modField st f = s.modField st g := by
  unfold State.modField State.modStand
  dsimp only
  rw [h]

/-- A later acceptance is entered in the change set. -/
theorem acceptInput_of_later {s : State} {st : StandIx} {i : Input} (h : ((s.stand st).field.input i).accepted ≠ none)
    (level : Fin 4) : acceptInput st i level s = s.modField st (fun x =>
      (x.setInput i { accepted := some level, candidate := none, run := 0 }).enter i level) :=
  modField_congr (if_pos (Option.isSome_iff_ne_none.2 h))

/-- A first acceptance establishes the level. -/
theorem acceptInput_of_first {s : State} {st : StandIx} {i : Input} (h : ((s.stand st).field.input i).accepted = none)
    (level : Fin 4) : acceptInput st i level s = s.modField st (fun x =>
      x.setInput i { accepted := some level, candidate := none, run := 0 }) :=
  modField_congr (if_neg (by rw [h]; exact Bool.false_ne_true))

/-- A first acceptance is handed on for the star at any code and for DRIVER-HOT at active (R134). -/
theorem handsOn_first_iff (i : Input) (level : Fin 4) : handsOn i level true = true ↔ i = .star ∨ (i = .driverHot ∧ level = 1) := by
  cases i <;> simp [handsOn]

theorem settleIndex_eq (st : StandIx) (i : Input) (s : State) :
    settleIndex st i s = if i = .knifeHome ∨ i = .safetyGate then updateIndexReq st s else s := by
  unfold settleIndex
  cases i <;> rfl

/-! ### Paster, knife, gate and driver -/

theorem updateIndexReq_of_indexing {st : StandIx} {s : State} (h : s.spliceState st = some .indexing) :
    let want := decide (s.accepted st .safetyGate = some 1) && decide (s.accepted st .knifeHome = some 1)
    updateIndexReq st s =
      if want = (s.work st).indexReq then s
      else s.modWork st (fun w => { w with
        indexReq := want
        indexTimer := if want then some ((s.stand st).profile.settings.indexTimeout * 1000) else none }) := by
  unfold updateIndexReq
  exact if_pos h

/-- A change of SAFETY-GATE taken in INDEXING: found open it is reported once (R103). -/
theorem gateChange_eq (st : StandIx) (closed : Bool) (s : State) : (if closed then s else gateFoundOpen st s) =
    if closed = false ∧ (s.work st).gateReported = false then
      (raise st .safetyGateOpen s).modWork st (fun w => { w with gateReported := true })
    else s := by
  unfold gateFoundOpen
  cases closed with
  | true => rfl
  | false => cases (s.work st).gateReported <;> rfl

/-- Each of the changes of paster, knife, gate and driver is taken with its effect. -/
theorem exec_actuatorChanges {st : StandIx} {s : State} (h : s.runs) :
    exec (.pasterEngagedActive st) s = .next (takeChange st .pasterEngaged 1 (fun s =>
      if s.spliceState st = some .pasting then
        s.modWork st (fun w => { w with confirmed := true, confirmTimer := none })
      else s) s)
    ∧ exec (.pasterHomeActive st) s = .next (takeChange st .pasterHome 1 (fun s =>
        match s.activeSplice st with
        | some (n, sp) => if sp.state = .braking ∧ (s.work st).revQuietTimer = none then endBraking st n s else s
        | none => s) s)
    ∧ exec (.knifeHomeActive st) s = .next (takeChange st .knifeHome 1 (fun s =>
        updateIndexReq st (s.modWork st (fun w => { w with knifeHomeTimer := none }))) s)
    ∧ (∀ closed, exec (.safetyGateChange st closed) s = .next (takeChange st .safetyGate (if closed then 1 else 0) (fun s =>
        if s.spliceState st = some .indexing then
          updateIndexReq st (
            if closed = false ∧ (s.work st).gateReported = false then
              (raise st .safetyGateOpen s).modWork st (fun w => { w with gateReported := true })
            else s)
        else s) s))
    ∧ exec (.driverHotActive st) s = .next (takeChange st .driverHot 1 (fun s =>
        raise st .driverHot (s.modField st (fun x =>
          { x with paster := x.paster.pulledIn, knife := x.knife.pulledIn, brake := x.brake.pulledIn }))) s)
    ∧ exec (.driverHotInactive st) s = .next (takeChange st .driverHot 0 (judgeStart true st) s) := by
  refine ⟨onDevice_of_runs _ h, onDevice_of_runs _ h, onDevice_of_runs _ h, fun closed => ?_, onDevice_of_runs _ h,
    onDevice_of_runs _ h⟩
  simp only [exec, execSafetyGateChange]
  rw [onDevice_of_runs _ h]
  simp only [gateChange_eq]
  rfl

/-- Settles O43: a change by what is handed and accepted, then the effects of paster, knife, gate and driver. -/
theorem acceptedChangesAreTaken : Obligations.AcceptedChangesAreTaken := by
  refine ⟨fun st i level effect s => ⟨fun h hh => takeChange_of_handed hh level effect, takeChange_of_accepted,
      fun hh hne hlater hon => ?_, fun hh hne hlater hoff => ?_, fun hh hfirst hon => ?_, fun hh hfirst hoff => ?_⟩,
    handsOn_first_iff, settleIndex_eq, fun st s => exec_actuatorChanges, fun st s => updateIndexReq_of_indexing⟩
  · rw [takeChange_of_not_accepted hh hne, Option.isNone_eq_false_iff.2 (Option.isSome_iff_ne_none.2 hlater), if_pos hon,
      acceptInput_of_later hlater]
  · rw [takeChange_of_not_accepted hh hne, Option.isNone_eq_false_iff.2 (Option.isSome_iff_ne_none.2 hlater),
      if_neg (by simp [hoff]), acceptInput_of_later hlater]
  · rw [takeChange_of_not_accepted hh (by simp [hfirst]), Option.isNone_iff_eq_none.2 hfirst, if_pos hon,
      acceptInput_of_first hfirst]
  · rw [takeChange_of_not_accepted hh (by simp [hfirst]), Option.isNone_iff_eq_none.2 hfirst, if_neg (by simp [hoff]),
      acceptInput_of_first hfirst]

end Sys2Proof.Machine
end

section
/-! TACH COUNT: the counts, and the points of the paste that the fire count reaches (R80, R87, R91, R94 to R98, R100, R101:
TachCountReachesThePoints). -/

namespace Sys2Proof.Machine

/-! ### The counts (R80, R87, R91) -/

/-- A change of the working state that keeps the active splice keeps its record. -/
theorem activeSplice_modWork_of_active {s : State} {st : StandIx} {f : Working → Working}
    (hf : (f (s.work st)).active = (s.work st).active) : (s.modWork st f).activeSplice st = s.activeSplice st := by
  unfold State.activeSplice
  rw [work_modWork, hf]
  rfl

theorem tachCount_eq (d : Direction) (w : Working) :
    let step : Int := match d with
      | .forward => 1
      | .reverse => -1
    w.tachCount d = { w with
      revolution := w.revolution.map (fun r => { r with tach := r.tach + step })
      fireCount := w.fireCount.map (fun c => c + step) } := by
  cases d <;> rfl

/-- The counts moved and the quiet timer of SPINDOWN restarted are one change of the working state. -/
theorem restartQuiet_tachCount (st : StandIx) (d : Direction) (s : State) :
    restartQuiet st (s.modWork st (Working.tachCount d)) = s.modWork st (fun w =>
      { w.tachCount d with quietTimer := if s.spliceState st = some .spindown then some 2000 else w.quietTimer }) := by
  have hstate : (s.modWork st (Working.tachCount d)).spliceState st = s.spliceState st :=
    congrArg (Option.map _) (activeSplice_modWork_of_active rfl)
  unfold restartQuiet
  rw [hstate]
  split
  · exact modWork_modWork s st _ _
  · rfl

theorem exec_tachCount {s : State} (h : s.runs) (st : StandIx) (d : Direction) :
    exec (.tachCount st d) s = .next (judgePoints st (restartQuiet st (s.modWork st (Working.tachCount d)))) := by
  simp only [exec, execTachCount, onDevice_of_runs _ h]

/-! ### The points reached -/

theorem reached_iff {s : State} {st : StandIx} {c : Int} {p : FirePoints} (hc : (s.work st).fireCount = some c)
    (hp : (s.work st).points = some p) (pick : FirePoints → Int) : s.reached st pick = true ↔ pick p ≤ c := by
  unfold State.reached
  rw [hc, hp]
  exact decide_eq_true_iff

section
variable {s : State} {st : StandIx} {n : Nat} {sp : Splice} {c : Int} {p : FirePoints}
  (h : s.activeSplice st = some (n, sp)) (hc : (s.work st).fireCount = some c) (hp : (s.work st).points = some p)
include h hc hp

theorem judgeFirePoint_eq : judgeFirePoint st s = if sp.state = .firing ∧ p.fire ≤ c then firePoint st n s else s := by
  unfold judgeFirePoint
  rw [h]
  exact if_congr (and_congr_right' (reached_iff hc hp _)) rfl rfl

theorem judgeFront_eq : judgeFront st s =
    if sp.state = .pasting ∧ (s.work st).markPlaced = false ∧ p.front ≤ c then pasteFront st n sp s else s := by
  unfold judgeFront
  rw [h]
  exact if_congr (and_congr_right' (and_congr_right' (reached_iff hc hp _))) rfl rfl

theorem judgeKnifePoint_eq : judgeKnifePoint st s =
    if sp.state = .pasting ∧ p.knife ≤ c then
      if (s.work st).confirmed then knifePoint st n sp s else pasteNotConfirmed st n sp s
    else s := by
  unfold judgeKnifePoint
  rw [h]
  exact if_congr (and_congr_right' (reached_iff hc hp _)) rfl rfl

end

/-! ### The fire point (R94, R95) -/

theorem energise_drive (a : Actuator) (hot : Bool) (ms : Nat) : (a.energise hot ms).drive ≠ .off := by
  unfold Actuator.energise
  split
  · cases hot <;> nofun
  · next hd => rw [hd]; nofun
  · next hd => rw [hd]; nofun

theorem splice?_firePoint (st : StandIx) (n : Nat) (s : State) :
    (firePoint st n s).splice? n = (s.splice? n).map (fun x => { x with state := .pasting }) := by
  unfold firePoint
  dsimp only
  rw [splice?_evalRisk, splice?_setSpliceState, splice?_modWork, splice?_energisePaster]

theorem work_firePoint (st : StandIx) (n : Nat) (s : State) : (firePoint st n s).work st = { s.work st with
    confirmed := s.isActive st .pasterEngaged
    confirmTimer := if s.isActive st .pasterEngaged then none else some ((s.stand st).profile.settings.pasterLead + 80)
    revolution := none } := by
  unfold firePoint
  dsimp only
  rw [work_evalRisk, work_setSpliceState, work_modWork, work_energisePaster]

theorem paster_firePoint (st : StandIx) (n : Nat) (s : State) : ((firePoint st n s).stand st).field.paster.drive ≠ .off := by
  unfold firePoint
  dsimp only
  rw [field_evalRisk, stand_setSpliceState, stand_modWork, energisePaster, stand_modField]
  exact energise_drive _ _ _

theorem folder_firePoint (st : StandIx) (n : Nat) (s : State) (f : FolderIx) : (firePoint st n s).folder f = s.folder f := by
  unfold firePoint
  dsimp only
  rw [folder_evalRisk, folder_setSpliceState, folder_modWork, folder_energisePaster]

/-! ### The front (R96, R123) -/

theorem splice?_pasteFront (st : StandIx) (n : Nat) (sp : Splice) (s : State) :
    (pasteFront st n sp s).splice? n = (s.splice? n).map (fun x => { x with
      pasted := some s.link.time
      mark := { state := .onTrack, path := some (s.stand st).plan.path
                remaining := some ((s.stand st).plan.path : Int), waste := 0 } }) := by
  unfold pasteFront
  dsimp only
  split
  · rw [splice?_grantOccasion]
    exact splice?_modSplice s n _
  · exact splice?_modSplice s n _

theorem work_pasteFront (st : StandIx) (n : Nat) (sp : Splice) (s : State) :
    (pasteFront st n sp s).work st = { s.work st with markPlaced := true } := by
  unfold pasteFront
  dsimp only
  split
  · rw [work_grantOccasion, work_modFolder, work_modWork, work_modSplice]
  · rw [work_modWork, work_modSplice]

theorem folder_pasteFront {st : StandIx} {n : Nat} {sp : Splice} {s : State} {f : FolderIx} (hf : sp.folder = some f) :
    (pasteFront st n sp s).folder f = { s.folder f with
      track := (s.folder f).track ++ [{ splice := n, stand := st }]
      grantOccasions := (s.folder f).grantOccasions + 1 } := by
  unfold pasteFront
  rw [hf]
  dsimp only
  rw [folder_grantOccasion, if_pos rfl, folder_modFolder]
  rfl

/-! ### The knife point (R97, R100, R101) -/

theorem energiseKnife_eq (st : StandIx) (s : State) :
    let set := (s.stand st).profile.settings
    let hot := decide (s.accepted st .driverHot = some 1)
    energiseKnife st s = s.modField st (fun x => { x with
      knife := if x.knife.drive ≠ .off then x.knife
        else if hot then { drive := .hold, pullInTimer := none }
        else { drive := .pullIn, pullInTimer := some (min set.pullIn set.knifePulse) }
      knifePulse := some set.knifePulse }) := by
  have henergise : ∀ (a : Actuator) (hot : Bool) (ms : Nat), a.energise hot ms =
      if a.drive ≠ .off then a else if hot then { drive := .hold, pullInTimer := none }
      else { drive := .pullIn, pullInTimer := some ms } := fun a hot ms => by
    unfold Actuator.energise
    cases a.drive <;> rfl
  unfold energiseKnife
  simp only [henergise]
  rfl

/-- The knife's pulse started, the carry check started, and CUTTING (R97). -/
def knifeStruck (st : StandIx) (n : Nat) (s : State) : State :=
  evalRisk st (setSpliceState n .cutting ((energiseKnife st s).modWork st (fun w =>
    { w with carryDistance := some (s.stand st).profile.settings.carry, carryCount := 0 })))

theorem field_knifeStruck (st : StandIx) (n : Nat) (s : State) : ((knifeStruck st n s).stand st).field =
    { (s.stand st).field with
      knife := (s.stand st).field.knife.energise (s.isActive st .driverHot)
        (min (s.stand st).profile.settings.pullIn (s.stand st).profile.settings.knifePulse)
      knifePulse := some (s.stand st).profile.settings.knifePulse } := by
  unfold knifeStruck
  rw [field_evalRisk, stand_setSpliceState, stand_modWork, energiseKnife, stand_modField]

theorem splice?_knifeStruck (st : StandIx) (n : Nat) (s : State) :
    (knifeStruck st n s).splice? n = (s.splice? n).map (fun x => { x with state := .cutting }) := by
  unfold knifeStruck
  rw [splice?_evalRisk, splice?_setSpliceState, splice?_modWork, splice?_energiseKnife]

theorem work_knifeStruck (st : StandIx) (n : Nat) (s : State) : (knifeStruck st n s).work st =
    { s.work st with carryDistance := some (s.stand st).profile.settings.carry, carryCount := 0 } := by
  unfold knifeStruck
  rw [work_evalRisk, work_setSpliceState, work_modWork, work_energiseKnife]

/-- With the web lost the splice is not carried at once. -/
theorem knifePoint_eq (st : StandIx) (n : Nat) (sp : Splice) (s : State) : knifePoint st n sp s =
    if s.accepted st .webPresent = some 1 then knifeStruck st n s
    else notCarried st n { sp with state := .cutting } ((knifeStruck st n s).modField st Field.takeWebLoss) := by
  have hweb : (knifeStruck st n s).isActive st .webPresent = true ↔ s.accepted st .webPresent = some 1 := by
    rw [isActive_iff, State.accepted, field_knifeStruck]
    rfl
  exact if_congr hweb rfl rfl

/-! ### The loss that the knife point answers for (log 33) -/

/-- The last loss handed on and not taken yet is withdrawn. -/
theorem takeWebLoss_of_last {x : Field} {before after : List Handed}
    (h : x.handed = before ++ { input := .webPresent, level := 0 } :: after) (hlast : (⟨.webPresent, 0⟩ : Handed) ∉ after) :
    x.takeWebLoss = { x with handed := before ++ after } := by
  unfold Field.takeWebLoss
  rw [h, List.reverse_append, List.reverse_cons, List.append_assoc, List.erase_append_right _ (by simpa using hlast)]
  simp

theorem takeWebLoss_of_none {x : Field} (h : (⟨.webPresent, 0⟩ : Handed) ∉ x.handed) : x.takeWebLoss = x := by
  unfold Field.takeWebLoss
  rw [List.erase_of_not_mem (by simpa using h), List.reverse_reverse]

/-- Settles O48: the counts in one change, each point by its test and its effect, the loss withdrawn by its place in the list. -/
theorem tachCountReachesThePoints : Obligations.TachCountReachesThePoints := by
  refine ⟨fun st d s h => ?_, fun st n sp c p s hact hc hp => ⟨fun hno => ?_, fun hfire hle => ?_, fun hno => ?_,
    fun hpaste hmark hle => ?_, fun hno => ?_, fun hpaste hle hconf => ?_, fun hpaste hle hconf hweb => ?_,
    fun hpaste hle hconf hweb => ?_⟩, fun x before after => takeWebLoss_of_last, fun x => takeWebLoss_of_none,
    fun st s => energiseKnife_eq st s⟩
  · rw [exec_tachCount h, restartQuiet_tachCount]
    simp only [tachCount_eq]
    rfl
  · refine (judgeFirePoint_eq hact hc hp).trans (if_neg (fun ⟨hfire, hle⟩ => ?_))
    exact hno.elim (fun k => k hfire) (fun k => not_lt.2 hle k)
  · intro t engaged
    have ht : t = firePoint st n s := (judgeFirePoint_eq hact hc hp).trans (if_pos ⟨hfire, hle⟩)
    rw [ht, work_firePoint, splice?_firePoint, (activeSplice_eq_some.1 hact).2]
    exact ⟨rfl, rfl, rfl, paster_firePoint st n s, folder_firePoint st n s⟩
  · refine (judgeFront_eq hact hc hp).trans (if_neg (fun ⟨hpaste, hmark, hle⟩ => ?_))
    rcases hno with k | k | k
    · exact k hpaste
    · exact Bool.false_ne_true (hmark.symm.trans k)
    · exact not_lt.2 hle k
  · intro t
    have ht : t = pasteFront st n sp s := (judgeFront_eq hact hc hp).trans (if_pos ⟨hpaste, hmark, hle⟩)
    rw [ht, work_pasteFront, splice?_pasteFront, (activeSplice_eq_some.1 hact).2]
    exact ⟨rfl, rfl, fun f => folder_pasteFront⟩
  · refine (judgeKnifePoint_eq hact hc hp).trans (if_neg (fun ⟨hpaste, hle⟩ => ?_))
    exact hno.elim (fun k => k hpaste) (fun k => not_lt.2 hle k)
  · rw [judgeKnifePoint_eq hact hc hp, if_pos ⟨hpaste, hle⟩, hconf]
    rfl
  · intro t
    have ht : t = knifeStruck st n s := by
      show judgeKnifePoint st s = _
      rw [judgeKnifePoint_eq hact hc hp, if_pos ⟨hpaste, hle⟩, if_pos hconf, knifePoint_eq, if_pos hweb]
    rw [ht, work_knifeStruck, splice?_knifeStruck, field_knifeStruck, (activeSplice_eq_some.1 hact).2]
    exact ⟨rfl, rfl, rfl, rfl, energise_drive _ _ _⟩
  · rw [judgeKnifePoint_eq hact hc hp, if_pos ⟨hpaste, hle⟩, if_pos hconf, knifePoint_eq, if_neg hweb]
    rfl

end Sys2Proof.Machine
end

section
/-! The PASTE-MARK pulse: revolutions formed and judged, and the three points of the fire pulse (R80, R81, R92, R93:
PasteMarkFormsRevolutions). -/

namespace Sys2Proof.Machine

/-! ### The pulse by the state it finds (R80) -/

theorem measures_iff (x : SpliceState) : measures x = true ↔ x = .accel ∨ x = .matched ∨ x = .waiting ∨ x = .firing := by
  cases x <;> decide

section
variable {s : State} (h : s.runs) {st : StandIx}
include h

/-- In a measuring state the first pulse sets the reference. -/
theorem exec_pasteMarkPulse_of_first {n : Nat} {sp : Splice} (hact : s.activeSplice st = some (n, sp))
    (hm : measures sp.state = true) (hr : (s.work st).revolution = none) :
    exec (.pasteMarkPulse st) s = .next (s.modWork st (fun w => { w with revolution := some { tach := 0, web := 0 } })) := by
  simp only [exec, execPasteMarkPulse, onDevice_of_runs _ h, hact, hm, if_true, hr]

/-- A later pulse forms a revolution from 300 tach counts on. -/
theorem exec_pasteMarkPulse_of_revolution {n : Nat} {sp : Splice} (hact : s.activeSplice st = some (n, sp))
    (hm : measures sp.state = true) {r : Revolution} (hr : (s.work st).revolution = some r) :
    exec (.pasteMarkPulse st) s = .next (if r.tach < 300 then s else formRevolution st n sp r s) := by
  simp only [exec, execPasteMarkPulse, onDevice_of_runs _ h, hact, hm, if_true, hr]

theorem exec_pasteMarkPulse_of_not_measuring (hno : ∀ n sp, s.activeSplice st = some (n, sp) → measures sp.state = false) :
    exec (.pasteMarkPulse st) s = .next s := by
  simp only [exec, execPasteMarkPulse, onDevice_of_runs _ h]
  rcases hact : s.activeSplice st with _ | ⟨n, sp⟩
  · rfl
  · simp only [hno n sp hact, Bool.false_eq_true, if_false]

end

/-! ### A good revolution (R81) -/

theorem stableRev_iff (prev : Option Int) (g : Int) :
    stableRev prev g = true ↔ ∃ p, prev = some p ∧ |g - p| ≤ roundDiv (3 * p) 1000 := by
  cases prev <;> simp [stableRev]

theorem matchingRev_iff (tol g w : Int) : matchingRev tol g w = true ↔ 0 < w ∧ |g - w| ≤ roundDiv (tol * w) 1000 := by
  simp [matchingRev]

/-- A revolution is good when it is stable and matching. -/
theorem goodRev_iff (w : Working) (sp : Splice) (r : Revolution) : goodRev w sp r = true ↔
    ∃ p tol, w.prevGirth = some p ∧ sp.params.matchTolerance = some tol ∧ |r.tach - p| ≤ roundDiv (3 * p) 1000
      ∧ 0 < r.web ∧ |r.tach - r.web| ≤ roundDiv (tol * r.web) 1000 := by
  unfold goodRev
  rw [Bool.and_eq_true, stableRev_iff]
  cases sp.params.matchTolerance with
  | none => simp
  | some tol =>
    simp only [matchingRev_iff]
    exact ⟨fun ⟨⟨p, hp, hstable⟩, hmatch⟩ => ⟨p, tol, hp, rfl, hstable, hmatch⟩,
      fun ⟨p, _, hp, ht, hstable, hmatch⟩ => ⟨⟨p, hp, hstable⟩, by cases ht; exact hmatch⟩⟩

/-! ### A revolution formed (R80, R81) -/

/-- The state with a revolution taken: the counts restarted and its girth kept, to be compared with the next. -/
def State.revolved (s : State) (st : StandIx) (g : Int) : State := s.modWork st (fun w => { w with
  revolution := some { tach := 0, web := 0 }, keptGirth := some g, prevGirth := some g })

theorem work_revolved (s : State) (st : StandIx) (g : Int) : (s.revolved st g).work st = { s.work st with
    revolution := some { tach := 0, web := 0 }, keptGirth := some g, prevGirth := some g } := work_modWork s st _

theorem profile_revolved (s : State) (st : StandIx) (g : Int) : ((s.revolved st g).stand st).profile = (s.stand st).profile := by
  unfold State.revolved
  rw [stand_modWork]

/-- Before FIRING a revolution is judged. -/
theorem formRevolution_of_judged {sp : Splice} (h : sp.state ≠ .firing) (st : StandIx) (n : Nat) (r : Revolution) (s : State) :
    formRevolution st n sp r s = afterRevolution st n sp (goodRev (s.work st) sp r) r.tach (s.revolved st r.tach) := by
  unfold formRevolution
  dsimp only
  rw [if_neg h, modWork_modWork]
  rfl

section
variable {st : StandIx} {n : Nat} {sp : Splice} {g : Int} {r : Revolution} {s : State}

theorem setSpliceState_modWork (x : SpliceState) (f : Working → Working) :
    setSpliceState n x (s.modWork st f) = (setSpliceState n x s).modWork st f := rfl

/-- In ACCEL good revolutions are counted, the third gives MATCHED, and a bad one starts the count anew. -/
theorem formRevolution_of_accel (h : sp.state = .accel) : formRevolution st n sp r s =
    let t := s.revolved st r.tach
    if goodRev (s.work st) sp r then
      if 2 ≤ (s.work st).goodCount then enterMatched st n sp r.tach t
      else t.modWork st (fun w => { w with goodCount := w.goodCount + 1 })
    else t.modWork st (fun w => { w with goodCount := 0 }) := by
  rw [formRevolution_of_judged (by simp [h]), afterRevolution, h, work_revolved]

/-- A bad revolution takes MATCHED back to ACCEL, its timer afresh. -/
theorem formRevolution_of_matched (h : sp.state = .matched) : formRevolution st n sp r s =
    let t := s.revolved st r.tach
    if goodRev (s.work st) sp r then t
    else (t.modSplice n (fun x => { x with state := .accel })).modWork st (fun w =>
      { w with goodCount := 0, accelTimer := some ((s.stand st).profile.settings.accelTimeout * 1000) }) := by
  rw [formRevolution_of_judged (by simp [h]), afterRevolution, h, profile_revolved]
  dsimp only
  rw [setSpliceState_modWork, modWork_modWork]
  rfl

/-- A waiter's flag is cleared by a bad revolution; with the flag clear good ones are counted anew, and the third sets it. -/
theorem formRevolution_of_waiting (h : sp.state = .waiting) : formRevolution st n sp r s =
    let t := s.revolved st r.tach
    if (s.work st).matched then
      if goodRev (s.work st) sp r then t else setMatched st sp false (t.modWork st (fun w => { w with goodCount := 0 }))
    else if goodRev (s.work st) sp r then
      if 2 ≤ (s.work st).goodCount then rematch st sp r.tach t
      else t.modWork st (fun w => { w with goodCount := w.goodCount + 1 })
    else t.modWork st (fun w => { w with goodCount := 0 }) := by
  rw [formRevolution_of_judged (by simp [h]), afterRevolution, h, work_revolved]

theorem setMatched_eq {f : FolderIx} (hf : sp.folder = some f) (x : Bool) : setMatched st sp x s =
    (s.modWork st (fun w => { w with matched := x })).modFolder f (fun F =>
      { F with waits := F.waits.map (fun e => if e.stand = st then { e with matched := x } else e) }) := by
  unfold setMatched
  rw [hf]

theorem setGirth_modFolder (k : Nat) (f : FolderIx) (F : Folder → Folder) :
    setGirth k g (s.modFolder f F) = (setGirth k g s).modFolder f F := rfl

/-- The flag set again: the count, the reel's girth and diameter, and the folder's list and occasion in one change. -/
theorem rematch_eq {f : FolderIx} (hf : sp.folder = some f) : rematch st sp g s =
    ((s.modWork st (fun w => { w with goodCount := 3, matched := true })).modReel sp.incoming (fun x =>
      { x with girth := some g.toNat, diameter := some (diameterOf g).toNat })).modFolder f (fun F => { F with
        waits := F.waits.map (fun e => if e.stand = st then { e with matched := true } else e)
        grantOccasions := F.grantOccasions + 1 }) := by
  unfold rematch
  simp only [hf]
  rw [setMatched_eq hf, modWork_modWork, setGirth_modFolder, grantOccasion, modFolder_modFolder]
  rfl

end

/-! ### The fire pulse (R92) -/

section
variable {st : StandIx} {n : Nat} {sp : Splice} {r : Revolution} {s : State} (h : sp.state = .firing)
include h

/-- A revolution in FIRING after the fire pulse only restarts the counts and is kept. -/
theorem formRevolution_of_fired (hp : (s.work st).points ≠ none) : formRevolution st n sp r s =
    s.modWork st (fun w => { w with revolution := some { tach := 0, web := 0 }, keptGirth := some r.tach }) := by
  unfold formRevolution
  dsimp only
  rw [if_pos h, if_neg (by simpa using hp)]

/-- The fire pulse: the points worked out, the fire count 0, KNIFE_LATE noted, and the points already reached taken. -/
theorem formRevolution_of_firePulse (hp : (s.work st).points = none) :
    let k := firePointsFor r.tach (s.stand st).gauge.webSpeed (s.stand st).profile.settings
      (sp.params.pasteTarget.getD 0) (sp.params.knifeDistance.getD 0)
    let t := s.modWork st (fun w => { w with
      revolution := some { tach := 0, web := 0 }, keptGirth := some r.tach, points := some k.1, fireCount := some 0 })
    formRevolution st n sp r s = judgePoints st (if k.2 then noteSplice n .knifeLate t else t) := by
  unfold formRevolution firePulse
  dsimp only
  rw [if_pos h, if_pos (by simpa using hp), stand_modWork, modWork_modWork]

end

/-! ### The three points (R93) -/

/-- The nip is met again every girth: the first front that leaves the paster lead and the target before it. -/
theorem frontTurns_spec {g : Int} (hg : 0 < g) (nip need : Int) :
    ∃ k : Nat, (if need ≤ nip then 0 else (need - nip + g - 1) / g) = (k : Int) ∧ need ≤ nip + k * g
      ∧ ∀ j : Nat, need ≤ nip + j * g → k ≤ j := by
  by_cases h : need ≤ nip
  · exact ⟨0, if_pos h, by simpa using h, fun j _ => Nat.zero_le j⟩
  · have hpos : 0 ≤ (need - nip + g - 1) / g := Int.ediv_nonneg (by omega) hg.le
    refine ⟨((need - nip + g - 1) / g).toNat, by rw [if_neg h, Int.toNat_of_nonneg hpos], ?_, fun j hj => ?_⟩
    · have hlt := Int.lt_ediv_add_one_mul_self (need - nip + g - 1) hg
      rw [Int.toNat_of_nonneg hpos]
      linarith
    · have hlt : (need - nip + g - 1) / g < j + 1 := Int.ediv_lt_of_lt_mul hg (by linarith)
      omega

/-- Settles O49: the pulse by what it finds, a revolution by the splice's state, the points by `frontTurns_spec`. -/
theorem pasteMarkFormsRevolutions : Obligations.PasteMarkFormsRevolutions := by
  refine ⟨fun st s h => ⟨fun n sp hact hm => ⟨exec_pasteMarkPulse_of_first h hact ((measures_iff _).2 hm),
      fun r hr => ⟨fun hlt => ?_, fun hle => ?_⟩⟩, fun hno => ?_⟩,
    goodRev_iff, fun st n sp r s => ?_, fun g v set target distance hg => ?_⟩
  · rw [exec_pasteMarkPulse_of_revolution h hact ((measures_iff _).2 hm) hr, if_pos hlt]
  · rw [exec_pasteMarkPulse_of_revolution h hact ((measures_iff _).2 hm) hr, if_neg (not_lt.2 hle)]
  · exact exec_pasteMarkPulse_of_not_measuring h (fun n sp hact => by
      rw [← Bool.not_eq_true, measures_iff]
      exact hno n sp hact)
  · intro w good t
    refine ⟨fun h hg => ?_, fun h hg hc => ?_, fun h hg hc => ?_, fun h hg => ?_, fun h hg => ?_, fun h hm hg => ?_,
      fun h hm hg f hf => ?_, fun h hm hg => ?_, fun h hm hg hc => ?_, fun h hm hg hc f hf => ?_, formRevolution_of_fired,
      formRevolution_of_firePulse⟩
    · exact (formRevolution_of_accel h).trans (if_neg (ne_true_of_eq_false hg))
    · exact (formRevolution_of_accel h).trans ((if_pos hg).trans (if_neg (not_le.2 hc)))
    · exact (formRevolution_of_accel h).trans ((if_pos hg).trans (if_pos hc))
    · exact (formRevolution_of_matched h).trans (if_pos hg)
    · exact (formRevolution_of_matched h).trans (if_neg (ne_true_of_eq_false hg))
    · exact (formRevolution_of_waiting h).trans ((if_pos hm).trans (if_pos hg))
    · refine (formRevolution_of_waiting h).trans ((if_pos hm).trans ((if_neg (ne_true_of_eq_false hg)).trans ?_))
      rw [setMatched_eq hf, modWork_modWork]
      rfl
    · exact (formRevolution_of_waiting h).trans ((if_neg (ne_true_of_eq_false hm)).trans (if_neg (ne_true_of_eq_false hg)))
    · exact (formRevolution_of_waiting h).trans
        ((if_neg (ne_true_of_eq_false hm)).trans ((if_pos hg).trans (if_neg (not_le.2 hc))))
    · exact (formRevolution_of_waiting h).trans
        ((if_neg (ne_true_of_eq_false hm)).trans ((if_pos hg).trans ((if_pos hc).trans (rematch_eq hf))))
  · intro p lead knife
    obtain ⟨k, hk, hreach, hleast⟩ := frontTurns_spec hg (g * set.angle / 360) (lead + target)
    have hfront : p.front = g * set.angle / 360 + k * g := by
      rw [← hk]
      rfl
    exact ⟨⟨k, hfront, hfront ▸ hreach, hleast⟩, (sub_sub _ _ _).symm, rfl, decide_eq_true_iff⟩

end Sys2Proof.Machine
end

section
/-! The grant of a folder's slot (R92, R117 to R119: GrantToTheFirstEligibleWaiter). -/

namespace Sys2Proof.Machine

/-! ### The tests of a grant (R117) -/

theorem spacingMet_iff (s : State) (f : FolderIx) : s.spacingMet f = true ↔
    ∀ r ∈ (s.folder f).track, ∃ sp p d, s.splice? r.splice = some sp ∧ sp.mark.path = some p ∧ sp.mark.remaining = some d
      ∧ ((s.folder f).spacing : Int) ≤ (p : Int) - d := by
  unfold State.spacingMet
  rw [List.all_eq_true]
  refine forall₂_congr (fun r _ => ?_)
  unfold State.markOf markTravel
  cases s.splice? r.splice with
  | none => simp
  | some sp => cases hp : sp.mark.path <;> cases hd : sp.mark.remaining <;> simp [hp, hd]

theorem atLastChance_iff (e : WaitEntry) : e.atLastChance = true ↔ ∃ m, e.margin = some m ∧ m ≤ 0 := by
  unfold WaitEntry.atLastChance
  cases e.margin <;> simp

theorem eligible_iff (s : State) (f : FolderIx) (e : WaitEntry) : s.eligible f e = true ↔
    e.matched = true
    ∧ (∃ sp v, s.splice? e.splice = some sp ∧ sp.params.minSpeed = some v ∧ v ≤ ((s.stand e.stand).gauge.webSpeed : Int))
    ∧ ((∀ r ∈ (s.folder f).track, ∃ sp p d, s.splice? r.splice = some sp ∧ sp.mark.path = some p ∧ sp.mark.remaining = some d
        ∧ ((s.folder f).spacing : Int) ≤ (p : Int) - d)
      ∨ ∃ m, e.margin = some m ∧ m ≤ 0) := by
  have hspeed : (match (s.splice? e.splice).bind (·.params.minSpeed) with
        | some v => decide (v ≤ ((s.stand e.stand).gauge.webSpeed : Int))
        | none => false) = true ↔
      ∃ sp v, s.splice? e.splice = some sp ∧ sp.params.minSpeed = some v ∧ v ≤ ((s.stand e.stand).gauge.webSpeed : Int) := by
    cases s.splice? e.splice with
    | none => simp
    | some sp => cases hv : sp.params.minSpeed <;> simp [hv]
  rw [State.eligible, Bool.and_eq_true, Bool.and_eq_true, Bool.or_eq_true, spacingMet_iff, atLastChance_iff, and_assoc]
  exact and_congr_right' (and_congr_left' hspeed)

theorem folderBarred_iff (s : State) (f : FolderIx) : s.folderBarred f = true ↔
    (s.folder f).slot ≠ none ∨ 8 ≤ (s.folder f).track.length ∨ s.link.resetPending = true := by
  rw [State.folderBarred, Bool.or_eq_true, Bool.or_eq_true, decide_eq_true_iff, Option.isSome_iff_ne_none, or_assoc]

/-! ### An evaluation (R118) -/

/-- The state with one occasion of the folder taken (log 4). -/
def State.occasionTaken (s : State) (f : FolderIx) : State :=
  s.modFolder f (fun F => { F with grantOccasions := F.grantOccasions - 1 })

theorem folder_occasionTaken (s : State) (f : FolderIx) :
    (s.occasionTaken f).folder f = { s.folder f with grantOccasions := (s.folder f).grantOccasions - 1 } := folder_modFolder s f _

theorem eligible_occasionTaken (s : State) (f : FolderIx) : (s.occasionTaken f).eligible f = s.eligible f := by
  funext e
  rw [Bool.eq_iff_iff, eligible_iff, eligible_iff, folder_occasionTaken]
  rfl

theorem folderBarred_occasionTaken (s : State) (f : FolderIx) : (s.occasionTaken f).folderBarred f = s.folderBarred f := by
  unfold State.folderBarred
  rw [folder_occasionTaken]
  rfl

theorem exec_grantEvaluation (f : FolderIx) {s : State} (h : s.runs) : exec (.grantEvaluation f) s =
    .next (if (s.folder f).grantOccasions = 0 then s else evaluateGrant f (s.occasionTaken f)) := by
  rw [exec, execGrantEvaluation, onDevice_of_runs _ h]
  rfl

theorem evaluateGrant_of_barred {f : FolderIx} {s : State} (h : s.folderBarred f = true) : evaluateGrant f s = s := if_pos h

/-- With no waiter eligible nothing is granted. -/
theorem evaluateGrant_of_no_eligible {f : FolderIx} {s : State} (h : ∀ e ∈ (s.folder f).waits, s.eligible f e ≠ true) :
    evaluateGrant f s = s := by
  unfold evaluateGrant
  rw [List.find?_eq_none.2 h]
  exact ite_self _

/-- The first eligible waiter in list order is granted the slot. -/
theorem evaluateGrant_of_first {f : FolderIx} {s : State} {before after : List WaitEntry} {e : WaitEntry}
    (hbar : ¬ s.folderBarred f = true) (hw : (s.folder f).waits = before ++ e :: after)
    (hbefore : ∀ x ∈ before, s.eligible f x ≠ true) (he : s.eligible f e = true) : evaluateGrant f s = grant f e s := by
  have hfind : (s.folder f).waits.find? (s.eligible f) = some e := by
    rw [hw, List.find?_append, List.find?_eq_none.2 hbefore, List.find?_cons_of_pos he]
    rfl
  unfold evaluateGrant
  rw [if_neg hbar, hfind]

/-- The slot held, the stand off the list, the splice in FIRING with its start index (R92, R119, log 20). -/
theorem grant_eq (f : FolderIx) (e : WaitEntry) (s : State) : grant f e s =
    ((s.modFolder f (fun F => { F with
        slot := some { splice := e.splice, stand := e.stand }
        waits := F.waits.filter (fun x => !decide (x.stand = e.stand)) })).modSplice e.splice
      (fun x => { x with state := .firing })).modWork e.stand (fun w => { w with
        startIndex := match (s.stand e.stand).star with
          | .settled k => some k
          | .moving => none
          | .unknown => none
        goodCount := 0
        matched := false }) := by
  have hindex : settledIndex (s.stand e.stand).star = match (s.stand e.stand).star with
      | .settled k => some k
      | .moving => none
      | .unknown => none := by
    cases (s.stand e.stand).star <;> rfl
  unfold grant leaveWaits
  dsimp only
  rw [ modFolder_modFolder, hindex]
  rfl

/-- Settles O40: no occasion, no grant, or the grant to the first eligible waiter. -/
theorem grantToTheFirstEligibleWaiter : Obligations.GrantToTheFirstEligibleWaiter := by
  intro f s hruns F spaced eligible less
  have heligible : ∀ e, (s.occasionTaken f).eligible f e = true ↔ eligible e := fun e => by
    rw [eligible_occasionTaken]
    exact eligible_iff s f e
  have hbarred : (s.occasionTaken f).folderBarred f = true ↔ F.slot ≠ none ∨ 8 ≤ F.track.length ∨ s.link.resetPending = true := by
    rw [folderBarred_occasionTaken]
    exact folderBarred_iff s f
  have hwaits : ((s.occasionTaken f).folder f).waits = F.waits := by rw [folder_occasionTaken]
  refine ⟨fun ho => (exec_grantEvaluation f hruns).trans (by rw [if_pos ho]), fun ho hnone => ?_, fun ho hslot htrack hreset before e after hw hbefore he => ?_⟩
  · rw [exec_grantEvaluation f hruns, if_neg ho]
    refine congrArg _ ?_
    rcases hnone with h | h | h | h
    · exact evaluateGrant_of_barred (hbarred.2 (.inl h))
    · exact evaluateGrant_of_barred (hbarred.2 (.inr (.inl h)))
    · exact evaluateGrant_of_barred (hbarred.2 (.inr (.inr h)))
    · exact evaluateGrant_of_no_eligible (fun e he => mt (heligible e).1 (h e (hwaits ▸ he)))
  · have hbar : ¬ (s.occasionTaken f).folderBarred f = true := by
      rw [hbarred]
      simp [hslot, htrack, hreset]
    rw [exec_grantEvaluation f hruns, if_neg ho]
    rw [evaluateGrant_of_first hbar (hwaits.trans hw) (fun x hx => mt (heligible x).1 (hbefore x hx)) ((heligible e).2 he), grant_eq]
    rfl

end Sys2Proof.Machine
end

section
/-! The entry to INDEXING (R103) and the brake (R101, R102: BrakingEndsInIndexing). -/

namespace Sys2Proof.Machine

/-! ### INDEX-REQ at the entry (R103) -/

theorem isInactive_iff (s : State) (st : StandIx) (i : Input) : s.isInactive st i = true ↔ s.accepted st i = some 0 :=
  decide_eq_true_iff

/-- SAFETY-GATE found open is reported once (R103, log 18). -/
theorem gateReported_eq (st : StandIx) (s : State) :
    (if s.isInactive st .safetyGate then gateFoundOpen st s else s) =
      if s.accepted st .safetyGate = some 0 ∧ (s.work st).gateReported = false then
        (raise st .safetyGateOpen s).modWork st (fun w => { w with gateReported := true })
      else s := by
  unfold gateFoundOpen
  simp only [isInactive_iff]
  cases (s.work st).gateReported <;> simp

theorem updateIndexReq_of_not_indexing {st : StandIx} {s : State} (h : s.spliceState st ≠ some .indexing) : updateIndexReq st s = s :=
  if_neg h

/-- The stand of a splice in INDEXING once an open gate is reported. -/
def openReported (st : StandIx) (s : State) : State :=
  if s.accepted st .safetyGate = some 0 ∧ (s.work st).gateReported = false then
    (raise st .safetyGateOpen s).modWork st (fun w => { w with gateReported := true })
  else s

/-- The report changes the queue and its own flag only. -/
theorem openReported_spec (st : StandIx) (s : State) : (∀ i, (openReported st s).accepted st i = s.accepted st i)
    ∧ ((openReported st s).work st).indexReq = (s.work st).indexReq
    ∧ ((openReported st s).stand st).profile = (s.stand st).profile
    ∧ (openReported st s).spliceState st = s.spliceState st := by
  unfold openReported
  split
  · have hactive : ((raise st .safetyGateOpen s).modWork st (fun w => { w with gateReported := true })).activeSplice st =
        s.activeSplice st := by
      unfold State.activeSplice
      rw [work_modWork, work_raise]
      simp only [splice?_modWork, splice?_raise]
    exact ⟨fun i => by simp [State.accepted], by simp, by simp, congrArg (Option.map _) hactive⟩
  · exact ⟨fun _ => rfl, rfl, rfl, rfl⟩

/-- The sequencer waits for the star: an open gate reported, INDEX-REQ by gate and knife. -/
theorem indexingWaits_eq {st : StandIx} {s : State} (h : s.spliceState st = some .indexing) :
    let want := decide (s.accepted st .safetyGate = some 1) && decide (s.accepted st .knifeHome = some 1)
    updateIndexReq st (if s.isInactive st .safetyGate then gateFoundOpen st s else s) =
      if want = (s.work st).indexReq then openReported st s
      else (openReported st s).modWork st (fun w => { w with
        indexReq := want
        indexTimer := if want then some ((s.stand st).profile.settings.indexTimeout * 1000) else none }) := by
  obtain ⟨haccepted, hreq, hprofile, hstate⟩ := openReported_spec st s
  have hupdate := updateIndexReq_of_indexing (hstate.trans h)
  rw [haccepted, haccepted, hreq, hprofile] at hupdate
  rw [gateReported_eq]
  exact hupdate

theorem spliceState_setSpliceState {st : StandIx} {n : Nat} {sp : Splice} {s : State} (h : s.activeSplice st = some (n, sp))
    (x : SpliceState) : (setSpliceState n x s).spliceState st = some x := by
  obtain ⟨hactive, hs⟩ := activeSplice_eq_some.1 h
  exact spliceState_of_activeSplice (sp := { sp with state := x }) (activeSplice_eq_some.2
    ⟨(congrArg Working.active (work_setSpliceState n x s st)).trans hactive, by rw [splice?_setSpliceState, hs]; rfl⟩)

/-! ### By the star (R103, R104) -/

section
variable {st : StandIx} {s : State} (n : Nat)

theorem enterIndexing_of_unsettled (h : (s.stand st).star = .moving ∨ (s.stand st).star = .unknown) :
    enterIndexing st n s = updateIndexReq st (
      if (setSpliceState n .indexing s).isInactive st .safetyGate then gateFoundOpen st (setSpliceState n .indexing s)
      else setSpliceState n .indexing s) := by
  unfold enterIndexing
  rcases h with h | h <;> rw [h]

theorem enterIndexing_of_settled {j k : Arm} (h : (s.stand st).star = .settled j) (hk : (s.work st).startIndex = some k) :
    enterIndexing st n s =
      if j = k + 1 then standEnd st n .indexed (setSpliceState n .indexing s)
      else if j = k then updateIndexReq st (
        if (setSpliceState n .indexing s).isInactive st .safetyGate then gateFoundOpen st (setSpliceState n .indexing s)
        else setSpliceState n .indexing s)
      else standEnd st n .starSettledElsewhere (raise st .starMoved (setSpliceState n .indexing s)) := by
  unfold enterIndexing
  rw [h, hk]

theorem enterIndexing_of_no_start {j : Arm} (h : (s.stand st).star = .settled j) (hk : (s.work st).startIndex = none) :
    enterIndexing st n s = standEnd st n .starSettledElsewhere (raise st .starMoved (setSpliceState n .indexing s)) := by
  unfold enterIndexing
  rw [h, hk]

end

theorem ne_succ_arm : ∀ k : Arm, k ≠ k + 1 := by decide

/-- Settles O55: the entry to INDEXING by the star; the brake's ends and the kept brake by their definitions. -/
theorem brakingEndsInIndexing : Obligations.BrakingEndsInIndexing := by
  refine ⟨fun _ _ _ => rfl, ?_, fun st s => ?_, fun _ _ _ => rfl, fun st s => updateIndexReq_of_not_indexing⟩
  · intro st n sp s hact t want u waits
    have hwaits : updateIndexReq st (if t.isInactive st .safetyGate then gateFoundOpen st t else t) = waits :=
      indexingWaits_eq (s := t) (spliceState_setSpliceState hact .indexing)
    refine ⟨fun h => (enterIndexing_of_unsettled n h).trans hwaits, fun j k hj hk => ⟨fun e => ?_, fun e => ?_, fun h0 h1 => ?_⟩,
      fun j hj hk => enterIndexing_of_no_start n hj hk⟩
    · rw [enterIndexing_of_settled n hj hk, if_neg (e ▸ ne_succ_arm j), if_pos e]
      exact hwaits
    · rw [enterIndexing_of_settled n hj hk, if_pos e]
      rfl
    · rw [enterIndexing_of_settled n hj hk, if_neg h1, if_neg h0]
      rfl
  · unfold keepBrake
    simp only [pulledIn_eq]
    rfl

end Sys2Proof.Machine
end

section
/-! A paste failure (R98, R106: PasteFailureSpinsDown). -/

namespace Sys2Proof.Machine

/-! ### The stand (R87, R98) -/

theorem stand_enterSpindown (st : StandIx) (n : Nat) (o : SpinOutcome) (s : State) :
    ((enterSpindown st n o s).stand st).field = (s.stand st).field
    ∧ ((enterSpindown st n o s).stand st).queue = (s.stand st).queue := by
  simp [enterSpindown]

/-- The paster released and the confirm timer stopped. -/
def pasteReleased (st : StandIx) (s : State) : State :=
  (releasePaster st s).modWork st (fun w => { w with confirmTimer := none })

theorem pasteStopped_of_placed {st : StandIx} {s : State} (h : (s.work st).markPlaced = true) {n : Nat} :
    pasteStopped st n s = purge (fun k _ => decide (k = n)) (pasteReleased st s) := if_pos h

theorem pasteStopped_of_not_placed {st : StandIx} {s : State} (h : ¬ (s.work st).markPlaced = true) {n : Nat} :
    pasteStopped st n s = pasteReleased st s := if_neg h

theorem stand_pasteStopped (st : StandIx) (n : Nat) (s : State) : (pasteStopped st n s).stand st = { s.stand st with
    field := { (s.stand st).field with paster := { drive := .off, pullInTimer := none } }
    seq := { (s.stand st).seq with work := { s.work st with confirmTimer := none } } } := by
  have hreleased : (pasteReleased st s).stand st = { s.stand st with
      field := { (s.stand st).field with paster := { drive := .off, pullInTimer := none } }
      seq := { (s.stand st).seq with work := { s.work st with confirmTimer := none } } } := by
    simp [pasteReleased, releasePaster, Actuator.release, State.work]
  by_cases hplaced : (s.work st).markPlaced = true
  · rw [pasteStopped_of_placed hplaced, stand_purge, hreleased]
  · rw [pasteStopped_of_not_placed hplaced, hreleased]

/-- The working state of the failed paste (log 20). -/
theorem work_failPaste (st : StandIx) (n : Nat) (sp : Splice) (s : State) : (failPaste st n sp s).work st = { s.work st with
    outcome := some .failed, demand := 0, accelTimer := none, revolution := none, goodCount := 0, matched := false,
    confirmTimer := none, stopTimer := some ((s.stand st).profile.settings.stopTimeout * 1000), quietTimer := some 2000 } := by
  rw [failPaste_eq, work_evalRisk, work_handOn, work_enterSpindown, stand_leaveSlot, stand_noteSplice, stand_giveBack, work_leaveSlot,
    work_noteSplice, work_giveBack, State.work, stand_pasteStopped]

theorem field_failPaste (st : StandIx) (n : Nat) (sp : Splice) (s : State) : ((failPaste st n sp s).stand st).field =
    { (s.stand st).field with paster := { drive := .off, pullInTimer := none } } := by
  rw [failPaste_eq, field_evalRisk, field_handOn, (stand_enterSpindown st n .failed _).1, stand_leaveSlot, stand_noteSplice,
    stand_giveBack, stand_pasteStopped]

/-- A condition held stays held through a paste failure. -/
theorem holds_failPaste {st : StandIx} {s : State} {c : Condition} (h : (s.stand st).queue.Holds c) (n : Nat) (sp : Splice) :
    ((failPaste st n sp s).stand st).queue.Holds c := by
  rw [failPaste_eq]
  refine holds_evalRisk ?_
  rw [Queue.Holds, entries_handOn, (stand_enterSpindown st n .failed _).2, stand_leaveSlot, stand_noteSplice, stand_giveBack,
    stand_pasteStopped]
  exact h

/-! ### The incoming reel (R30, R31) -/

theorem reels_pasteStopped (st : StandIx) (n : Nat) (s : State) : (pasteStopped st n s).reels = s.reels := by
  by_cases hplaced : (s.work st).markPlaced = true
  · rw [pasteStopped_of_placed hplaced, (keepsHolds_purge _ _).reels]
    rfl
  · rw [pasteStopped_of_not_placed hplaced]
    rfl

theorem reels_failPaste (st : StandIx) (n : Nat) (sp : Splice) (s : State) : (failPaste st n sp s).reels =
    (s.modReel sp.incoming (givenBack (s.stand st).plan (s.stand st).profile true)).reels := by
  have hspin : ∀ t : State, (enterSpindown st n .failed t).reels = t.reels := fun _ => rfl
  rw [failPaste_eq, reels_evalRisk, reels_handOn, hspin, reels_leaveSlot, reels_noteSplice, giveBack_eq, reels_modReel,
    reels_pasteStopped, stand_pasteStopped]
  rfl

/-! ### The mark of one splice purged (R126) -/

section
variable {n : Nat} {x : Splice} {s : State} (hkeys : (s.splices.map Prod.fst).Nodup) (hx : s.splice? n = some x)
include hkeys hx

theorem splice?_purge_self (hlive : isEnded x.state = false) : (purge (fun k _ => decide (k = n)) s).splice? n =
    some { x with mark := if x.mark.state = .onTrack then { x.mark with state := .purged } else x.mark } := by
  rw [splice?_purge_eq hkeys hx]
  by_cases hmark : x.mark.state = .onTrack <;> simp [hmark, hlive, Splice.left]

/-- The mark is off its folder's track, an occasion for the arbiter. -/
theorem folder_purge_self (f : FolderIx) : (purge (fun k _ => decide (k = n)) s).folder f =
    if x.folder = some f ∧ x.mark.state = .onTrack then { s.folder f with
      track := (s.folder f).track.filter (fun r => !decide (r.splice = n))
      grantOccasions := (s.folder f).grantOccasions + 1 }
    else s.folder f := by
  have htrack : ((purge (fun k _ => decide (k = n)) s).folder f).track =
      (s.folder f).track.filter (fun r => !(decide (r.splice = n) && decide (x.folder = some f ∧ x.mark.state = .onTrack))) := by
    rw [folder_purge hkeys f]
    refine List.filter_congr (fun r _ => ?_)
    by_cases e : r.splice = n
    · simp [e, hx, and_comm]
    · cases s.splice? r.splice <;> simp [e]
  have hconcerned : (s.splices.any (fun p => decide (p.2.mark.state = .onTrack) && decide (p.1 = n) && decide (p.2.folder = some f)) = true)
      = (x.folder = some f ∧ x.mark.state = .onTrack) := by
    rw [List.any_eq_true]
    refine propext ⟨fun ⟨p, hp, htest⟩ => ?_, fun ⟨hf, hmark⟩ => ⟨(n, x), mem_of_find hx, by simp [hf, hmark]⟩⟩
    simp only [Bool.and_eq_true, decide_eq_true_eq] at htest
    obtain ⟨⟨hmark, rfl⟩, hf⟩ := htest
    obtain rfl : x = p.2 := Option.some.inj (hx.symm.trans (find_of_mem hkeys hp))
    exact ⟨hf, hmark⟩
  have hrest : (purge (fun k _ => decide (k = n)) s).folder f = { s.folder f with
      track := ((purge (fun k _ => decide (k = n)) s).folder f).track
      grantOccasions := (s.folder f).grantOccasions + if x.folder = some f ∧ x.mark.state = .onTrack then 1 else 0 } := by
    rw [folder_purge hkeys f]
    simp only [hconcerned]
  rw [hrest, htrack]
  by_cases h : x.folder = some f ∧ x.mark.state = .onTrack
  · simp only [h, and_self, decide_true, Bool.and_true, if_true]
  · simp only [h, decide_false, Bool.and_false, Bool.not_false, List.filter_true, if_false, Nat.add_zero]

end

theorem splice?_purge_other {n m : Nat} {s : State} (hkeys : (s.splices.map Prod.fst).Nodup) (h : m ≠ n) :
    (purge (fun k _ => decide (k = n)) s).splice? m = s.splice? m := by
  cases hm : s.splice? m with
  | none => exact splice?_purge_of_none hm
  | some y => exact (splice?_purge_eq hkeys hm).trans (if_pos (by simp [h]))

/-! ### The record and the folder (R98) -/

section
variable {st : StandIx} {n : Nat} {x : Splice} {s : State} (hkeys : (s.splices.map Prod.fst).Nodup) (hx : s.splice? n = some x)
include hkeys hx

theorem splice?_pasteStopped (hlive : isEnded x.state = false) : (pasteStopped st n s).splice? n =
    some { x with mark := if (s.work st).markPlaced = true ∧ x.mark.state = .onTrack then { x.mark with state := .purged } else x.mark } := by
  by_cases hplaced : (s.work st).markPlaced = true
  · rw [pasteStopped_of_placed hplaced, splice?_purge_self (s := pasteReleased st s) hkeys hx hlive]
    simp only [hplaced, true_and]
  · rw [pasteStopped_of_not_placed hplaced, if_neg (fun h => hplaced h.1)]
    exact hx

theorem folder_pasteStopped (f : FolderIx) : (pasteStopped st n s).folder f =
    if x.folder = some f ∧ (s.work st).markPlaced = true ∧ x.mark.state = .onTrack then { s.folder f with
      track := (s.folder f).track.filter (fun r => !decide (r.splice = n))
      grantOccasions := (s.folder f).grantOccasions + 1 }
    else s.folder f := by
  by_cases hplaced : (s.work st).markPlaced = true
  · rw [pasteStopped_of_placed hplaced, folder_purge_self (s := pasteReleased st s) hkeys hx f]
    simp only [hplaced, true_and]
    rfl
  · rw [pasteStopped_of_not_placed hplaced, if_neg (fun h => hplaced h.2.1)]
    rfl

end

theorem splice?_pasteStopped_ne (st : StandIx) {n m : Nat} {s : State} (hkeys : (s.splices.map Prod.fst).Nodup) (h : m ≠ n) :
    (pasteStopped st n s).splice? m = s.splice? m := by
  by_cases hplaced : (s.work st).markPlaced = true
  · rw [pasteStopped_of_placed hplaced]
    exact splice?_purge_other (s := pasteReleased st s) hkeys h
  · rw [pasteStopped_of_not_placed hplaced]
    rfl

theorem folder_leaveSlot (sp : Splice) (s : State) (f : FolderIx) : (leaveSlot sp s).folder f =
    if sp.folder = some f then { s.folder f with slot := none, grantOccasions := (s.folder f).grantOccasions + 1 } else s.folder f := by
  unfold leaveSlot
  cases sp.folder with
  | none => rfl
  | some g =>
    rw [folder_releaseSlot]
    simp only [Option.some.injEq, eq_comm]

theorem splice?_failPaste (st : StandIx) (n : Nat) (sp : Splice) (s : State) (m : Nat) : (failPaste st n sp s).splice? m =
    if m = n then ((pasteStopped st n s).splice? n).map (fun y => { y with state := .spindown, notes := addTo .pasteUsed y.notes })
    else (pasteStopped st n s).splice? m := by
  rw [failPaste_eq, splice?_evalRisk, splice?_handOn]
  by_cases e : m = n
  · subst e
    rw [splice?_enterSpindown, splice?_leaveSlot, splice?_noteSplice, splice?_giveBack, if_pos rfl, Option.map_map]
    rfl
  · rw [if_neg e, enterSpindown, splice?_modWork, setSpliceState, splice?_modSplice_ne _ _ e, splice?_leaveSlot, noteSplice,
      splice?_modSplice_ne _ _ e, splice?_giveBack]

theorem folder_failPaste (st : StandIx) (n : Nat) (sp : Splice) (s : State) (f : FolderIx) :
    (failPaste st n sp s).folder f = (leaveSlot sp (pasteStopped st n s)).folder f := by
  rw [failPaste_eq, folder_evalRisk, folder_handOn, folder_leaveSlot]
  have hspin : ∀ t : State, (enterSpindown st n .failed t).folder f = t.folder f := fun _ => rfl
  rw [hspin, folder_leaveSlot, folder_noteSplice, folder_giveBack]

/-- Settles O54: the stand, the reel, the record and the folder of a failed paste; the condition raised before it. -/
theorem pasteFailureSpinsDown : Obligations.PasteFailureSpinsDown := by
  refine ⟨?_, fun st n sp s _ => ⟨rfl, holds_failPaste ?_ n sp⟩⟩
  · intro st n sp x s hkeys hact _ hstate hincoming hfolder t purged
    obtain ⟨_, hx⟩ := activeSplice_eq_some.1 hact
    have hlive : isEnded x.state = false := by rw [hstate]; rfl
    have hreels : t.reels = _ := reels_failPaste st n sp s
    refine ⟨?_, fun m hm => ?_, work_failPaste st n sp s, field_failPaste st n sp s, fun r hr => ?_, fun h hne => ?_, fun f hf => ?_,
      fun f hf => ?_⟩
    · refine (splice?_failPaste st n sp s n).trans ?_
      rw [if_pos rfl, splice?_pasteStopped hkeys hx hlive]
      rfl
    · rw [← splice?_pasteStopped_ne st hkeys hm]
      exact (splice?_failPaste st n sp s m).trans (if_neg hm)
    · rw [State.reel?, hreels, ← hincoming]
      exact reel?_modReel_of_some (hincoming ▸ hr) _
    · rw [State.reel?, hreels]
      exact reel?_modReel_ne _ _ (hincoming ▸ hne)
    · refine (folder_failPaste st n sp s f).trans ?_
      rw [folder_leaveSlot, if_pos (hfolder.trans hf), folder_pasteStopped hkeys hx]
      by_cases h : purged
      · simp only [hf, true_and]
        rw [if_pos h, if_pos h, if_pos h]
      · simp only [hf, true_and]
        rw [if_neg h, if_neg h, if_neg h]
    · refine (folder_failPaste st n sp s f).trans ?_
      rw [folder_leaveSlot, if_neg (hfolder ▸ hf), folder_pasteStopped hkeys hx, if_neg (fun h => hf h.1)]
  · have hraised := Queue.holds_place (s.stand st).queue .pasteNotConfirmed (s.work st).active s.now (none, none)
    simpa [raise, setCause, State.now] using hraised

end Sys2Proof.Machine
end

section
/-! RESET STAND (R110 to R112: ResetStandClearsTheStand). -/

namespace Sys2Proof.Machine

/-! ### The request (R110) -/

theorem holdsSlot_iff (x : SpliceState) : holdsSlot x = true ↔ x = .firing ∨ x = .pasting ∨ x = .cutting := by
  cases x <;> simp [holdsSlot]

/-- The checks of RESET STAND, in their order. -/
theorem exec_resetStand {c : Client} {stand : Nat} {s : State} (h : s.takes (.resetStand c stand)) :
    exec (.resetStand c stand) s =
      match standIx stand with
      | none => answered (.resetStand c stand) (plain (.badRequest false)) s
      | some st =>
        if c ≠ .console then answered (.resetStand c stand) (plain .notPermitted) s
        else if s.spliceState st = some .firing ∨ s.spliceState st = some .pasting ∨ s.spliceState st = some .cutting then
          answered (.resetStand c stand) (plain .busy) s
        else .next (deliver (.resetStand c stand) (plain .done) (resetStand st s)) := by
  simp only [exec, execResetStand]
  rw [serve_of_takes _ h]
  cases standIx stand with
  | none => rfl
  | some st =>
    dsimp only
    by_cases hc : c = .console
    · rw [if_neg (not_not.2 hc), if_neg (not_not.2 hc)]
      cases s.spliceState st with
      | none => rfl
      | some x =>
        simp only [holdsSlot_iff, Option.some.injEq]
        split <;> rfl
    · rw [if_pos hc, if_pos hc]
      rfl

/-! ### The reels lose their diameters (R35) -/

/-- A reel of the stand without its diameter and girth. -/
def Reel.cleared (st : StandIx) (r : Reel) : Reel :=
  if onStand st r then { r with diameter := none, girth := none, notes := addTo .diameterReset r.notes } else r

theorem reservedBy_cleared (st : StandIx) (r : Reel) : (r.cleared st).reservedBy = r.reservedBy := by
  unfold Reel.cleared
  split <;> rfl

theorem reel?_clearDiameters (st : StandIx) (s : State) (h : Nat) :
    (clearDiameters st s).reel? h = (s.reel? h).map (Reel.cleared st) := find_mapAll h (fun _ => Reel.cleared st) s.reels

/-- No reel of the stand has a diameter. -/
def State.NoDiameters (s : State) (st : StandIx) : Prop := ∀ p ∈ s.reels, onStand st p.2 = true → p.2.diameter = none

theorem noDiameters_clearDiameters (st : StandIx) (s : State) : (clearDiameters st s).NoDiameters st := by
  intro p hp hon
  obtain ⟨q, _, rfl⟩ := List.mem_map.1 hp
  dsimp only at hon ⊢
  split at hon
  · next h => rw [if_pos h]
  · next h => exact absurd hon h

theorem State.NoDiameters.of_reels {s t : State} {st : StandIx} (h : s.NoDiameters st) (e : t.reels = s.reels) : t.NoDiameters st := by
  intro p hp
  exact h p (e ▸ hp)

/-- A reel given back keeps its arm and its diameter. -/
theorem State.NoDiameters.giveBack {s : State} {st : StandIx} (h : s.NoDiameters st) (i : StandIx) (used : Bool) (k : Nat) :
    (giveBack i used k s).NoDiameters st := by
  have hkeeps : ∀ plan p r, (givenBack plan p used r).loc = r.loc ∧ (givenBack plan p used r).diameter = r.diameter := by
    intro plan p r
    cases used <;> exact ⟨rfl, rfl⟩
  intro p hp hon
  rw [giveBack_eq, reels_modReel, update_eq_map] at hp
  obtain ⟨q, hq, rfl⟩ := List.mem_map.1 hp
  dsimp only at hon ⊢
  split
  · next e =>
    rw [if_pos e, onStand, (hkeeps _ _ q.2).1] at hon
    rw [(hkeeps _ _ q.2).2]
    exact h q hq hon
  · next e =>
    rw [if_neg e] at hon
    exact h q hq hon

theorem State.NoDiameters.runningDiameter {s : State} {st : StandIx} (h : s.NoDiameters st) : s.runningDiameter st = none := by
  unfold State.runningDiameter
  cases hr : s.runningReel st with
  | none => rfl
  | some p =>
    obtain ⟨hp, _, hon⟩ := runningReel_spec hr
    exact h p hp hon

/-! ### The end of the active splice (R111) -/

/-- Whether RESET STAND completes a splice (R111). -/
abbrev Splice.Completes (sp : Splice) : Prop := sp.state = .braking ∨ sp.state = .indexing

/-- The condition of the splice's end. -/
def Splice.resetCondition (sp : Splice) : Condition := if sp.Completes then .standEnd else .spliceVoid

/-- The splice ended and its retirement tested, less the return of its reel and the occasion of a STAND_END. -/
def endedAtReset (st : StandIx) (n : Nat) (sp : Splice) (s : State) : State :=
  retire n (endSplice st n (if sp.Completes then .completed else .aborted) sp.resetCondition
    (noteSplice n .standReset (setCause n .standReset s)))

theorem endAtReset_of_none {st : StandIx} {s : State} (h : s.activeSplice st = none) : endAtReset st s = s := by
  unfold endAtReset
  rw [h]

theorem endAtReset_of_active {st : StandIx} {s : State} {n : Nat} {sp : Splice} (h : s.activeSplice st = some (n, sp)) :
    endAtReset st s = if sp.Completes then chainOccasion st (endedAtReset st n sp s)
      else giveBackReserved st n sp (endedAtReset st n sp s) := by
  unfold endAtReset endedAtReset Splice.resetCondition
  rw [h]
  dsimp only
  split <;> rfl

theorem giveBackReserved_eq (st : StandIx) (n : Nat) (sp : Splice) (s : State) : giveBackReserved st n sp s =
    if (s.reel? sp.incoming).bind (fun r => r.reservedBy) = some n then giveBack st false sp.incoming s else s := by
  unfold giveBackReserved
  cases s.reel? sp.incoming <;> rfl

theorem reels_endedAtReset (st : StandIx) (n : Nat) (sp : Splice) (s : State) : (endedAtReset st n sp s).reels = s.reels := by
  rw [endedAtReset, reels_retire, reels_endSplice, reels_noteSplice, reels_setCause]

theorem stand_endedAtReset (st : StandIx) (n : Nat) (sp : Splice) (s : State) : (endedAtReset st n sp s).stand st =
    { s.stand st with
      queue := (s.stand st).queue.place sp.resetCondition (s.work st).active s.now (none, none)
      seq := { (s.stand st).seq with work := (s.work st).afterEnd } } := by
  rw [endedAtReset, stand_retire]
  simp [endSplice, endRecord, raise, State.now, State.work]

theorem stand_giveBackReserved (st : StandIx) (n : Nat) (sp : Splice) (s : State) (i : StandIx) :
    (giveBackReserved st n sp s).stand i = s.stand i := by
  rw [giveBackReserved_eq]
  split
  · exact stand_giveBack st false sp.incoming s i
  · rfl

section
variable {st : StandIx} {s : State} {n : Nat} {sp : Splice} (h : s.activeSplice st = some (n, sp))
include h

theorem stand_endAtReset : (endAtReset st s).stand st = { s.stand st with
    queue := (s.stand st).queue.place sp.resetCondition (s.work st).active s.now (none, none)
    seq := { (s.stand st).seq with
      work := (s.work st).afterEnd
      chainOccasions := (s.stand st).seq.chainOccasions + if sp.Completes then 1 else 0 } } := by
  rw [endAtReset_of_active h]
  split
  · rw [chainOccasion, stand_modSeq, stand_endedAtReset]
  · rw [stand_giveBackReserved, stand_endedAtReset]
    rfl

theorem splices_endAtReset : (endAtReset st s).splices = (endedAtReset st n sp s).splices := by
  rw [endAtReset_of_active h]
  split
  · exact splices_chainOccasion st _
  · exact splices_giveBackReserved st n sp _

/-- The record before its retirement is tested: ended with STAND_RESET. -/
theorem splice?_beforeReset : (endSplice st n (if sp.Completes then .completed else .aborted) sp.resetCondition
    (noteSplice n .standReset (setCause n .standReset s))).splice? n = some { sp with
      state := if sp.Completes then .completed else .aborted, ended := some s.link.time
      notes := addTo .standReset sp.notes, cause := some (sp.cause.getD .standReset) } := by
  rw [splice?_endSplice, splice?_noteSplice, splice?_setCause, (activeSplice_eq_some.1 h).2]
  rfl

theorem splice?_of_endAtReset {x : Splice} (hx : (endAtReset st s).splice? n = some x) : x = { sp with
    state := if sp.Completes then .completed else .aborted, ended := some s.link.time
    notes := addTo .standReset sp.notes, cause := some (sp.cause.getD .standReset) } := by
  rw [State.splice?, splices_endAtReset h] at hx
  exact Option.some.inj ((splice?_of_retire hx).symm.trans (splice?_beforeReset h))

/-- The record stays until its end is acknowledged (R72). -/
theorem splice?_endAtReset_ne_none (hack : sp.endAck = false) : (endAtReset st s).splice? n ≠ none := by
  rw [State.splice?, splices_endAtReset h]
  have hkept : (endedAtReset st n sp s).splice? n = _ := splice?_retire_of_unacknowledged (splice?_beforeReset h) hack
  exact ne_of_eq_of_ne hkept (Option.some_ne_none _)

theorem splice?_endAtReset_ne {m : Nat} (hm : m ≠ n) : (endAtReset st s).splice? m = s.splice? m := by
  rw [State.splice?, splices_endAtReset h]
  refine (splice?_retire_eq n m _).trans ((if_neg hm).trans ?_)
  rw [endSplice, splice?_modWork, endRecord, splice?_modSplice_ne _ _ hm, splice?_raise, noteSplice, splice?_modSplice_ne _ _ hm,
    setCause, splice?_modSplice_ne _ _ hm]

/-- The incoming reel is given back if the splice still holds it and is not completed. -/
theorem reel?_endAtReset (k : Nat) : (endAtReset st s).reel? k = (s.reel? k).map (fun r =>
    if ¬ sp.Completes ∧ k = sp.incoming ∧ r.reservedBy = some n then givenBack (s.stand st).plan (s.stand st).profile false r
    else r) := by
  have hended : ∀ k, (endedAtReset st n sp s).reel? k = s.reel? k := fun k => by rw [State.reel?, reels_endedAtReset]; rfl
  rw [endAtReset_of_active h]
  split
  · next hc => simp [hc, hended]
  · next hc =>
    rw [giveBackReserved_eq, hended]
    by_cases hk : k = sp.incoming
    · subst hk
      cases hr : s.reel? sp.incoming with
      | none => simp [hended, hr]
      | some r =>
        by_cases hres : r.reservedBy = some n
        · rw [Option.bind_some, if_pos hres, giveBack_eq, reel?_modReel, hended, hr, stand_endedAtReset]
          simp [hc, hres]
        · rw [Option.bind_some, if_neg hres, hended, hr]
          simp [hres]
    · split
      · rw [giveBack_eq, reel?_modReel_ne _ _ hk, hended]
        simp [hk]
      · rw [hended]
        simp [hk]

end

theorem State.NoDiameters.endAtReset {s : State} {st : StandIx} (h : s.NoDiameters st) : (endAtReset st s).NoDiameters st := by
  cases hact : s.activeSplice st with
  | none => rwa [endAtReset_of_none hact]
  | some p =>
    have hended : (endedAtReset st p.1 p.2 s).NoDiameters st := h.of_reels (reels_endedAtReset st p.1 p.2 s)
    rw [endAtReset_of_active hact, giveBackReserved_eq]
    split
    · exact hended.of_reels (reels_chainOccasion st _)
    · split
      · exact hended.giveBack st false p.2.incoming
      · exact hended

/-! ### The settings of the stand (R112) -/

theorem Queue.settings_place (q : Queue) (c : Condition) (a : Option Nat) (now : Stamp) (r : Option Nat × Option Nat) :
    (q.place c a now r).mask = q.mask ∧ (q.place c a now r).mode = q.mode ∧ (q.place c a now r).reelCall = q.reelCall := by
  unfold Queue.place
  dsimp only
  (repeat' split) <;> exact ⟨rfl, rfl, rfl⟩

/-- The end of the splice changes the queue's entries, the working state and the occasions, and no setting of the stand. -/
theorem settings_endAtReset (st : StandIx) (s : State) : ∃ q w k,
    (endAtReset st s).stand st =
      { s.stand st with queue := q, seq := { (s.stand st).seq with work := w, chainOccasions := k } }
    ∧ q.mask = (s.stand st).queue.mask ∧ q.mode = (s.stand st).queue.mode ∧ q.reelCall = (s.stand st).queue.reelCall := by
  cases hact : s.activeSplice st with
  | none => exact ⟨_, _, _, by rw [endAtReset_of_none hact], rfl, rfl, rfl⟩
  | some p => exact ⟨_, _, _, stand_endAtReset hact, Queue.settings_place _ _ _ _ _⟩

theorem folder_endAtReset (st : StandIx) (s : State) (f : FolderIx) : (endAtReset st s).folder f = s.folder f := by
  cases hact : s.activeSplice st with
  | none => rw [endAtReset_of_none hact]
  | some p =>
    have hended : (endedAtReset st p.1 p.2 s).folder f = s.folder f := by
      simp [endedAtReset, endSplice]
    rw [endAtReset_of_active hact]
    split
    · rw [folder_chainOccasion, hended]
    · rw [folder_giveBackReserved, hended]

theorem nextSplice_endAtReset (st : StandIx) (s : State) : (endAtReset st s).nextSplice = s.nextSplice := by
  cases hact : s.activeSplice st with
  | none => rw [endAtReset_of_none hact]
  | some p =>
    have hended : (endedAtReset st p.1 p.2 s).nextSplice = s.nextSplice := by
      simp [endedAtReset, endSplice]
    rw [endAtReset_of_active hact, giveBackReserved_eq]
    (repeat' split) <;> simp [hended]

/-! ### The stand cleared (R6, R52, R90, R91, R145) -/

/-- The splice ended and the diameters cleared. -/
def splicelessAtReset (st : StandIx) (s : State) : State := endAtReset st (clearDiameters st s)

/-- The stand off every wait list, its working state, gauge, field interface and star at their reset values. -/
def standCleared (st : StandIx) (s : State) : State := (offLists st s).modStand st (fun x =>
  { x with star := .unknown, lastSettled := none, gauge := Gauge.reset, field := x.field.restart })

theorem resetStand_eq (st : StandIx) (s : State) :
    resetStand st s = evalReelCall st (evalRisk st (standCleared st (splicelessAtReset st s))) := rfl

theorem stand_standCleared (st : StandIx) (s : State) : (standCleared st s).stand st = { s.stand st with
    star := .unknown, lastSettled := none, gauge := Gauge.reset, field := (s.stand st).field.restart
    seq := { (s.stand st).seq with work := Working.reset } } := by
  have hlists : ∀ t : State, (allFolders.foldl (fun t f => leaveWaits f st t) t).stand st = t.stand st :=
    stand_foldl _ (fun t f => stand_leaveWaits f st t st) allFolders
  rw [standCleared, stand_modStand, offLists, stand_modWork, hlists]

theorem reels_offLists (st : StandIx) (s : State) : (offLists st s).reels = s.reels :=
  (keepsHolds_foldl (fun t f => leaveWaits f st t) (fun t f => keepsHolds_modFolder t f _) allFolders s).reels

theorem noDiameters_standCleared (st : StandIx) (s : State) : (standCleared st (splicelessAtReset st s)).NoDiameters st :=
  (noDiameters_clearDiameters st s).endAtReset.of_reels (reels_offLists st _)

/-- Without a running diameter there is no risk and no reel call: the gauge is out of risk, the stored condition false (R48, R158). -/
theorem evaluations_of_noDiameters {st : StandIx} {s : State} (h : s.NoDiameters st) :
    (evalReelCall st (evalRisk st s)).stand st = { s.stand st with
      gauge := { (s.stand st).gauge with inRisk := false }
      queue := { (s.stand st).queue with callCondition := false } } := by
  have hrisk : s.riskTest st = false := by rw [State.riskTest, h.runningDiameter]; rfl
  have hcall : (evalRisk st s).callCondition st = false := by
    rw [State.callCondition, (h.of_reels (reels_evalRisk st s)).runningDiameter, Bool.and_false, Bool.false_and]
  have heval : (evalRisk st s).stand st = { s.stand st with gauge := { (s.stand st).gauge with inRisk := false } } := by
    rw [evalRisk_eq, if_neg (by simp [hrisk]), stand_modGauge, hrisk]
  unfold evalReelCall
  dsimp only
  rw [hcall, stand_modQueue, heval]
  simp

/-- The stand after RESET STAND. -/
theorem stand_resetStand (st : StandIx) (s : State) : (resetStand st s).stand st =
    { (splicelessAtReset st s).stand st with
      star := .unknown, lastSettled := none, gauge := Gauge.reset, field := ((splicelessAtReset st s).stand st).field.restart
      seq := { ((splicelessAtReset st s).stand st).seq with work := Working.reset }
      queue := { ((splicelessAtReset st s).stand st).queue with callCondition := false } } := by
  rw [resetStand_eq, evaluations_of_noDiameters (noDiameters_standCleared st s), stand_standCleared]
  rfl

theorem folder_resetStand (st : StandIx) (s : State) (f : FolderIx) : (resetStand st s).folder f =
    { s.folder f with waits := (s.folder f).waits.filter (fun e => !decide (e.stand = st)) } := by
  rw [resetStand_eq, folder_evalReelCall, folder_evalRisk, standCleared, folder_modStand, folder_offLists, splicelessAtReset,
    folder_endAtReset]
  rfl

theorem splice?_resetStand (st : StandIx) (s : State) (n : Nat) :
    (resetStand st s).splice? n = (splicelessAtReset st s).splice? n := by
  rw [resetStand_eq, splice?_evalReelCall, splice?_evalRisk, State.splice?, standCleared, splices_modStand, splices_offLists]
  rfl

theorem reel?_resetStand (st : StandIx) (s : State) (k : Nat) :
    (resetStand st s).reel? k = (splicelessAtReset st s).reel? k := by
  rw [resetStand_eq, reel?_evalReelCall, reel?_evalRisk, State.reel?, standCleared, reels_modStand, reels_offLists]
  rfl

theorem nextSplice_resetStand (st : StandIx) (s : State) : (resetStand st s).nextSplice = s.nextSplice := by
  rw [resetStand_eq, nextSplice_evalReelCall, nextSplice_evalRisk]
  simp [standCleared, offLists, allFolders, splicelessAtReset, nextSplice_endAtReset, clearDiameters]

/-! ### The parts of the statement -/

theorem activeSplice_clearDiameters (st : StandIx) (s : State) (i : StandIx) :
    (clearDiameters st s).activeSplice i = s.activeSplice i := rfl

/-- The reels and the status entries of a stand with no active splice. -/
theorem resetStand_of_idle {st : StandIx} {s : State} (h : s.activeSplice st = none) :
    (∀ n, (resetStand st s).splice? n = s.splice? n)
    ∧ (∀ k, (resetStand st s).reel? k = (s.reel? k).map (Reel.cleared st))
    ∧ ((resetStand st s).stand st).queue.entries = (s.stand st).queue.entries
    ∧ ((resetStand st s).stand st).seq.chainOccasions = (s.stand st).seq.chainOccasions := by
  have hended : splicelessAtReset st s = clearDiameters st s := endAtReset_of_none h
  refine ⟨fun n => ?_, fun k => ?_, ?_, ?_⟩
  · rw [splice?_resetStand, hended]
    rfl
  · rw [reel?_resetStand, hended, reel?_clearDiameters]
  · rw [stand_resetStand, hended]
    rfl
  · rw [stand_resetStand, hended]
    rfl

theorem queue_resetStand_of_active {st : StandIx} {s : State} {n : Nat} {sp : Splice} (h : s.activeSplice st = some (n, sp)) :
    ((resetStand st s).stand st).queue.Holds sp.resetCondition
    ∧ (sp.Completes → ((resetStand st s).stand st).queue.buttOut = true)
    ∧ ((resetStand st s).stand st).seq.chainOccasions = (s.stand st).seq.chainOccasions + if sp.Completes then 1 else 0 := by
  have hstand := stand_endAtReset (s := clearDiameters st s) h
  rw [stand_resetStand, splicelessAtReset, hstand]
  refine ⟨Queue.holds_place _ _ _ _ _, fun hc => ?_, rfl⟩
  dsimp only
  rw [Queue.buttOut_place, Splice.resetCondition, if_pos hc]
  exact Bool.or_true _

/-- The reels of a stand whose active splice is ended. -/
theorem reel?_resetStand_of_active {st : StandIx} {s : State} {n : Nat} {sp : Splice} (h : s.activeSplice st = some (n, sp))
    (k : Nat) : (resetStand st s).reel? k = (s.reel? k).map (fun r =>
      if ¬ sp.Completes ∧ k = sp.incoming ∧ r.reservedBy = some n then
        givenBack (s.stand st).plan (s.stand st).profile false (r.cleared st)
      else r.cleared st) := by
  rw [reel?_resetStand, splicelessAtReset, reel?_endAtReset (s := clearDiameters st s) h, reel?_clearDiameters, Option.map_map]
  simp only [Function.comp_def, reservedBy_cleared]
  rfl

/-- Settles O41: the checks, then the parts of the reset stand, with no active splice and with the active one ended. -/
theorem resetStandClearsTheStand : Obligations.ResetStandClearsTheStand := by
  refine ⟨fun c stand s h => exec_resetStand h, ?_⟩
  intro st s t cleared
  have hlocal : Local st s t := (local_resetStand st s s).2 (Local.refl st s)
  obtain ⟨q, w, k, hended, hmask, hmode, hcall⟩ := settings_endAtReset st (clearDiameters st s)
  have hstand : t.stand st = _ := stand_resetStand st s
  rw [splicelessAtReset, hended] at hstand
  refine ⟨hlocal.others, hlocal.link, nextSplice_resetStand st s, by rw [hstand], by rw [hstand], by rw [hstand]; rfl,
    by rw [hstand]; rfl, by rw [hstand]; rfl, by rw [hstand], by rw [hstand]; rfl, by rw [hstand], by rw [hstand]; rfl,
    by rw [hstand]; rfl, by rw [hstand]; rfl, by rw [hstand]; exact hmask, by rw [hstand]; exact hmode, by rw [hstand]; exact hcall,
    by rw [hstand], folder_resetStand st s, fun m hm => ?_, fun hidle => (resetStand_of_idle hidle).2, fun n sp hact => ?_⟩
  · cases hact : s.activeSplice st with
    | none => exact (resetStand_of_idle hact).1 m
    | some p =>
      have hne : m ≠ p.1 := fun e => hm p.2 (e ▸ hact)
      exact (splice?_resetStand st s m).trans (splice?_endAtReset_ne (s := clearDiameters st s) hact hne)
  · have hspliced : t.splice? n = (splicelessAtReset st s).splice? n := splice?_resetStand st s n
    obtain ⟨hheld, hbutt, hchain⟩ := queue_resetStand_of_active hact
    refine ⟨fun hack => ?_, fun x hx => ?_, hheld, hbutt, hchain, reel?_resetStand_of_active hact⟩
    · rw [hspliced]
      exact splice?_endAtReset_ne_none (s := clearDiameters st s) hact hack
    · exact splice?_of_endAtReset (s := clearDiameters st s) hact (hspliced ▸ hx)

end Sys2Proof.Machine
end

section
/-! SAMPLING_TIMER_EXPIRY (R103, R133 to R135, R137: SamplingDebouncesEveryInput). -/

namespace Sys2Proof.Machine

/-! ### One input debounced (R133) -/

/-- The sample with this level completes an acceptance. -/
def Debounce.completes (d : Debounce) (level : Fin 4) : Bool :=
  decide (d.accepted ≠ some level) && decide (d.candidate = some level) && decide (d.run = 2)

theorem take_eq (d : Debounce) (level : Fin 4) : d.take level =
    (if d.accepted = some level then { d with candidate := none, run := 0 }
      else if d.candidate = some level then
        if d.run = 2 then { accepted := some level, candidate := none, run := 0 } else { d with run := d.run + 1 }
      else { d with candidate := some level, run := 1 }, d.completes level) := by
  unfold Debounce.take Debounce.completes
  by_cases ha : d.accepted = some level
  · simp [ha]
  · by_cases hc : d.candidate = some level
    · by_cases hr : d.run = 2 <;> simp [ha, hc, hr]
    · simp [ha, hc]

/-- A completed acceptance is the level's. -/
theorem take_of_completes {d : Debounce} {level : Fin 4} (h : d.completes level = true) :
    (d.take level).1 = { accepted := some level, candidate := none, run := 0 } := by
  simp only [Debounce.completes, Bool.and_eq_true, decide_eq_true_eq] at h
  obtain ⟨⟨ha, hc⟩, hr⟩ := h
  rw [take_eq]
  simp [ha, hc, hr]

theorem allInputs_inputIx (i : Input) : allInputs[(inputIx i).val]? = some i := by
  cases i with
  | reelPresent a => fin_cases a <;> rfl
  | pasterHome | pasterEngaged | knifeHome | webPresent | safetyGate | driverHot | star => rfl

theorem nodup_allInputs : allInputs.Nodup := by decide

theorem mem_allInputs (i : Input) : i ∈ allInputs := List.mem_of_getElem? (allInputs_inputIx i)

theorem inputIx_inj {i j : Input} : inputIx i = inputIx j ↔ i = j := by
  refine ⟨fun h => ?_, fun h => h ▸ rfl⟩
  have hplace := allInputs_inputIx i
  rw [h, allInputs_inputIx j] at hplace
  exact (Option.some.inj hplace).symm

/-! ### The field interface after one sample of one input (R134, R137) -/

/-- The change set with its snapshot number. -/
def Field.log (x : Field) : List ChangeEntry × Nat := (x.changes, x.snapshot)

/-- The timers and outputs of a field interface. -/
def Field.drivers (x : Field) : Timer × Actuator × Actuator × Actuator × Timer :=
  (x.samplingTimer, x.paster, x.knife, x.brake, x.knifePulse)

/-- A later acceptance entered in the change set (R137). -/
def Field.entered (sample : Sample) (x : Field) (i : Input) : Field :=
  if (x.input i).completes (sampleLevel sample i) && (x.input i).accepted.isSome then x.enter i (sampleLevel sample i) else x

/-- The field interface after one sample of one input: debounced, a later acceptance entered, what a block takes handed on. -/
def Field.sampled (sample : Sample) (x : Field) (i : Input) : Field := { x.entered sample i with
  inputs := (x.setInput i ((x.input i).take (sampleLevel sample i)).1).inputs
  handed := x.handed ++
    if (x.input i).completes (sampleLevel sample i) && handsOn i (sampleLevel sample i) (x.input i).accepted.isNone then
      [{ input := i, level := sampleLevel sample i }]
    else [] }

theorem drivers_sampled (sample : Sample) (x : Field) (i : Input) : (x.sampled sample i).drivers = x.drivers := by
  unfold Field.sampled Field.entered Field.enter Field.advance
  dsimp only
  split
  · split <;> rfl
  · rfl

theorem input_sampled (sample : Sample) (x : Field) (i j : Input) : (x.sampled sample i).input j =
    if j = i then ((x.input j).take (sampleLevel sample j)).1 else x.input j := by
  refine (input_setInput x i j _).trans ?_
  simp only [inputIx_inj]
  split
  · next e => rw [e]
  · rfl

theorem input_sampled_ne (sample : Sample) (x : Field) {i j : Input} (h : j ≠ i) : (x.sampled sample i).input j = x.input j := by
  rw [input_sampled, if_neg h]

/-- What an entry makes of the change set depends on the change set only. -/
theorem log_enter {x y : Field} (h : x.log = y.log) (i : Input) (level : Fin 4) : (x.enter i level).log = (y.enter i level).log := by
  obtain ⟨hchanges, hsnapshot⟩ := Prod.mk.inj h
  unfold Field.enter Field.advance Field.log
  dsimp only
  rw [hsnapshot]
  split <;> simp only [hchanges]

theorem log_sampled (sample : Sample) (x : Field) (i : Input) : (x.sampled sample i).log =
    if (x.input i).completes (sampleLevel sample i) && (x.input i).accepted.isSome then (x.enter i (sampleLevel sample i)).log
    else x.log := by
  have hentered : (x.sampled sample i).log = (x.entered sample i).log := rfl
  rw [hentered, Field.entered]
  split <;> rfl

/-! ### The field interface after the samples of several inputs, each once -/

theorem drivers_samples (sample : Sample) (l : List Input) : ∀ x : Field,
    (l.foldl (Field.sampled sample) x).drivers = x.drivers := by
  induction l with
  | nil => exact fun _ => rfl
  | cons i l ih => exact fun x => (ih _).trans (drivers_sampled sample x i)

/-- Each input of the list is debounced by itself. -/
theorem input_samples (sample : Sample) (j : Input) {l : List Input} (hl : l.Nodup) : ∀ x : Field,
    (l.foldl (Field.sampled sample) x).input j = if j ∈ l then ((x.input j).take (sampleLevel sample j)).1 else x.input j := by
  induction l with
  | nil => intro x; simp
  | cons i l ih =>
    intro x
    obtain ⟨hi, hl⟩ := List.nodup_cons.1 hl
    rw [List.foldl_cons, ih hl, input_sampled]
    by_cases e : j = i
    · subst e
      simp [hi]
    · simp [e]

/-- The changes handed on, in the order of the list (log 3). -/
theorem handed_samples (sample : Sample) {l : List Input} (hl : l.Nodup) : ∀ x : Field,
    (l.foldl (Field.sampled sample) x).handed = x.handed ++ (l.filter (fun i => (x.input i).completes (sampleLevel sample i)
      && handsOn i (sampleLevel sample i) (x.input i).accepted.isNone)).map (fun i => { input := i, level := sampleLevel sample i }) := by
  induction l with
  | nil => intro x; simp
  | cons i l ih =>
    intro x
    obtain ⟨hi, hl⟩ := List.nodup_cons.1 hl
    have hrest : ∀ j ∈ l, (x.sampled sample i).input j = x.input j :=
      fun j hj => input_sampled_ne sample x (ne_of_mem_of_not_mem hj hi)
    rw [List.foldl_cons, ih hl, List.filter_cons, List.filter_congr (fun j hj => by rw [hrest j hj]), Field.sampled]
    split <;> simp

/-- The later acceptances entered in the change set, in the order of the list (log 8). -/
theorem log_samples (sample : Sample) {l : List Input} (hl : l.Nodup) : ∀ x y : Field, x.log = y.log →
    (l.foldl (Field.sampled sample) x).log = ((l.filter (fun i => (x.input i).completes (sampleLevel sample i)
      && (x.input i).accepted.isSome)).foldl (fun y i => y.enter i (sampleLevel sample i)) y).log := by
  induction l with
  | nil => exact fun _ _ h => h
  | cons i l ih =>
    intro x y h
    obtain ⟨hi, hl⟩ := List.nodup_cons.1 hl
    have hrest : ∀ j ∈ l, (x.sampled sample i).input j = x.input j :=
      fun j hj => input_sampled_ne sample x (ne_of_mem_of_not_mem hj hi)
    have hentered := log_sampled sample x i
    rw [List.foldl_cons, List.filter_cons,
      ← List.filter_congr (p := fun j => ((x.sampled sample i).input j).completes (sampleLevel sample j)
        && ((x.sampled sample i).input j).accepted.isSome) (fun j hj => by rw [hrest j hj])]
    split
    · next hc => exact ih hl _ _ (hentered.trans ((if_pos hc).trans (log_enter h i _)))
    · next hc => exact ih hl _ _ (hentered.trans ((if_neg hc).trans h))

/-! ### The stand after one sample of one input (R103) -/

/-- INDEX-REQ as gate and knife would have it. -/
def Field.wantsIndex (x : Field) : Bool :=
  decide ((x.input .safetyGate).accepted = some 1) && decide ((x.input .knifeHome).accepted = some 1)

/-- INDEX-REQ and its timer following (R103). -/
def Working.follow (w : Working) (want : Bool) (timeout : Nat) : Working :=
  if want = w.indexReq then w
  else { w with indexReq := want, indexTimer := if want then some (timeout * 1000) else none }

/-- An acceptance that no block takes, made in INDEXING (log 3). -/
def Debounce.settles (d : Debounce) (i : Input) (level : Fin 4) (indexing : Bool) : Bool :=
  d.completes level && !handsOn i level d.accepted.isNone && indexing

/-- The stand after one sample of one input: INDEX-REQ follows an acceptance of KNIFE-HOME or SAFETY-GATE that no block takes. -/
def Stand.sampled (sample : Sample) (indexing : Bool) (x : Stand) (i : Input) : Stand := { x with
  field := x.field.sampled sample i
  seq := { x.seq with
    work := if gatesIndex i && (x.field.input i).settles i (sampleLevel sample i) indexing then
        x.seq.work.follow (x.field.sampled sample i).wantsIndex x.profile.settings.indexTimeout
      else x.seq.work } }

theorem modStand_congr {s : State} {st : StandIx} {f g : Stand → Stand} (h : f (s.stand st) = g (s.stand st)) :
    s.modStand st f = s.modStand st g := by
  unfold State.modStand
  rw [h]

theorem modStand_self (s : State) (st : StandIx) : s.modStand st (fun x => x) = s := by
  simp [State.modStand, State.stand, Vector.get_eq_getElem]

/-- An update that keeps the active splice's number keeps the splice's state. -/
theorem spliceState_modStand {s : State} {st : StandIx} {f : Stand → Stand}
    (h : (f (s.stand st)).seq.work.active = (s.stand st).seq.work.active) :
    (s.modStand st f).spliceState st = s.spliceState st := by
  have hactive : ((s.modStand st f).work st).active = (s.work st).active := by
    rw [State.work, stand_modStand]
    exact h
  unfold State.spliceState State.activeSplice
  rw [hactive]
  rfl

theorem updateIndexReq_eq (st : StandIx) (s : State) : updateIndexReq st s = s.modStand st (fun x => { x with
    seq := { x.seq with
      work := if s.spliceState st = some .indexing then x.seq.work.follow x.field.wantsIndex x.profile.settings.indexTimeout
        else x.seq.work } }) := by
  by_cases h : s.spliceState st = some .indexing
  · simp only [if_pos h]
    by_cases hw : (s.stand st).field.wantsIndex = (s.stand st).seq.work.indexReq
    · refine ((updateIndexReq_of_indexing h).trans (if_pos hw)).trans ((modStand_self s st).symm.trans (modStand_congr ?_))
      rw [Working.follow, if_pos hw]
    · refine ((updateIndexReq_of_indexing h).trans (if_neg hw)).trans ?_
      unfold State.modWork State.modSeq
      refine modStand_congr ?_
      rw [Working.follow, if_neg hw]
      rfl
  · simp only [if_neg h]
    exact (updateIndexReq_of_not_indexing h).trans (modStand_self s st).symm

/-- The acceptance that a sample completes, less its hand-over. -/
theorem acceptInput_eq {st : StandIx} {i : Input} {sample : Sample} {s : State}
    (h : ((s.stand st).field.input i).completes (sampleLevel sample i) = true) :
    acceptInput st i (sampleLevel sample i) s = s.modField st (fun x => { x.sampled sample i with handed := x.handed }) := by
  refine modField_congr ?_
  rw [Field.sampled, Field.entered, take_of_completes h, h, Bool.true_and]
  unfold Field.enter Field.advance
  split
  · dsimp only [Field.setInput]
    split <;> rfl
  · rfl

theorem sampleInput_eq (st : StandIx) (sample : Sample) (i : Input) (s : State) : sampleInput st i (sampleLevel sample i) s =
    s.modStand st (fun x => x.sampled sample (decide (s.spliceState st = some .indexing)) i) := by
  have htake : (((s.stand st).field.input i).take (sampleLevel sample i)).2 =
    ((s.stand st).field.input i).completes (sampleLevel sample i) := by rw [take_eq]
  unfold sampleInput
  dsimp only
  rw [htake]
  by_cases hc : ((s.stand st).field.input i).completes (sampleLevel sample i) = true
  · rw [if_pos hc, acceptInput_eq hc]
    by_cases hon : handsOn i (sampleLevel sample i) ((s.stand st).field.input i).accepted.isNone = true
    · rw [if_pos hon]
      simp only [State.modField, modStand_modStand]
      refine modStand_congr ?_
      simp [Stand.sampled, Debounce.settles, hon, Field.sampled, hc]
    · rw [if_neg hon, settleIndex, State.modField]
      by_cases hg : gatesIndex i = true
      · rw [if_pos hg, updateIndexReq_eq, spliceState_modStand rfl, modStand_modStand]
        refine modStand_congr ?_
        simp [Stand.sampled, Debounce.settles, hon, Field.sampled, hc, hg]
      · rw [if_neg hg]
        refine modStand_congr ?_
        simp [Stand.sampled, hon, Field.sampled, hg]
  · rw [if_neg hc]
    refine modStand_congr ?_
    simp [Stand.sampled, Debounce.settles, Field.sampled, Field.entered, hc]
    rfl

/-! ### The stand after a whole sample -/

theorem active_follow (w : Working) (want : Bool) (timeout : Nat) : (w.follow want timeout).active = w.active := by
  unfold Working.follow
  split <;> rfl

theorem active_sampled (sample : Sample) (indexing : Bool) (x : Stand) (i : Input) :
    (x.sampled sample indexing i).seq.work.active = x.seq.work.active := by
  unfold Stand.sampled
  dsimp only
  split
  · exact active_follow ..
  · rfl

theorem foldl_sampleInput (st : StandIx) (sample : Sample) (l : List Input) : ∀ s : State,
    l.foldl (fun t i => sampleInput st i (sampleLevel sample i) t) s =
      s.modStand st (fun x => l.foldl (Stand.sampled sample (decide (s.spliceState st = some .indexing))) x) := by
  induction l with
  | nil => exact fun s => (modStand_self s st).symm
  | cons i l ih =>
    intro s
    rw [List.foldl_cons, ih, sampleInput_eq, spliceState_modStand (active_sampled ..), modStand_modStand]
    rfl

theorem field_samples (sample : Sample) (indexing : Bool) (l : List Input) : ∀ x : Stand,
    (l.foldl (Stand.sampled sample indexing) x).field = l.foldl (Field.sampled sample) x.field := by
  induction l with
  | nil => exact fun _ => rfl
  | cons i l ih => exact fun x => ih _

/-- A sample changes the field interface and the working data. -/
theorem foldl_sampled_eq (sample : Sample) (indexing : Bool) (l : List Input) : ∀ x : Stand,
    l.foldl (Stand.sampled sample indexing) x = { x with
      field := (l.foldl (Stand.sampled sample indexing) x).field
      seq := { x.seq with work := (l.foldl (Stand.sampled sample indexing) x).seq.work } } := by
  induction l with
  | nil => exact fun _ => rfl
  | cons i l ih => exact fun x => ih _

/-- INDEX-REQ after a whole sample: KNIFE-HOME judged with the gate as it was, then SAFETY-GATE with the new knife (log 8). -/
theorem work_samples (sample : Sample) (indexing : Bool) (x : Stand) :
    let y := allInputs.foldl (Field.sampled sample) x.field
    let knife := decide ((y.input .knifeHome).accepted = some 1)
    let settled : Input → Bool := fun i => (x.field.input i).settles i (sampleLevel sample i) indexing
    let follow : Bool → Working → Working := fun want w => w.follow want x.profile.settings.indexTimeout
    let first := if settled .knifeHome then follow (decide ((x.field.input .safetyGate).accepted = some 1) && knife) x.seq.work
      else x.seq.work
    (allInputs.foldl (Stand.sampled sample indexing) x).seq.work =
      if settled .safetyGate then follow (decide ((y.input .safetyGate).accepted = some 1) && knife) first else first := by
  simp only [input_samples sample _ nodup_allInputs, mem_allInputs, if_true]
  -- the eight inputs that INDEX-REQ does not depend on leave the working data, each sample the other inputs
  rw [allInputs]
  simp [List.foldl_cons, List.foldl_nil, Stand.sampled, gatesIndex, Field.wantsIndex, input_sampled]

/-! ### The three parts of R133 to R137 -/

theorem sampleLevel_star (sample : Sample) : (sampleLevel sample .star).val = 2 * sample.star1.toNat + sample.star0.toNat := by
  have hcode : ∀ star0 star1 : Bool, (starCode star0 star1).val = 2 * star1.toNat + star0.toNat := by decide
  exact hcode sample.star0 sample.star1

theorem enter_eq (x : Field) (i : Input) (level : Fin 4) :
    let old := x.changes.find? (fun e => decide (e.input = i))
    let number := if x.snapshot = 4294967295 then 1 else x.snapshot + 1
    x.enter i level = { x with
      snapshot := number
      changes :=
        (if x.snapshot = 4294967295 then x.changes.map (fun e => { e with last := 0 }) else x.changes).filter
            (fun e => !decide (e.input = i))
          ++ [{ input := i, level := level, changes := min 255 (old.elim 0 (fun e => e.changes) + 1), last := number }] } := by
  have hentry : ∀ (snapshot : Nat) (old : Option ChangeEntry), nextEntry i level snapshot old =
      { input := i, level := level, changes := min 255 (old.elim 0 (fun e => e.changes) + 1), last := snapshot } := by
    intro snapshot old
    cases old <;> rfl
  dsimp only [Field.enter, Field.advance]
  by_cases hwrap : x.snapshot = 4294967295
  · -- the wrap leaves each entry its input and its count
    have hold : (x.changes.map (fun e => { e with last := 0 })).find? (fun e => decide (e.input = i)) =
        (x.changes.find? (fun e => decide (e.input = i))).map (fun e => { e with last := 0 }) := List.find?_map ..
    simp only [if_pos hwrap, hentry, hold]
    cases x.changes.find? (fun e => decide (e.input = i)) <;> rfl
  · simp only [if_neg hwrap, hentry]

/-- The stand after SAMPLING_TIMER_EXPIRY: a whole sample, and the timer restarted. -/
def Stand.resampled (sample : Sample) (indexing : Bool) (x : Stand) : Stand := { x with
  field := { allInputs.foldl (Field.sampled sample) x.field with samplingTimer := some 2 }
  seq := { x.seq with work := (allInputs.foldl (Stand.sampled sample indexing) x).seq.work } }

theorem exec_samplingTimerExpiry {s : State} (h : s.runs) (st : StandIx) (sample : Sample) :
    exec (.samplingTimerExpiry st sample) s =
      .next (s.modStand st (Stand.resampled sample (decide (s.spliceState st = some .indexing)))) := by
  simp only [exec, execSamplingTimerExpiry]
  rw [onDevice_of_runs _ h, foldl_sampleInput, State.modField, modStand_modStand]
  refine congrArg Host.Outcome.next (modStand_congr ?_)
  rw [foldl_sampled_eq, field_samples]
  rfl

/-- Settles O42: a sample of the stand is the ten samples of its inputs one by one, and each input is sampled once. -/
theorem samplingDebouncesEveryInput : Obligations.SamplingDebouncesEveryInput := by
  refine ⟨?_, sampleLevel_star, enter_eq⟩
  intro st sample s h x completes later y
  have hinput : ∀ i, (allInputs.foldl (Field.sampled sample) x).input i = ((x.input i).take (sampleLevel sample i)).1 :=
    fun i => (input_samples sample i nodup_allInputs x).trans (if_pos (mem_allInputs i))
  obtain ⟨hchanges, hsnapshot⟩ := Prod.mk.inj (log_samples sample nodup_allInputs x x rfl)
  have hdrivers := drivers_samples sample allInputs x
  simp only [Field.drivers, Prod.mk.injEq] at hdrivers
  obtain ⟨-, hpaster, hknife, hbrake, hpulse⟩ := hdrivers
  have hhanded := handed_samples sample nodup_allInputs x
  have hwork := work_samples sample (decide (s.spliceState st = some .indexing)) (s.stand st)
  have hstand : (s.modStand st (Stand.resampled sample (decide (s.spliceState st = some .indexing)))).stand st = _ :=
    stand_modStand ..
  refine ⟨_, exec_samplingTimerExpiry h st sample, (local_modStand ..).2 (Local.refl st s), ⟨rfl, rfl, rfl, fun _ => rfl⟩, ?_⟩
  generalize s.modStand st _ = t at hstand ⊢
  unfold Stand.resampled at hstand
  change ∀ i, (allInputs.foldl (Field.sampled sample) (s.stand st).field).input i = _ at hinput
  generalize allInputs.foldl (Field.sampled sample) (s.stand st).field = z at *
  have hfield : (t.stand st).field = { z with samplingTimer := some 2 } := congrArg Stand.field hstand
  have haccepted : ∀ i, t.accepted st i = (z.input i).accepted := fun i => congrArg (fun x => (x.input i).accepted) hfield
  rw [hfield]
  refine ⟨fun i => (hinput i).trans (congrArg Prod.fst (take_eq ..)), hchanges, hsnapshot, hhanded, rfl, hpaster, hknife, hbrake,
    hpulse, ?_⟩
  rw [hstand, hwork, haccepted, haccepted]
  rfl

end Sys2Proof.Machine
end

section
/-! WRITE FOLDER (R113, R114, R124, R125: WriteFolderReplacesTheSettings). -/

namespace Sys2Proof.Machine

/-! ### The clamped settings (R113) -/

/-- The four settings replaced by the clamped values; everything else of the folder is kept. -/
def Folder.withSettings (cutoff lead trail spacing : Nat) (F : Folder) : Folder :=
  { F with cutoff := max 400 (min 700 cutoff), lead := min 5 lead, trail := min 10 trail, spacing := min 50000 spacing }

theorem clampNat_zero (hi v : Nat) : clampNat 0 hi v = min hi v := by
  rw [clampNat_eq_max_min (Nat.zero_le hi), Nat.zero_max]

/-- The values carried are kept exactly where each lies in its range. -/
theorem settings_kept_iff (cutoff lead trail spacing : Nat) :
    (max 400 (min 700 cutoff) = cutoff ∧ min 5 lead = lead ∧ min 10 trail = trail ∧ min 50000 spacing = spacing)
    ↔ 400 ≤ cutoff ∧ cutoff ≤ 700 ∧ lead ≤ 5 ∧ trail ≤ 10 ∧ spacing ≤ 50000 := by
  omega

/-! ### The marks past the trail (R124) -/

/-- Whether a mark lies below −trail × cutoff of the folder. -/
def State.belowTrail (s : State) (f : FolderIx) (r : SpliceRef) : Bool :=
  match s.remainingOf r with
  | some d => decide (d < -((s.folder f).trail * (s.folder f).cutoff : Int))
  | none => false

/-- With every mark judged, the ejected ones are those below the trail, in track order. -/
theorem ejectPast_all (f : FolderIx) (s : State) : ejectPast f (fun _ => true) s =
    ((s.trackOrder f).filter (s.belowTrail f)).foldl (fun t r => eject f r.splice t) s := rfl

/-- The marks are judged against the settings just written. -/
theorem belowTrail_withSettings (cutoff lead trail spacing : Nat) (f : FolderIx) (s : State) (r : SpliceRef) :
    (s.modFolder f (Folder.withSettings cutoff lead trail spacing)).belowTrail f r =
      match (s.modFolder f (Folder.withSettings cutoff lead trail spacing)).remainingOf r with
      | some d => decide (d < -((min 10 trail : Nat) * (max 400 (min 700 cutoff) : Nat) : Int))
      | none => false := by
  unfold State.belowTrail
  rw [folder_modFolder]
  rfl

/-! ### The request (R114) -/

theorem exec_writeFolder (c : Client) (folder cutoff lead trail spacing : Nat) {s : State}
    (h : s.takes (.writeFolder c folder cutoff lead trail spacing)) :
    exec (.writeFolder c folder cutoff lead trail spacing) s =
      match folderIx folder with
      | none => answered (.writeFolder c folder cutoff lead trail spacing) badRequest s
      | some f =>
        if c ≠ .console then answered (.writeFolder c folder cutoff lead trail spacing) notPermitted s
        else answered (.writeFolder c folder cutoff lead trail spacing)
          (plain (if 400 ≤ cutoff ∧ cutoff ≤ 700 ∧ lead ≤ 5 ∧ trail ≤ 10 ∧ spacing ≤ 50000 then .done else .doneClamped))
          (grantOccasion f
            (ejectPast f (fun _ => true) (s.modFolder f (Folder.withSettings cutoff lead trail spacing)))) := by
  simp only [exec, execWriteFolder]
  rw [serve_of_takes _ h]
  cases folderIx folder with
  | none => rfl
  | some f =>
    dsimp only
    split
    · rfl
    · simp only [clampNat_zero, clampNat_eq_max_min (show 400 ≤ 700 by decide), doneClamped_not, settings_kept_iff]
      rfl

/-- Settles O24: the checks one after the other, then the settings written, the marks below the new trail ejected and the
occasion handed on. -/
theorem writeFolderReplacesTheSettings : Obligations.WriteFolderReplacesTheSettings := by
  intro c folder cutoff lead trail spacing s h
  rw [exec_writeFolder c folder cutoff lead trail spacing h]
  cases folderIx folder with
  | none => rfl
  | some f =>
    dsimp only
    rw [ejectPast_all, List.filter_congr (fun r _ => belowTrail_withSettings cutoff lead trail spacing f s r)]
    rfl

end Sys2Proof.Machine
end

section
/-! The track and the gate (R127, R129) and the FOLDER-CUT pulse (R128: TheGateFollowsTheWindow). -/

namespace Sys2Proof.Machine

/-! ### The two requests (R127, R129) -/

theorem exec_readTrack (c : Client) (folder : Nat) {s : State} (h : s.takes (.readTrack c folder)) :
    exec (.readTrack c folder) s =
      match folderIx folder with
      | none => answered (.readTrack c folder) badRequest s
      | some f => answered (.readTrack c folder) (doneWith (.track (s.trackImage f))) s := by
  simp only [exec, execReadTrack]
  rw [serve_of_takes _ h]
  cases folderIx folder <;> rfl

theorem exec_forceGate (c : Client) (folder : Nat) (x : GateForce) {s : State} (h : s.takes (.forceGate c folder x)) :
    exec (.forceGate c folder x) s =
      match folderIx folder with
      | none => answered (.forceGate c folder x) badRequest s
      | some f =>
        if c ≠ .console then answered (.forceGate c folder x) notPermitted s
        else answered (.forceGate c folder x) done (s.modFolder f (fun F => { F with force := x })) := by
  simp only [exec, execForceGate]
  rw [serve_of_takes _ h]
  cases folderIx folder with
  | none => rfl
  | some f =>
    dsimp only
    split
    · rfl
    · rfl

/-! ### The window and the gate (R127) -/

theorem remainingOf_eq_some (s : State) (r : SpliceRef) (d : Int) :
    s.remainingOf r = some d ↔ ∃ sp, s.splice? r.splice = some sp ∧ sp.mark.remaining = some d := by
  unfold State.remainingOf State.markOf
  cases s.splice? r.splice <;> simp

theorem inWindow_iff (F : Folder) (d : Int) :
    F.inWindow d = true ↔ -(F.trail * F.cutoff : Int) ≤ d ∧ d ≤ (F.lead * F.cutoff : Int) := by
  unfold Folder.inWindow
  rw [Bool.and_eq_true, decide_eq_true_iff, decide_eq_true_iff]
  rfl

theorem refInWindow_iff (s : State) (f : FolderIx) (r : SpliceRef) :
    s.refInWindow f r = true ↔ ∃ d, s.remainingOf r = some d ∧ (s.folder f).inWindow d = true := by
  unfold State.refInWindow
  cases s.remainingOf r <;> simp

theorem gateOpen_iff {s : State} (h : s.runs) (f : FolderIx) :
    s.gateOpen f = true ↔ (s.folder f).force = .heldOpen ∨ ∃ r ∈ (s.folder f).track, s.refInWindow f r = true := by
  simp [State.gateOpen, h]

/-! ### A FOLDER-CUT pulse (R128) -/

/-- One more waste copy, saturating. -/
def Splice.wasteCopy (sp : Splice) : Splice := { sp with mark := { sp.mark with waste := min 65535 (sp.mark.waste + 1) } }

/-- One more waste copy for the mark of each splice of a list. -/
def State.wasteCopies (s : State) (l : List SpliceRef) : State :=
  l.foldl (fun t r => t.modSplice r.splice Splice.wasteCopy) s

/-- The marks on a folder's track that are in its window. -/
def State.windowMarks (s : State) (f : FolderIx) : List SpliceRef := (s.folder f).track.filter (s.refInWindow f)

theorem exec_folderCutPulse (f : FolderIx) {s : State} (h : s.runs) : exec (.folderCutPulse f) s =
    .next (if s.gateOpen f = true then
      (s.wasteCopies (s.windowMarks f)).modFolder f (fun F => { F with wasteCount := F.wasteCount + 1 })
    else s) := by
  rw [exec, execFolderCutPulse, onDevice_of_runs _ h]
  rfl

/-- Waste copies change the Splice Table alone. -/
theorem wasteCopies_frame (l : List SpliceRef) : ∀ s : State,
    (s.wasteCopies l).beside = s.beside ∧ (s.wasteCopies l).folders = s.folders ∧ (s.wasteCopies l).lastAnswer = s.lastAnswer := by
  induction l with
  | nil => exact fun _ => ⟨rfl, rfl, rfl⟩
  | cons r l ih => exact fun s => ih (s.modSplice r.splice Splice.wasteCopy)

/-- Each splice of a list that names none twice counts one copy, and no other counts any. -/
theorem splice?_wasteCopies (n : Nat) {l : List SpliceRef} (hl : (l.map SpliceRef.splice).Nodup) : ∀ s : State,
    (s.wasteCopies l).splice? n =
      if n ∈ l.map SpliceRef.splice then (s.splice? n).map Splice.wasteCopy else s.splice? n := by
  induction l with
  | nil => exact fun _ => rfl
  | cons r l ih =>
    intro s
    rw [List.map_cons, List.nodup_cons] at hl
    obtain ⟨hr, hl⟩ := hl
    have hstep := ih hl (s.modSplice r.splice Splice.wasteCopy)
    rw [splice?_modSplice_eq] at hstep
    refine hstep.trans ?_
    by_cases hn : n = r.splice
    · subst hn
      simp [hr]
    · simp [hn]

/-- The splices whose marks the pulse counts for. -/
theorem mem_splices_windowMarks (s : State) (f : FolderIx) (n : Nat) : n ∈ (s.windowMarks f).map SpliceRef.splice ↔
    (s.folder f).track.any (fun r => decide (r.splice = n) && s.refInWindow f r) = true := by
  simp only [State.windowMarks, List.mem_map, List.mem_filter, List.any_eq_true, Bool.and_eq_true, decide_eq_true_eq]
  exact exists_congr (fun r => by tauto)

/-- With each splice listed once, one copy for each mark in the window. -/
theorem splice?_wasteCopies_window {s : State} {f : FolderIx} (hdistinct : ((s.folder f).track.map SpliceRef.splice).Nodup)
    (n : Nat) : (s.wasteCopies (s.windowMarks f)).splice? n = (s.splice? n).map (fun sp =>
      if (s.folder f).track.any (fun r => decide (r.splice = n) && s.refInWindow f r) then sp.wasteCopy else sp) := by
  have hmarks : ((s.windowMarks f).map SpliceRef.splice).Nodup := hdistinct.sublist (List.filter_sublist.map _)
  rw [splice?_wasteCopies n hmarks]
  simp only [← mem_splices_windowMarks]
  split
  · rfl
  · exact Option.map_id_apply.symm

/-- Settles O39: the two requests, the gate by force and window, and the pulse at a closed and at an open gate. -/
theorem theGateFollowsTheWindow : Obligations.TheGateFollowsTheWindow := by
  refine ⟨fun c folder s h => exec_readTrack c folder h, fun c folder x s h => exec_forceGate c folder x h, fun f s hrun => ?_,
    fun f s hrun => ⟨fun hclosed => ?_, fun hopen hdistinct => ?_⟩⟩
  · rw [gateOpen_iff hrun]
    simp only [refInWindow_iff, inWindow_iff, remainingOf_eq_some]
    refine or_congr_right (exists_congr fun r => and_congr_right' ⟨?_, ?_⟩)
    · rintro ⟨d, ⟨sp, hsp, hd⟩, hwindow⟩
      exact ⟨sp, d, hsp, hd, hwindow⟩
    · rintro ⟨sp, d, hsp, hd, hwindow⟩
      exact ⟨d, ⟨sp, hsp, hd⟩, hwindow⟩
  · rw [exec_folderCutPulse f hrun, if_neg (by simp [hclosed])]
  · obtain ⟨hbeside, hfolders, hanswer⟩ := wasteCopies_frame (s.windowMarks f) s
    obtain ⟨hstands, hreels, hnext, hlink⟩ := beside_eq_iff.1 hbeside
    have hfolder : ∀ g, (s.wasteCopies (s.windowMarks f)).folder g = s.folder g :=
      fun g => congrArg (fun v => v.get g) hfolders
    rw [exec_folderCutPulse f hrun, if_pos hopen]
    refine ⟨_, rfl, ?_, fun g hg => ?_, splice?_wasteCopies_window hdistinct, hstands, hreels, hnext, hlink, hanswer⟩
    · rw [folder_modFolder, hfolder]
    · rw [folder_modFolder_ne _ _ hg, hfolder]

end Sys2Proof.Machine
end

section
/-! The device held by the RESET pin (R145, R170: ResetPinHoldsTheDevice), and CLEAR CHANGES, TAKE CALL and the order of the
change set (R138, R139, R159: ClearChangesAndTakeCall). -/

namespace Sys2Proof.Machine

/-! ### The outputs of a stand drop (R145, R170) -/

/-- The stand with its actuators, DRIVE-EN, DEMAND and INDEX-REQ in their reset state, all else kept. -/
def Stand.dropped (x : Stand) : Stand := { x with
  field := { x.field with paster := Actuator.reset, knife := Actuator.reset, brake := Actuator.reset, knifePulse := none }
  seq := { x.seq with work := { x.seq.work with driveEn := false, demand := 0, indexReq := false, indexTimer := none } } }

/-- Outputs that are down stay down. -/
theorem Stand.dropped_dropped (x : Stand) : x.dropped.dropped = x.dropped := rfl

theorem stand_dropOutputs (j : StandIx) (s : State) (i : StandIx) :
    (dropOutputs j s).stand i = if i = j then (s.stand i).dropped else s.stand i := by
  unfold dropOutputs
  split
  · next h =>
    subst h
    rw [stand_modWork, stand_modField]
    rfl
  · next h => rw [stand_modWork_ne _ _ h, stand_modField_ne _ _ h]

theorem link_dropOutputs (j : StandIx) (s : State) : (dropOutputs j s).link = s.link := rfl

/-- The outputs of exactly the stands listed drop; a stand listed twice is as if listed once. -/
theorem stand_foldl_dropOutputs (l : List StandIx) (i : StandIx) : ∀ s : State,
    (l.foldl (fun s j => dropOutputs j s) s).stand i = if i ∈ l then (s.stand i).dropped else s.stand i := by
  induction l with
  | nil => exact fun _ => rfl
  | cons j l ih =>
    intro s
    rw [List.foldl_cons, ih, stand_dropOutputs]
    by_cases hj : i = j
    · simp [hj, Stand.dropped_dropped]
    · simp [hj]

theorem link_foldl_dropOutputs (l : List StandIx) : ∀ s : State,
    (l.foldl (fun s j => dropOutputs j s) s).link = s.link := by
  induction l with
  | nil => exact fun _ => rfl
  | cons j l ih => exact fun s => (ih (dropOutputs j s)).trans (link_dropOutputs j s)

/-- The assertion of the pin drops the outputs of every stand and cuts off the frame on the line. -/
theorem exec_resetPinAsserted (s : State) : ∃ t, exec .resetPinAsserted s = .next t
    ∧ (∀ i, t.stand i = (s.stand i).dropped) ∧ t.link = { s.link with line := none, resetPin := true } := by
  refine ⟨_, rfl, fun i => ?_, ?_⟩
  · rw [stand_modLink, stand_foldl_dropOutputs, if_pos (mem_allStands i)]
  · rw [link_modLink, link_foldl_dropOutputs]

/-! ### The held device (R170) -/

/-- The computed outputs read as deasserted while the pin is asserted. -/
theorem computedOutputs_of_resetPin {s : State} (h : s.link.resetPin = true) : (∀ f, s.gateOpen f = false)
    ∧ s.stopReq = false ∧ s.attnCon = false ∧ s.attnLog = false ∧ ∀ i, s.panelLamp i = false := by
  simp [State.gateOpen, State.stopReq, State.attnCon, State.attnLog, State.panelLamp, h]

/-- A request, RESET DEVICE included, is not taken while the pin is asserted. -/
theorem exec_request_of_resetPin {s : State} {c : Instr} (hreq : requestClient c ≠ none) (h : s.link.resetPin = true) :
    exec c s = .next s := by
  by_cases hreset : ∃ k, c = .resetDevice k
  · obtain ⟨k, rfl⟩ := hreset
    exact onDevice_of_resetPin _ h
  · obtain ⟨own, hown⟩ := exec_request c hreq (fun k hk => hreset ⟨k, hk⟩)
    rw [hown, serve_of_resetPin c own h]

/-- Settles O5: the assertion by its effect on the stands and the link, the held device by how requests and events are taken. -/
theorem resetPinHoldsTheDevice : Obligations.ResetPinHoldsTheDevice := by
  refine fun s => ⟨?_, fun hpin c hpower hassert hrelease => ?_⟩
  · obtain ⟨t, ht, hstand, hlink⟩ := exec_resetPinAsserted s
    obtain ⟨hgate, hstop, hcon, hlog, hlamp⟩ := computedOutputs_of_resetPin (s := t) (by rw [hlink])
    refine ⟨t, ht, fun i => ?_, hgate, hstop, hcon, hlog, hlamp, hlink⟩
    unfold State.work
    rw [hstand i]
    exact ⟨rfl, rfl, rfl, rfl, rfl, rfl, rfl⟩
  · by_cases hreq : requestClient c = none
    · obtain ⟨f, hf⟩ := exec_event c hreq hpower hassert hrelease
      rw [hf, onDevice_of_resetPin f hpin]
    · exact exec_request_of_resetPin hreq hpin

/-! ### CLEAR CHANGES and TAKE CALL (R139, R159) -/

theorem exec_clearChanges {c : Client} {stand snapshot : Nat} {s : State} (h : s.takes (.clearChanges c stand snapshot)) :
    exec (.clearChanges c stand snapshot) s =
      match standIx stand with
      | none => answered (.clearChanges c stand snapshot) badRequest s
      | some st =>
        if ¬ (c = .console ∨ c = .panel st) then answered (.clearChanges c stand snapshot) notPermitted s
        else if (s.stand st).field.snapshot < snapshot then answered (.clearChanges c stand snapshot) badRequest s
        else
          let old := (s.stand st).field.changes
          let kept := old.filter (fun e => decide (snapshot < e.last))
          answered (.clearChanges c stand snapshot)
            (doneWith (.cleared (old.length - kept.length) (s.stand st).field.snapshot))
            (s.modField st (fun x => { x with changes := kept })) := by
  simp only [exec, execClearChanges]
  rw [serve_of_takes _ h]
  cases standIx stand with
  | none => rfl
  | some st =>
    simp only [← consoleOrPanel_iff, Bool.not_eq_true]
    split
    · rfl
    · split
      · rfl
      · rfl

/-- One flag is cleared; the other, the stored condition and the entries stand. -/
theorem Queue.takeCall_eq (q : Queue) (flag : CallFlag) : q.takeCall flag =
    { q with reelCall := q.reelCall && decide (flag = .buttOut), buttOut := q.buttOut && decide (flag = .reelCall) } := by
  cases flag <;> simp [Queue.takeCall]

theorem exec_takeCall {c : Client} {stand : Nat} {flag : CallFlag} {s : State} (h : s.takes (.takeCall c stand flag)) :
    exec (.takeCall c stand flag) s =
      match standIx stand with
      | none => answered (.takeCall c stand flag) badRequest s
      | some st =>
        if c ≠ .logistics then answered (.takeCall c stand flag) notPermitted s
        else
          let q := (s.stand st).queue.takeCall flag
          answered (.takeCall c stand flag) (doneWith (.calls q.reelCall q.buttOut)) (s.modQueue st (fun _ => q)) := by
  simp only [exec, execTakeCall]
  rw [serve_of_takes _ h]
  cases standIx stand with
  | none => rfl
  | some st =>
    dsimp only
    split
    · rfl
    · rfl

/-! ### The order of the change set (R138) -/

theorem perm_insertChange (e : ChangeEntry) (l : List ChangeEntry) : (insertChange e l).Perm (e :: l) := by
  induction l with
  | nil => exact List.Perm.refl _
  | cons x l ih =>
    unfold insertChange
    split
    · exact List.Perm.refl _
    · exact (ih.cons x).trans (List.Perm.swap e x l)

/-- An entry is inserted where its last change stands. -/
theorem sorted_insertChange (e : ChangeEntry) {l : List ChangeEntry} (h : l.Pairwise (fun a b => a.last ≤ b.last)) :
    (insertChange e l).Pairwise (fun a b => a.last ≤ b.last) := by
  induction l with
  | nil => exact List.pairwise_singleton _ _
  | cons x l ih =>
    obtain ⟨hx, hl⟩ := List.pairwise_cons.1 h
    unfold insertChange
    split
    · next hlt => exact h.cons (List.forall_mem_cons.2 ⟨hlt.le, fun y hy => hlt.le.trans (hx y hy)⟩)
    · next hge =>
      have hall : ∀ y ∈ e :: l, x.last ≤ y.last := List.forall_mem_cons.2 ⟨not_lt.1 hge, hx⟩
      exact (ih hl).cons (fun y hy => hall y ((perm_insertChange e l).mem_iff.1 hy))

/-- Entries inserted one after the other into an ordered list give an ordered list of them all. -/
theorem foldl_insertChange (l : List ChangeEntry) : ∀ a : List ChangeEntry, a.Pairwise (fun a b => a.last ≤ b.last) →
    (l.foldl (fun l e => insertChange e l) a).Perm (l ++ a)
    ∧ (l.foldl (fun l e => insertChange e l) a).Pairwise (fun a b => a.last ≤ b.last) := by
  induction l with
  | nil => exact fun a h => ⟨List.Perm.refl a, h⟩
  | cons e l ih =>
    intro a h
    obtain ⟨hperm, hsorted⟩ := ih _ (sorted_insertChange e h)
    exact ⟨hperm.trans (((perm_insertChange e a).append_left l).trans List.perm_middle), hsorted⟩

/-- Settles O38: the two requests by their equations, the order of the change set by its insertions. -/
theorem clearChangesAndTakeCall : Obligations.ClearChangesAndTakeCall := by
  refine ⟨fun c stand snapshot s h => exec_clearChanges h, fun c stand flag s h => ?_, fun x => ?_⟩
  · rw [exec_takeCall h]
    cases standIx stand with
    | none => rfl
    | some st =>
      simp only [Queue.takeCall_eq]
      split
      · rfl
      · exact congrArg (fun t => Host.Outcome.next (deliver _ _ t)) (modStand_congr rfl)
  · obtain ⟨hperm, hsorted⟩ := foldl_insertChange x.changes [] List.Pairwise.nil
    rw [List.append_nil] at hperm
    exact ⟨hperm, hsorted⟩

end Sys2Proof.Machine
end

section
/-! The status queue: a condition placed in it (R146, R148 to R150, R159: ConditionsGatherInEntries), and the acknowledgement of
its oldest entry (R152, R153: AcknowledgeTheOldestEntry). -/

namespace Sys2Proof.Machine

/-! ### Routing and joining (R149, R150) -/

/-- The three things that route a condition to the panel: LOCAL mode, a delegable condition, its bit in the mask. -/
theorem Queue.routing_eq (q : Queue) (c : Condition) : q.routing c =
    if q.mode = .localMode ∧ conditionBit c < 12 ∧ q.mask.getLsbD (conditionBit c) = true then .panel else .console := by
  unfold Queue.routing delegable
  simp only [decide_eq_true_eq]

/-- A CONSOLE routing takes the entry to CONSOLE; a PANEL routing leaves the destination. -/
theorem StatusEntry.destination_join (e : StatusEntry) (c : Condition) (route : Destination) (r : Option Nat × Option Nat) :
    (e.join c route r).destination = if route = .console then .console else e.destination := by
  unfold StatusEntry.join
  cases route with
  | console => cases e.destination <;> rfl
  | panel => simp

/-- The revision counts a raising once that adds the condition or takes a PANEL entry to CONSOLE. -/
theorem StatusEntry.revision_join (e : StatusEntry) (c : Condition) (route : Destination) (r : Option Nat × Option Nat) :
    (e.join c route r).revision =
      if c ∉ e.conditions ∨ (e.destination = .panel ∧ route = .console) then e.revision + 1 else e.revision := by
  have hmoved : (if e.destination = .panel ∧ route = .console then Destination.console else e.destination) ≠ e.destination
      ↔ e.destination = .panel ∧ route = .console := by
    by_cases h : e.destination = .panel ∧ route = .console
    · simp [h]
    · simp [h]
  unfold StatusEntry.join
  simp only [hmoved, Bool.not_eq_true', decide_eq_false_iff_not]

/-- An entry joined, field by field: serial, attribution, local-at-origin and created time stand. -/
theorem StatusEntry.join_eq (e : StatusEntry) (c : Condition) (route : Destination) (r : Option Nat × Option Nat) :
    e.join c route r = { e with
      conditions := if c ∈ e.conditions then e.conditions else e.conditions ++ [c]
      destination := if route = .console then .console else e.destination
      revision := if c ∉ e.conditions ∨ (e.destination = .panel ∧ route = .console) then e.revision + 1 else e.revision
      residualDiameter := if c = .webEnd ∧ c ∉ e.conditions then r.1 else e.residualDiameter
      residualLength := if c = .webEnd ∧ c ∉ e.conditions then r.2 else e.residualLength } := by
  rw [← e.destination_join c route r, ← e.revision_join c route r]
  simp only [StatusEntry.join, addTo, Bool.not_eq_true', decide_eq_false_iff_not, and_comm]

/-! ### Placing (R148, R149) -/

/-- A condition joins the newest entry where that has its attribution or the queue is full. -/
theorem Queue.place_of_joins {q : Queue} {before : List StatusEntry} {e : StatusEntry} {a : Option Nat}
    (hq : q.entries = before ++ [e]) (hj : e.splice = a ∨ 4 ≤ q.entries.length) (c : Condition) (now : Stamp)
    (r : Option Nat × Option Nat) : q.place c a now r = { q with
      buttOut := q.buttOut || decide (c = .standEnd)
      entries := before ++ [e.join c (q.routing c) r] } := by
  have hlast : q.entries.getLast? = some e := by rw [hq, List.getLast?_concat]
  unfold Queue.place
  simp only [hlast]
  rw [if_pos hj, hq, onLast_append_singleton]
  rfl

/-- A condition makes a new entry where the queue is empty or has room behind an entry of another attribution. -/
theorem Queue.place_of_new {q : Queue} {a : Option Nat}
    (hnew : q.entries = [] ∨ ∃ before e, q.entries = before ++ [e] ∧ e.splice ≠ a ∧ q.entries.length < 4) (c : Condition)
    (now : Stamp) (r : Option Nat × Option Nat) : q.place c a now r = { q with
      buttOut := q.buttOut || decide (c = .standEnd)
      nextSerial := nextNumber q.nextSerial
      entries := q.entries ++ [q.newEntry c a now r] } := by
  unfold Queue.place
  rcases hnew with hempty | ⟨before, e, hq, hother, hroom⟩
  · simp only [hempty]
    rfl
  · have hlast : q.entries.getLast? = some e := by rw [hq, List.getLast?_concat]
    simp only [hlast]
    rw [if_neg (not_or.2 ⟨hother, not_le.2 hroom⟩)]
    rfl

/-- A raising changes the stand's queue and nothing else; what it makes of the queue is the placing. -/
theorem raise_eq_modQueue {st : StandIx} {c : Condition} {s : State} {r : Option Nat × Option Nat} {f : Queue → Queue}
    (h : (s.stand st).queue.place c (s.work st).active s.now r = f (s.stand st).queue) : raise st c s r = s.modQueue st f := by
  unfold raise State.modQueue
  exact modStand_congr (congrArg (fun q => { s.stand st with queue := q }) h)

/-- Settles O35: the queue after the raising by `Queue.place_of_joins` or `Queue.place_of_new`. -/
theorem conditionsGatherInEntries : Obligations.ConditionsGatherInEntries := by
  refine fun st c res s => ⟨fun before e hq hjoin => raise_eq_modQueue ?_, fun hnew => raise_eq_modQueue ?_⟩
  · rw [Queue.place_of_joins hq hjoin, StatusEntry.join_eq, Queue.routing_eq]
  · rw [Queue.place_of_new hnew, Queue.newEntry, Queue.routing_eq]
    rfl

/-! ### Acknowledgement (R152, R153) -/

theorem collect_eq (e : StatusEntry) (s : State) : collect e s =
    match e.splice with
    | some n =>
      if Condition.standEnd ∈ e.conditions ∨ Condition.spliceVoid ∈ e.conditions then
        retire n (s.modSplice n (fun sp => { sp with endAck := true }))
      else s
    | none => s := by
  unfold collect
  cases e.splice with
  | none => exact ite_self s
  | some n => rfl

/-- Collection, then what DRIVER_HOT keeps of the entry before the rest of the queue, then the occasion that the last exception
gives as it goes. -/
theorem acknowledge_eq {st : StandIx} {e : StatusEntry} {rest : List StatusEntry} {s : State}
    (hq : (s.stand st).queue.entries = e :: rest) : acknowledge st e rest s =
      let entries := if s.persists st e then e.persisted :: rest else rest
      let t := (collect e s).modQueue st (fun q => { q with entries := entries })
      if (e :: rest).any (fun e => e.conditions.any isException) = true
          ∧ entries.any (fun e => e.conditions.any isException) = false then chainOccasion st t
      else t := by
  unfold acknowledge
  simp only [← Option.not_isNone, oldestException_isNone, stand_modQueue, hq, Bool.not_not, Bool.not_eq_true']

/-- The last three checks, on the oldest entry (R152), and the answer of an acknowledgement. -/
theorem acknowledgeOldest_eq (st : StandIx) (c : Client) (serial revision : Nat) (e : StatusEntry) (rest : List StatusEntry)
    (s : State) : acknowledgeOldest st c serial revision e rest s =
      if ¬ (c = .console ∨ e.destination = .panel) then (notPermitted, s)
      else if ¬ (e.serial = serial ∧ e.revision.toNat = revision) then ({ code := .stale, payload := .entry e }, s)
      else (doneWith (if s.persists st e then .entry e.persisted else .none), acknowledge st e rest s) := by
  unfold acknowledgeOldest
  simp only [not_or, not_and_or, ne_eq]

/-- Settles O37: the checks one after the other, then the acknowledgement by its equations. -/
theorem acknowledgeTheOldestEntry : Obligations.AcknowledgeTheOldestEntry := by
  intro c stand serial revision s h
  simp only [exec, execAcknowledgeStatus]
  rw [serve_of_takes _ h]
  cases standIx stand with
  | none => rfl
  | some st =>
    simp only [numberOk_eq_false, consoleOrPanel_eq_false, ← not_le, ← not_and_or]
    by_cases hrange : ¬ ((1 ≤ serial ∧ serial ≤ 65535) ∧ revision ≤ 255)
    · simp only [if_pos hrange]
      rfl
    simp only [if_neg hrange]
    by_cases hclient : ¬ (c = .console ∨ c = .panel st)
    · simp only [if_pos hclient]
      rfl
    simp only [if_neg hclient]
    cases hq : (s.stand st).queue.entries with
    | nil => rfl
    | cons e rest =>
      simp only [acknowledgeOldest_eq]
      split
      · rfl
      · split
        · rfl
        · simp only [acknowledge_eq hq, collect_eq]
          rfl

end Sys2Proof.Machine
end

section
/-! Power, the RESET pin and the Time Counter (R168, R170: PowerAndPinAreFullResets, TimeCounterTicksAndIsRead). -/

namespace Sys2Proof.Machine

/-! ### Power and the RESET pin (R170) -/

theorem exec_powerOn (s : State) : exec .powerOn s =
    .next (if s.link.resetPin then
      (fullReset .power s).modLink (fun l => { l with resetPin := true, powerUnderPin := true })
    else fullReset .power s) := by
  simp only [exec, execPowerOn]
  split <;> rfl

theorem exec_resetPinReleased {s : State} (h : s.link.resetPin = true) : exec .resetPinReleased s =
    .next (fullReset (if s.link.powerUnderPin then .power else .pin) s) := by
  simp only [exec, execResetPinReleased]
  rw [if_pos h]

/-- Settles O4: power with the pin released, power under the pin, the pin's release. -/
theorem powerAndPinAreFullResets : Obligations.PowerAndPinAreFullResets := by
  refine fun s => ⟨fun hpin => ?_, fun hpin => ?_, fun hpin => exec_resetPinReleased hpin⟩
  · rw [exec_powerOn, if_neg (by simp [hpin])]
    rfl
  · rw [exec_powerOn, if_pos hpin]
    rfl

/-! ### The Time Counter (R168) -/

/-- One tick of a stamp: 1 more, and 0 after 4,294,967,295. -/
theorem stamp_add_one (t : Stamp) : t + 1 = if t.toNat = 4294967295 then 0 else BitVec.ofNat 32 (t.toNat + 1) := by
  split
  · next hmax => bv_omega
  · next hless => bv_omega

theorem exec_timeCounterTick {s : State} (h : s.runs) :
    exec .timeCounterTick s = .next { s with link := { s.link with time := s.link.time + 1 } } := by
  simp only [exec, execTimeCounterTick]
  rw [onDevice_of_runs _ h]
  rfl

/-- Settles O6: the tick by the sum of stamps, READ DEVICE as a request that its owner takes. -/
theorem timeCounterTicksAndIsRead : Obligations.TimeCounterTicksAndIsRead := by
  refine ⟨fun s hrun => ?_, fun c s htakes => ?_⟩
  · rw [exec_timeCounterTick hrun, stamp_add_one]
  · exact serve_of_takes _ htakes

end Sys2Proof.Machine
end

section
/-! The receiver, character by character and frame by frame (R162 to R165, R167, R169: ReceiverTakesACharacter,
FramesJoinTheListOrAreDropped). -/

namespace Sys2Proof.Machine

/-! ### One character (R163) -/

/-- A character has its effect on the receiver while the device runs and no reset is pending. -/
theorem exec_character {s : State} (b : Byte) (fe : Bool) (hrun : s.runs) (hp : s.link.resetPending = false) :
    exec (.characterReceived b fe) s = .next (s.modLink (Link.receive b fe)) := by
  simp only [exec, execCharacterReceived]
  rw [onDevice_of_runs _ hrun]
  simp [hp]

theorem exec_character_of_resetPending {s : State} (b : Byte) (fe : Bool) (hrun : s.runs) (hp : s.link.resetPending = true) :
    exec (.characterReceived b fe) s = .next s := by
  simp only [exec, execCharacterReceived]
  rw [onDevice_of_runs _ hrun, if_pos hp]

theorem receive_of_hunt {l : Link} (b : Byte) (fe : Bool) (h : l.receiver = .hunt) : l.receive b fe =
    if b = startCode ∧ fe = false then { l with receiver := .receiving [b] } else l := by
  unfold Link.receive
  rw [h]

theorem receive_of_receiving {l : Link} (b : Byte) (fe : Bool) {held : List Byte} (h : l.receiver = .receiving held) :
    l.receive b fe = receiveByte held b fe l := by
  unfold Link.receive
  rw [h]

/-- A framing error abandons the frame under way (R163). -/
theorem receiveByte_framingError (held : List Byte) (b : Byte) (l : Link) :
    receiveByte held b true l = { l with receiver := .hunt } := rfl

/-- The length byte is taken up to 240 (R163). -/
theorem receiveByte_length (x b : Byte) (l : Link) :
    receiveByte [x] b false l = { l with receiver := if b.toNat ≤ 240 then .receiving [x, b] else .hunt } := rfl

/-- A byte that does not complete the frame is held (R163). -/
theorem receiveByte_middle (x len b : Byte) {held : List Byte} {l : Link} (h : held.length + 3 ≠ 7 + len.toNat) :
    receiveByte (x :: len :: held) b false l = { l with receiver := .receiving (x :: len :: held ++ [b]) } := by
  simp [receiveByte, frameSize, h]

/-- Silence abandons the frame under way (R163). -/
theorem exec_interCharacterTimerExpiry {s : State} (h : s.runs) :
    exec .interCharacterTimerExpiry s = .next { s with link := { s.link with receiver := .hunt } } := by
  simp only [exec, execInterCharacterTimerExpiry]
  rw [onDevice_of_runs _ h]
  rfl

/-- Settles O7: the silence, the characters of a pending reset, then the receiver's table by its states. -/
theorem receiverTakesACharacter : Obligations.ReceiverTakesACharacter := by
  refine fun b s hrun => ⟨exec_interCharacterTimerExpiry hrun,
    fun hp fe => exec_character_of_resetPending b fe hrun hp, fun hp =>
      ⟨fun hhunt fe => ?_, fun held hr => ?_, fun x hr => ?_, fun x len held hr hlen => ?_⟩⟩
  · rw [exec_character b fe hrun hp, State.modLink, receive_of_hunt b fe hhunt,
      apply_ite (fun l => ({ s with link := l } : State))]
    rfl
  · rw [exec_character b true hrun hp, State.modLink, receive_of_receiving b true hr, receiveByte_framingError]
  · rw [exec_characterReceived b hrun hp, State.modLink, receive_of_receiving b false hr, receiveByte_length]
  · rw [exec_characterReceived b hrun hp, State.modLink, receive_of_receiving b false hr,
      receiveByte_middle x len b (Nat.ne_of_lt hlen)]

/-! ### A whole frame (R162 to R165) -/

/-- A command that completes, then the rest. -/
theorem execAll_cons {c : Instr} {s t : State} (h : exec c s = .next t) (rest : List Instr) :
    execAll (c :: rest) s = execAll rest t := by
  rw [execAll, h]

/-- The device with another state of its receiver. -/
def State.hearing (s : State) (r : Receiver) : State := s.modLink (fun l => { l with receiver := r })

/-- The two bytes that open a frame (R163). -/
theorem execAll_startAndLength {s : State} (hrun : s.runs) (hp : s.link.resetPending = false) (hhunt : s.link.receiver = .hunt)
    {len : Byte} (hlen : len.toNat ≤ 240) (bs : List Byte) : execAll (arriving (startCode :: len :: bs)) s =
      execAll (arriving bs) (s.hearing (.receiving [startCode, len])) := by
  have hstart : exec (.characterReceived startCode false) s = .next (s.hearing (.receiving [startCode])) := by
    rw [exec_characterReceived _ hrun hp, State.modLink, receive_of_hunt _ _ hhunt, if_pos ⟨rfl, rfl⟩]
    rfl
  have hlength : exec (.characterReceived len false) (s.hearing (.receiving [startCode])) =
      .next (s.hearing (.receiving [startCode, len])) := by
    rw [exec_characterReceived (s := s.hearing (.receiving [startCode])) _ hrun hp, State.modLink,
      receive_of_receiving _ _ rfl, receiveByte_length, if_pos hlen]
    rfl
  rw [arriving, List.map_cons, List.map_cons, execAll_cons hstart, execAll_cons hlength]
  rfl

/-- A whole frame that arrives from HUNT is judged, and leaves the receiver in HUNT (R163). -/
theorem execAll_frame {s : State} (hrun : s.runs) (hp : s.link.resetPending = false) (hhunt : s.link.receiver = .hunt)
    {len : Byte} (hlen : len.toNat ≤ 240) {bs : List Byte} (hbs : bs.length = 5 + len.toNat) :
    execAll (arriving (startCode :: len :: bs)) s = .next { s with link := judgeFrame (len :: bs) s.link } := by
  have hne : bs ≠ [] := List.ne_nil_of_length_pos (by omega)
  have hrest := execAll_restOfFrame bs startCode len [] (s.hearing (.receiving [startCode, len])) hrun hp rfl
    (by simp only [List.length_nil]; omega) hne
  have hkeep : { judgeFrame (len :: bs) s.link with receiver := .hunt } = judgeFrame (len :: bs) s.link := by
    rw [← judgeFrame_receiver, ← hhunt]
  rw [execAll_startAndLength hrun hp hhunt hlen, hrest, ← hkeep]
  simp only [State.hearing, link_modLink, List.cons_append, List.nil_append, judgeFrame_receiver]
  rfl

theorem toNat_byteOf_length {payload : List Byte} (h : payload.length ≤ 240) : (byteOf payload.length).toNat = payload.length :=
  toNat_byteOf (by omega)

/-- A frame with a right check from a named client: it joins the list, or is an overrun (R163, R165). -/
def Link.enlist (c : Client) (tag code : Byte) (payload : List Byte) (l : Link) : Link :=
  if l.list.length < 16 then joinList c tag code payload l else { l with overrun := min 65535 (l.overrun + 1) }

/-- The judgement of a frame whose length byte is that of its payload (R164). -/
theorem judgeFrame_eq {payload : List Byte} (h : payload.length ≤ 240) (client tag code : Byte) (check : List Byte) (l : Link) :
    judgeFrame (byteOf payload.length :: client :: tag :: code :: (payload ++ check)) l =
      if check = checkBytes (byteOf payload.length :: client :: tag :: code :: payload) then
        (clientOf client).elim l (fun c => l.enlist c tag code payload)
      else l := by
  simp only [judgeFrame, toNat_byteOf_length h, List.take_left, List.drop_left]
  cases clientOf client <;> rfl

/-- The state in which a request joins the list (R165, R167, R169). -/
theorem joinState_eq (list : List LinkEntry) (c : Client) (code : Byte) (payload : List Byte) : joinState list c code payload =
    if requestOf c code payload = none then .answered (plain (.badRequest false))
    else if list.any (fun e => e.untaken && decide (e.code = 0x61)) then .held
    else .withOwner := by
  unfold joinState
  cases requestOf c code payload with
  | none => rfl
  | some r => rfl

/-- Settles O8: a whole frame is judged at its last byte, and joins, is an overrun, or is dropped. -/
theorem framesJoinTheListOrAreDropped : Obligations.FramesJoinTheListOrAreDropped := by
  refine ⟨fun c tag code payload s hrun hp hhunt hlen => ?_,
    fun client tag code c1 c2 payload s hrun hp hhunt hlen hbad => ?_⟩
  · rw [frameOf, List.cons_append, execAll_frame hrun hp hhunt (by rwa [toNat_byteOf_length hlen])
      (by simp only [List.length_cons, List.length_append, toNat_byteOf_length hlen, checkBytes, List.length_nil]; omega)]
    simp only [List.cons_append]
    rw [judgeFrame_eq hlen, if_pos rfl, clientOf_clientByte]
    simp only [Option.elim_some, Link.enlist, joinList, joinState_eq]
  · have hframe := execAll_frame hrun hp hhunt (len := byteOf payload.length) (by rwa [toNat_byteOf_length hlen])
      (bs := client :: tag :: code :: (payload ++ [c1, c2]))
      (by simp only [List.length_cons, List.length_append, toNat_byteOf_length hlen, List.length_nil]; omega)
    rw [judgeFrame_eq hlen] at hframe
    rw [show (0xA5 : Byte) = startCode from rfl, hframe]
    rcases hbad with hcheck | hclient
    · rw [if_neg hcheck]
    · rw [hclient, Option.elim_none, ite_self]

end Sys2Proof.Machine
end

section
/-! The bytes of requests (R167, R172 to R174: RequestBytesSpellTheRequest). -/

namespace Sys2Proof.Machine

/-! ### Numbers that fit their fields (R172) -/

theorem fits_one (n : Nat) : fits 1 n = true ↔ n < 256 := by simp [fits]

theorem fits_two (n : Nat) : fits 2 n = true ↔ n < 65536 := by simp [fits]

theorem fits_four (n : Nat) : fits 4 n = true ↔ n < 4294967296 := by simp [fits]

theorem toNat_byteOf_of_fits {n : Nat} (h : fits 1 n = true) : (byteOf n).toNat = n := toNat_byteOf ((fits_one n).1 h)

theorem num2_of_fits {n : Nat} (h : fits 2 n = true) : num2 (byteOf (n / 256)) (byteOf n) = n := num2_bytes2 ((fits_two n).1 h)

theorem num4_of_fits {n : Nat} (h : fits 4 n = true) :
    num4 (byteOf (n / 16777216)) (byteOf (n / 65536)) (byteOf (n / 256)) (byteOf n) = n := num4_bytes4 ((fits_four n).1 h)

theorem readNum1_byteOf {n : Nat} (f : Nat → Instr) (h : fits 1 n = true) : readNum1 f [byteOf n] = some (f n) := by
  rw [readNum1, toNat_byteOf_of_fits h]

theorem readNum2_bytes2 {n : Nat} (f : Nat → Instr) (h : fits 2 n = true) : readNum2 f (bytes2 n) = some (f n) := by
  rw [bytes2, readNum2, num2_of_fits h]

/-! ### Partial parameter sets (R174) -/

theorem markedBy_presenceByte (p : Params Bool) : markedBy (presenceByte p.toList) = p := by
  obtain ⟨a, b, c, d, e, f, g, h⟩ := p
  obtain ⟨h0, h1, h2, h3, h4, h5, h6, h7⟩ := bitOf_presenceByte8 a b c d e f g h
  simp only [Params.toList, markedBy, h0, h1, h2, h3, h4, h5, h6, h7]

theorem markedBy_presenceOf {α : Type} (v : Params (Option α)) : markedBy (presenceOf v) = v.map Option.isSome :=
  markedBy_presenceByte (v.map Option.isSome)

theorem carried_isSome_getD {α : Type} (v : Option α) (x : α) : carried v.isSome (v.getD x) = v := by
  cases v <;> rfl

/-- A partial set reads back from its presence byte and its values. -/
theorem map2_carried_presenceOf (v : Params (Option Int)) :
    Params.map2 carried (markedBy (presenceOf v)) (v.map (·.getD 0)) = v := by
  rw [markedBy_presenceOf]
  simp only [Params.map2, Params.map, carried_isSome_getD]

/-- A test that a parameter passes in one block, its image passes in the mapped block. -/
theorem Params.wfBy_map {α β : Type} {test : (Int → Bool) → α → Bool} {test' : (Int → Bool) → β → Bool} {f : α → β}
    {p : Params α} (hzero : ∀ t x, t 0 = true → test t x = true → test' t (f x) = true) (h : p.wfBy test = true) :
    (p.map f).wfBy test' = true := by
  simp only [Params.wfBy, Bool.and_eq_true] at h ⊢
  obtain ⟨⟨⟨⟨⟨⟨⟨h0, h1⟩, h2⟩, h3⟩, h4⟩, h5⟩, h6⟩, h7⟩ := h
  exact ⟨⟨⟨⟨⟨⟨⟨hzero _ _ rfl h0, hzero _ _ rfl h1⟩, hzero _ _ rfl h2⟩, hzero _ _ rfl h3⟩, hzero _ _ rfl h4⟩,
    hzero _ _ rfl h5⟩, hzero _ _ rfl h6⟩, hzero _ _ rfl h7⟩

theorem wfBy_map_getD {v : Params (Option Int)} (h : v.wfBy optTest = true) :
    (v.map (·.getD 0)).wfBy (fun t x => t x) = true :=
  Params.wfBy_map (fun t x hzero hx => by cases x with
    | none => exact hzero
    | some x => exact hx) h

/-- The value that AMEND SPLICE sends for a parameter, 0 where it carries none. -/
def sentValue : AmendParam → Int
  | .notCarried => 0
  | .default => 0
  | .value v => v

theorem wfBy_map_sentValue {v : Params AmendParam} (h : v.wfBy amendTest = true) :
    (v.map sentValue).wfBy (fun t x => t x) = true :=
  Params.wfBy_map (fun t x hzero hx => by cases x with
    | notCarried => exact hzero
    | default => exact hzero
    | value x => exact hx) h

theorem amendParamOf_sentValue (x : AmendParam) :
    amendParamOf (!decide (x = .notCarried)) (decide (x = .default)) (sentValue x) = x := by
  cases x <;> rfl

/-- An amendment reads back from its two marker bytes and its values. -/
theorem map2_amendParamOf (v : Params AmendParam) :
    Params.map2 (fun (f : Int → AmendParam) x => f x)
      (Params.map2 amendParamOf (markedBy (presenceByte (v.toList.map (fun x => !decide (x = .notCarried)))))
        (markedBy (presenceByte (v.toList.map (fun x => decide (x = .default))))))
      (v.map sentValue) = v := by
  have hmarked := markedBy_presenceByte (v.map (fun x => !decide (x = .notCarried)))
  have hdefault := markedBy_presenceByte (v.map (fun x => decide (x = .default)))
  simp only [Params.map, Params.toList, List.map_cons, List.map_nil] at hmarked hdefault ⊢
  rw [hmarked, hdefault]
  simp only [Params.map2, amendParamOf_sentValue]

/-! ### The requests with a payload of their own (R174) -/

theorem readAnnounce_requestBytes (c : Client) {code : List Nat} {p : PaperData} (hcode : codeWf code = true)
    (hp : p.wf = true) :
    readAnnounce c (code.map byteOf ++ [byteOf p.grade, widthByte p.width, byteOf p.caliper] ++ bytes2 p.core
      ++ bytes2 p.full ++ [flagByte p.paste]) = some (.announceReel c code p) := by
  simp only [codeWf, Bool.and_eq_true, beq_iff_eq] at hcode
  simp only [PaperData.wf, Bool.and_eq_true] at hp
  obtain ⟨hlength, hdigits⟩ := hcode
  obtain ⟨⟨⟨hgrade, hcaliper⟩, hcore⟩, hfull⟩ := hp
  have hlen : (code.map byteOf).length = 11 := by rw [List.length_map, hlength]
  simp only [readAnnounce, List.append_assoc, List.drop_left' hlen, List.take_left' hlen, bytes2, List.cons_append,
    List.nil_append, widthOf_widthByte, flagOf_flagByte, map_toNat_byteOf hdigits, toNat_byteOf_of_fits hgrade,
    toNat_byteOf_of_fits hcaliper,
    num2_of_fits hcore, num2_of_fits hfull]

/-- A datum of AMEND REEL reads back, the one not carried as absent. -/
theorem carried_of_optWf {bytes : Nat} {v : Option Nat} {g : Nat → Nat} (h : optWf bytes v = true)
    (hg : ∀ n, fits bytes n = true → g n = n) : carried v.isSome (g (v.getD 0)) = v := by
  cases v with
  | none => rfl
  | some n => rw [Option.isSome_some, carried, if_pos rfl, Option.getD_some, hg n h]

theorem readAmendReel_requestBytes (c : Client) {k : Nat} {d : PaperAmend} (hk : fits 2 k = true) (hd : d.wf = true) :
    readAmendReel c (bytes2 k
      ++ [presenceByte [d.grade.isSome, d.width.isSome, d.caliper.isSome, d.core.isSome, d.full.isSome, d.paste.isSome],
          byteOf (d.grade.getD 0), widthByte (d.width.getD .full), byteOf (d.caliper.getD 0)]
      ++ bytes2 (d.core.getD 0) ++ bytes2 (d.full.getD 0) ++ [flagByte (d.paste.getD false)]) = some (.amendReel c k d) := by
  obtain ⟨grade, width, caliper, core, full, paste⟩ := d
  simp only [PaperAmend.wf, Bool.and_eq_true] at hd
  obtain ⟨⟨⟨hgrade, hcaliper⟩, hcore⟩, hfull⟩ := hd
  obtain ⟨h0, h1, h2, h3, h4, h5, h6, h7⟩ :=
    bitOf_presenceByte6 grade.isSome width.isSome caliper.isSome core.isSome full.isSome paste.isSome
  have hwidth : (if width.isSome = true then some (width.getD .full) else none) = width := carried_isSome_getD width .full
  have hpaste : (if paste.isSome = true then some (paste.getD false) else none) = paste := carried_isSome_getD paste false
  simp only [readAmendReel, bytes2, List.cons_append, List.nil_append, h0, h1, h2, h3, h4, h5, h6, h7, widthOf_widthByte,
    flagOf_flagByte, Option.isNone_some, Bool.and_false, Bool.or_self, Bool.false_eq_true, if_false, num2_of_fits hk, hwidth,
    hpaste, carried_of_optWf hgrade (fun n => toNat_byteOf_of_fits), carried_of_optWf hcaliper (fun n => toNat_byteOf_of_fits),
    carried_of_optWf hcore (fun n => num2_of_fits), carried_of_optWf hfull (fun n => num2_of_fits)]


theorem readMount_requestBytes (c : Client) {k st : Nat} (a : Arm) (hk : fits 2 k = true) (hst : fits 1 st = true) :
    readMount c (bytes2 k ++ [byteOf st, armByte a]) = some (.mountReel c k st a) := by
  simp only [readMount, bytes2, List.cons_append, List.nil_append, armOf_armByte, Option.map_some, num2_of_fits hk,
    toNat_byteOf_of_fits hst]

theorem readFind_requestBytes (c : Client) {code : List Nat} (hcode : codeWf code = true) :
    readFind c (code.map byteOf) = some (.findReel c code) := by
  simp only [codeWf, Bool.and_eq_true, beq_iff_eq] at hcode
  obtain ⟨hlength, hdigits⟩ := hcode
  rw [readFind, List.length_map, if_pos hlength, map_toNat_byteOf hdigits]

theorem readThread_requestBytes (c : Client) {st k : Nat} (hst : fits 1 st = true) (hk : fits 2 k = true) :
    readThread c (byteOf st :: bytes2 k) = some (.threadReel c st k) := by
  simp only [readThread, bytes2, num2_of_fits hk, toNat_byteOf_of_fits hst]

theorem readPlan_requestBytes (c : Client) {st : Nat} {e : PlanFields} (hst : fits 1 st = true) (he : e.wf = true) :
    readPlan c ([byteOf st, flagByte e.inPlan, byteOf e.folder] ++ bytes4 e.path ++ [byteOf e.grade, widthByte e.width])
      = some (.writePlanEntry c st e) := by
  simp only [PlanFields.wf, Bool.and_eq_true] at he
  obtain ⟨⟨hfolder, hpath⟩, hgrade⟩ := he
  simp only [readPlan, bytes4, List.cons_append, List.nil_append, flagOf_flagByte, widthOf_widthByte, num4_of_fits hpath,
    toNat_byteOf_of_fits hst, toNat_byteOf_of_fits hfolder, toNat_byteOf_of_fits hgrade]

theorem readFolder_requestBytes (c : Client) {f cutoff lead trail spacing : Nat} (hf : fits 1 f = true)
    (hcutoff : fits 2 cutoff = true) (hlead : fits 1 lead = true) (htrail : fits 1 trail = true)
    (hspacing : fits 2 spacing = true) :
    readFolder c (byteOf f :: bytes2 cutoff ++ [byteOf lead, byteOf trail] ++ bytes2 spacing)
      = some (.writeFolder c f cutoff lead trail spacing) := by
  simp only [readFolder, bytes2, List.cons_append, List.nil_append, num2_of_fits hcutoff, num2_of_fits hspacing,
    toNat_byteOf_of_fits hf, toNat_byteOf_of_fits hlead, toNat_byteOf_of_fits htrail]

/-- A parameter block takes 14 bytes (R174). -/
theorem length_paramBlock (p : Params Int) : (paramBlock p).length = 14 := rfl

theorem readProfile_requestBytes (c : Client) {st : Nat} {p : Profile} (hst : fits 1 st = true)
    (hparams : p.params.wfBy (fun t v => t v) = true) (hsettings : p.settings.wf = true) :
    readProfile c (byteOf st :: (paramBlock p.params ++ settingsBlock p.settings)) = some (.writeProfile c st p) := by
  rw [readProfile, List.take_left' (length_paramBlock _), List.drop_left' (length_paramBlock _), paramBlockOf_paramBlock
    hparams, settingsOf_settingsBlock hsettings, toNat_byteOf_of_fits hst]

theorem readOneShot_requestBytes (c : Client) {st : Nat} {v : Params (Option Int)} (hst : fits 1 st = true)
    (hv : v.wfBy optTest = true) :
    readOneShot c (byteOf st :: presenceOf v :: paramBlock (v.map (·.getD 0))) = some (.writeOneShot c st v) := by
  rw [readOneShot, paramBlockOf_paramBlock (wfBy_map_getD hv), Option.map_some, map2_carried_presenceOf,
    toNat_byteOf_of_fits hst]

/-- The two bytes of a mask, put together again. -/
theorem append_extractLsb' (m : BitVec 16) : m.extractLsb' 8 8 ++ m.extractLsb' 0 8 = m := by
  rw [BitVec.extractLsb'_append_extractLsb'_eq_extractLsb' (by omega)]
  exact BitVec.extractLsb'_eq_self

theorem readRouting_requestBytes (c : Client) {st : Nat} (m : BitVec 16) (mode : Mode) (hst : fits 1 st = true) :
    readRouting c [byteOf st, m.extractLsb' 8 8, m.extractLsb' 0 8, modeByte mode] = some (.writeRouting c st m mode) := by
  rw [readRouting, modeOf_modeByte, Option.map_some, append_extractLsb', toNat_byteOf_of_fits hst]

theorem readArm_requestBytes (c : Client) {st : Nat} (t : Trigger) {v : Params (Option Int)} (hst : fits 1 st = true)
    (hv : v.wfBy optTest = true) :
    readArm c (byteOf st :: triggerByte t :: presenceOf v :: paramBlock (v.map (·.getD 0))) = some (.armSplice c st t v) := by
  simp only [readArm, triggerOf_triggerByte, paramBlockOf_paramBlock (wfBy_map_getD hv), map2_carried_presenceOf,
    toNat_byteOf_of_fits hst]

theorem readAmendSplice_requestBytes (c : Client) {n : Nat} {v : Params AmendParam} {sent : AmendParam → Int}
    (hsent : ∀ x, sent x = sentValue x) (hn : fits 2 n = true) (hv : v.wfBy amendTest = true) :
    readAmendSplice c (bytes2 n
      ++ [presenceByte (v.toList.map (fun x => !decide (x = .notCarried))),
          presenceByte (v.toList.map (fun x => decide (x = .default)))]
      ++ paramBlock (v.map sent)) = some (.amendSplice c n v) := by
  obtain rfl : sent = sentValue := funext hsent
  simp only [readAmendSplice, bytes2, List.cons_append, List.nil_append, paramBlockOf_paramBlock (wfBy_map_sentValue hv),
    Option.map_some, map2_amendParamOf, num2_of_fits hn]

theorem readChain_requestBytes (c : Client) {st : Nat} (x : Bool) (hst : fits 1 st = true) :
    readChain c [byteOf st, flagByte x] = some (.setChain c st x) := by
  rw [readChain, flagOf_flagByte, Option.map_some, toNat_byteOf_of_fits hst]

theorem readAcknowledge_requestBytes (c : Client) {st serial rev : Nat} (hst : fits 1 st = true) (hserial : fits 2 serial = true)
    (hrev : fits 1 rev = true) :
    readAcknowledge c (byteOf st :: bytes2 serial ++ [byteOf rev]) = some (.acknowledgeStatus c st serial rev) := by
  simp only [readAcknowledge, bytes2, List.cons_append, List.nil_append, num2_of_fits hserial, toNat_byteOf_of_fits hst,
    toNat_byteOf_of_fits hrev]

theorem readClear_requestBytes (c : Client) {st n : Nat} (hst : fits 1 st = true) (hn : fits 4 n = true) :
    readClear c (byteOf st :: bytes4 n) = some (.clearChanges c st n) := by
  rw [bytes4, readClear, num4_of_fits hn, toNat_byteOf_of_fits hst]

theorem readTakeCall_requestBytes (c : Client) {st : Nat} (x : CallFlag) (hst : fits 1 st = true) :
    readTakeCall c [byteOf st, callFlagByte x] = some (.takeCall c st x) := by
  rw [readTakeCall, callFlagOf_callFlagByte, Option.map_some, toNat_byteOf_of_fits hst]

theorem readForce_requestBytes (c : Client) {f : Nat} (x : GateForce) (hf : fits 1 f = true) :
    readForce c [byteOf f, forceByte x] = some (.forceGate c f x) := by
  rw [readForce, forceOf_forceByte, Option.map_some, toNat_byteOf_of_fits hf]

/-! ### Every request (R167, R174) -/

/-- The bytes of a well-formed request read back as the request. -/
theorem requestOf_requestBytes {i : Instr} {k : Client} {code : Byte} {payload : List Byte} (hwf : i.WellFormed)
    (hclient : requestClient i = some k) (hbytes : requestBytes i = some (code, payload)) :
    requestOf k code payload = some i := by
  cases i with
  | announceReel _ digits p =>
    cases hclient
    cases hbytes
    obtain ⟨hcode, hp⟩ := Bool.and_eq_true_iff.1 hwf
    exact readAnnounce_requestBytes k hcode hp
  | amendReel _ h d =>
    cases hclient
    cases hbytes
    obtain ⟨hh, hd⟩ := Bool.and_eq_true_iff.1 hwf
    exact readAmendReel_requestBytes k hh hd
  | mountReel _ h st a =>
    cases hclient
    cases hbytes
    obtain ⟨hh, hst⟩ := Bool.and_eq_true_iff.1 hwf
    exact readMount_requestBytes k a hh hst
  | unmountReel _ h | retireReel _ h | readReel _ h | readSplice _ n =>
    cases hclient
    cases hbytes
    exact readNum2_bytes2 _ hwf
  | listStand _ st | readSettings _ st | startAccel _ st | fireSplice _ st
  | abortSplice _ st | readStatus _ st | readInputs _ st | readTrack _ f | resetStand _ st =>
    cases hclient
    cases hbytes
    exact readNum1_byteOf _ hwf
  | findReel _ digits =>
    cases hclient
    cases hbytes
    exact readFind_requestBytes k hwf
  | threadReel _ st h =>
    cases hclient
    cases hbytes
    obtain ⟨hst, hh⟩ := Bool.and_eq_true_iff.1 hwf
    exact readThread_requestBytes k hst hh
  | writePlanEntry _ st e =>
    cases hclient
    cases hbytes
    obtain ⟨hst, he⟩ := Bool.and_eq_true_iff.1 hwf
    exact readPlan_requestBytes k hst he
  | writeFolder _ f cutoff lead trail spacing =>
    cases hclient
    cases hbytes
    simp only [Instr.WellFormed, Instr.wf, Bool.and_eq_true] at hwf
    obtain ⟨⟨⟨⟨hf, hcutoff⟩, hlead⟩, htrail⟩, hspacing⟩ := hwf
    exact readFolder_requestBytes k hf hcutoff hlead htrail hspacing
  | writeProfile _ st p =>
    cases hclient
    cases hbytes
    simp only [Instr.WellFormed, Instr.wf, Bool.and_eq_true] at hwf
    obtain ⟨⟨hst, hparams⟩, hsettings⟩ := hwf
    exact readProfile_requestBytes k hst hparams hsettings
  | writeOneShot _ st v =>
    cases hclient
    cases hbytes
    obtain ⟨hst, hv⟩ := Bool.and_eq_true_iff.1 hwf
    exact readOneShot_requestBytes k hst hv
  | writeRouting _ st m mode =>
    cases hclient
    cases hbytes
    exact readRouting_requestBytes k m mode hwf
  | armSplice _ st t v =>
    cases hclient
    cases hbytes
    obtain ⟨hst, hv⟩ := Bool.and_eq_true_iff.1 hwf
    exact readArm_requestBytes k t hst hv
  | amendSplice _ n v =>
    cases hclient
    cases hbytes
    obtain ⟨hn, hv⟩ := Bool.and_eq_true_iff.1 hwf
    exact readAmendSplice_requestBytes k (fun x => by cases x <;> rfl) hn hv
  | setChain _ st x =>
    cases hclient
    cases hbytes
    exact readChain_requestBytes k x hwf
  | acknowledgeStatus _ st serial rev =>
    cases hclient
    cases hbytes
    simp only [Instr.WellFormed, Instr.wf, Bool.and_eq_true] at hwf
    obtain ⟨⟨hst, hserial⟩, hrev⟩ := hwf
    exact readAcknowledge_requestBytes k hst hserial hrev
  | clearChanges _ st n =>
    cases hclient
    cases hbytes
    obtain ⟨hst, hn⟩ := Bool.and_eq_true_iff.1 hwf
    exact readClear_requestBytes k hst hn
  | takeCall _ st x =>
    cases hclient
    cases hbytes
    exact readTakeCall_requestBytes k x hwf
  | forceGate _ f x =>
    cases hclient
    cases hbytes
    exact readForce_requestBytes k x hwf
  | resetDevice _ | readDevice _ =>
    cases hclient
    cases hbytes
    exact rfl
  | _ => cases hclient

/-- The payload of a well-formed request fits a frame (R162). -/
theorem length_requestBytes {i : Instr} {code : Byte} {payload : List Byte} (hwf : i.WellFormed)
    (hbytes : requestBytes i = some (code, payload)) : payload.length ≤ 240 := by
  cases i with
  | announceReel _ digits p =>
    cases hbytes
    simp only [Instr.WellFormed, Instr.wf, codeWf, Bool.and_eq_true, beq_iff_eq] at hwf
    obtain ⟨⟨hlength, -⟩, -⟩ := hwf
    simp [hlength, bytes2]
  | findReel _ digits =>
    cases hbytes
    simp only [Instr.WellFormed, Instr.wf, codeWf, Bool.and_eq_true, beq_iff_eq] at hwf
    obtain ⟨hlength, -⟩ := hwf
    simp [hlength]
  | _ => cases hbytes <;> exact Nat.le_of_ble_eq_true rfl

/-- Settles O9: each request's bytes read back by the reader of its code; the client's byte and the length of the payload. -/
theorem requestBytesSpellTheRequest : Obligations.RequestBytesSpellTheRequest :=
  fun _ c _ _ hwf hclient hbytes =>
    ⟨requestOf_requestBytes hwf hclient hbytes, clientOf_clientByte c, length_requestBytes hwf hbytes⟩

end Sys2Proof.Machine
end

section
/-! The answer order list: how owners take requests, the transmitter, and RESET DEVICE (R165 to R169:
OwnersTakeRequestsInOrder, TransmitterSendsTheFrontAnswer, ResetDeviceIsCheckedAndTaken). -/

namespace Sys2Proof.Machine

/-! ### Entries that wait (R165) -/

theorem LinkEntry.untaken_iff (e : LinkEntry) : e.untaken = true ↔ e.state = .withOwner ∨ e.state = .held := by
  unfold LinkEntry.untaken
  cases e.state <;> simp

theorem LinkEntry.waitsFor_iff (r : Instr) (e : LinkEntry) : e.waitsFor r = true ↔
    requestOf e.client e.code e.payload = some r ∧ (e.state = .withOwner ∨ e.state = .held) := by
  rw [LinkEntry.waitsFor, Bool.and_eq_true, decide_eq_true_iff, e.untaken_iff, and_comm]
  rfl

theorem LinkEntry.request_of_waitsFor {r : Instr} {e : LinkEntry} (h : e.waitsFor r = true) : e.request = some r :=
  ((e.waitsFor_iff r).1 h).1

theorem LinkEntry.withOwnerOf_iff (s : State) (o : Option Owner) (e : LinkEntry) : e.withOwnerOf s o = true ↔
    e.state = .withOwner ∧ e.request.bind (ownerOf s) = o := by
  rw [LinkEntry.withOwnerOf, Bool.and_eq_true, decide_eq_true_iff, decide_eq_true_iff]

/-! ### The owner's turn (R165) -/

theorem State.mayTake_of_unlisted {s : State} {r : Instr} (h : ∀ x ∈ s.link.list, x.waitsFor r = false) :
    s.mayTake r = true := by
  rw [State.mayTake, List.find?_eq_none.2 (fun x hx => by simp [h x hx])]

/-- A listed request is taken when its entry is WITH OWNER, and the first WITH that OWNER asks for the same. -/
theorem State.mayTake_listed {s : State} {r : Instr} {before after : List LinkEntry} {e : LinkEntry}
    (hlist : s.link.list = before ++ e :: after) (hbefore : ∀ x ∈ before, x.waitsFor r = false) (he : e.waitsFor r = true) :
    s.mayTake r = true ↔ e.state = .withOwner
      ∧ (s.link.list.find? (LinkEntry.withOwnerOf s (ownerOf s r))).bind LinkEntry.request = some r := by
  have hfind : s.link.list.find? (LinkEntry.waitsFor r) = some e :=
    List.find?_eq_some_iff_append.2 ⟨he, before, after, hlist, fun x hx => by rw [hbefore x hx, Bool.not_false]⟩
  rw [State.mayTake, hfind]
  simp only [Bool.and_eq_true, decide_eq_true_iff]

/-- HELD, or behind an entry WITH the same OWNER, a request is not taken. -/
theorem State.mayTake_of_held_or_behind {s : State} {r : Instr} {before after : List LinkEntry} {e : LinkEntry}
    (hlist : s.link.list = before ++ e :: after) (hbefore : ∀ x ∈ before, x.waitsFor r = false) (he : e.waitsFor r = true)
    (h : e.state = .held ∨ ∃ x ∈ before, x.state = .withOwner ∧ x.request.bind (ownerOf s) = ownerOf s r) :
    s.mayTake r = false := by
  rw [Bool.eq_false_iff, Ne, State.mayTake_listed hlist hbefore he]
  rintro ⟨hstate, hfirst⟩
  rcases h with hheld | ⟨x, hx, hxstate, hxowner⟩
  · rw [hstate] at hheld
    cases hheld
  · have hpasses : x.withOwnerOf s (ownerOf s r) = true := (x.withOwnerOf_iff s _).2 ⟨hxstate, hxowner⟩
    obtain ⟨y, hy⟩ := Option.isSome_iff_exists.1 (List.find?_isSome.2 ⟨x, hx, hpasses⟩)
    rw [hlist, List.find?_append, hy, Option.some_or, Option.bind_some] at hfirst
    obtain ⟨hystate, -⟩ := (y.withOwnerOf_iff s _).1 (List.find?_some hy)
    have hwaits := (y.waitsFor_iff r).2 ⟨hfirst, Or.inl hystate⟩
    rw [hbefore y (List.mem_of_find?_eq_some hy)] at hwaits
    cases hwaits

/-- WITH OWNER and the first of its owner, a request is taken. -/
theorem State.mayTake_of_first {s : State} {r : Instr} {before after : List LinkEntry} {e : LinkEntry}
    (hlist : s.link.list = before ++ e :: after) (hbefore : ∀ x ∈ before, x.waitsFor r = false) (he : e.waitsFor r = true)
    (hstate : e.state = .withOwner) (h : ¬ ∃ x ∈ before, x.state = .withOwner ∧ x.request.bind (ownerOf s) = ownerOf s r) :
    s.mayTake r = true := by
  have hrequest := LinkEntry.request_of_waitsFor he
  have hfirst : s.link.list.find? (LinkEntry.withOwnerOf s (ownerOf s r)) = some e := by
    refine List.find?_eq_some_iff_append.2 ⟨?_, before, after, hlist, fun x hx => ?_⟩
    · exact (e.withOwnerOf_iff s _).2 ⟨hstate, by rw [hrequest, Option.bind_some]⟩
    · rw [Bool.not_eq_true', Bool.eq_false_iff, Ne, x.withOwnerOf_iff s]
      exact fun hpasses => h ⟨x, hx, hpasses⟩
  rw [State.mayTake_listed hlist hbefore he, hfirst]
  exact ⟨hstate, hrequest⟩

/-- A request whose turn it is not changes nothing. -/
theorem exec_of_not_mayTake {r : Instr} {s : State} (hr : requestClient r ≠ none) (hreset : ∀ c, r ≠ .resetDevice c)
    (h : s.mayTake r = false) : exec r s = .next s := by
  obtain ⟨own, hown⟩ := exec_request r hr hreset
  rw [hown, serve_of_not_mayTake own h]

/-- The stand number that names the owner of an AMEND SPLICE (log 23). -/
theorem State.standOfSplice_eq (s : State) (n : Nat) :
    s.standOfSplice n = (s.splice? n).elim 0 (fun sp => sp.stand.val + 1) := by
  unfold State.standOfSplice
  cases s.splice? n <;> rfl

/-! ### The answer returned (R165) -/

theorem answerEntry_append_cons {r : Instr} (a : Answer) {before : List LinkEntry} {e : LinkEntry} (after : List LinkEntry)
    (hbefore : ∀ x ∈ before, x.waitsFor r = false) (he : e.waitsFor r = true) :
    answerEntry r a (before ++ e :: after) = before ++ { e with state := .answered a } :: after := by
  induction before with
  | nil => rw [List.nil_append, answerEntry, if_pos he, List.nil_append]
  | cons x before ih =>
    obtain ⟨hx, hrest⟩ := List.forall_mem_cons.1 hbefore
    rw [List.cons_append, answerEntry, if_neg (by simp [hx]), ih hrest, List.cons_append]

theorem deliver_listed {r : Instr} (a : Answer) {s : State} {before after : List LinkEntry} {e : LinkEntry}
    (hlist : s.link.list = before ++ e :: after) (hbefore : ∀ x ∈ before, x.waitsFor r = false) (he : e.waitsFor r = true) :
    deliver r a s = { s with
      link := { s.link with list := before ++ { e with state := .answered a } :: after }, lastAnswer := some a } := by
  simp only [deliver, State.modLink, hlist, answerEntry_append_cons a after hbefore he]

/-- Settles O10: the turn by the first entry that waits and the first of the owner, the owners request by request. -/
theorem ownersTakeRequestsInOrder : Obligations.OwnersTakeRequestsInOrder := by
  refine ⟨fun r s before after e hr hreset hlist hbefore he => ⟨fun h => ?_, fun hstate h => ?_⟩,
    fun r s h => State.mayTake_of_unlisted h, fun r e => e.waitsFor_iff r, fun r s hr => ?_,
    fun r a s before after e hlist hbefore he => deliver_listed a hlist hbefore he⟩
  · exact exec_of_not_mayTake hr hreset (State.mayTake_of_held_or_behind hlist hbefore he h)
  · exact State.mayTake_of_first hlist hbefore he hstate h
  · cases r with
    | amendSplice c n v => rw [ownerOf, s.standOfSplice_eq]
    | announceReel | amendReel | mountReel | unmountReel | retireReel | readReel | findReel | listStand | threadReel
    | writePlanEntry | readSettings | writeFolder | writeProfile | writeOneShot | writeRouting | armSplice | setChain
    | readSplice | startAccel | fireSplice | abortSplice | readStatus | acknowledgeStatus | readInputs | clearChanges | takeCall
    | readTrack | forceGate | resetStand | resetDevice | readDevice => rfl
    | _ => exact absurd rfl hr

/-! ### The transmitter (R165, R166) -/

/-- The answer of the front entry is sent once the line is free. -/
theorem exec_transmitAnswer_answered {s : State} (hrun : s.runs) {e : LinkEntry} {rest : List LinkEntry} {a : Answer}
    (hline : s.link.line = none) (hlist : s.link.list = e :: rest) (hstate : e.state = .answered a) :
    exec .transmitAnswer s = .next { s with link := { s.link with line := some (answerFrame e a) } } := by
  simp only [exec, execTransmitAnswer]
  rw [onDevice_of_runs _ hrun]
  simp only [State.modLink, hline, hlist, hstate]

/-- While the line is taken, or no answer stands at the front, the transmitter waits. -/
theorem exec_transmitAnswer_waits {s : State} (hrun : s.runs)
    (h : s.link.line ≠ none ∨ s.link.list = [] ∨ ∃ e rest, s.link.list = e :: rest ∧ ∀ a, e.state ≠ .answered a) :
    exec .transmitAnswer s = .next s := by
  simp only [exec, execTransmitAnswer]
  rw [onDevice_of_runs _ hrun, State.modLink]
  cases hline : s.link.line with
  | some frame => rfl
  | none =>
    rcases h with hbusy | hempty | ⟨e, rest, hlist, hstate⟩
    · exact absurd hline hbusy
    · rw [hempty]
    · rw [hlist]
      dsimp only
      cases he : e.state with
      | answered a => exact absurd he (hstate a)
      | withOwner => rfl
      | held => rfl

/-- The last byte of a frame sent: the reset of an accepted RESET DEVICE (R169), or the front entry removed. -/
theorem exec_answerLastByteSent {s : State} (hrun : s.runs) (hline : s.link.line ≠ none) : exec .answerLastByteSent s =
    .next (if s.link.resetPending then fullReset .request s
      else { s with link := { s.link with list := s.link.list.tail, line := none } }) := by
  simp only [exec, execAnswerLastByteSent]
  rw [onDevice_of_runs _ hrun, if_pos (Option.isSome_iff_ne_none.2 hline)]
  rfl

/-- Settles O11: the answer sent, the three reasons to wait, the last byte. -/
theorem transmitterSendsTheFrontAnswer : Obligations.TransmitterSendsTheFrontAnswer :=
  fun _ hrun => ⟨fun _ _ _ hline hlist hstate => exec_transmitAnswer_answered hrun hline hlist hstate,
    fun hline => exec_transmitAnswer_waits hrun (Or.inl hline),
    fun hlist => exec_transmitAnswer_waits hrun (Or.inr (Or.inl hlist)),
    fun e rest hlist hstate => exec_transmitAnswer_waits hrun (Or.inr (Or.inr ⟨e, rest, hlist, hstate⟩)),
    fun hline => exec_answerLastByteSent hrun hline⟩

/-! ### RESET DEVICE (R169) -/

/-- RESET DEVICE taken: accepted, the device is reset pending; refused, HELD requests are passed on. -/
theorem exec_resetDevice {c : Client} {s : State} (hrun : s.runs) (hturn : s.mayReset c = true) : exec (.resetDevice c) s =
    .next (if s.resetAnswer c = .done then
        (deliver (.resetDevice c) (plain (s.resetAnswer c)) s).modLink (fun l => { l with resetPending := true })
      else (deliver (.resetDevice c) (plain (s.resetAnswer c)) s).modLink (fun l => { l with list := releaseHeld l.list })) := by
  simp only [exec, execResetDevice]
  rw [onDevice_of_runs _ hrun, if_pos hturn]

/-- With an empty list, or as its front entry WITH OWNER, RESET DEVICE is taken. -/
theorem State.mayReset_of {c : Client} {s : State} (h : s.link.list = []
    ∨ ∃ e rest, s.link.list = e :: rest ∧ e.state = .withOwner ∧ e.request = some (.resetDevice c)) : s.mayReset c = true := by
  rcases h with hempty | ⟨e, rest, hlist, hstate, hrequest⟩
  · rw [State.mayReset, hempty]
  · simp [State.mayReset, hlist, hstate, hrequest]

/-- A HELD entry passed to its owner. -/
def LinkEntry.passedOn (e : LinkEntry) : LinkEntry := if e.state = .held then { e with state := .withOwner } else e

/-- Before the first HELD RESET DEVICE every HELD entry is passed on. -/
theorem releaseHeld_append {before : List LinkEntry} (rest : List LinkEntry)
    (h : ∀ x ∈ before, x.state = .held → x.code ≠ 0x61) :
    releaseHeld (before ++ rest) = before.map LinkEntry.passedOn ++ releaseHeld rest := by
  induction before with
  | nil => rfl
  | cons x before ih =>
    obtain ⟨hx, hrest⟩ := List.forall_mem_cons.1 h
    rw [List.cons_append, releaseHeld, ih hrest, List.map_cons, List.cons_append]
    by_cases hheld : x.state = .held
    · rw [if_pos hheld, if_neg (hx hheld), LinkEntry.passedOn, if_pos hheld]
    · rw [if_neg hheld, LinkEntry.passedOn, if_neg hheld]

/-- A HELD RESET DEVICE is the last entry passed on. -/
theorem releaseHeld_cons_reset {e : LinkEntry} (after : List LinkEntry) (hstate : e.state = .held) (hcode : e.code = 0x61) :
    releaseHeld (e :: after) = { e with state := .withOwner } :: after := by
  rw [releaseHeld, if_pos hstate, if_pos hcode]

/-- Settles O13: the answer by the checks in order, then the entries up to the next HELD RESET DEVICE passed on. -/
theorem resetDeviceIsCheckedAndTaken : Obligations.ResetDeviceIsCheckedAndTaken := by
  refine ⟨fun c s hrun hturn => ?_, fun list => ⟨fun h => ?_, fun before e after hlist hbefore hstate hcode => ?_⟩⟩
  · rw [exec_resetDevice hrun (State.mayReset_of hturn), State.resetAnswer, State.anyHoldsSlot]
    by_cases hclient : c ≠ .console
    · simp only [if_pos hclient, reduceCtorEq, if_false]
    simp only [if_neg hclient]
    by_cases hslot : s.splices.any (fun p => holdsSlot p.2.state) = true
    · simp only [if_pos hslot, reduceCtorEq, if_false]
    · simp only [if_neg hslot, if_true]
  · have hpassed := releaseHeld_append [] h
    rwa [List.append_nil, releaseHeld, List.append_nil] at hpassed
  · rw [hlist, releaseHeld_append _ hbefore, releaseHeld_cons_reset after hstate hcode]
    rfl

end Sys2Proof.Machine
end

section
/-! The bytes of answers (R166, R172 to R176: AnswerBytesAreLaidOut). The fields of R172 are named once; each part of an
answer is then a list of such fields. -/

namespace Sys2Proof.Machine

/-! ### Fields of R172 -/

/-- A number in one byte. -/
def byteField (n : Nat) : List Byte := [byteOf n]

/-- A list of flags as a number, the first flag its least significant bit. -/
def bitField (l : List Bool) : Nat := l.foldr (fun b n => b.toNat + 2 * n) 0

/-- The members of a set, each as a flag. -/
theorem setBits_eq_bitField {α : Type} [DecidableEq α] (members held : List α) :
    setBits members held = bitField (members.map (fun x => decide (x ∈ held))) := setBits_eq members held

theorem presenceBits_eq (l : List Bool) : presenceBits l = byteField (bitField l) := by
  rw [presenceBits, presenceByte_eq]
  rfl

theorem bytes2_eq (n : Nat) : bytes2 n = beBytes 2 n := by
  simp [bytes2, beBytes]

theorem optStamp_eq (x : Option Stamp) : optStamp x = beBytes 4 (x.elim 0 (fun x => x.toNat)) := by
  cases x <;> rfl

theorem optStamp_some (x : Stamp) : optStamp (some x) = stampField x := rfl

theorem unsignedField_eq (size : Nat) (v : Int) :
    unsignedField size v = beBytes size (if 0 ≤ v ∧ v < (256 : Int) ^ size then v.toNat else Config.overflowField size v) := by
  unfold unsignedField
  split <;> rfl

/-- A parameter that is absent, or in its field (R172, R174). -/
theorem imageParam_eq (field : Nat → Int → List Byte) (size place : Nat) (v : Option Int) :
    imageParam field size place v = v.elim (beBytes size (if place < 3 then 0 else Config.unusedParam place)) (field size) := by
  cases v <;> rfl

/-- A parameter block, its match offset alone signed (R174). -/
theorem imageParams_eq (p : Params (Option Int)) : imageParams p = List.flatten [
    imageParam unsignedField 2 0 p.accelStart, imageParam unsignedField 2 1 p.spliceDiameter,
    imageParam unsignedField 2 2 p.lastChance, imageParam unsignedField 1 3 p.matchTolerance,
    p.matchOffset.elim (imageParam unsignedField 1 4 none) (intField 1), imageParam unsignedField 2 5 p.minSpeed,
    imageParam unsignedField 2 6 p.pasteTarget, imageParam unsignedField 2 7 p.knifeDistance] := by
  simp only [imageParams, imageParam_eq intField, List.flatten_cons, List.flatten_nil, List.append_nil, List.append_assoc]
  rfl

theorem remainingField_eq (x : Option Int) : remainingField x = x.elim (beBytes 4 0x80000000) (intField 4) := by
  cases x <;> rfl

theorem marginField_eq (x : Option Int) : marginField x = x.elim (beBytes 2 0x8000) (intField 2) := by
  cases x <;> rfl

theorem slotField_eq (x : Option SpliceRef) :
    slotField x = optField 2 0 (x.map SpliceRef.splice) ++ byteField (x.elim 0 (fun r => r.stand.val + 1)) := by
  cases x with
  | none => rfl
  | some r => rfl

/-- Numbers one after another, a byte each. -/
theorem flatMap_byteField (l : List Nat) : l.flatMap byteField = l.map byteOf := List.flatMap_pure_eq_map byteOf l

/-! ### Codes, by the place in the rule's list (R172, R173) -/

theorem widthByte_eq (x : Width) : widthByte x = byteOf ([Width.full, .threeQuarter, .half].idxOf x) := by cases x <;> rfl

theorem StarIndex.byte_eq (x : StarIndex) : [x.byte] =
    match x with
    | .settled k => byteField k.val
    | .moving => byteField 3
    | .unknown => byteField 4 := by
  cases x <;> rfl

theorem optArmByte_eq (x : Option Arm) : optArmByte x = byteOf (x.elim 0xFF (fun k => k.val)) := by cases x <;> rfl

theorem levelByte_eq (x : Option (Fin 4)) : levelByte x = byteOf (x.elim 0xFF (fun l => l.val)) := by cases x <;> rfl

theorem map_levelByte (l : List (Option (Fin 4))) :
    l.map levelByte = l.flatMap (fun x => byteField (x.elim 0xFF (fun k => k.val))) := by
  simp only [byteField, ← levelByte_eq]
  exact (List.flatMap_pure_eq_map levelByte l).symm

theorem positionByte_eq (x : Option Position) :
    positionByte x = byteOf (x.elim 0xFF (fun p => [Position.run, .splice, .load].idxOf p)) := by
  rcases x with _ | (_ | _ | _) <;> rfl

theorem locationByte_eq (x : Option (StandIx × Arm)) : locationByte x = byteOf (x.elim 0 (fun l => l.1.val + 1)) := by
  cases x <;> rfl

theorem optFolderByte_eq (x : Option FolderIx) : optFolderByte x = byteOf (x.elim 0 (fun f => f.val + 1)) := by
  cases x <;> rfl

theorem inputIx_eq (x : Input) : (inputIx x).val = [Input.reelPresent 0, .reelPresent 1, .reelPresent 2, .pasterHome,
    .pasterEngaged, .knifeHome, .webPresent, .safetyGate, .driverHot, .star].idxOf x := by
  cases x with
  | reelPresent a => revert a; decide
  | _ => rfl

theorem ReelState.byte_eq (x : ReelState) :
    x.byte = byteOf ([ReelState.floor, .mounted, .ready, .committed, .running, .butt].idxOf x) := by
  cases x <;> rfl

theorem SpliceState.byte_eq (x : SpliceState) :
    x.byte = byteOf ([SpliceState.armed, .accel, .matched, .waiting, .firing, .pasting, .cutting, .braking, .indexing,
      .spindown, .completed, .aborted, .failed].idxOf x) := by
  cases x <;> rfl

theorem Origin.byte_eq (x : Origin) : x.byte = byteOf ([Origin.console, .panel, .chain].idxOf x) := by cases x <;> rfl

theorem triggerByte_eq (x : Trigger) : triggerByte x = byteOf ([Trigger.auto, .manual].idxOf x) := by cases x <;> rfl

theorem MarkState.byte_eq (x : MarkState) : x.byte = byteOf ([MarkState.none, .onTrack, .ejected, .purged].idxOf x) := by
  cases x <;> rfl

theorem Destination.byte_eq (x : Destination) : x.byte = byteOf ([Destination.console, .panel].idxOf x) := by cases x <;> rfl

theorem ResetCause.byte_eq (x : ResetCause) : x.byte = byteOf ([ResetCause.power, .pin, .request].idxOf x) := by
  cases x <;> rfl

theorem DriveState.byte_eq (x : DriveState) : x.byte = byteOf ([DriveState.off, .pullIn, .hold].idxOf x) := by cases x <;> rfl

theorem modeByte_eq (x : Mode) : modeByte x = byteOf ([Mode.console, .localMode].idxOf x) := by cases x <;> rfl

theorem forceByte_eq (x : GateForce) : forceByte x = byteOf ([GateForce.auto, .heldOpen].idxOf x) := by cases x <;> rfl

theorem causeByte_eq (x : Option EndCause) : causeByte x = byteOf (x.elim 0 (fun c => [EndCause.indexed, .starSettledElsewhere,
    .indexTimeout, .brakeTimeout, .abortRequest, .matchTimeout, .reelLost, .starMoved, .webBreak, .paramConflict,
    .pasteNotConfirmed, .spliceNotCarried, .standReset].idxOf c + 1)) := by
  rcases x with _ | c
  · rfl
  · cases c <;> rfl

theorem Reason.byte_eq (x : Reason) : x.byte = byteOf ([Reason.notInPlan, .armOccupied, .noReelPresent, .wrongState, .notAtRun,
    .webBroken, .noRunningReel, .noReadyReel, .driverHot, .paramConflict, .notMatched].idxOf x + 1) := by
  cases x <;> rfl

/-! ### Lengths of the images (R175) -/

theorem length_settingsBlock (p : Settings) : (settingsBlock p).length = 15 := by
  simp [settingsBlock, bytes2]

theorem ReelImage.length_bytes {x : ReelImage} (h : x.reel.code.length = 11) : x.bytes.length = 56 := by
  unfold ReelImage.bytes
  simp only [List.length_append, List.length_map, List.length_cons, List.length_nil, h, length_natField,
    length_optField, length_stampField, length_optStamp, length_presenceBits]

theorem SpliceImage.length_bytes (x : SpliceImage) : x.bytes.length = 79 := by
  unfold SpliceImage.bytes
  simp only [List.length_append, List.length_cons, List.length_nil, length_natField, length_optField,
    length_stampField, length_optStamp, length_presenceBits, length_imageParams, length_remainingField]

theorem StatusEntry.length_bytes (x : StatusEntry) : x.bytes.length = 20 := by
  simp only [StatusEntry.bytes, List.length_append, List.length_cons, List.length_nil, length_natField, length_optField,
    length_stampField, length_conditionsField]

theorem StatusImage.length_bytes {x : StatusImage} (h : x.entries.length ≤ 4) : x.bytes.length = 85 := by
  simp only [StatusImage.bytes, List.length_append, List.length_cons, List.length_nil, length_slots StatusEntry.length_bytes h,
    length_presenceBits, length_maskField]

theorem SettingsImage.length_bytes (x : SettingsImage) : x.bytes.length = 61 := by
  simp only [SettingsImage.bytes, List.length_append, List.length_cons, List.length_nil, length_natField, length_imageParams,
    length_settingsBlock, length_presenceBits, length_maskField]

theorem ChangeEntry.length_bytes (x : ChangeEntry) : x.bytes.length = 7 := by
  simp only [ChangeEntry.bytes, List.length_append, List.length_cons, List.length_nil, length_natField]

theorem InputsImage.length_bytes {x : InputsImage} (hlevels : x.levels.length = 10) (hchanges : x.changes.length ≤ 10) :
    x.bytes.length = 96 := by
  simp only [InputsImage.bytes, List.length_append, List.length_map, List.length_cons, List.length_nil, length_natField, hlevels,
    length_slots ChangeEntry.length_bytes hchanges]

theorem WaitEntry.length_bytes (x : WaitEntry) : x.bytes.length = 6 := by
  simp only [WaitEntry.bytes, List.length_append, List.length_cons, List.length_nil, length_natField, length_marginField]

theorem MarkImage.length_bytes (x : MarkImage) : x.bytes.length = 14 := by
  simp only [MarkImage.bytes, List.length_append, List.length_cons, List.length_nil, length_natField, length_optField,
    length_remainingField]

theorem TrackImage.length_bytes {x : TrackImage} (hwaits : x.waits.length ≤ 12) (hmarks : x.marks.length ≤ 8) :
    x.bytes.length = 201 := by
  simp only [TrackImage.bytes, List.length_append, List.length_cons, List.length_nil, length_natField, length_beBytes,
    length_slotField, length_slots WaitEntry.length_bytes hwaits, length_slots MarkImage.length_bytes hmarks]

/-! ### The items of an image's slots (R175) -/

theorem ChangeEntry.bytes_eq : ChangeEntry.bytes = fun e =>
    List.flatten [byteField (inputIx e.input).val, byteField e.level.val, byteField e.changes, natField 4 e.last] := by
  funext e
  simp only [ChangeEntry.bytes, byteField]
  simp only [List.flatten_cons, List.flatten_nil, List.append_nil, List.cons_append, List.nil_append]

theorem WaitEntry.bytes_eq : WaitEntry.bytes = fun e => List.flatten [byteField (e.stand.val + 1), natField 2 e.splice,
    [flagByte e.matched], e.margin.elim (beBytes 2 0x8000) (intField 2)] := by
  funext e
  simp only [WaitEntry.bytes, standByte, marginField_eq, byteField]
  simp only [List.flatten_cons, List.flatten_nil, List.append_nil, List.append_assoc]

theorem MarkImage.bytes_eq : MarkImage.bytes = fun m => List.flatten [natField 2 m.splice, byteField (m.stand.val + 1),
    optField 4 0 m.path, remainingField m.remaining, [flagByte m.inWindow], natField 2 m.waste] := by
  funext m
  simp only [MarkImage.bytes, standByte, byteField]
  simp only [List.flatten_cons, List.flatten_nil, List.append_nil, List.append_assoc]

/-! ### The bytes of every answer -/

/-- Settles O12: the fields of R172 are those of the model, and each part of an answer lists its own. -/
theorem answerBytesAreLaidOut : Obligations.AnswerBytesAreLaidOut := by
  unfold Obligations.AnswerBytesAreLaidOut
  intro be one num signed optional flag stamp set parameter block present width star settled distance reelState spliceState
    reasons drive mode
  have hbe : be = beBytes := funext₂ fun size v => (beBytes_eq size v).symm
  have hone : one = byteField := rfl
  have hnum : num = natField := funext₂ fun size v => by rw [natField_eq, ← hbe]
  have hsigned : signed = intField := funext₂ fun size v => by rw [intField_eq, ← hbe]
  have hoptional : optional = optField := by
    funext size absent v
    rw [optField, ← hnum]
  have hflag : flag = fun x => [flagByte x] := funext fun x => congrArg (fun b => [b]) (flagByte_eq x).symm
  have hstamp : stamp = optStamp := funext fun x => by rw [optStamp_eq, ← hbe]
  have hset : set = bitField := rfl
  have hparameter : parameter = imageParam unsignedField := by
    funext size place v
    rw [imageParam_eq, funext (unsignedField_eq size), ← hbe]
    cases v <;> rfl
  have hblock : block = imageParams := by
    funext p
    rw [imageParams_eq, ← hparameter, ← hsigned]
  have hpresent : present = fun p => presenceBits (p.toList.map Option.isSome) := funext fun p => (presenceBits_eq _).symm
  have hwidth : width = fun x => [widthByte x] := funext fun x => congrArg (fun b => [b]) (widthByte_eq x).symm
  have hstar : star = fun x => [x.byte] := funext fun x => (StarIndex.byte_eq x).symm
  have hsettled : settled = fun x => [optArmByte x] := funext fun x => congrArg (fun b => [b]) (optArmByte_eq x).symm
  have hdistance : distance = remainingField := funext fun x => by rw [remainingField_eq, ← hbe, ← hsigned]
  have hreelState : reelState = fun x => [x.byte] := funext fun x => congrArg (fun b => [b]) (ReelState.byte_eq x).symm
  have hspliceState : spliceState = fun x => [x.byte] := funext fun x => congrArg (fun b => [b]) (SpliceState.byte_eq x).symm
  have hreasons : reasons = fun l => [reasonsByte l] := funext fun l => by rw [reasonsByte, setBits_eq_bitField]; rfl
  have hdrive : drive = fun x => [x.byte] := funext fun x => congrArg (fun b => [b]) (DriveState.byte_eq x).symm
  have hmode : mode = fun x => [modeByte x] := funext fun x => congrArg (fun b => [b]) (modeByte_eq x).symm
  clear_value be one num signed optional flag stamp set parameter block present width star settled distance reelState spliceState
    reasons drive mode
  subst hbe hone hnum hsigned hoptional hflag hstamp hset hparameter hblock hpresent hwidth hstar hsettled hdistance hreelState
    hspliceState hreasons hdrive hmode
  refine ⟨⟨rfl, rfl, rfl, by decide, fun x => ⟨rfl, congrArg (fun b => [b]) x.byte_eq⟩, fun x => rfl, rfl⟩,
    ⟨rfl, fun h => rfl, fun x l => rfl, fun n => rfl, fun n x => rfl, fun n k => ?cleared, fun a b => rfl, fun x => ?standList,
      fun x => ?device⟩,
    fun x => ⟨ReelImage.length_bytes, ?reel⟩, fun x => ⟨x.length_bytes, ?splice⟩, fun x => ⟨x.length_bytes, ?entry⟩,
    fun x hentries => ⟨StatusImage.length_bytes hentries, ?status⟩, fun x => ⟨x.length_bytes, ?settings⟩,
    fun x hlevels hchanges => ⟨InputsImage.length_bytes hlevels hchanges, ?inputs⟩,
    fun x hwaits hmarks => ⟨TrackImage.length_bytes hwaits hmarks, ?track⟩⟩
  case cleared => simp only [Payload.bytes, byteField, List.cons_append, List.nil_append]
  case' standList => simp only [Payload.bytes, StandList.bytes, handleField]
  case' device => simp only [Payload.bytes, DeviceImage.bytes, ResetCause.byte_eq, byteField, optStamp_some]
  case' reel =>
    unfold Payload.bytes ReelImage.bytes
    simp only [flatMap_byteField, locationByte_eq, reelNotesByte, setBits_eq_bitField,
      positionByte_eq, presenceBits_eq, byteField, optStamp_some]
  case' splice =>
    unfold Payload.bytes SpliceImage.bytes
    simp only [standByte, optFolderByte_eq, Origin.byte_eq, triggerByte_eq, spliceNotesByte, setBits_eq_bitField,
      MarkState.byte_eq, causeByte_eq, presenceBits_eq, byteField, optStamp_some]
  case' entry =>
    simp only [Payload.bytes, StatusEntry.bytes, Destination.byte_eq, conditionsField, allConditions, setBits_eq_bitField,
      byteField, optStamp_some]
  case' status => simp only [Payload.bytes, StatusImage.bytes, slots_eq hentries, presenceBits_eq, maskField, byteField]
  case' settings =>
    simp only [Payload.bytes, SettingsImage.bytes, settingsBlock, bytes2_eq, presenceBits_eq, maskField, byteField]
  case' inputs =>
    simp only [Payload.bytes, InputsImage.bytes, map_levelByte, slots_eq hchanges, ChangeEntry.bytes_eq, inputIx_eq, byteField]
  case' track =>
    simp only [Payload.bytes, TrackImage.bytes, forceByte_eq, slotField_eq, slots_eq hwaits, slots_eq hmarks, WaitEntry.bytes_eq,
      MarkImage.bytes_eq, byteField]
  all_goals simp only [List.flatten_cons, List.flatten_nil, List.append_nil, List.append_assoc]
  all_goals simp only [List.cons_append, List.nil_append]

end Sys2Proof.Machine
end
